-- ==== Sys2Proof/Word.lean ====
section
/-! DEFINITION. The widths of the fields on the message link and in stored images (spec/11, R197, R201), and the
numbers by which the part names its own places (spec/00 section 4.3). -/

namespace Sys2Proof

/-- One byte on the link or in a stored image. -/
abbrev Byte := BitVec 8

/-- A two-byte field. -/
abbrev Half := BitVec 16

/-- A four-byte field. -/
abbrev Word := BitVec 32

/-- An eight-byte field: the part identity and the site label. -/
abbrev Wide := BitVec 64

/-- Compartments 0 to 3 (spec/00 section 4.3). -/
abbrev CompNo := Fin 4

/-- Scan entries, and offset entries, 0 to 15. -/
abbrev EntryNo := Fin 16

/-- Contact inputs HC0 to HC7. -/
abbrev InputNo := Fin 8

/-- Consignment slots 0 to 63. -/
abbrev SlotNo := Fin 64

/-- Claim slots 0 to 7. -/
abbrev ClaimNo := Fin 8

/-- The largest 32-bit count (spec/00 section 4.2). -/
abbrev max32 : Nat := 4294967295

/-- The largest device time and the value at which the clock's two counters stop (spec/00 section 4.1). -/
abbrev maxTime : Nat := 4294967294

end Sys2Proof
end

