-- ==== Sys2Proof/Syntax.lean ====
section
/-! DEFINITION. The commands: `Instr` has one constructor for each row of spec/opcode_table.json; `Request` is a
request as Table 11-3 carries it in a frame. Operands of requests are the payload fields of Table 11-3 at their
widths, illegal codes included, because the rules say how those are refused. Operands of events say what the
part's surroundings did. -/

namespace Sys2Proof

/-- The upstream part of a CUSTODY_IN payload (R99, R200). -/
inductive Upstream where
  /-- Upstream mode NONE. -/
  | none
  /-- Upstream mode RECORD with the bytes of the proof record, 72 of them when well-formed. -/
  | record (bytes : List Byte)
  /-- Upstream mode DECLARED with the three declared figures. -/
  | declared (exposure : Word) (cycles : Half) (blind : Word)
  /-- A mode byte that names no upstream mode, and what follows it in the payload. -/
  | unnamed (mode : Byte) (rest : List Byte)
  deriving DecidableEq, Repr

/-- One character as the receiver takes it from LRX (R198). -/
inductive LineByte where
  /-- A byte with its stop bit. -/
  | good (value : Byte)
  /-- A byte that arrives with no stop bit. -/
  | noStop (value : Byte)
  deriving DecidableEq, Repr

/-- A request as the payload of its frame spells it (Table 11-3). -/
inductive Request where
  | scanEntrySet (entry address compartment role settleSteps source offset : Byte)
  | scanEntryGet (entry : Byte)
  | scanRangeSet (first last : Byte)
  | scanConfigSet (mode : Byte) (period : Half) (autoStart : Byte)
  | scanStart
  | scanHalt
  | scanStop
  | scanStatus
  | probeStatus
  | compartmentSet (compartment enabled : Byte) (threshold softLine longOpenLimit : Half)
  | compartmentGet (compartment : Byte)
  | logIntervalSet (interval : Byte)
  | hatchInputSet (input compartment sense watch member : Byte)
  | hatchConfigSet (debounceSteps bandRequired : Byte)
  | hatchStatus
  | logRead (start : Word) (count : Byte)
  | logStatus
  | custodyIn (identifier : Word) (compartment : Byte) (limit : Word) (cycleLimit : Byte) (upstream : Upstream)
  | consignmentGet (identifier : Word)
  | consignmentList (index : Word)
  | release (identifier : Word)
  | handoverLimitSet (limit : Half)
  | handoverBegin (identifier : Word)
  | handoverEnd (identifier : Word) (outcome : Byte) (receipt : Word)
  | proofFetch (identifier : Word)
  | claimOpen (reference identifier : Word)
  | claimGather (reference base : Word) (mask : Half)
  | claimAssess (reference : Word)
  | claimGet (reference : Word)
  | claimList
  | claimClose (reference : Word)
  | claimConfigSet (allowance : Word)
  | noticeEnable (mask : Word)
  | noticeClear (mask : Word)
  | noticeStatus
  | offsetErase (slot : Byte)
  | offsetProgram (slot entry value : Byte)
  | offsetRead (slot : Byte)
  | settingsSave
  | settingsStatus
  | labelSet (label : Wide)
  | timeSet (time : Word)
  | timeGet
  | identify
  | restart
  | wipe
  deriving DecidableEq, Repr

/-- The commands of spec/opcode_table.json, one constructor per row. A request row is a well-formed frame of that kind
arriving at the part, with the host's tag (R200); the other rows are events. -/
inductive Instr where
  /-- SCAN_ENTRY_SET (R1). -/
  | scanEntrySet (tag entry address compartment role settleSteps source offset : Byte)
  /-- SCAN_ENTRY_GET (R3). -/
  | scanEntryGet (tag entry : Byte)
  /-- SCAN_RANGE_SET (R5). -/
  | scanRangeSet (tag first last : Byte)
  /-- SCAN_CONFIG_SET (R6). -/
  | scanConfigSet (tag mode : Byte) (period : Half) (autoStart : Byte)
  /-- SCAN_START (R19). -/
  | scanStart (tag : Byte)
  /-- SCAN_HALT (R20). -/
  | scanHalt (tag : Byte)
  /-- SCAN_STOP (R21). -/
  | scanStop (tag : Byte)
  /-- SCAN_STATUS (R22). -/
  | scanStatus (tag : Byte)
  /-- PROBE_STATUS (R18). -/
  | probeStatus (tag : Byte)
  /-- COMPARTMENT_SET (R25). -/
  | compartmentSet (tag compartment enabled : Byte) (threshold softLine longOpenLimit : Half)
  /-- COMPARTMENT_GET (R49). -/
  | compartmentGet (tag compartment : Byte)
  /-- LOG_INTERVAL_SET (R46). -/
  | logIntervalSet (tag interval : Byte)
  /-- HATCH_INPUT_SET (R50). -/
  | hatchInputSet (tag input compartment sense watch member : Byte)
  /-- HATCH_CONFIG_SET (R52). -/
  | hatchConfigSet (tag debounceSteps bandRequired : Byte)
  /-- HATCH_STATUS (R67). -/
  | hatchStatus (tag : Byte)
  /-- LOG_READ (R88). -/
  | logRead (tag : Byte) (start : Word) (count : Byte)
  /-- LOG_STATUS (R89). -/
  | logStatus (tag : Byte)
  /-- CUSTODY_IN (R106). -/
  | custodyIn (tag : Byte) (identifier : Word) (compartment : Byte) (limit : Word) (cycleLimit : Byte) (upstream : Upstream)
  /-- CONSIGNMENT_GET (R110). -/
  | consignmentGet (tag : Byte) (identifier : Word)
  /-- CONSIGNMENT_LIST (R111). -/
  | consignmentList (tag : Byte) (index : Word)
  /-- RELEASE (R113). -/
  | release (tag : Byte) (identifier : Word)
  /-- HANDOVER_LIMIT_SET (R116). -/
  | handoverLimitSet (tag : Byte) (limit : Half)
  /-- HANDOVER_BEGIN (R118). -/
  | handoverBegin (tag : Byte) (identifier : Word)
  /-- HANDOVER_END with outcome ACCEPTED (R124). -/
  | handoverEndAccepted (tag : Byte) (identifier receipt : Word)
  /-- HANDOVER_END with outcome DISPOSED (R124). -/
  | handoverEndDisposed (tag : Byte) (identifier receipt : Word)
  /-- HANDOVER_END with outcome REFUSED (R123). -/
  | handoverEndRefused (tag : Byte) (identifier receipt : Word)
  /-- PROOF_FETCH (R131). -/
  | proofFetch (tag : Byte) (identifier : Word)
  /-- CLAIM_OPEN (R140). -/
  | claimOpen (tag : Byte) (reference identifier : Word)
  /-- CLAIM_GATHER (R145). -/
  | claimGather (tag : Byte) (reference base : Word) (mask : Half)
  /-- CLAIM_ASSESS (R149). -/
  | claimAssess (tag : Byte) (reference : Word)
  /-- CLAIM_GET (R159). -/
  | claimGet (tag : Byte) (reference : Word)
  /-- CLAIM_LIST (R160). -/
  | claimList (tag : Byte)
  /-- CLAIM_CLOSE (R161). -/
  | claimClose (tag : Byte) (reference : Word)
  /-- CLAIM_CONFIG_SET (R148). -/
  | claimConfigSet (tag : Byte) (allowance : Word)
  /-- NOTICE_ENABLE (R164). -/
  | noticeEnable (tag : Byte) (mask : Word)
  /-- NOTICE_CLEAR (R169). -/
  | noticeClear (tag : Byte) (mask : Word)
  /-- NOTICE_STATUS (R172). -/
  | noticeStatus (tag : Byte)
  /-- OFFSET_ERASE (R176). -/
  | offsetErase (tag slot : Byte)
  /-- OFFSET_PROGRAM (R177). -/
  | offsetProgram (tag slot entry value : Byte)
  /-- OFFSET_READ (R180). -/
  | offsetRead (tag slot : Byte)
  /-- SETTINGS_SAVE (R183). -/
  | settingsSave (tag : Byte)
  /-- SETTINGS_STATUS (R186). -/
  | settingsStatus (tag : Byte)
  /-- LABEL_SET (R182). -/
  | labelSet (tag : Byte) (label : Wide)
  /-- TIME_SET (R190). -/
  | timeSet (tag : Byte) (time : Word)
  /-- TIME_GET (R189). -/
  | timeGet (tag : Byte)
  /-- IDENTIFY (R187). -/
  | identify (tag : Byte)
  /-- RESTART (R195). -/
  | restart (tag : Byte)
  /-- WIPE (R196). -/
  | wipe (tag : Byte)
  /-- A request frame whose kind is not in Table 11-3 (R200). -/
  | unknownKind (kind tag : Byte) (payload : List Byte)
  /-- The next tick of the cycle timer falls (R7, R8). -/
  | cycleTimerTick
  /-- The settle time of the read in flight ends (R10). -/
  | settleExpiry
  /-- The probe answers with a raw value; `checkGood` says whether the answer's check matches its contents (R10, R11). -/
  | probeAnswer (raw : Int) (checkGood : Bool)
  /-- The 800 ms answer window ends without an answer (R10, R11). -/
  | answerWindowExpiry
  /-- The contact of an input is now made, or now broken (R53, R54). -/
  | rawChange (input : InputNo) (made : Bool)
  /-- The debounce timer of an input expires (R54, R56, R66). -/
  | debounceExpiry (input : InputNo)
  /-- The long-open timer of a compartment reaches its limit (R63). -/
  | longOpenExpiry (compartment : CompNo)
  /-- The handover timer of a slot reaches its deadline (R119, R120). -/
  | handoverLapse (slot : SlotNo)
  /-- The walk engine examines one record (R150, R151). -/
  | walkExamination
  /-- The erase in flight completes (R178). -/
  | offsetEraseComplete
  /-- The program in flight completes (R178). -/
  | offsetProgramComplete
  /-- The settings write ends; `matched` says whether the place read back matches its check (R184). -/
  | saveWriteEnd (matched : Bool)
  /-- VDD returns `absence` seconds after it failed, start-up included; `cellHeld` says whether the backup cell kept the
  clock running through the whole absence (R188, R193). -/
  | powerOn (absence : Nat) (cellHeld : Bool)
  /-- RESETN is asserted and released; `seconds` pass from the assertion to the end of start-up (R193, R194). -/
  | resetLine (seconds : Nat)
  /-- These bytes arrive on LRX, one after another without a silence (R198). -/
  | frameReceived (bytes : List LineByte)
  /-- No byte has arrived for more than 50 ms (R198). -/
  | linkSilenceTimeout
  /-- The transmitter finishes the frame it is sending (R202). -/
  | transmitEnd
  /-- A byte 0xC3 arrives on LRX (R198). -/
  | syncByte
  /-- VDD fails; `cellGood` says whether VBAT takes the clock over (R188, R193). -/
  | supplyFailure (cellGood : Bool)
  deriving DecidableEq, Repr

end Sys2Proof
end

