-- ==== Sys2Proof/Decode.lean ====
section
/-! DEFINITION. The words of the opcode table. This hardware is a block: its commands are frames and events, and no row of
spec/opcode_table.json has bits. How a request is read from a frame is `Machine.parse`. -/

namespace Sys2Proof

/-- The command a word spells by the table's bits. The table gives no row any bits, so no word spells a command. -/
def decodeTableWord (_nbits _w : Nat) : Option Instr := none

end Sys2Proof
end

