-- ==== Sys2Proof/Config.lean ====
section
/-! DEFINITION. The free values: what spec/ leaves open although the part goes on. Each is opaque, so that nothing
can be proved of its value; each has a row in notes/assumptions/. -/

namespace Sys2Proof.Config

/-- The whole seconds a start-up takes after a RESTART request (R194 measures them, no rule states them). The argument is
the state's draw counter `free`. Log entry 6. -/
opaque restartSeconds : Nat → Nat

/-- What the seconds counter holds after a supply absence through which no cell kept it: "the counter's value is
meaningless until a TIME_SET" (R188). Log entry 7. -/
opaque lostCounter : Nat → Nat

/-- Whether the place being written by a save that start-up cut off has a check that matches (R185 step 1: "its check
decides whether it is valid"). Log entry 8. -/
opaque cutOffWriteValid : Nat → Bool

/-- How the check that a place of the saved image holds after a write that was not completed or does not read back
differs from the check that would match (R183 to R185). Log entry 8. -/
opaque writeDamage : Word → Word

/-- The bytes of an absent field for which R201 names no absent marker. The argument only tells places apart.
Log entry 9. -/
opaque unstatedByte : Nat → Byte

/-- The save count in a SAVED record when there is no current place (R184, R201). Log entry 9. -/
opaque absentSaveCount : Word

end Sys2Proof.Config
end

