-- ==== Sys2Proof/Machine/State.lean ====
section
/-! DEFINITION. State: every piece of state spec/ gives the part, block by block, as plain data (INVENTORY.md lists
each with its rule and its reset value), the two reason types, and the part right after reset. -/

namespace Sys2Proof.Machine

/-! ### Times -/

/-- A time with its RELATIVE mark: device time when clear, relative time when set (R188, R201). -/
structure Stamp where
  time : Nat
  relative : Bool
  deriving DecidableEq, Repr

/-! ### Probe Scanner (spec/01) -/

/-- Role of a scan entry (Table 1-2). -/
inductive Role where
  | exposure
  | watch
  deriving DecidableEq, Repr

/-- Where a calibration offset comes from (Table 1-2). -/
inductive OffsetSource where
  | none
  | slotA
  | slotB
  | message
  deriving DecidableEq, Repr

/-- A scan list entry (R1, Table 1-2). `compartment` none is NONE; the settle time is kept as its count of 10 ms steps. -/
structure ScanEntry where
  address : Nat
  compartment : Option CompNo
  role : Role
  settleSteps : Nat
  source : OffsetSource
  message : Int
  deriving DecidableEq, Repr

/-- The scan entry of Table 1-4. -/
def ScanEntry.default : ScanEntry := ⟨0, none, .exposure, 0, .none, 0⟩

/-- A scan range (R4). -/
structure ScanRange where
  first : EntryNo
  last : EntryNo
  deriving DecidableEq, Repr

/-- Scan mode (R6). -/
inductive ScanMode where
  | continuous
  | single
  deriving DecidableEq, Repr

/-- Scanner state (Table 1-1). -/
inductive ScanState where
  | stopped
  | waiting
  | reading
  | halting
  deriving DecidableEq, Repr

/-- Last cycle ending (R22). -/
inductive CycleEnding where
  | none
  | complete
  | halted
  | aborted
  deriving DecidableEq, Repr

/-- Outcome held by a row of the readings table (R16). -/
inductive ReadOutcome where
  | none
  | valid
  | noAnswer
  | badCheck
  | outOfRange
  | skipped
  deriving DecidableEq, Repr

/-- A row of the readings table (R16). -/
structure Reading where
  outcome : ReadOutcome
  value : Option Int
  stamp : Option Stamp
  source : Option OffsetSource
  blankOffset : Bool
  deriving DecidableEq, Repr

/-- The row start-up leaves (R23). -/
def Reading.cleared : Reading := ⟨.none, none, none, none, false⟩

/-- One completed entry of the cycle set, with the compartment and role it was read under (R9, R11, R12). -/
structure CycleItem where
  entry : EntryNo
  outcome : ReadOutcome
  value : Option Int
  compartment : Option CompNo
  role : Role
  deriving DecidableEq, Repr

/-- The parts of a probe read that take time (R10). -/
inductive ReadPhase where
  /-- The settle time runs. -/
  | settling
  /-- The convert command has gone out and the answer window is open. -/
  | exchanging
  deriving DecidableEq, Repr

/-- The read in flight: its entry and that entry's fields as they stood when it became current (R2). -/
structure ReadInFlight where
  entry : EntryNo
  fields : ScanEntry
  phase : ReadPhase
  deriving DecidableEq, Repr

/-- The Probe Scanner (spec/01). `tickIn` is the cycle timer: the seconds until its next tick (R7). -/
structure Scanner where
  entries : Vector ScanEntry 16
  range : ScanRange
  pendingRange : Option ScanRange
  mode : ScanMode
  period : Nat
  autoStart : Bool
  state : ScanState
  read : Option ReadInFlight
  cycleSet : List CycleItem
  completed : Option EntryNo
  lastEnding : CycleEnding
  overruns : Nat
  rows : Vector Reading 16
  failures : Vector Nat 16
  faults : Vector Bool 16
  tickIn : Nat
  deriving DecidableEq, Repr

/-! ### Compartment Monitor (spec/02) -/

/-- What the part knows of a compartment's temperature (Table 2-1). -/
inductive Knowledge where
  | unknown
  | live
  | holding
  | blind
  deriving DecidableEq, Repr

/-- Band (Table 2-1). -/
inductive Band where
  | unset
  | cold
  | warm
  deriving DecidableEq, Repr

/-- The sample interval accumulator (R42). -/
structure Interval where
  start : Nat
  last : Nat
  steps : Nat
  live : Nat
  held : Nat
  sum : Int
  count : Nat
  minimum : Option Int
  maximum : Option Int
  increment : Nat
  blind : Nat
  watchMax : Option Int
  relative : Bool
  deriving DecidableEq, Repr

/-- An empty interval opening at a time (R42). -/
def Interval.opening (t : Stamp) : Interval :=
  ⟨t.time, t.time, 0, 0, 0, 0, 0, none, none, 0, 0, none, t.relative⟩

/-- The four settings of a compartment (R24, Table 2-1). -/
structure CompSettings where
  enabled : Bool
  threshold : Int
  softLine : Int
  longOpenLimit : Nat
  deriving DecidableEq, Repr

/-- A compartment record (R24, Table 2-1). -/
structure Compartment where
  settings : CompSettings
  knowledge : Knowledge
  band : Band
  held : Option Int
  misses : Nat
  lastStep : Stamp
  interval : Interval
  deriving DecidableEq, Repr

/-! ### Hatch Contact Monitor (spec/03) -/

/-- Which contact level means OPEN (Table 3-2). -/
inductive Sense where
  | openOnBreak
  | openOnMake
  deriving DecidableEq, Repr

/-- Which condition an input raises (Table 3-2). -/
inductive Watch where
  | off
  | change
  | openLevel
  deriving DecidableEq, Repr

/-- Debounced state of an input (Table 3-1). -/
inductive Settled where
  | unsettled
  | shut
  | opened
  deriving DecidableEq, Repr

/-- The four settings of a contact input (R50, Table 3-2). -/
structure InputSettings where
  compartment : Option CompNo
  sense : Sense
  watch : Watch
  member : Bool
  deriving DecidableEq, Repr

/-- The input settings of Table 3-2. -/
def InputSettings.default : InputSettings := ⟨none, .openOnBreak, .off, false⟩

/-- A contact input: its settings, the level of its pin (`made` is continuity), its debounced state, its debounce timer
with the length it started with in 10 ms steps, and its bounce count (R50, R53, R54). -/
structure ContactInput where
  settings : InputSettings
  made : Bool
  settled : Settled
  timer : Option Nat
  bounces : Nat
  deriving DecidableEq, Repr

/-- Opening state of a compartment (R59). -/
inductive OpeningState where
  | shut
  | opening
  | openAtStart
  deriving DecidableEq, Repr

/-- Long-open timer of a compartment (Table 3-1, R63). -/
inductive LongTimer where
  | stopped
  | running
  | expired
  deriving DecidableEq, Repr

/-- The opening of a compartment: state, opening start, seconds elapsed since it began, long-open timer (R59, R60, R63).
-/
structure Opening where
  state : OpeningState
  start : Option Stamp
  elapsed : Nat
  timer : LongTimer
  deriving DecidableEq, Repr

/-- A compartment that is SHUT (R66). -/
def Opening.shut : Opening := ⟨.shut, none, 0, .stopped⟩

/-- The Hatch Contact Monitor (Table 3-1). -/
structure HatchMonitor where
  inputs : Vector ContactInput 8
  openings : Vector Opening 4
  debounceSteps : Nat
  bandRequired : Bool
  patternTruth : Bool
  deriving DecidableEq, Repr

/-! ### Small names shared by the record bodies -/

/-- Compartment change in a HATCH record (R57). -/
inductive OpeningChange where
  | opened
  | closed
  | none
  deriving DecidableEq, Repr

/-- Upstream mode of a consignment (R99). -/
inductive UpstreamMode where
  | none
  | record
  | declared
  deriving DecidableEq, Repr

/-- Outcome of an ended custody (R122). -/
inductive Outcome where
  | accepted
  | disposed
  deriving DecidableEq, Repr

/-- Reason of a HANDOVER_ABANDON record (R127). -/
inductive AbandonReason where
  | refused
  | lapsed
  | power
  deriving DecidableEq, Repr

/-- Action of a CLAIM record (Table 4-3). -/
inductive ClaimAction where
  | opened
  | assessed
  | closed
  deriving DecidableEq, Repr

/-- Verdict of an assessment (R156). -/
inductive Verdict where
  | upstream
  | inCustody
  | inCustodyCycles
  | undetermined
  | within
  deriving DecidableEq, Repr

/-- Evidence grade of an assessment (R155). -/
inductive Evidence where
  | complete
  | partly
  deriving DecidableEq, Repr

/-- Kind of time setting (Table 4-3). -/
inductive TimeSetting where
  | fromUnset
  | trim
  deriving DecidableEq, Repr

/-- Reason of a start-up (Table 4-3). -/
inductive StartReason where
  | powerOn
  | resetLine
  | restart
  deriving DecidableEq, Repr

/-- Clock state (Table 10-1). -/
inductive ClockState where
  | valid
  | unset
  deriving DecidableEq, Repr

/-- Calibration slot (R174). -/
inductive CalSlot where
  | slotA
  | slotB
  deriving DecidableEq, Repr

/-- State of a calibration entry (R174). -/
inductive OffsetEntry where
  | blank
  | programming
  | programmed (value : Int)
  deriving DecidableEq, Repr

/-- Last save result (R183). -/
inductive SaveResult where
  | none
  | done
  | failed
  | interrupted
  deriving DecidableEq, Repr

/-! ### Custody Log (spec/04) -/

/-- Body of a SAMPLE record (R43, Table 11-5). -/
structure SampleBody where
  span : Nat
  minimum : Option Int
  maximum : Option Int
  mean : Option Int
  increment : Nat
  blind : Nat
  live : Nat
  held : Nat
  watchMax : Option Int
  deriving DecidableEq, Repr

/-- Body of a COARSE record (R85). -/
structure CoarseBody where
  spanStart : Nat
  minimum : Option Int
  maximum : Option Int
  mean : Option Int
  increment : Nat
  blind : Nat
  merged : Nat
  deriving DecidableEq, Repr

/-- The reason of a CONFIG record with the settings that reason carries (Table 4-3 note 1). -/
inductive ConfigChange where
  | compartment (enabled : Bool) (threshold softLine : Int)
  | interval (steps : Nat)
  | hatchInput (input : InputNo) (settings : InputSettings)
  | hatchPart (debounceSteps : Nat) (bandRequired : Bool)
  | handover (limit : Nat)
  | claim (allowance : Nat)
  | notice (enables : Vector Bool 18)
  | offset (slot : CalSlot) (entry : Option EntryNo) (state : OffsetEntry)
  | label (label : Wide)
  | saved (result : SaveResult) (count : Option Word)
  | defaulted
  deriving DecidableEq, Repr

/-- The kinds of log record with their body fields (R69, Table 4-3). -/
inductive Body where
  | sample (body : SampleBody)
  | coarse (body : CoarseBody)
  | hatch (input : InputNo) (state : Settled) (change : OpeningChange)
  | claim (action : ClaimAction) (reference identifier : Word) (heldStart : Nat) (windowEnd : Option Nat)
      (result : Option (Verdict × Evidence))
  | time (previous : Stamp) (new : Nat) (setting : TimeSetting)
  | power (reason : StartReason) (gap : Option Nat) (clock : ClockState) (abandoned : Nat)
  | config (change : ConfigChange)
  | gap (since : Option Stamp) (hatchLost claimLost otherLost custodyLost : Nat)
  | custodyIn (identifier : Word) (slot : SlotNo) (mode : UpstreamMode) (carriedExposure carriedCycles limit cycleLimit : Nat)
  | handoverBegin (identifier : Word) (slot : SlotNo) (deadline : Nat)
  | custodyOut (identifier : Word) (slot : SlotNo) (outcome : Outcome) (receipt : Word) (exposure cycles : Nat)
      (limitCrossed logDeferred declared : Bool)
  | handoverAbandon (identifier : Word) (slot : SlotNo) (reason : AbandonReason) (refusals : Nat)
  deriving DecidableEq, Repr

/-- A record as a block hands it to the log (R68). For a SAMPLE the interval's exact temperature sum and count come with
it (R80). -/
structure Entry where
  stamp : Stamp
  compartment : Option CompNo
  body : Body
  tempSum : Int := 0
  tempCount : Nat := 0
  deriving DecidableEq, Repr

/-- A record in the log (R68, Table 4-2). -/
structure LogRecord where
  sequence : Nat
  stamp : Stamp
  compartment : Option CompNo
  body : Body
  chain : Word
  deriving DecidableEq, Repr

/-- A hold: its window runs from `start` to `stop`, or to the newest record when `stop` is none (OPEN) (R74). -/
structure Hold where
  start : Nat
  stop : Option Nat
  deriving DecidableEq, Repr

/-- A coarse accumulator that is not empty (R80). -/
structure Coarse where
  spanStart : Nat
  last : Nat
  minimum : Option Int
  maximum : Option Int
  sum : Int
  count : Nat
  increment : Nat
  blind : Nat
  merged : Nat
  relative : Bool
  deriving DecidableEq, Repr

/-- The Custody Log (Table 4-1). `records` runs from the oldest to the newest; `heldSince` is the held-full start time;
hold i belongs to claim slot i; coarse accumulator c, empty when none, to compartment c. -/
structure Log where
  records : List LogRecord
  nextSeq : Nat
  chain : Word
  holds : Vector (Option Hold) 8
  heldFull : Bool
  heldSince : Option Stamp
  ended : Bool
  coarse : Vector (Option Coarse) 4
  hatchLost : Nat
  claimLost : Nat
  otherLost : Nat
  custodyLost : Nat
  deriving DecidableEq, Repr

/-! ### Custody Table (spec/05, spec/06) -/

/-- Slot states (Table 5-1). -/
inductive SlotState where
  | empty
  | inCustody
  | handingOver
  | handedOver
  deriving DecidableEq, Repr

/-- The upstream fields of a slot taken in RECORD mode (R103). -/
structure UpstreamFields where
  issuer : Wide
  chain : Word
  outTime : Nat
  declared : Bool
  logDeferred : Bool
  disposed : Bool
  deriving DecidableEq, Repr

/-- Handover start and deadline; its timer runs exactly while they are present (R118, R119). -/
structure Handover where
  start : Nat
  deadline : Nat
  deriving DecidableEq, Repr

/-- The custody-out fields (R124). -/
structure CustodyOut where
  time : Nat
  sequence : Nat
  receipt : Word
  outcome : Outcome
  deriving DecidableEq, Repr

/-- A consignment slot (R92, Table 5-2). -/
structure Slot where
  identifier : Word
  compartment : CompNo
  state : SlotState
  inTime : Nat
  inSeq : Nat
  limit : Nat
  cycleLimit : Nat
  mode : UpstreamMode
  carriedExposure : Nat
  carriedCycles : Nat
  carriedBlind : Nat
  upstream : Option UpstreamFields
  exposure : Nat
  cycles : Nat
  openings : Nat
  openingSeconds : Nat
  covered : Nat
  blind : Nat
  lastAccounted : Nat
  refusals : Nat
  handover : Option Handover
  out : Option CustodyOut
  proof : Option (List Byte)
  limitCrossed : Bool
  logDeferred : Bool
  declared : Bool
  openClaims : Nat
  deriving DecidableEq, Repr

/-- The EMPTY slot (R93). -/
def Slot.blank : Slot :=
  { identifier := 0, compartment := 0, state := .empty, inTime := 0, inSeq := 0, limit := 0, cycleLimit := 0, mode := .none,
    carriedExposure := 0, carriedCycles := 0, carriedBlind := 0, upstream := none, exposure := 0, cycles := 0, openings := 0,
    openingSeconds := 0, covered := 0, blind := 0, lastAccounted := 0, refusals := 0, handover := none, out := none,
    proof := none, limitCrossed := false, logDeferred := false, declared := false, openClaims := 0 }

/-! ### Claim Unit (spec/07) -/

/-- The open-interval increment of a snapshot with its interval's RELATIVE flag (R149). -/
structure OpenIncrement where
  increment : Nat
  relative : Bool
  deriving DecidableEq, Repr

/-- The snapshot of an assessment (R149). -/
structure Snapshot where
  state : SlotState
  compartment : CompNo
  carriedExposure : Nat
  exposure : Nat
  carriedCycles : Nat
  cycles : Nat
  blind : Nat
  openings : Nat
  limit : Nat
  cycleLimit : Nat
  limitCrossed : Bool
  logDeferred : Bool
  declared : Bool
  stop : Nat
  openIncrement : Option OpenIncrement
  allowance : Nat
  time : Stamp
  deriving DecidableEq, Repr

/-- Crossing place, with the crossing sequence and time when it is RECORD (R153). -/
inductive Crossing where
  | carriedIn
  | record (sequence time : Nat)
  | openInterval
  | unplaced
  | none
  deriving DecidableEq, Repr

/-- A walk: position, records examined, and what it has found (R150 to R154). -/
structure Walk where
  position : Nat
  examined : Nat
  sum : Nat
  clean : Bool
  crossing : Crossing
  openings : Nat
  gaps : Nat
  deriving DecidableEq, Repr

/-- The results of an assessment (Table 7-2, R157). -/
structure Results where
  evidence : Evidence
  verdict : Verdict
  crossing : Crossing
  recomputed : Nat
  openings : Nat
  gaps : Nat
  deriving DecidableEq, Repr

/-- The states of an open claim with what each keeps (Table 7-1, Table 7-2). -/
inductive ClaimPhase where
  | opened
  | assessing (snapshot : Snapshot) (walk : Walk)
  | assessed (snapshot : Snapshot) (results : Results)
  deriving DecidableEq, Repr

/-- An open claim (R135). Its window end is that of its hold in the log. -/
structure Claim where
  reference : Word
  identifier : Word
  slot : SlotNo
  requestedStart : Nat
  heldStart : Nat
  openedAt : Stamp
  phase : ClaimPhase
  deriving DecidableEq, Repr

/-- The Claim Unit: a slot that is none is FREE; `queue` is the walk queue, its head being the claim walked (R150);
`allowance` is the blind allowance (R148). -/
structure ClaimUnit where
  slots : Vector (Option Claim) 8
  queue : List ClaimNo
  allowance : Nat
  deriving DecidableEq, Repr

/-! ### Notice Unit (spec/08) -/

/-- The eighteen conditions (Table 8-1). -/
inductive Condition where
  | pattern
  | exposureLimit
  | blind
  | longOpen
  | handoverLapsed
  | logHeld
  | probeFault
  | clockLost
  | hatch (input : InputNo)
  | assessDone
  | storeDone
  deriving DecidableEq, Repr

/-- The Notice Unit; place k of each vector is the condition of priority k + 1. `fresh` marks the members that joined
since the content of the previous notice was taken (R168). -/
structure NoticeUnit where
  enables : Vector Bool 18
  members : Vector Bool 18
  fresh : Vector Bool 18
  counts : Vector Nat 18
  owed : Bool
  lastNumber : Nat
  alert : Bool
  deriving DecidableEq, Repr

/-! ### Offset Store and Settings Store (spec/09) -/

/-- An operation of the Offset Store (R175). -/
inductive StoreOp where
  | erase (slot : CalSlot)
  | program (slot : CalSlot) (entry : EntryNo) (value : Int)
  deriving DecidableEq, Repr

/-- Result of the last operation of the Offset Store (R175). -/
inductive StoreResult where
  | none
  | done
  | interrupted
  deriving DecidableEq, Repr

/-- The Offset Store: `running` none is IDLE (R174, R175). -/
structure OffsetStore where
  slotA : Vector OffsetEntry 16
  slotB : Vector OffsetEntry 16
  running : Option StoreOp
  lastOp : Option StoreOp
  lastResult : StoreResult
  deriving DecidableEq, Repr

/-- The working configuration (R181, Table 9-2). -/
structure WorkingConfig where
  entries : Vector ScanEntry 16
  range : ScanRange
  mode : ScanMode
  period : Nat
  autoStart : Bool
  comps : Vector CompSettings 4
  logInterval : Nat
  inputs : Vector InputSettings 8
  debounceSteps : Nat
  bandRequired : Bool
  handoverLimit : Nat
  allowance : Nat
  enables : Vector Bool 18
  label : Wide
  deriving DecidableEq, Repr

/-- The defaults of Table 9-2. -/
def WorkingConfig.default : WorkingConfig :=
  { entries := Vector.replicate 16 .default, range := ⟨0, 15⟩, mode := .continuous, period := 10, autoStart := true,
    comps := Vector.ofFn fun c => ⟨c == 0, -1800, -1200, 120⟩, logInterval := 6, inputs := Vector.replicate 8 .default,
    debounceSteps := 5, bandRequired := false, handoverLimit := 300, allowance := 0, enables := Vector.replicate 18 true,
    label := 0 }

/-- A place of the saved image: the image, its save count, and the image check it holds (R183). -/
structure Place where
  image : WorkingConfig
  count : Word
  check : Word
  deriving DecidableEq, Repr

/-- A save in flight: the captured image, its save count and the place written, 0 when `toZero` (R183). -/
structure Saving where
  image : WorkingConfig
  count : Word
  toZero : Bool
  deriving DecidableEq, Repr

/-- Image source at the last start-up (R185). -/
inductive ImageSource where
  | saved
  | defaulted
  deriving DecidableEq, Repr

/-- The Settings Store: `saving` none is save state IDLE (R183). -/
structure SettingsStore where
  place0 : Place
  place1 : Place
  saving : Option Saving
  lastResult : SaveResult
  source : ImageSource
  deriving DecidableEq, Repr

/-! ### Device Clock (spec/10) -/

/-- The Device Clock (Table 10-1). -/
structure DeviceClock where
  state : ClockState
  counter : Nat
  lastValid : Nat
  uptime : Nat
  deriving DecidableEq, Repr

/-! ### Message Link (spec/11) -/

/-- A frame, less its sync byte, length and check, which `Frame.wire` forms (R197). -/
structure Frame where
  kind : Byte
  tag : Byte
  payload : List Byte
  deriving DecidableEq, Repr

/-- Receiver state with the frame in assembly: the bytes since the sync byte (Table 11-1). -/
inductive Receiver where
  | hunting
  | inFrame (bytes : List Byte)
  deriving DecidableEq, Repr

/-- Transmitter state (Table 11-1). -/
inductive Transmitter where
  | idle
  | sendingReply (frame : Frame)
  | sendingNotice (frame : Frame)
  deriving DecidableEq, Repr

/-- The four link counts (R204). -/
structure LinkCounts where
  length : Nat
  check : Nat
  silence : Nat
  overflow : Nat
  deriving DecidableEq, Repr

/-- The Message Link (Table 11-1). `sent` is the model's own: the frames that have left on LTX whole, oldest first. -/
structure Link where
  receiver : Receiver
  queue : List Frame
  transmitter : Transmitter
  reply : Option Frame
  counts : LinkCounts
  sent : List Frame
  deriving DecidableEq, Repr

/-! ### The whole part -/

/-- Whether VDD is present (Table 0-3, R193). -/
inductive Power where
  | on
  | off
  deriving DecidableEq, Repr

/-- The part. `pending` is the queue of commands waiting, first in, first out; `free` is the model's own draw counter for
free values (Config). -/
structure State where
  pending : List Instr
  power : Power
  scan : Scanner
  comps : Vector Compartment 4
  logInterval : Nat
  hatch : HatchMonitor
  log : Log
  slots : Vector Slot 64
  handoverLimit : Nat
  claims : ClaimUnit
  notices : NoticeUnit
  offsets : OffsetStore
  settings : SettingsStore
  label : Wide
  clock : DeviceClock
  link : Link
  identity : Wide
  free : Nat
  deriving DecidableEq, Repr

/-- Reasons a step stops with a fault. There are none: no rule of spec/ makes the part stop at a command. -/
inductive Fault where
  deriving DecidableEq, Repr

/-- Reasons a step is refused by the model. -/
inductive Refusal where
  /-- Raised by `exec` alone, for a row that has no meaning yet; safe: nothing can be proved of such a command. No arm
  raises it now. -/
  | notModelled (mnemonic : String)
  deriving DecidableEq, Repr

/-! ### Named updates, one for each field -/

def State.withPending (s : State) (x : List Instr) : State := { s with pending := x }
def State.withPower (s : State) (x : Power) : State := { s with power := x }
def State.withScan (s : State) (x : Scanner) : State := { s with scan := x }
def State.withComps (s : State) (x : Vector Compartment 4) : State := { s with comps := x }
def State.withLogInterval (s : State) (x : Nat) : State := { s with logInterval := x }
def State.withHatch (s : State) (x : HatchMonitor) : State := { s with hatch := x }
def State.withLog (s : State) (x : Log) : State := { s with log := x }
def State.withSlots (s : State) (x : Vector Slot 64) : State := { s with slots := x }
def State.withHandoverLimit (s : State) (x : Nat) : State := { s with handoverLimit := x }
def State.withClaims (s : State) (x : ClaimUnit) : State := { s with claims := x }
def State.withNotices (s : State) (x : NoticeUnit) : State := { s with notices := x }
def State.withOffsets (s : State) (x : OffsetStore) : State := { s with offsets := x }
def State.withSettings (s : State) (x : SettingsStore) : State := { s with settings := x }
def State.withLabel (s : State) (x : Wide) : State := { s with label := x }
def State.withClock (s : State) (x : DeviceClock) : State := { s with clock := x }
def State.withLink (s : State) (x : Link) : State := { s with link := x }
def State.withFree (s : State) (x : Nat) : State := { s with free := x }

/-! ### Right after reset -/

/-- The log after the first start-up: the two records R193 hands to the empty log of manufacture. -/
def Log.first : Log :=
  { records :=
      [{ sequence := 1, stamp := ⟨0, true⟩, compartment := none, body := .config .defaulted, chain := 0xD251AC4D },
        { sequence := 2, stamp := ⟨0, true⟩, compartment := none, body := .power .powerOn none .unset 0, chain := 0x0745749A }]
    nextSeq := 3, chain := 0x0745749A, holds := Vector.replicate 8 none, heldFull := false, heldSince := none, ended := false,
    coarse := Vector.replicate 4 none, hatchLost := 0, claimLost := 0, otherLost := 0, custodyLost := 0 }

/-- The first notice: number 1, CLOCK_LOST pending, highest and new, raised once, at relative time 0 (R168). -/
def Frame.firstNotice : Frame :=
  ⟨0xFE, 0, [1, 0x80, 0, 0, 0, 7, 0x80, 0, 0, 0, 1, 1, 0, 0, 0, 0, 1]⟩

/-- The place of CLOCK_LOST alone among the eighteen (R164). -/
def clockLostOnly {α : Type} (yes no : α) : Vector α 18 := Vector.ofFn fun k => if k.val = 7 then yes else no

/-- The part at the end of the first start-up, POWER_ON, of a part as it left manufacture: clock UNSET, log with its
CONFIG DEFAULTED and POWER records, CLOCK_LOST pending and its notice being sent, the defaults of Table 9-2 in force,
the first tick 10 s away (R193). The Settings Store is IDLE with last save result NONE, and the Offset Store has no last
operation. Log entry 5. -/
def State.reset : State :=
  { pending := []
    power := .on
    scan :=
      { entries := Vector.replicate 16 .default, range := ⟨0, 15⟩, pendingRange := none, mode := .continuous, period := 10,
        autoStart := true, state := .waiting, read := none, cycleSet := [], completed := none, lastEnding := .none,
        overruns := 0, rows := Vector.replicate 16 .cleared, failures := Vector.replicate 16 0,
        faults := Vector.replicate 16 false, tickIn := 10 }
    comps := Vector.ofFn fun c =>
      { settings := ⟨c == 0, -1800, -1200, 120⟩, knowledge := .unknown, band := .unset, held := none, misses := 0,
        lastStep := ⟨0, true⟩, interval := .opening ⟨0, true⟩ }
    logInterval := 6
    hatch :=
      { inputs := Vector.replicate 8 ⟨.default, true, .unsettled, some 5, 0⟩, openings := Vector.replicate 4 .shut,
        debounceSteps := 5, bandRequired := false, patternTruth := false }
    log := .first
    slots := Vector.replicate 64 .blank
    handoverLimit := 300
    claims := ⟨Vector.replicate 8 none, [], 0⟩
    notices :=
      { enables := Vector.replicate 18 true, members := clockLostOnly true false, fresh := Vector.replicate 18 false,
        counts := clockLostOnly 1 0, owed := false, lastNumber := 1, alert := true }
    offsets := ⟨Vector.replicate 16 .blank, Vector.replicate 16 .blank, none, none, .none⟩
    settings := ⟨⟨.default, 0, 0⟩, ⟨.default, 0, 0⟩, none, .none, .defaulted⟩
    label := 0
    clock := ⟨.unset, 0, 0, 0⟩
    link := ⟨.hunting, [], .sendingNotice .firstNotice, none, ⟨0, 0, 0, 0⟩, []⟩
    identity := 0
    free := 1 }

end Sys2Proof.Machine
end

