-- ==== Sys2Proof/Machine/Ops.lean ====
section
/-! DEFINITION. The named operations shared by the blocks: saturating counts, the part's tables, the time of a stamp, and
the passing of seconds. -/

namespace Sys2Proof.Machine

/-! ### Saturating counts (spec/00 section 4.2) -/

/-- A 32-bit count stops at its largest value. -/
def sat32 (n : Nat) : Nat := min n max32

/-- A 16-bit count stops at 65 535. -/
def sat16 (n : Nat) : Nat := min n 65535

/-- An 8-bit count stops at 255. -/
def sat8 (n : Nat) : Nat := min n 255

/-- A time stops at the largest device time (spec/00 section 4.1). -/
def satTime (n : Nat) : Nat := min n maxTime

/-- A setting outside its range is replaced by the nearest end of the range (spec/00 section 4.7). -/
def clamp (lo hi n : Nat) : Nat := max lo (min n hi)

/-! ### Tables -/

/-- Write one place of a table. -/
def setAt {α : Type} {n : Nat} (v : Vector α n) (i : Fin n) (x : α) : Vector α n := v.set i.val x i.isLt

/-- Change one place of a table. -/
def updAt {α : Type} {n : Nat} (v : Vector α n) (i : Fin n) (f : α → α) : Vector α n := setAt v i (f v[i])

/-- Change every place of a table. -/
def mapAll {α β : Type} {n : Nat} (f : α → β) (v : Vector α n) : Vector β n := Vector.ofFn fun i => f v[i]

/-- The places of a table in ascending order. -/
def places (n : Nat) : List (Fin n) := List.finRange n

/-- Whether some place of a table satisfies a test. -/
def anyAt {α : Type} {n : Nat} (v : Vector α n) (p : α → Bool) : Bool := (places n).any fun i => p v[i]

/-- How many places of a table satisfy a test. -/
def countAt {α : Type} {n : Nat} (v : Vector α n) (p : α → Bool) : Nat := (places n).countP fun i => p v[i]

/-- The lowest place that satisfies a test. -/
def lowest {α : Type} {n : Nat} (v : Vector α n) (p : α → Bool) : Option (Fin n) := (places n).find? fun i => p v[i]

/-- Replace one compartment record. -/
def State.setComp (s : State) (c : CompNo) (x : Compartment) : State := s.withComps (setAt s.comps c x)

/-- Replace one consignment slot. -/
def State.setSlot (s : State) (i : SlotNo) (x : Slot) : State := s.withSlots (setAt s.slots i x)

/-- Replace one claim slot; none frees it. -/
def State.setClaim (s : State) (i : ClaimNo) (x : Option Claim) : State :=
  s.withClaims { s.claims with slots := setAt s.claims.slots i x }

/-- Replace one contact input. -/
def State.setInput (s : State) (i : InputNo) (x : ContactInput) : State :=
  s.withHatch { s.hatch with inputs := setAt s.hatch.inputs i x }

/-- Replace the opening of one compartment. -/
def State.setOpening (s : State) (c : CompNo) (x : Opening) : State :=
  s.withHatch { s.hatch with openings := setAt s.hatch.openings c x }

/-! ### The clock's readings (R188) -/

/-- Whether the Device Clock is VALID. -/
def State.timed (s : State) : Bool := s.clock.state == .valid

/-- The time by which the part stamps: device time when VALID, relative time, the uptime counter, when UNSET. -/
def State.now (s : State) : Nat := if s.timed then s.clock.counter else s.clock.uptime

/-- The present time with its RELATIVE mark. -/
def State.stampNow (s : State) : Stamp := ⟨s.now, !s.timed⟩

/-! ### Slots in custody (R93) -/

/-- A slot is in custody while it is IN_CUSTODY or HANDING_OVER. -/
def Slot.inCustody (x : Slot) : Bool := x.state == .inCustody || x.state == .handingOver

/-- A slot in custody that names compartment c. -/
def Slot.heldIn (c : CompNo) (x : Slot) : Bool := x.inCustody && x.compartment == c

/-- Change every slot in custody in a compartment. -/
def State.updHeldIn (s : State) (c : CompNo) (f : Slot → Slot) : State :=
  s.withSlots (mapAll (fun x => if x.heldIn c then f x else x) s.slots)

/-- The non-EMPTY slot that holds an identifier (R96). -/
def State.slotOf (s : State) (identifier : Word) : Option SlotNo :=
  lowest s.slots fun x => x.state != .empty && x.identifier == identifier

/-- The total exposure: carried-in plus custody exposure (R95). -/
def Slot.totalExposure (x : Slot) : Nat := sat32 (x.carriedExposure + x.exposure)

/-- The total cycles: carried-in plus custody cycles (R110, R128). -/
def Slot.totalCycles (x : Slot) : Nat := sat16 (x.carriedCycles + x.cycles)

/-- The blind credit of a slot up to a time (R94, R190 step 3, R194). -/
def Slot.creditGap (t : Nat) (x : Slot) : Slot :=
  { x with blind := sat32 (x.blind + (t - x.lastAccounted)), lastAccounted := t }

/-! ### The passing of seconds -/

/-- The seconds that pass for an opening in progress (R63, R67). -/
def Opening.elapse (n : Nat) (o : Opening) : Opening :=
  if o.state = .opening then { o with elapsed := sat32 (o.elapsed + n) } else o

/-- The Device Clock as `n` seconds pass with VDD present (R188). -/
def DeviceClock.elapse (n : Nat) (k : DeviceClock) : DeviceClock :=
  { k with
    counter := satTime (k.counter + n)
    lastValid := if k.state = .valid then satTime (k.counter + n) else k.lastValid
    uptime := satTime (k.uptime + n) }

/-- `n` seconds pass with VDD present: the clock and the uptime advance, openings in progress grow longer and the cycle
timer runs down (R7, R63, R188). The seconds of a supply absence are the operand of POWER_ON. -/
def State.elapse (n : Nat) (s : State) : State :=
  { s with
    clock := s.clock.elapse n
    hatch := { s.hatch with openings := mapAll (Opening.elapse n) s.hatch.openings }
    scan := { s.scan with tickIn := s.scan.tickIn - n } }

end Sys2Proof.Machine
end

