-- ==== Sys2Proof/Machine/Bytes.lean ====
section
/-! DEFINITION. Bytes: little-endian fields, absent markers and the two cyclic redundancy checks (spec/00 section 4.4,
R72, R197, R201). -/

namespace Sys2Proof.Machine

/-! ### Little-endian fields -/

/-- A one-byte field. -/
def le8 (n : Nat) : List Byte := [BitVec.ofNat 8 n]

/-- A two-byte field. -/
def le16 (n : Nat) : List Byte := [BitVec.ofNat 8 n, BitVec.ofNat 8 (n / 256)]

/-- A four-byte field. -/
def le32 (n : Nat) : List Byte :=
  [BitVec.ofNat 8 n, BitVec.ofNat 8 (n / 256), BitVec.ofNat 8 (n / 65536), BitVec.ofNat 8 (n / 16777216)]

/-- An eight-byte field. -/
def le64 (n : Nat) : List Byte := le32 n ++ le32 (n / 4294967296)

/-- The number a little-endian field holds. -/
def ofLe : List Byte → Nat
  | [] => 0
  | b :: rest => b.toNat + 256 * ofLe rest

/-- The little-endian field of `n` bytes at an offset of an image. -/
def fieldAt (image : List Byte) (offset n : Nat) : Nat := ofLe ((image.drop offset).take n)

/-! ### Coded fields and their absent markers (R201) -/

/-- A yes/no field. -/
def yesNo (b : Bool) : List Byte := [if b then 1 else 0]

/-- A temperature, 0x8000 when absent. -/
def tempField (t : Option Int) : List Byte := le16 (match t with | some x => (BitVec.ofInt 16 x).toNat | none => 0x8000)

/-- An offset, a signed byte. -/
def offsetField (x : Int) : List Byte := [BitVec.ofInt 8 x]

/-- A time, 0xFFFFFFFF when absent (R201). The gap of a POWER record and the seconds left to a deadline, both durations,
take the same marker. Log entry 9. -/
def timeField (t : Option Nat) : List Byte := le32 (t.getD max32)

/-- A sequence, 0 when absent. -/
def seqField (q : Option Nat) : List Byte := le32 (q.getD 0)

/-- A window end: a sequence, or 0 for OPEN. -/
def windowField (q : Option Nat) : List Byte := le32 (q.getD 0)

/-- A numbered one-byte field, 0xFF when absent or NONE. -/
def numField {n : Nat} (i : Option (Fin n)) : List Byte := [match i with | some k => BitVec.ofNat 8 k.val | none => 0xFF]

/-- A time followed by its RELATIVE mark. -/
def stampField (t : Stamp) : List Byte := le32 t.time ++ yesNo t.relative

/-- An optional time with its RELATIVE mark. The mark of an absent time is sent as 0: R201 names an absent marker for
the time alone. Log entry 10. -/
def stampField? : Option Stamp → List Byte
  | some t => stampField t
  | none => timeField none ++ yesNo false

/-- A set of flags: bit 0 is the first of the list. -/
def flagsField : List Bool → Nat
  | [] => 0
  | b :: rest => (if b then 1 else 0) + 2 * flagsField rest

/-- `n` bytes of an absent field for which R201 names no marker, from place `k` of the group it stands in. Log entry 9. -/
def unstatedAt (k n : Nat) : List Byte := (List.range' k n).map Config.unstatedByte

/-- The same for a field that stands alone. -/
def unstated (n : Nat) : List Byte := unstatedAt 0 n

/-- A field, or a group of fields, that its rule marks present or absent: the field, or the bytes it holds when absent,
then the mark (R201). -/
def markedOr (absent : List Byte) : Option (List Byte) → List Byte
  | some b => b ++ yesNo true
  | none => absent ++ yesNo false

/-- The same for a field of `n` bytes without an absent marker. -/
def marked (n : Nat) : Option (List Byte) → List Byte := markedOr (unstated n)

/-- The same for a time. -/
def markedTime : Option Nat → List Byte
  | some t => timeField (some t) ++ yesNo true
  | none => timeField none ++ yesNo false

/-- A list of varying length, preceded by a one-byte count (R200). -/
def counted (items : List (List Byte)) : List Byte := le8 items.length ++ items.flatten

/-! ### Checks -/

/-- One bit of the reflected 32-bit check: 0x82F63B78 is the polynomial 0x1EDC6F41 bit-reversed (R72). -/
def crc32Bit (c : Word) : Word := if c &&& 1#32 = 1#32 then (c >>> 1) ^^^ 0x82F63B78#32 else c >>> 1

/-- One byte of the 32-bit check, least significant bit first. -/
def crc32Byte (c : Word) (b : Byte) : Word :=
  crc32Bit (crc32Bit (crc32Bit (crc32Bit (crc32Bit (crc32Bit (crc32Bit (crc32Bit (c ^^^ b.setWidth 32))))))))

/-- The 32-bit check over a run of bytes: initial value and final complement 0xFFFFFFFF (R72). -/
def crc32 (bytes : List Byte) : Word := bytes.foldl crc32Byte 0xFFFFFFFF#32 ^^^ 0xFFFFFFFF#32

/-- One bit of the 16-bit check, polynomial 0x1021, not reflected (R197). -/
def crc16Bit (c : Half) : Half := if c &&& 0x8000#16 = 0x8000#16 then (c <<< 1) ^^^ 0x1021#16 else c <<< 1

/-- One byte of the 16-bit check, most significant bit first. -/
def crc16Byte (c : Half) (b : Byte) : Half :=
  crc16Bit (crc16Bit (crc16Bit (crc16Bit (crc16Bit (crc16Bit (crc16Bit (crc16Bit (c ^^^ (b.setWidth 16 <<< 8)))))))))

/-- The 16-bit check over a run of bytes: initial value 0xFFFF, no final step (R197). -/
def crc16 (bytes : List Byte) : Half := bytes.foldl crc16Byte 0xFFFF#16

end Sys2Proof.Machine
end

