-- ==== Sys2Proof/Machine/Operands.lean ====
section
/-! DEFINITION. Operands and codes: how an enumerated or numbered field is read from a request and written into a reply
or a record. Values are numbered in the order of their defining table or rule (R201). -/

namespace Sys2Proof.Machine

/-! ### Reading request fields -/

/-- A numbered field below `n`. -/
def numOf (n : Nat) (b : Byte) : Option (Fin n) := if h : b.toNat < n then some ⟨b.toNat, h⟩ else none

/-- A compartment field: 0 to 3, or NONE as 0xFF. The outer none is a value out of range. -/
def compOf (b : Byte) : Option (Option CompNo) := if b = 0xFF then some none else (numOf 4 b).map some

/-- A yes/no field. -/
def yesNoOf (b : Byte) : Option Bool := if b = 0 then some false else if b = 1 then some true else none

/-- Role (Table 1-2). -/
def roleOf (b : Byte) : Option Role := if b = 0 then some .exposure else if b = 1 then some .watch else none

/-- Offset source (Table 1-2). -/
def sourceOf (b : Byte) : Option OffsetSource :=
  if b = 0 then some .none else if b = 1 then some .slotA else if b = 2 then some .slotB else if b = 3 then some .message
  else none

/-- Scan mode (R6). -/
def modeOf (b : Byte) : Option ScanMode := if b = 0 then some .continuous else if b = 1 then some .single else none

/-- Sense (Table 3-2). -/
def senseOf (b : Byte) : Option Sense := if b = 0 then some .openOnBreak else if b = 1 then some .openOnMake else none

/-- Watch (Table 3-2). -/
def watchOf (b : Byte) : Option Watch :=
  if b = 0 then some .off else if b = 1 then some .change else if b = 2 then some .openLevel else none

/-- Calibration slot: A is coded 0 and B 1 (Table 11-3 note 1). -/
def calSlotOf (b : Byte) : Option CalSlot := if b = 0 then some .slotA else if b = 1 then some .slotB else none

/-- A calibration offset in −127..+127: the byte 0x80 is out of range (R1, R177). -/
def offsetOf (b : Byte) : Option Int := if -127 ≤ b.toInt then some b.toInt else none

/-! ### Codes -/

def Role.code : Role → Nat
  | .exposure => 0
  | .watch => 1

def OffsetSource.code : OffsetSource → Nat
  | .none => 0
  | .slotA => 1
  | .slotB => 2
  | .message => 3

def ScanMode.code : ScanMode → Nat
  | .continuous => 0
  | .single => 1

def ScanState.code : ScanState → Nat
  | .stopped => 0
  | .waiting => 1
  | .reading => 2
  | .halting => 3

def CycleEnding.code : CycleEnding → Nat
  | .none => 0
  | .complete => 1
  | .halted => 2
  | .aborted => 3

def ReadOutcome.code : ReadOutcome → Nat
  | .none => 0
  | .valid => 1
  | .noAnswer => 2
  | .badCheck => 3
  | .outOfRange => 4
  | .skipped => 5

def Knowledge.code : Knowledge → Nat
  | .unknown => 0
  | .live => 1
  | .holding => 2
  | .blind => 3

def Band.code : Band → Nat
  | .unset => 0
  | .cold => 1
  | .warm => 2

def Sense.code : Sense → Nat
  | .openOnBreak => 0
  | .openOnMake => 1

def Watch.code : Watch → Nat
  | .off => 0
  | .change => 1
  | .openLevel => 2

def Settled.code : Settled → Nat
  | .unsettled => 0
  | .shut => 1
  | .opened => 2

def OpeningState.code : OpeningState → Nat
  | .shut => 0
  | .opening => 1
  | .openAtStart => 2

def OpeningChange.code : OpeningChange → Nat
  | .opened => 0
  | .closed => 1
  | .none => 2

def UpstreamMode.code : UpstreamMode → Nat
  | .none => 0
  | .record => 1
  | .declared => 2

def Outcome.code : Outcome → Nat
  | .accepted => 0
  | .disposed => 1

def AbandonReason.code : AbandonReason → Nat
  | .refused => 0
  | .lapsed => 1
  | .power => 2

def ClaimAction.code : ClaimAction → Nat
  | .opened => 0
  | .assessed => 1
  | .closed => 2

def Verdict.code : Verdict → Nat
  | .upstream => 0
  | .inCustody => 1
  | .inCustodyCycles => 2
  | .undetermined => 3
  | .within => 4

/-- COMPLETE 0 and PARTIAL 1, the order of Table 0-5 (spec/00_scope.md); R155 names PARTIAL first. Log entry 10. -/
def Evidence.code : Evidence → Nat
  | .complete => 0
  | .partly => 1

def TimeSetting.code : TimeSetting → Nat
  | .fromUnset => 0
  | .trim => 1

def StartReason.code : StartReason → Nat
  | .powerOn => 0
  | .resetLine => 1
  | .restart => 2

def ClockState.code : ClockState → Nat
  | .valid => 0
  | .unset => 1

def SlotState.code : SlotState → Nat
  | .empty => 0
  | .inCustody => 1
  | .handingOver => 2
  | .handedOver => 3

def CalSlot.code : CalSlot → Nat
  | .slotA => 0
  | .slotB => 1

def StoreResult.code : StoreResult → Nat
  | .none => 0
  | .done => 1
  | .interrupted => 2

def SaveResult.code : SaveResult → Nat
  | .none => 0
  | .done => 1
  | .failed => 2
  | .interrupted => 3

def ImageSource.code : ImageSource → Nat
  | .saved => 0
  | .defaulted => 1

/-- Crossing places in the order of the table of R153. -/
def Crossing.code : Crossing → Nat
  | .carriedIn => 0
  | .record _ _ => 1
  | .unplaced => 2
  | .openInterval => 3
  | .none => 4

/-- An offset entry as OFFSET_READ and the CONFIG record report it: its state, then its value, 0 unless PROGRAMMED
(R201). -/
def OffsetEntry.bytes : OffsetEntry → List Byte
  | .blank => le8 0 ++ offsetField 0
  | .programming => le8 1 ++ offsetField 0
  | .programmed v => le8 2 ++ offsetField v

/-- The eighteen places as a mask: bit k − 1 for the condition of priority k (R164). -/
def maskOf (v : Vector Bool 18) : Nat := flagsField v.toList

/-- The four settings of an input in the order of Table 3-2. -/
def InputSettings.bytes (x : InputSettings) : List Byte :=
  numField x.compartment ++ le8 x.sense.code ++ le8 x.watch.code ++ yesNo x.member

/-- The slot's three flags (Table 5-2). -/
def Slot.flagBits (x : Slot) : Nat := flagsField [x.limitCrossed, x.logDeferred, x.declared]

end Sys2Proof.Machine
end

