-- ==== Sys2Proof/Machine/Notices.lean ====
section
/-! DEFINITION. The Notice Unit (spec/08): conditions and their truths, the pending set, raises and removals, the alert
line, and the content of a notice. -/

namespace Sys2Proof.Machine

/-- The place of a condition in the bit order of R164: its priority less 1 (Table 8-1). -/
def Condition.place : Condition → Fin 18
  | .pattern => 0
  | .exposureLimit => 1
  | .blind => 2
  | .longOpen => 3
  | .handoverLapsed => 4
  | .logHeld => 5
  | .probeFault => 6
  | .clockLost => 7
  | .hatch i => ⟨8 + i.val, by omega⟩
  | .assessDone => 16
  | .storeDone => 17

/-- The eighteen conditions in priority order (Table 8-1). -/
def Condition.all : List Condition :=
  [.pattern, .exposureLimit, .blind, .longOpen, .handoverLapsed, .logHeld, .probeFault, .clockLost, .hatch 0, .hatch 1,
    .hatch 2, .hatch 3, .hatch 4, .hatch 5, .hatch 6, .hatch 7, .assessDone, .storeDone]

/-- The truth of an input's level condition: its watch is OPEN_LEVEL and its debounced state OPEN (R58). -/
def ContactInput.levelTruth (x : ContactInput) : Bool := x.settings.watch == .openLevel && x.settled == .opened

/-- The truth of a level condition, or of BLIND, as its owning block keeps it; an event condition has none (R163). -/
def State.truth (s : State) : Condition → Bool
  | .pattern => s.hatch.patternTruth
  | .blind => anyAt s.comps fun c => c.knowledge == .blind
  | .logHeld => s.log.heldFull
  | .clockLost => s.clock.state == .unset
  | .hatch i => s.hatch.inputs[i].levelTruth
  | _ => false

/-! ### The pending set -/

/-- Whether the pending set has a member. -/
def NoticeUnit.anyPending (u : NoticeUnit) : Bool := anyAt u.members id

/-- A raise of the condition at place k (R165, R167, R171). -/
def NoticeUnit.raise (u : NoticeUnit) (k : Fin 18) : NoticeUnit :=
  if u.enables[k] then
    if u.members[k] then { u with counts := updAt u.counts k fun n => sat8 (n + 1) }
    else
      { u with
        members := setAt u.members k true
        fresh := setAt u.fresh k true
        counts := setAt u.counts k 1
        owed := true
        alert := true }
  else u

/-- The condition at place k leaves the pending set if it is in it, and its raise count becomes 0; ALERT is released when
the set is empty (R164, R169, R171). -/
def NoticeUnit.drop (u : NoticeUnit) (k : Fin 18) : NoticeUnit :=
  let members := setAt u.members k false
  { u with
    members := members
    fresh := setAt u.fresh k false
    counts := setAt u.counts k 0
    alert := anyAt members id }

/-- The pending set, raise counts, owed notice and notice number after start-up, with ALERT released (R173). -/
def NoticeUnit.emptied (u : NoticeUnit) : NoticeUnit :=
  { u with
    members := Vector.replicate 18 false
    fresh := Vector.replicate 18 false
    counts := Vector.replicate 18 0
    owed := false
    lastNumber := 0
    alert := false }

/-- A block raises a condition. -/
def State.raise (s : State) (c : Condition) : State := s.withNotices (s.notices.raise c.place)

/-- A block raises a condition several times, once for each occurrence (R34, R38). -/
def State.raiseTimes (s : State) (c : Condition) : Nat → State
  | 0 => s
  | n + 1 => (s.raise c).raiseTimes c n

/-- Raise a condition when a test holds. -/
def State.raiseIf (s : State) (b : Bool) (c : Condition) : State := if b then s.raise c else s

/-! ### Masks (R164) -/

/-- Whether a mask names a condition. -/
def inMask (mask : Word) (c : Condition) : Bool := mask.getLsbD c.place.val

/-- Whether any of bits 18 to 31 of a mask is set. -/
def maskTooWide (mask : Word) : Bool := decide (2 ^ 18 ≤ mask.toNat)

/-- The enables a mask writes. -/
def enablesOf (mask : Word) : Vector Bool 18 := Vector.ofFn fun k => mask.getLsbD k.val

/-! ### Notice frames (R167, R168) -/

/-- The number of the notice after one numbered n: 1 after 255 and after none. -/
def nextNotice (n : Nat) : Nat := if n = 255 then 1 else n + 1

/-- The highest member of the pending set, as its place. -/
def NoticeUnit.highest (u : NoticeUnit) : Option (Fin 18) := lowest u.members id

/-- The payload of a notice whose content is taken now: number, pending set, highest member, new members, the raise count
of each pending member, preceded by their count, and the time (R168). Log entry 10. -/
def State.noticePayload (s : State) : List Byte :=
  let u := s.notices
  le8 (nextNotice u.lastNumber) ++ le32 (maskOf u.members) ++ numField u.highest ++ le32 (maskOf u.fresh)
    ++ counted ((places 18).filterMap fun k => if u.members[k] then some (le8 u.counts[k]) else none)
    ++ stampField s.stampNow

/-- The notice frame (R168, R202). -/
def State.noticeFrame (s : State) : Frame := ⟨0xFE, 0, s.noticePayload⟩

/-- The Notice Unit once the content of a notice has been taken, as its transmission begins (R167, R168). From then on
its number is that of the last notice sent. Log entry 24. -/
def NoticeUnit.taken (u : NoticeUnit) : NoticeUnit :=
  { u with owed := false, fresh := Vector.replicate 18 false, lastNumber := nextNotice u.lastNumber }

end Sys2Proof.Machine
end

