-- ==== Sys2Proof/Machine/Answers.lean ====
section
/-! DEFINITION. Answers to requests: the status codes of Table 11-2 and the reply a request forms (R200). -/

namespace Sys2Proof.Machine

/-- The statuses of Table 11-2. -/
inductive Status where
  | ok
  | partly
  | missing
  | unknownKind
  | badLength
  | badValue
  | busy
  | collision
  | full
  | duplicate
  | unknown
  | wrongState
  | lapsed
  | claimed
  | occupied
  | noTime
  | backward
  | tooFar
  | badRecord
  | evicted
  | notBlank
  | logHeld
  deriving DecidableEq, Repr

/-- Status codes (Table 11-2). -/
def Status.code : Status → Nat
  | .ok => 0x00
  | .partly => 0x01
  | .missing => 0x02
  | .unknownKind => 0x10
  | .badLength => 0x11
  | .badValue => 0x12
  | .busy => 0x13
  | .collision => 0x14
  | .full => 0x15
  | .duplicate => 0x16
  | .unknown => 0x17
  | .wrongState => 0x18
  | .lapsed => 0x19
  | .claimed => 0x1A
  | .occupied => 0x1B
  | .noTime => 0x1C
  | .backward => 0x1D
  | .tooFar => 0x1E
  | .badRecord => 0x1F
  | .evicted => 0x20
  | .notBlank => 0x21
  | .logHeld => 0x22

/-- A reply less its frame: the status and the reply data (R200). -/
structure Answer where
  status : Status
  data : List Byte
  deriving DecidableEq, Repr

/-- A refusal carries the status alone. -/
def refuse (st : Status) : Answer := ⟨st, []⟩

/-- A reply with status OK. -/
def okay (data : List Byte) : Answer := ⟨.ok, data⟩

/-- A request that is refused: the status alone, and a state left unchanged (spec/00 section 4.7). -/
def State.refusing (s : State) (st : Status) : Answer × State := (refuse st, s)

/-- The reply frame of a request of a kind and tag: the kind with the reply mark, the tag echoed, the status byte and the
data (R200). -/
def replyFrame (kind tag : Byte) (a : Answer) : Frame := ⟨kind ||| 0x80, tag, BitVec.ofNat 8 a.status.code :: a.data⟩

end Sys2Proof.Machine
end

