-- ==== Sys2Proof/Machine/Records.lean ====
section
/-! DEFINITION. The images of log records and of the proof record (R68, R69, R72, R128, R129, Tables 4-3, 11-5, 11-6). -/

namespace Sys2Proof.Machine

/-- Record kind codes (Table 11-5). -/
def Body.kindCode : Body → Nat
  | .sample _ => 0x01
  | .coarse _ => 0x02
  | .hatch .. => 0x03
  | .claim .. => 0x04
  | .time .. => 0x05
  | .power .. => 0x06
  | .config _ => 0x07
  | .gap .. => 0x08
  | .custodyIn .. => 0x11
  | .handoverBegin .. => 0x12
  | .custodyOut .. => 0x13
  | .handoverAbandon .. => 0x14

/-- Custody kinds are taken by R76, general kinds by R75 (R69). -/
def Body.isCustody : Body → Bool
  | .custodyIn .. | .handoverBegin .. | .custodyOut .. | .handoverAbandon .. => true
  | _ => false

/-- The fields of a CONFIG body after its reason (Table 4-3 note 1, Table 11-5 note 4). Log entry 10. -/
def ConfigChange.bytes : ConfigChange → List Byte
  | .compartment on th ts => le8 0 ++ yesNo on ++ tempField (some th) ++ tempField (some ts)
  | .interval l => le8 1 ++ le8 l
  | .hatchInput i x => le8 2 ++ le8 i.val ++ x.bytes
  | .hatchPart d b => le8 2 ++ le16 (10 * d) ++ yesNo b
  | .handover l => le8 3 ++ le16 l
  | .claim a => le8 4 ++ le32 a
  | .notice e => le8 5 ++ le32 (maskOf e)
  | .offset slot entry state => le8 6 ++ le8 slot.code ++ le8 (match entry with | some e => e.val | none => 16) ++ state.bytes
  | .label l => le8 7 ++ le64 l.toNat
  | .saved r n => le8 8 ++ le8 r.code ++ le32 (n.getD Config.absentSaveCount).toNat
  | .defaulted => le8 9

/-- The body fields of a record, in the order of Table 4-3, before the unused bytes. The new state of a HATCH record is
coded by Table 3-1, SHUT 1 and OPEN 2. The gap of a POWER record takes the marker of a time when absent. Log entries 9
and 10. -/
def Body.fields : Body → List Byte
  | .sample b =>
    le16 b.span ++ tempField b.minimum ++ tempField b.maximum ++ tempField b.mean ++ le32 b.increment ++ le16 b.blind
      ++ le8 b.live ++ le8 b.held ++ tempField b.watchMax
  | .coarse b =>
    le32 b.spanStart ++ tempField b.minimum ++ tempField b.maximum ++ tempField b.mean ++ le32 b.increment ++ le16 b.blind
      ++ le16 b.merged
  | .hatch i st ch => le8 i.val ++ le8 st.code ++ le8 ch.code
  | .claim a r i hs we res =>
    le8 a.code ++ le32 r.toNat ++ le32 i.toNat ++ le32 hs ++ windowField we
      ++ le8 (match res with | some (v, e) => v.code + 16 * e.code | none => 0)
  | .time p n k => stampField p ++ le32 n ++ le8 k.code
  | .power r g k n => le8 r.code ++ timeField g ++ le8 k.code ++ le8 (sat8 n)
  | .config c => c.bytes
  | .gap since h c o k => stampField? since ++ le16 h ++ le16 c ++ le16 o ++ le16 k
  | .custodyIn id sl m ce cc lim cl =>
    le32 id.toNat ++ le8 sl.val ++ le8 m.code ++ le32 ce ++ le16 cc ++ le32 lim ++ le8 cl
  | .handoverBegin id sl d => le32 id.toNat ++ le8 sl.val ++ le32 d
  | .custodyOut id sl o r e c f1 f2 f3 =>
    le32 id.toNat ++ le8 sl.val ++ le8 o.code ++ le32 r.toNat ++ le32 e ++ le16 c ++ le8 (flagsField [f1, f2, f3])
  | .handoverAbandon id sl r n => le32 id.toNat ++ le8 sl.val ++ le8 r.code ++ le8 n

/-- The 18 body bytes; unused bytes are 0 (R68). -/
def Body.bytes (b : Body) : List Byte := (b.fields ++ List.replicate 18 0).take 18

/-- The flags and compartment byte: compartment in bits 0 to 3, 0xF for NONE, RELATIVE in bit 7 (Table 11-5). -/
def flagsAndComp (relative : Bool) (c : Option CompNo) : Nat :=
  (match c with | some k => k.val | none => 15) + (if relative then 128 else 0)

/-- The first 28 bytes of a record's image (R72, Table 11-5). -/
def image28 (sequence : Nat) (t : Stamp) (c : Option CompNo) (b : Body) : List Byte :=
  le32 sequence ++ le32 t.time ++ le8 b.kindCode ++ le8 (flagsAndComp t.relative c) ++ b.bytes

/-- The chain value of a record: the check over its predecessor's chain value and its own first 28 bytes (R72). -/
def chainOver (previous : Word) (image : List Byte) : Word := crc32 (le32 previous.toNat ++ image)

/-- The 32-byte image of a record (Table 11-5). -/
def LogRecord.image (r : LogRecord) : List Byte :=
  image28 r.sequence r.stamp r.compartment r.body ++ le32 r.chain.toNat

/-! ### The proof record (Table 11-6) -/

/-- The first 68 bytes of the proof record of a slot whose custody ended as `o`, whose CUSTODY_OUT record has chain value
`chain` (R128, Table 6-4). -/
def proofBody (identity label : Wide) (x : Slot) (o : CustodyOut) (chain : Word) : List Byte :=
  le8 0x5A ++ le8 x.compartment.val ++ le8 (flagsField [x.declared, x.logDeferred, o.outcome == .disposed]) ++ le8 0
    ++ le64 identity.toNat ++ le64 label.toNat ++ le32 x.identifier.toNat ++ le32 x.inTime ++ le32 o.time
    ++ le32 x.carriedExposure ++ le32 x.exposure ++ le16 x.totalCycles ++ le16 x.openings ++ le32 x.openingSeconds
    ++ le32 (sat32 (x.carriedBlind + x.blind)) ++ le32 o.receipt.toNat ++ le32 o.sequence ++ le32 chain.toNat ++ le32 x.limit

/-- The 72-byte proof record: its first 68 bytes and their check (R129). -/
def proofRecord (identity label : Wide) (x : Slot) (o : CustodyOut) (chain : Word) : List Byte :=
  let body := proofBody identity label x o chain
  body ++ le32 (crc32 body).toNat

/-- The fields of an upstream record that R102 and R103 use. -/
structure UpstreamRecord where
  check : Word
  expectedCheck : Word
  kind : Nat
  identifier : Word
  outTime : Nat
  carriedExposure : Nat
  exposure : Nat
  totalCycles : Nat
  blind : Nat
  fields : UpstreamFields
  deriving DecidableEq, Repr

/-- Read an upstream record from its 72 bytes (Table 11-6). -/
def readUpstream (r : List Byte) : UpstreamRecord :=
  let flags := fieldAt r 2 1
  { check := BitVec.ofNat 32 (fieldAt r 68 4)
    expectedCheck := crc32 (r.take 68)
    kind := fieldAt r 0 1
    identifier := BitVec.ofNat 32 (fieldAt r 20 4)
    outTime := fieldAt r 28 4
    carriedExposure := fieldAt r 32 4
    exposure := fieldAt r 36 4
    totalCycles := fieldAt r 40 2
    blind := fieldAt r 48 4
    fields :=
      { issuer := BitVec.ofNat 64 (fieldAt r 4 8)
        chain := BitVec.ofNat 32 (fieldAt r 60 4)
        outTime := fieldAt r 28 4
        declared := flags % 2 == 1
        logDeferred := flags / 2 % 2 == 1
        disposed := flags / 4 % 2 == 1 } }

end Sys2Proof.Machine
end

