-- ==== Sys2Proof/Machine/CustodyLog.lean ====
section
/-! DEFINITION. The Custody Log's operations (spec/04): append and eviction, holds, held-full operation, recovery, and the
test of R77. -/

namespace Sys2Proof.Machine

/-- The last sequence (R87). -/
abbrev lastSequence : Nat := 0xFFFFFFFF

/-- The records a general record may raise the count to (R75). -/
abbrev generalPlaces : Nat := 4032

/-- The records the log holds at most (R76). -/
abbrev logPlaces : Nat := 4096

/-- The sequence of the oldest record. -/
def Log.oldest (l : Log) : Option Nat := l.records.head?.map (·.sequence)

/-- The sequence of the newest record. -/
def Log.newest (l : Log) : Option Nat := l.records.getLast?.map (·.sequence)

/-- The record with a sequence, if it is in the log. -/
def Log.recordAt (l : Log) (q : Nat) : Option LogRecord := l.records.find? fun r => r.sequence == q

/-- Whether a sequence lies in the window of a hold (R74). -/
def Hold.covers (h : Hold) (q : Nat) : Bool :=
  decide (h.start ≤ q) && (match h.stop with | some e => decide (q ≤ e) | none => true)

/-- Whether a sequence lies in the window of at least one hold (R74). -/
def Log.heldAt (l : Log) (q : Nat) : Bool :=
  anyAt l.holds fun h => match h with | some x => x.covers q | none => false

/-- Whether the oldest record is held (R75). -/
def Log.oldestHeld (l : Log) : Bool := match l.oldest with | some q => l.heldAt q | none => false

/-! ### Append and eviction (R71, R72, R87) -/

/-- The record an append adds. -/
def Log.recordOf (l : Log) (e : Entry) : LogRecord :=
  { sequence := l.nextSeq, stamp := e.stamp, compartment := e.compartment, body := e.body,
    chain := chainOver l.chain (image28 l.nextSeq e.stamp e.compartment e.body) }

/-- Add a record at the newest end. The record that takes the last sequence leaves the log ENDED. -/
def Log.append (l : Log) (e : Entry) : Log :=
  { l with
    records := l.records ++ [l.recordOf e]
    nextSeq := if l.nextSeq = lastSequence then l.nextSeq else l.nextSeq + 1
    chain := (l.recordOf e).chain
    ended := decide (l.nextSeq = lastSequence) || l.ended }

/-- Remove the record at the oldest end. -/
def Log.evict (l : Log) : Log := { l with records := l.records.tail }

/-- What R75 does with a general record handed to the log as it stands. -/
inductive GeneralFate where
  /-- ENDED: lost. -/
  | lost
  /-- HELD_FULL: merged or lost. -/
  | fallback
  | appended
  | evicting
  /-- The log enters HELD_FULL, and the record is merged or lost. -/
  | entering
  deriving DecidableEq, Repr

/-- The tests of R75, in order. -/
def Log.generalFate (l : Log) : GeneralFate :=
  if l.ended then .lost
  else if l.heldFull then .fallback
  else if l.records.length < generalPlaces then .appended
  else if l.oldestHeld then .entering
  else .evicting

/-- What R76 does with a custody record. -/
inductive CustodyFate where
  | appended
  | evicting
  /-- The record cannot be written. -/
  | unwritten
  deriving DecidableEq, Repr

/-- The tests of R76, in order. -/
def Log.custodyFate (l : Log) : CustodyFate :=
  if l.ended then .unwritten
  else if l.records.length < logPlaces then .appended
  else if l.oldestHeld then .unwritten
  else .evicting

/-! ### Held-full operation (R79 to R82) -/

/-- HELD_FULL comes into force, caused by a record of time t; LOG_HELD is raised (R79). -/
def State.enterHeldFull (s : State) (t : Stamp) : State :=
  (s.withLog { s.log with heldFull := true, heldSince := some (s.log.heldSince.getD t) }).raise .logHeld

/-- The lower, or higher, of two optional temperatures. -/
def minOpt : Option Int → Option Int → Option Int
  | some a, some b => some (min a b)
  | some a, none => some a
  | none, b => b

/-- See `minOpt`. -/
def maxOpt : Option Int → Option Int → Option Int
  | some a, some b => some (max a b)
  | some a, none => some a
  | none, b => b

/-- The coarse accumulator after a SAMPLE is merged into it (R80). -/
def mergeCoarse (acc : Option Coarse) (t : Stamp) (b : SampleBody) (tempSum : Int) (tempCount : Nat) : Coarse :=
  match acc with
  | none =>
    { spanStart := t.time - b.span, last := t.time, minimum := b.minimum, maximum := b.maximum, sum := tempSum,
      count := tempCount, increment := sat32 b.increment, blind := sat32 b.blind, merged := 1, relative := t.relative }
  | some a =>
    { spanStart := a.spanStart, last := t.time, minimum := minOpt a.minimum b.minimum, maximum := maxOpt a.maximum b.maximum,
      sum := a.sum + tempSum, count := a.count + tempCount, increment := sat32 (a.increment + b.increment),
      blind := sat32 (a.blind + b.blind), merged := sat16 (a.merged + 1), relative := a.relative || t.relative }

/-- Every consignment in custody in the record's compartment takes LOG_DEFERRED (R81). -/
def State.flagDeferred (s : State) (c : Option CompNo) : State :=
  match c with
  | some k => s.updHeldIn k fun x => { x with logDeferred := true }
  | none => s

/-- A SAMPLE is merged into the coarse accumulator of its compartment (R80, R81). -/
def State.mergeSample (s : State) (e : Entry) (b : SampleBody) : State :=
  match e.compartment with
  | some c =>
    (s.withLog
      { s.log with coarse := updAt s.log.coarse c fun a => some (mergeCoarse a e.stamp b e.tempSum e.tempCount) }).flagDeferred
      (some c)
  | none => s

/-- A general record is lost and counted (R82; in ENDED a SAMPLE too, under other, R87). -/
def State.loseGeneral (s : State) (e : Entry) : State :=
  match e.body with
  | .sample _ => (s.withLog { s.log with otherLost := sat16 (s.log.otherLost + 1) }).flagDeferred e.compartment
  | .hatch .. => s.withLog { s.log with hatchLost := sat16 (s.log.hatchLost + 1) }
  | .claim .. => s.withLog { s.log with claimLost := sat16 (s.log.claimLost + 1) }
  | .time .. => s.withLog { s.log with otherLost := sat16 (s.log.otherLost + 1) }
  | .power .. => s.withLog { s.log with otherLost := sat16 (s.log.otherLost + 1) }
  | .config _ => s.withLog { s.log with otherLost := sat16 (s.log.otherLost + 1) }
  | _ => s

/-- A general record in HELD_FULL: a SAMPLE is merged, another kind lost (R80, R82). -/
def State.fallBack (s : State) (e : Entry) : State :=
  match e.body with
  | .sample b => s.mergeSample e b
  | _ => s.loseGeneral e

/-- A general record is handed to the log (R75). -/
def State.handGeneral (s : State) (e : Entry) : State :=
  match s.log.generalFate with
  | .lost => s.loseGeneral e
  | .fallback => s.fallBack e
  | .appended => s.withLog (s.log.append e)
  | .evicting => s.withLog (s.log.evict.append e)
  | .entering => (s.enterHeldFull e.stamp).fallBack e

/-! ### Custody records (R76, R78) -/

/-- Every OPEN hold whose claim names the consignment takes sequence q as its window end (R74). -/
def fixEnds (claims : Vector (Option Claim) 8) (holds : Vector (Option Hold) 8) (identifier : Word) (q : Nat) :
    Vector (Option Hold) 8 :=
  Vector.ofFn fun i =>
    match holds[i], claims[i] with
    | some h, some k => if h.stop = none ∧ k.identifier = identifier then some { h with stop := some q } else some h
    | h, _ => h

/-- What the append of a custody record does beside the append: a CUSTODY_OUT record fixes window ends (R74). -/
def State.afterCustody (s : State) (e : Entry) (q : Nat) : State :=
  match e.body with
  | .custodyOut identifier .. =>
    s.withLog { s.log with holds := fixEnds s.claims.slots s.log.holds identifier q }
  | _ => s

/-- A custody record that must be taken is handed to the log (R76). One that cannot be written is lost and counted, and
a log neither HELD_FULL nor ENDED enters HELD_FULL (R78). -/
def State.handCustody (s : State) (e : Entry) : State :=
  match s.log.custodyFate with
  | .appended => (s.withLog (s.log.append e)).afterCustody e s.log.nextSeq
  | .evicting => (s.withLog (s.log.evict.append e)).afterCustody e s.log.nextSeq
  | .unwritten =>
    let t := s.withLog { s.log with custodyLost := sat16 (s.log.custodyLost + 1) }
    if s.log.heldFull || s.log.ended then t else t.enterHeldFull e.stamp

/-! ### The custody test (R77) -/

/-- The log as a general SAMPLE record leaves its records, for the test of R77 only: the entry is `e`. -/
def Log.dryGeneral (l : Log) (e : Entry) : Log :=
  match l.generalFate with
  | .appended => l.append e
  | .evicting => l.evict.append e
  | _ => l

/-- Whether the request's custody record would be written, after its boundary SAMPLE when it hands one (R77). -/
def Log.custodyFits (l : Log) (boundary : Bool) : Bool :=
  let probe : Entry := ⟨⟨0, false⟩, none, .sample ⟨0, none, none, none, 0, 0, 0, 0, none⟩, 0, 0⟩
  (if boundary then l.dryGeneral probe else l).custodyFate != .unwritten

/-! ### Recovery (R83 to R86) -/

/-- The mean of a temperature sum and count: floor((2S + n) / 2n), absent when n is 0 (R44). -/
def meanOf (sum : Int) (count : Nat) : Option Int :=
  if count = 0 then none else some ((2 * sum + count).fdiv (2 * count))

/-- The COARSE record of an accumulator (R85). -/
def Coarse.entry (a : Coarse) (c : CompNo) : Entry :=
  { stamp := ⟨a.last, a.relative⟩, compartment := some c,
    body := .coarse
      { spanStart := a.spanStart, minimum := if a.count = 0 then none else a.minimum,
        maximum := if a.count = 0 then none else a.maximum, mean := meanOf a.sum a.count, increment := a.increment,
        blind := sat16 a.blind, merged := a.merged } }

/-- The GAP record as it would be written now (R86). -/
def State.gapEntry (s : State) : Entry :=
  { stamp := s.stampNow, compartment := none,
    body := .gap s.log.heldSince s.log.hatchLost s.log.claimLost s.log.otherLost s.log.custodyLost }

/-- Whether a general record handed now is appended (R75). -/
def Log.takesGeneral (l : Log) : Bool := l.generalFate == .appended || l.generalFate == .evicting

/-- The GAP record is handed; when it is appended the counts become 0 and the held-full start time absent (R84). -/
def State.recoverGap (s : State) : State :=
  let t := s.handGeneral s.gapEntry
  if s.log.takesGeneral then
    t.withLog { t.log with heldSince := none, hatchLost := 0, claimLost := 0, otherLost := 0, custodyLost := 0 }
  else t

/-- The owed COARSE records of the listed compartments, then the GAP record. A record that is not appended ends the
recovery: it and those after it stay owed (R84). In ENDED nothing is written (R87). -/
def State.recover (s : State) : List CompNo → State
  | [] => if s.log.ended then s else s.recoverGap
  | c :: rest =>
    if s.log.ended then s
    else
      match s.log.coarse[c] with
      | none => s.recover rest
      | some a =>
        let t := s.handGeneral (a.entry c)
        if s.log.takesGeneral then (t.withLog { t.log with coarse := setAt t.log.coarse c none }).recover rest else t

/-- The hold of a claim slot is released. If the log is HELD_FULL and its oldest record is no longer held, HELD_FULL ends
and the recovery records are written (R74, R83). -/
def State.releaseHold (s : State) (i : ClaimNo) : State :=
  let t := s.withLog { s.log with holds := setAt s.log.holds i none }
  if t.log.heldFull && !t.log.oldestHeld then (t.withLog { t.log with heldFull := false }).recover (places 4) else t

/-- The hold of a claim slot is placed (R74). -/
def State.placeHold (s : State) (i : ClaimNo) (h : Hold) : State :=
  s.withLog { s.log with holds := setAt s.log.holds i (some h) }

/-- A CONFIG record with the present time (R69). The compartment is NONE but for the reason COMPARTMENT (Table 4-3). Log
entry 20. -/
def State.handConfig (s : State) (c : Option CompNo) (change : ConfigChange) : State :=
  s.handGeneral { stamp := s.stampNow, compartment := c, body := .config change }

/-- The log a WIPE leaves (R90). -/
def Log.wiped (l : Log) : Log :=
  { l with
    records := []
    nextSeq := 1
    chain := 0xFFFFFFFF
    ended := false
    coarse := Vector.replicate 4 none
    hatchLost := 0
    claimLost := 0
    otherLost := 0
    custodyLost := 0
    heldSince := none }

end Sys2Proof.Machine
end

