-- ==== Sys2Proof/Machine/Compartments.lean ====
section
/-! DEFINITION. The Compartment Monitor (spec/02): knowledge, band, the step with its increment and shares, and the sample
interval; with them the pattern watch, which a band change evaluates afresh (R64). -/

namespace Sys2Proof.Machine

/-! ### The pattern watch (R64) -/

/-- Whether a member's compartment has band WARM; a member naming NONE has no band. -/
def State.memberWarm (s : State) (x : ContactInput) : Bool :=
  match x.settings.compartment with
  | some c => s.comps[c].band == .warm
  | none => false

/-- The truth of the pattern watch as its inputs stand. -/
def State.patternNow (s : State) : Bool :=
  anyAt s.hatch.inputs (fun x => x.settings.member)
    && !anyAt s.hatch.inputs (fun x => x.settings.member && x.settled != .opened)
    && (!s.hatch.bandRequired || anyAt s.hatch.inputs fun x => x.settings.member && s.memberWarm x)

/-- The pattern watch is evaluated afresh; PATTERN is raised when its truth passes from false to true. -/
def State.evaluatePattern (s : State) : State :=
  (s.withHatch { s.hatch with patternTruth := s.patternNow }).raiseIf (!s.hatch.patternTruth && s.patternNow) .pattern

/-- Whether some pattern member names a compartment. -/
def State.memberNames (s : State) (c : CompNo) : Bool :=
  anyAt s.hatch.inputs fun x => x.settings.member && x.settings.compartment == some c

/-- The band of a compartment is written; a change of the band of a compartment named by a member evaluates the pattern
watch afresh. -/
def State.setBand (s : State) (c : CompNo) (b : Band) : State :=
  let t := s.setComp c { s.comps[c] with band := b }
  if s.comps[c].band != b && s.memberNames c then t.evaluatePattern else t

/-! ### Step temperature and knowledge (R29 to R31, R40) -/

/-- What causes a step (Table 2-2). A cycle end brings the compartment's value and watch contribution (R29). -/
inductive StepCause where
  | cycle (value watch : Option Int)
  | blindTick
  | boundary
  deriving DecidableEq, Repr

/-- Kind of a step, with its step temperature when it has one (R28). -/
inductive StepKind where
  | live (t : Int)
  | held (t : Int)
  | blind
  deriving DecidableEq, Repr

/-- The step temperature of a live or held step. -/
def StepKind.temp : StepKind → Option Int
  | .live t => some t
  | .held t => some t
  | .blind => none

/-- A step at the held value; without one, which no state that is reached has, it is blind. -/
def heldStep : Option Int → StepKind
  | some t => .held t
  | none => .blind

/-- Kind of the step a cause gives (R30, R31, R40). -/
def Compartment.stepKind (x : Compartment) : StepCause → StepKind
  | .cycle (some t) _ => .live t
  | .cycle none _ =>
    match x.knowledge with
    | .unknown => .blind
    | .blind => .blind
    | .live => if x.misses + 1 ≤ 6 then heldStep x.held else .blind
    | .holding => if x.misses + 1 ≤ 6 then heldStep x.held else .blind
  | .blindTick => .blind
  | .boundary =>
    match x.knowledge with
    | .unknown => .blind
    | .blind => .blind
    | .live => heldStep x.held
    | .holding => heldStep x.held

/-- A miss in LIVE or HOLDING: HOLDING up to six misses, BLIND at the seventh (R30). -/
def Compartment.missed (x : Compartment) : Compartment :=
  if x.misses + 1 ≤ 6 then { x with knowledge := .holding, misses := x.misses + 1 }
  else { x with knowledge := .blind, held := none, misses := 7 }

/-- Knowledge, held value and miss count after a cause (Table 2-3). -/
def Compartment.learn (x : Compartment) : StepCause → Compartment
  | .cycle (some t) _ => { x with knowledge := .live, held := some t, misses := 0 }
  | .cycle none _ =>
    match x.knowledge with
    | .unknown => x
    | .blind => x
    | .live => x.missed
    | .holding => x.missed
  | .blindTick => { x with knowledge := .blind, held := none, misses := 7 }
  | .boundary => x

/-- Whether a compartment is UNKNOWN or BLIND: it has no value to hold (Table 2-1). -/
def Compartment.valueless (x : Compartment) : Bool := x.knowledge == .unknown || x.knowledge == .blind

/-- Whether a cause makes a compartment enter BLIND (R34). -/
def Compartment.entersBlind (x : Compartment) (k : StepCause) : Bool :=
  x.knowledge != .blind && (x.learn k).knowledge == .blind

/-! ### Band (R32, R33) -/

/-- The band after a live step at temperature t (Table 2-4). -/
def nextBand (b : Band) (threshold softLine t : Int) : Band :=
  match b with
  | .unset => if softLine < t then .warm else .cold
  | .cold => if softLine < t then .warm else .cold
  | .warm => if t ≤ threshold then .cold else .warm

/-- Every consignment in custody in the compartment is credited one heat-shock cycle, with the clock VALID (R33). -/
def State.creditCycle (s : State) (c : CompNo) : State :=
  if s.timed then s.updHeldIn c fun x => { x with cycles := sat16 (x.cycles + 1) } else s

/-- Step 3 of R28. -/
def State.stepBand (s : State) (c : CompNo) (k : StepKind) : State :=
  match k with
  | .live t =>
    let x := s.comps[c]
    let b := nextBand x.band x.settings.threshold x.settings.softLine t
    let s' := s.setBand c b
    if x.band = .warm ∧ b = .cold then s'.creditCycle c else s'
  | _ => s

/-! ### Increment and shares (R35 to R38) -/

/-- E + W at a step temperature (R35). -/
def rateAt (threshold softLine t : Int) : Nat := (max 0 (t - threshold)).toNat + (max 0 (t - softLine)).toNat

/-- E + W of a step of a compartment; a blind step has none. -/
def Compartment.rate (x : Compartment) (k : StepKind) : Option Nat :=
  k.temp.map (rateAt x.settings.threshold x.settings.softLine)

/-- A slot's share, or blind credit, of a step at t whose previous step time is tp (R36, R37). Seconds before tp are not
in it: those of a compartment enabled again are credited then (`State.enableComp`, log entry 19). -/
def Slot.share (x : Slot) (t tp : Nat) (rate : Option Nat) : Slot :=
  let seconds := t - max x.lastAccounted tp
  match rate with
  | some r =>
    { x with exposure := sat32 (x.exposure + r * seconds), covered := sat32 (x.covered + seconds), lastAccounted := t }
  | none => { x with blind := sat32 (x.blind + seconds), lastAccounted := t }

/-- Whether a slot's total exposure passes its limit for the first time (R38). -/
def Slot.crosses (x : Slot) : Bool := decide (x.limit < x.totalExposure) && !x.limitCrossed

/-- A slot after the limit check of R38. -/
def Slot.checked (x : Slot) : Slot := if x.crosses then { x with limitCrossed := true } else x

/-- A slot's share of a step with the limit check that follows it, or its blind credit, which makes no check (R36 to
R38). -/
def Slot.takeShare (x : Slot) (t tp : Nat) (rate : Option Nat) : Slot :=
  match rate with
  | some r => (x.share t tp (some r)).checked
  | none => x.share t tp none

/-- Step 5 of R28: with the clock VALID every consignment in custody in the compartment takes its share or blind credit;
after a share its limit is checked, and each crossing raises EXPOSURE_LIMIT (R36 to R38). -/
def State.shareStep (s : State) (c : CompNo) (t tp : Nat) (rate : Option Nat) : State :=
  if s.timed then
    let u := s.updHeldIn c fun x => x.takeShare t tp rate
    u.raiseTimes .exposureLimit ((places 64).countP fun i => !s.slots[i].limitCrossed && u.slots[i].limitCrossed)
  else s

/-! ### The sample interval (R42 to R44) -/

/-- The accumulator after a step's contributions (R42). -/
def Interval.add (a : Interval) (t span increment : Nat) (k : StepKind) (watch : Option Int) : Interval :=
  { a with
    last := t
    steps := a.steps + 1
    live := a.live + (match k with | .live _ => 1 | _ => 0)
    held := a.held + (match k with | .held _ => 1 | _ => 0)
    sum := a.sum + k.temp.getD 0
    count := a.count + (match k with | .blind => 0 | _ => 1)
    minimum := minOpt a.minimum k.temp
    maximum := maxOpt a.maximum k.temp
    increment := sat32 (a.increment + increment)
    blind := sat32 (a.blind + (match k with | .blind => span | _ => 0))
    watchMax := maxOpt a.watchMax watch }

/-- The SAMPLE record of an interval (R43, R44). -/
def Interval.entry (a : Interval) (c : CompNo) : Entry :=
  { stamp := ⟨a.last, a.relative⟩, compartment := some c,
    body := .sample
      { span := sat16 (a.last - a.start), minimum := a.minimum, maximum := a.maximum, mean := meanOf a.sum a.count,
        increment := a.increment, blind := sat16 a.blind, live := a.live, held := a.held, watchMax := a.watchMax },
    tempSum := a.sum, tempCount := a.count }

/-- The open sample interval of a compartment closes: its SAMPLE record is handed to the log and a new interval opens
(R43). -/
def State.closeInterval (s : State) (c : CompNo) (reopen : Stamp) : State :=
  let t := s.handGeneral (s.comps[c].interval.entry c)
  t.setComp c { t.comps[c] with interval := .opening reopen }

/-- The watch contribution a cause brings (R29). -/
def StepCause.watch : StepCause → Option Int
  | .cycle _ w => w
  | _ => none

/-! ### The step (R28) -/

/-- Steps 1 and 2 of R28: knowledge moves, an entry into BLIND is raised, and the last step time becomes t. -/
def State.stepKnow (s : State) (c : CompNo) (cause : StepCause) : State :=
  let x := s.comps[c]
  (s.setComp c { x.learn cause with lastStep := s.stampNow }).raiseIf (x.entersBlind cause) .blind

/-- Step 4 of R28. -/
def State.stepInterval (s : State) (c : CompNo) (span : Nat) (k : StepKind) (watch : Option Int) : State :=
  let x := s.comps[c]
  s.setComp c
    { x with interval := x.interval.add s.now span ((x.rate k).getD 0 * span) k watch }

/-- Step 6 of R28: the interval closes at the log interval, or at a boundary step (R43). -/
def State.stepClose (s : State) (c : CompNo) (cause : StepCause) : State :=
  if cause = .boundary ∨ s.logInterval ≤ s.comps[c].interval.steps then s.closeInterval c s.stampNow else s

/-- A step of an enabled compartment at the present time (R28). -/
def State.takeStep (s : State) (c : CompNo) (cause : StepCause) : State :=
  let x := s.comps[c]
  let k := x.stepKind cause
  let tp := x.lastStep.time
  let span := s.now - tp
  let s1 := (s.stepKnow c cause).stepBand c k
  let s2 := s1.stepInterval c span k cause.watch
  let s3 := s2.shareStep c s.now tp (x.rate k)
  s3.stepClose c cause

/-- A step of a compartment; a disabled one takes none (R27). -/
def State.stepComp (s : State) (c : CompNo) (cause : StepCause) : State :=
  if s.comps[c].settings.enabled then s.takeStep c cause else s

/-- One step for each enabled compartment of a list, in its order (R27, R45). -/
def State.stepAll (s : State) (causeOf : CompNo → StepCause) : List CompNo → State
  | [] => s
  | c :: rest => (s.stepComp c (causeOf c)).stepAll causeOf rest

/-- A blind tick (R31). -/
def State.blindTick (s : State) : State := s.stepAll (fun _ => .blindTick) (places 4)

/-! ### A cycle set's readings of a compartment (R29) -/

/-- The warmest VALID value of a role read under a compartment. -/
def warmest (items : List CycleItem) (c : CompNo) (r : Role) : Option Int :=
  (items.filter fun i => i.outcome == .valid && i.role == r && i.compartment == some c).foldl
    (fun m i => maxOpt m i.value) none

/-- The step a cycle set brings to a compartment. -/
def cycleCause (items : List CycleItem) (c : CompNo) : StepCause := .cycle (warmest items c .exposure) (warmest items c .watch)

/-- The Probe Scanner hands a step with a cycle set (R12). -/
def State.cycleStep (s : State) (items : List CycleItem) : State := s.stepAll (cycleCause items) (places 4)

end Sys2Proof.Machine
end

