-- ==== Sys2Proof/Machine/Hatches.lean ====
section
/-! DEFINITION. The Hatch Contact Monitor (spec/03): levels and debounce, taken changes, compartment openings, the
long-open timer, and the hatch requests. -/

namespace Sys2Proof.Machine

/-! ### Levels (R53) -/

/-- The interpreted level of a contact under a sense. -/
def levelOf (sense : Sense) (made : Bool) : Settled :=
  match sense with
  | .openOnBreak => if made then .shut else .opened
  | .openOnMake => if made then .opened else .shut

/-- The interpreted level of an input. -/
def ContactInput.level (x : ContactInput) : Settled := levelOf x.settings.sense x.made

/-- An input after its contact takes a level, with the debounce time in force (R54, R66). A level that does not change
is no raw change. -/
def ContactInput.rawChange (x : ContactInput) (made : Bool) (debounce : Nat) : ContactInput :=
  if x.made = made then x
  else
    let y := { x with made := made }
    match x.settled with
    | .unsettled => { y with timer := some debounce }
    | _ =>
      match x.timer with
      | some _ => if y.level = y.settled then { y with timer := none, bounces := sat8 (y.bounces + 1) } else y
      | none => if y.level = y.settled then y else { y with timer := some debounce }

/-! ### Openings (R59 to R62) -/

/-- Whether some input naming a compartment is OPEN. -/
def State.anyOpen (s : State) (c : CompNo) : Bool :=
  anyAt s.hatch.inputs fun x => x.settings.compartment == some c && x.settled == .opened

/-- An opening starts at the present time (R60). -/
def State.startOpening (s : State) (c : CompNo) : State :=
  let t := s.setOpening c ⟨.opening, some s.stampNow, 0, .running⟩
  if s.timed then t.updHeldIn c fun x => { x with openings := sat16 (x.openings + 1) } else t

/-- A slot's credit from an opening that began at `start`, up to t (R61). -/
def Slot.creditOpening (x : Slot) (t start : Nat) : Slot :=
  { x with openingSeconds := sat32 (x.openingSeconds + (t - max start x.inTime)) }

/-- The opening start, 0 where none stands. -/
def Opening.startTime (o : Opening) : Nat := match o.start with | some t => t.time | none => 0

/-- The credits of an opening that ends at the present time, with the clock VALID (R61). -/
def State.creditOpenings (s : State) (c : CompNo) : State :=
  if s.timed then s.updHeldIn c fun x => x.creditOpening s.now s.hatch.openings[c].startTime else s

/-- An opening ends at the present time (R61). -/
def State.endOpening (s : State) (c : CompNo) : State := (s.creditOpenings c).setOpening c .shut

/-- The compartment change a taken change to `new` of an input naming the compartment brings (R59). -/
def State.openingChange (s : State) (c : CompNo) (new : Settled) : OpeningChange :=
  match s.hatch.openings[c].state with
  | .shut => if new = .opened then .opened else .none
  | .opening => if new = .shut ∧ s.anyOpen c = false then .closed else .none
  | .openAtStart => if new = .shut ∧ s.anyOpen c = false then .closed else .none

/-- The opening state of a compartment is brought up to date with a compartment change (R59 to R61). -/
def State.moveOpening (s : State) (c : CompNo) : OpeningChange → State
  | .opened => s.startOpening c
  | .closed => if s.hatch.openings[c].state = .opening then s.endOpening c else s.setOpening c .shut
  | .none => s

/-! ### Taken changes (R56 to R58) and first settling (R66) -/

/-- The condition an input raises when its new debounced state is taken (R58). -/
def State.raiseTaken (s : State) (i : InputNo) (new : Settled) : State :=
  match s.hatch.inputs[i].settings.watch with
  | .off => s
  | .change => s.raise (.hatch i)
  | .openLevel => s.raiseIf (new == .opened) (.hatch i)

/-- The pattern watch is evaluated afresh when input i is a member. -/
def State.evaluateIfMember (s : State) (i : InputNo) : State :=
  if s.hatch.inputs[i].settings.member then s.evaluatePattern else s

/-- The HATCH record of a taken change (R57). -/
def State.hatchEntry (s : State) (i : InputNo) (new : Settled) (change : OpeningChange) : Entry :=
  { stamp := s.stampNow, compartment := s.hatch.inputs[i].settings.compartment, body := .hatch i new change }

/-- The compartment change of a taken change; NONE for an input naming no compartment (R57). -/
def State.changeOf (s : State) (i : InputNo) (new : Settled) : OpeningChange :=
  match s.hatch.inputs[i].settings.compartment with
  | some c => s.openingChange c new
  | none => .none

/-- Step 2 of R56. -/
def State.moveOpeningOf (s : State) (i : InputNo) (change : OpeningChange) : State :=
  match s.hatch.inputs[i].settings.compartment with
  | some c => s.moveOpening c change
  | none => s

/-- A taken change of input i to a new debounced state (R56). -/
def State.takeChange (s : State) (i : InputNo) (new : Settled) : State :=
  let s1 := s.setInput i { s.hatch.inputs[i] with settled := new, timer := none }
  let change := s1.changeOf i new
  let s2 := s1.moveOpeningOf i change
  let s3 := s2.handGeneral (s2.hatchEntry i new change)
  (s3.raiseTaken i new).evaluateIfMember i

/-- A compartment that is SHUT becomes OPEN_AT_START (R66). -/
def State.openAtStart (s : State) (c : Option CompNo) : State :=
  match c with
  | some k => if s.hatch.openings[k].state = .shut then s.setOpening k ⟨.openAtStart, none, 0, .stopped⟩ else s
  | none => s

/-- The first settled state of an input after start-up (R66). -/
def State.settleFirst (s : State) (i : InputNo) : State :=
  let x := s.hatch.inputs[i]
  let s1 := s.setInput i { x with settled := x.level, timer := none }
  let s2 := if x.level = .opened then s1.openAtStart x.settings.compartment else s1
  (s2.raiseIf (x.level == .opened && x.settings.watch == .openLevel) (.hatch i)).evaluateIfMember i

/-- The debounce timer of an input expires; one that is not running does not (R54, R56, R66). -/
def State.debounceExpiry (s : State) (i : InputNo) : State :=
  let x := s.hatch.inputs[i]
  match x.timer with
  | some _ => if x.settled = .unsettled then s.settleFirst i else s.takeChange i x.level
  | none => s

/-- The contact of an input takes a level (R53, R54). -/
def State.rawChange (s : State) (i : InputNo) (made : Bool) : State :=
  s.setInput i (s.hatch.inputs[i].rawChange made s.hatch.debounceSteps)

/-! ### The long-open timer (R63) -/

/-- The long-open timer of a compartment expires and LONG_OPEN arises. -/
def State.expireLongOpen (s : State) (c : CompNo) : State :=
  (s.setOpening c { s.hatch.openings[c] with timer := .expired }).raise .longOpen

/-- Whether a compartment's long-open timer runs. -/
def State.longOpenRuns (s : State) (c : CompNo) : Bool :=
  s.hatch.openings[c].state == .opening && s.hatch.openings[c].timer == .running

/-- Whether a compartment's running long-open timer has reached its limit. -/
def State.longOpenDue (s : State) (c : CompNo) : Bool :=
  s.longOpenRuns c && decide (s.comps[c].settings.longOpenLimit ≤ s.hatch.openings[c].elapsed)

/-- A new long-open limit, measured from the opening start, expires a running timer it has overtaken (R63). -/
def State.applyLongOpenLimit (s : State) (c : CompNo) : State := if s.longOpenDue c then s.expireLongOpen c else s

/-! ### Requests -/

/-- The input after new settings are stored: a sense change takes the level afresh (R51). -/
def ContactInput.reset (x : ContactInput) (new : InputSettings) (debounce : Nat) : ContactInput :=
  let y := { x with settings := new }
  if x.settings.sense = new.sense then y
  else
    match y.settled with
    | .unsettled => { y with timer := some debounce }
    | _ => { y with timer := if y.level = y.settled then none else some debounce }

/-- The effects of an accepted HATCH_INPUT_SET (R51). The compartment of its CONFIG record is NONE, whatever compartment
the input names (Table 4-3). Log entry 20. -/
def State.applyInput (s : State) (i : InputNo) (new : InputSettings) : State :=
  let old := s.hatch.inputs[i].settings
  let s1 := s.setInput i (s.hatch.inputs[i].reset new s.hatch.debounceSteps)
  let s2 := s1.raiseIf
    (old.watch != .openLevel && new.watch == .openLevel && s1.hatch.inputs[i].settled == .opened) (.hatch i)
  let s3 := if old.member = new.member then s2 else s2.evaluatePattern
  if old = new then s3 else s3.handConfig none (.hatchInput i new)

/-- HATCH_INPUT_SET (R50, R51). -/
def State.hatchInputSet (s : State) (input compartment sense watch member : Byte) : Answer × State :=
  match numOf 8 input, compOf compartment, senseOf sense, watchOf watch, yesNoOf member with
  | some i, some c, some e, some w, some m =>
    let x := s.hatch.inputs[i]
    if x.settled = .opened ∧ (x.settings.compartment ≠ c ∨ x.settings.sense ≠ e) then s.refusing .wrongState
    else (okay [], s.applyInput i ⟨c, e, w, m⟩)
  | _, _, _, _, _ => s.refusing .badValue

/-- The effects of an accepted HATCH_CONFIG_SET (R52). -/
def State.applyHatchConfig (s : State) (steps : Nat) (band : Bool) : State :=
  let s1 := s.withHatch { s.hatch with debounceSteps := steps, bandRequired := band }
  let s2 := if s.hatch.bandRequired = band then s1 else s1.evaluatePattern
  if s.hatch.debounceSteps = steps ∧ s.hatch.bandRequired = band then s2 else s2.handConfig none (.hatchPart steps band)

/-- HATCH_CONFIG_SET (R52). -/
def State.hatchConfigSet (s : State) (steps bandRequired : Byte) : Answer × State :=
  match yesNoOf bandRequired with
  | some b => (okay [], s.applyHatchConfig (clamp 2 200 steps.toNat) b)
  | none => s.refusing .badValue

/-- What HATCH_STATUS reports of an input (R67). The interpreted level is SHUT 0, OPEN 1, while the debounced state
beside it is SHUT 1, OPEN 2 (Table 3-1): the table of R53 lists the two levels in both orders. The level truth is a
yes/no field, 1 for true, and 0 for an input whose watch is not OPEN_LEVEL, which has no truth (R58, R163);
NOTICE_STATUS sends 0xFF for such an input. Log entry 10. -/
def ContactInput.statusBytes (x : ContactInput) : List Byte :=
  x.settings.bytes ++ le8 (match x.level with | .opened => 1 | _ => 0) ++ le8 x.settled.code ++ yesNo x.timer.isSome
    ++ yesNo x.levelTruth ++ le8 x.bounces

/-- What HATCH_STATUS reports of a compartment (R67). Without an opening in progress the elapsed seconds are 0. Log
entry 10. -/
def Opening.statusBytes (o : Opening) : List Byte :=
  le8 o.state.code ++ stampField? o.start ++ le32 o.elapsed ++ yesNo (o.timer == .expired)

/-- The reply data of HATCH_STATUS (R67). The debounce time is 2 bytes in milliseconds, not the count of 10 ms steps of
its request. The pattern watch's truth is a yes/no field, 1 for true. Log entry 10. -/
def HatchMonitor.statusBytes (h : HatchMonitor) : List Byte :=
  le16 (10 * h.debounceSteps) ++ yesNo h.bandRequired ++ (places 8).flatMap (fun i => h.inputs[i].statusBytes)
    ++ (places 4).flatMap (fun c => h.openings[c].statusBytes) ++ yesNo h.patternTruth

/-- HATCH_STATUS (R67): the reply, and then every bounce count 0. -/
def State.hatchStatus (s : State) : Answer × State :=
  (okay s.hatch.statusBytes, s.withHatch { s.hatch with inputs := mapAll (fun x => { x with bounces := 0 }) s.hatch.inputs })

end Sys2Proof.Machine
end

