-- ==== Sys2Proof/Machine/Consignments.lean ====
section
/-! DEFINITION. The Custody Table (spec/05): taking a consignment into custody, reading the table, releasing a slot. -/

namespace Sys2Proof.Machine

/-! ### CUSTODY_IN (R99 to R108) -/

/-- Whether the payload length fits the upstream mode (R99, R200): 11, 83 or 21 bytes in all. -/
def upstreamFits : Upstream → Bool
  | .none => true
  | .record r => r.length == 72
  | .declared .. => true
  | .unnamed _ rest => rest.length == 0 || rest.length == 10 || rest.length == 72

/-- Whether the mode byte names an upstream mode (R101). -/
def upstreamNamed : Upstream → Bool
  | .unnamed .. => false
  | _ => true

/-- The first check of R102 that an upstream record fails, 1 to 4. -/
def recordFailure (r : UpstreamRecord) (identifier : Word) (now : Nat) : Option Nat :=
  if r.check ≠ r.expectedCheck then some 1
  else if r.kind ≠ 0x5A then some 2
  else if r.identifier ≠ identifier then some 3
  else if now < r.outTime then some 4
  else none

/-- The failure of the upstream record of a request; only RECORD mode has one (R100 check 4). -/
def upstreamFailure (u : Upstream) (identifier : Word) (now : Nat) : Option Nat :=
  match u with
  | .record bytes => recordFailure (readUpstream bytes) identifier now
  | _ => none

/-- What a consignment brings with it (R103, R104). -/
structure Carried where
  mode : UpstreamMode
  exposure : Nat
  cycles : Nat
  blind : Nat
  upstream : Option UpstreamFields
  declared : Bool
  deriving DecidableEq, Repr

/-- The carried-in figures of a request (R103, R104). -/
def carriedOf : Upstream → Carried
  | .none => ⟨.none, 0, 0, 0, none, false⟩
  | .record bytes =>
    let r := readUpstream bytes
    ⟨.record, sat32 (r.carriedExposure + r.exposure), r.totalCycles, r.blind, some r.fields, r.fields.declared⟩
  | .declared e c b => ⟨.declared, e.toNat, c.toNat, b.toNat, none, true⟩
  | .unnamed .. => ⟨.none, 0, 0, 0, none, false⟩

/-- The lowest-numbered EMPTY slot (R105). -/
def State.emptySlot (s : State) : Option SlotNo := lowest s.slots fun x => x.state == .empty

/-- The compartment a CUSTODY_IN names, when it exists and is enabled (R101). -/
def State.enabledComp (s : State) (compartment : Byte) : Option CompNo :=
  match numOf 4 compartment with
  | some c => if s.comps[c].settings.enabled then some c else none
  | none => none

/-- The slot an accepted CUSTODY_IN fills, before its record's sequence is known (R106 step 2). -/
def newSlot (identifier : Word) (c : CompNo) (limit cycleLimit t : Nat) (k : Carried) : Slot :=
  { Slot.blank with
    identifier := identifier
    compartment := c
    state := .inCustody
    inTime := t
    limit := limit
    cycleLimit := cycleLimit
    mode := k.mode
    carriedExposure := k.exposure
    carriedCycles := k.cycles
    carriedBlind := k.blind
    upstream := k.upstream
    lastAccounted := t
    declared := k.declared }

/-- The CUSTODY_IN record (R107). -/
def custodyInEntry (x : Slot) (i : SlotNo) : Entry :=
  { stamp := ⟨x.inTime, false⟩, compartment := some x.compartment,
    body := .custodyIn x.identifier i x.mode x.carriedExposure x.carriedCycles x.limit x.cycleLimit }

/-- The limit check at custody-in (R108). -/
def State.custodyLimit (s : State) (i : SlotNo) : State :=
  if s.slots[i].limit < s.slots[i].carriedExposure then
    (s.setSlot i { s.slots[i] with limitCrossed := true }).raise .exposureLimit
  else s

/-- A slot filled now, with its first share: into a compartment that is UNKNOWN or BLIND the first share is blind (R101),
of the 0 seconds since the custody-in time, and so changes no figure. Every share after it is of the kind of its step
(R30, R36), a live next step's included. Log entry 23. -/
def Slot.firstShare (x : Slot) (valueless : Bool) : Slot := if valueless then x.share x.inTime x.inTime none else x

/-- An accepted CUSTODY_IN that fills slot i (R101, R106). -/
def State.acceptCustody (s : State) (i : SlotNo) (identifier : Word) (c : CompNo) (limit cycleLimit : Nat) (k : Carried) :
    State :=
  let s1 := s.stepComp c .boundary
  let x := { newSlot identifier c limit cycleLimit s.now k with inSeq := s1.log.nextSeq }.firstShare s1.comps[c].valueless
  let s2 := (s1.setSlot i x).handCustody (custodyInEntry x i)
  s2.custodyLimit i

/-- The reply data of an accepted CUSTODY_IN (R106 step 5). -/
def custodyInReply (x : Slot) (i : SlotNo) : List Byte :=
  le8 i.val ++ le32 x.inTime ++ le32 x.inSeq ++ le32 x.carriedExposure ++ yesNo x.limitCrossed

/-- CUSTODY_IN, checked in the order of Table 5-4 (R100). -/
def State.custodyIn (s : State) (identifier : Word) (compartment : Byte) (limit : Word) (cycleLimit : Byte) (u : Upstream) :
    Answer × State :=
  if !upstreamFits u then s.refusing .badLength
  else if !s.timed then s.refusing .noTime
  else if identifier = 0 ∨ limit = 0 ∨ limit.toNat = max32 ∨ upstreamNamed u = false then s.refusing .badValue
  else
    match s.enabledComp compartment with
    | none => s.refusing .badValue
    | some c =>
      if (s.slotOf identifier).isSome then s.refusing .duplicate
      else
        match upstreamFailure u identifier s.now with
        | some n => (⟨.badRecord, le8 n⟩, s)
        | none =>
          match s.emptySlot with
          | none => s.refusing .full
          | some i =>
            if s.log.custodyFits true then
              let t := s.acceptCustody i identifier c limit.toNat cycleLimit.toNat (carriedOf u)
              (okay (custodyInReply t.slots[i] i), t)
            else s.refusing .logHeld

/-! ### Reading the table (R110 to R112) -/

/-- The upstream flags of a RECORD slot (Table 5-2). -/
def UpstreamFields.flagBits (u : UpstreamFields) : Nat := flagsField [u.declared, u.logDeferred, u.disposed]

/-- Seconds left to the deadline of a running handover timer (R110, R119). -/
def State.secondsLeft (s : State) (x : Slot) : Option Nat := x.handover.map fun h => h.deadline - s.now

/-- Every field of Table 5-2 but the proof record, each optional field marked (R110). Log entry 9. -/
def Slot.fieldBytes (x : Slot) : List Byte :=
  le32 x.identifier.toNat ++ le8 x.compartment.val ++ le8 x.state.code ++ le32 x.inTime ++ le32 x.inSeq ++ le32 x.limit
    ++ le8 x.cycleLimit ++ le8 x.mode.code ++ le32 x.carriedExposure ++ le16 x.carriedCycles ++ le32 x.carriedBlind
    ++ marked 8 (x.upstream.map fun u => le64 u.issuer.toNat) ++ marked 4 (x.upstream.map fun u => le32 u.chain.toNat)
    ++ markedTime (x.upstream.map (·.outTime)) ++ marked 1 (x.upstream.map fun u => le8 u.flagBits)
    ++ le32 x.exposure ++ le16 x.cycles ++ le16 x.openings ++ le32 x.openingSeconds ++ le32 x.covered ++ le32 x.blind
    ++ le32 x.lastAccounted ++ le8 x.refusals ++ markedTime (x.handover.map (·.start))
    ++ markedTime (x.handover.map (·.deadline)) ++ markedTime (x.out.map (·.time))
    ++ (seqField (x.out.map (·.sequence)) ++ yesNo x.out.isSome) ++ marked 4 (x.out.map fun o => le32 o.receipt.toNat)
    ++ (le8 (match x.out with | some o => o.outcome.code | none => 0xFF) ++ yesNo x.out.isSome) ++ le8 x.flagBits
    ++ le8 x.openClaims

/-- The reply data of CONSIGNMENT_GET (R110). Without a running handover timer the seconds left take the marker of a
time. Log entry 9. -/
def State.slotBytes (s : State) (i : SlotNo) : List Byte :=
  let x := s.slots[i]
  le8 i.val ++ x.fieldBytes ++ le32 x.totalExposure ++ le16 x.totalCycles ++ yesNo x.handover.isSome
    ++ timeField (s.secondsLeft x)

/-- CONSIGNMENT_GET (R110). -/
def State.consignmentGet (s : State) (identifier : Word) : Answer × State :=
  if identifier = 0 then s.refusing .badValue
  else
    match s.slotOf identifier with
    | some i => (okay (s.slotBytes i), s)
    | none => s.refusing .unknown

/-- Insert a slot number into a list ordered by custody-in sequence. -/
def State.insertBySeq (s : State) (i : SlotNo) : List SlotNo → List SlotNo
  | [] => [i]
  | j :: rest => if s.slots[i].inSeq ≤ s.slots[j].inSeq then i :: j :: rest else j :: s.insertBySeq i rest

/-- The non-EMPTY slots with a custody-in sequence above an index, in its ascending order (R111). -/
def State.listing (s : State) (index : Nat) : List SlotNo :=
  ((places 64).filter fun i => s.slots[i].state != .empty && decide (index < s.slots[i].inSeq)).foldr s.insertBySeq []

/-- The summary of a slot (R111). -/
def State.summaryBytes (s : State) (i : SlotNo) : List Byte :=
  let x := s.slots[i]
  le8 i.val ++ le32 x.identifier.toNat ++ le8 x.compartment.val ++ le8 x.state.code ++ le32 x.inSeq ++ le32 x.inTime
    ++ le8 x.flagBits ++ le8 x.openClaims

/-- The continuation index after the first 16 slots of a listing: absent when none follows (R111). -/
def State.continuation (s : State) (list : List SlotNo) : Option Nat :=
  if 16 < list.length then (list.take 16).getLast?.map fun i => s.slots[i].inSeq else none

/-- CONSIGNMENT_LIST (R111). -/
def State.consignmentList (s : State) (index : Word) : Answer × State :=
  let list := s.listing index.toNat
  (okay (counted ((list.take 16).map s.summaryBytes) ++ seqField (s.continuation list)), s)

/-! ### RELEASE (R113, R114) -/

/-- RELEASE (R113). -/
def State.release (s : State) (identifier : Word) : Answer × State :=
  match s.slotOf identifier with
  | none => s.refusing .unknown
  | some i =>
    if identifier = 0 then s.refusing .unknown
    else if s.slots[i].state ≠ .handedOver then s.refusing .wrongState
    else if 0 < s.slots[i].openClaims then s.refusing .claimed
    else (okay (le8 i.val), s.setSlot i .blank)

/-! ### COMPARTMENT_SET, COMPARTMENT_GET and LOG_INTERVAL_SET (R25, R26, R46, R49) -/

/-- Whether a non-EMPTY slot names a compartment (R25). -/
def State.compNamed (s : State) (c : CompNo) : Bool := anyAt s.slots fun x => x.state != .empty && x.compartment == c

/-- Knowledge, held value and miss count of a compartment that is disabled, enabled afresh or started up. -/
def Compartment.forget (x : Compartment) : Compartment := { x with knowledge := .unknown, held := none, misses := 0 }

/-- With the clock VALID every consignment in custody in a compartment takes its blind credit up to the present time
(R94). Such a consignment in a compartment that is not enabled is left by start-up alone, and COMPARTMENT_SET enables it
again. Log entry 19. -/
def State.creditHeld (s : State) (c : CompNo) : State := if s.timed then s.updHeldIn c (Slot.creditGap s.now) else s

/-- A compartment starts afresh at being enabled (R26); the time for which it took no step is credited as blind (R94, log
entry 19). -/
def State.enableComp (s : State) (c : CompNo) : State :=
  let x := s.comps[c]
  (s.setComp c { x.forget with band := .unset, lastStep := s.stampNow, interval := .opening s.stampNow }).creditHeld c

/-- A compartment is disabled: its interval closes if it holds a step (R26). -/
def State.disableComp (s : State) (c : CompNo) : State :=
  let s1 := if 0 < s.comps[c].interval.steps then s.closeInterval c s.stampNow else s
  (s1.setComp c s1.comps[c].forget).setBand c .unset

/-- The effects of an accepted COMPARTMENT_SET (R26, R63). -/
def State.applyComp (s : State) (c : CompNo) (new : CompSettings) : State :=
  let old := s.comps[c].settings
  let s1 := s.setComp c { s.comps[c] with settings := new }
  let s2 := if old.enabled = new.enabled then s1 else if new.enabled then s1.enableComp c else s1.disableComp c
  let s3 := if old.longOpenLimit = new.longOpenLimit then s2 else s2.applyLongOpenLimit c
  if old.enabled = new.enabled ∧ old.threshold = new.threshold ∧ old.softLine = new.softLine then s3
  else s3.handConfig (some c) (.compartment new.enabled new.threshold new.softLine)

/-- COMPARTMENT_SET (R25, R26). -/
def State.compartmentSet (s : State) (compartment enabled : Byte) (threshold softLine longOpenLimit : Half) :
    Answer × State :=
  match numOf 4 compartment, yesNoOf enabled with
  | some c, some e =>
    let th := threshold.toInt
    let ts := softLine.toInt
    if th < -4000 ∨ 0 < th ∨ ts < th + 100 ∨ 1000 < ts then s.refusing .badValue
    else if e = false ∧ s.comps[c].settings.enabled = true ∧ s.compNamed c = true then s.refusing .occupied
    else (okay [], s.applyComp c ⟨e, th, ts, clamp 10 3600 longOpenLimit.toNat⟩)
  | _, _ => s.refusing .badValue

/-- The open interval as COMPARTMENT_GET reports it, with its mean (R42, R49). The temperature sum is sent as a signed
field of 4 bytes. Log entry 10. -/
def Interval.bytes (a : Interval) : List Byte :=
  le32 a.start ++ le32 a.last ++ le8 a.steps ++ le8 a.live ++ le8 a.held ++ le32 (BitVec.ofInt 32 a.sum).toNat ++ le8 a.count
    ++ tempField a.minimum ++ tempField a.maximum ++ le32 a.increment ++ le32 a.blind ++ tempField a.watchMax
    ++ yesNo a.relative ++ tempField (meanOf a.sum a.count)

/-- The reply data of COMPARTMENT_GET (R49). -/
def State.compBytes (s : State) (c : CompNo) : List Byte :=
  let x := s.comps[c]
  yesNo x.settings.enabled ++ tempField (some x.settings.threshold) ++ tempField (some x.settings.softLine)
    ++ le16 x.settings.longOpenLimit ++ le8 x.knowledge.code ++ le8 x.band.code ++ tempField x.held ++ le8 x.misses
    ++ stampField x.lastStep ++ x.interval.bytes ++ le8 (countAt s.slots fun y => y.heldIn c) ++ le8 s.logInterval

/-- COMPARTMENT_GET (R49). -/
def State.compartmentGet (s : State) (compartment : Byte) : Answer × State :=
  match numOf 4 compartment with
  | some c => (okay (s.compBytes c), s)
  | none => s.refusing .badValue

/-- LOG_INTERVAL_SET (R46). -/
def State.logIntervalSet (s : State) (interval : Byte) : Answer × State :=
  let l := clamp 1 60 interval.toNat
  let t := s.withLogInterval l
  (okay [], if s.logInterval = l then t else t.handConfig none (.interval l))

end Sys2Proof.Machine
end

