-- ==== Sys2Proof/Machine/Claims.lean ====
section
/-! DEFINITION. The Claim Unit (spec/07): opening, gathering, assessing and closing a claim, and the walk. -/

namespace Sys2Proof.Machine

/-- The open claim that holds a reference (R136). -/
def State.claimOf (s : State) (reference : Word) : Option ClaimNo :=
  lowest s.claims.slots fun k => match k with | some x => x.reference == reference | none => false

/-- The window end of a claim: that of its hold (R135). -/
def State.windowEnd (s : State) (i : ClaimNo) : Option Nat :=
  match s.log.holds[i] with
  | some h => h.stop
  | none => none

/-- The lowest-numbered FREE claim slot (R140). -/
def State.freeClaim (s : State) : Option ClaimNo := lowest s.claims.slots (·.isNone)

/-- The top of a claim's range: its window end, or the newest record when that is OPEN (R141, R144). -/
def State.rangeTop (s : State) (i : ClaimNo) : Nat :=
  match s.windowEnd i with
  | some q => q
  | none => s.log.newest.getD 0

/-- Write the queue of the walk engine. -/
def State.withQueue (s : State) (q : List ClaimNo) : State := s.withClaims { s.claims with queue := q }

/-! ### CLAIM_OPEN (R138 to R140) -/

/-- The window end a new claim takes from its slot (R139). -/
def Slot.windowEnd (x : Slot) : Option Nat := if x.state = .handedOver then x.out.map (·.sequence) else none

/-- Whether a fixed window end lies below the oldest record (R139). -/
def Log.evicted (l : Log) (stop : Option Nat) : Bool :=
  match stop, l.oldest with
  | some q, some o => decide (q < o)
  | _, _ => false

/-- The held start: the larger of the requested start and the oldest record's sequence (R139). -/
def Log.heldStart (l : Log) (requested : Nat) : Nat :=
  match l.oldest with
  | some o => max requested o
  | none => requested

/-- A CLAIM record (Table 4-3). Its time is the present time, that at which the request or the walk's end is taken, for
which no rule is given. Log entry 20. -/
def claimEntry (t : Stamp) (c : CompNo) (a : ClaimAction) (k : Claim) (stop : Option Nat)
    (r : Option (Verdict × Evidence)) : Entry :=
  { stamp := t, compartment := some c, body := .claim a k.reference k.identifier k.heldStart stop r }

/-- Change the open-claim count of a slot (R136). -/
def State.countClaim (s : State) (i : SlotNo) (f : Nat → Nat) : State :=
  s.setSlot i { s.slots[i] with openClaims := f s.slots[i].openClaims }

/-- An accepted CLAIM_OPEN of claim slot i on consignment slot j (R140). -/
def State.acceptClaim (s : State) (i : ClaimNo) (j : SlotNo) (reference : Word) : State :=
  let x := s.slots[j]
  let k : Claim :=
    { reference := reference, identifier := x.identifier, slot := j, requestedStart := x.inSeq,
      heldStart := s.log.heldStart x.inSeq, openedAt := s.stampNow, phase := .opened }
  let s1 := (s.setClaim i (some k)).placeHold i ⟨k.heldStart, x.windowEnd⟩
  (s1.countClaim j (· + 1)).handGeneral (claimEntry s.stampNow x.compartment .opened k x.windowEnd none)

/-- CLAIM_OPEN, checked in the order of Table 7-3 (R138). -/
def State.claimOpen (s : State) (reference identifier : Word) : Answer × State :=
  if reference = 0 ∨ identifier = 0 then s.refusing .badValue
  else if (s.claimOf reference).isSome then s.refusing .duplicate
  else
    match s.slotOf identifier with
    | none => s.refusing .unknown
    | some j =>
      match s.freeClaim with
      | none => s.refusing .full
      | some i =>
        let x := s.slots[j]
        if s.log.evicted x.windowEnd then s.refusing .evicted
        else
          (okay (le8 i.val ++ le32 x.inSeq ++ le32 (s.log.heldStart x.inSeq) ++ windowField x.windowEnd),
            s.acceptClaim i j reference)

/-! ### CLAIM_GATHER (R143 to R146) -/

/-- The sequences a mask names: bit i stands for base + i, and a bit that would pass the last sequence is cleared (R143,
R144). -/
def namedBits (base : Nat) (mask : Half) : List (Nat × Nat) :=
  (List.range 16).filterMap fun i => if mask.getLsbD i then some (i, base + i) else none

/-- The bits of a mask left after it is cut to a range (R144). -/
def cutBits (base : Nat) (mask : Half) (bottom top : Nat) : List (Nat × Nat) :=
  (namedBits base mask).filter fun b => decide (bottom ≤ b.2) && decide (b.2 ≤ top) && decide (b.2 ≤ lastSequence)

/-- Serve the bits lowest first: the records delivered and the bits left, whose first is the absent one (R145). -/
def Log.serve (l : Log) : List (Nat × Nat) → List LogRecord × List (Nat × Nat)
  | [] => ([], [])
  | b :: rest =>
    match l.recordAt b.2 with
    | some r => (r :: (l.serve rest).1, (l.serve rest).2)
    | none => ([], b :: rest)

/-- A mask of the listed bits. -/
def bitsMask (bits : List (Nat × Nat)) : Nat := (bits.map fun b => 2 ^ b.1).sum

/-- The reply to a gather of claim slot i (R145). -/
def State.gatherReply (s : State) (i : ClaimNo) (k : Claim) (base : Word) (mask : Half) : Answer :=
  let top := s.rangeTop i
  let served := s.log.serve (cutBits base.toNat mask k.requestedStart top)
  let failing := served.2.head?.map (·.2)
  ⟨if failing.isSome then .missing else .ok,
    seqField failing ++ le32 k.requestedStart ++ le32 k.heldStart ++ le32 top ++ le16 (bitsMask served.2)
      ++ counted (served.1.map LogRecord.image)⟩

/-- CLAIM_GATHER (R143). -/
def State.claimGather (s : State) (reference base : Word) (mask : Half) : Answer × State :=
  if reference = 0 then s.refusing .badValue
  else
    match s.claimOf reference with
    | none => s.refusing .unknown
    | some i =>
      match s.claims.slots[i] with
      | some k => (s.gatherReply i k base mask, s)
      | none => s.refusing .unknown

/-! ### CLAIM_ASSESS (R149, R150) -/

/-- The open-interval increment of a snapshot (R149). -/
def State.openIncrement (s : State) (i : ClaimNo) (c : CompNo) : Option OpenIncrement :=
  match s.windowEnd i with
  | some _ => none
  | none => some ⟨s.comps[c].interval.increment, s.comps[c].interval.relative⟩

/-- The snapshot of a claim on slot x (R149). -/
def State.snapshot (s : State) (i : ClaimNo) (x : Slot) : Snapshot :=
  { state := x.state, compartment := x.compartment, carriedExposure := x.carriedExposure, exposure := x.exposure,
    carriedCycles := x.carriedCycles, cycles := x.cycles, blind := x.blind, openings := x.openings, limit := x.limit,
    cycleLimit := x.cycleLimit, limitCrossed := x.limitCrossed, logDeferred := x.logDeferred, declared := x.declared,
    stop := s.rangeTop i, openIncrement := s.openIncrement i x.compartment, allowance := s.claims.allowance,
    time := s.stampNow }

/-- A walk before its first record: clean while nothing is clipped; the carried-in exposure alone may cross (R151,
R153). -/
def startWalk (k : Claim) (snap : Snapshot) : Walk :=
  { position := k.heldStart, examined := 0, sum := 0, clean := k.heldStart == k.requestedStart,
    crossing := if snap.limit < snap.carriedExposure then .carriedIn else .none, openings := 0, gaps := 0 }

/-- CLAIM_ASSESS (R149). -/
def State.claimAssess (s : State) (reference : Word) : Answer × State :=
  if reference = 0 then s.refusing .badValue
  else
    match s.claimOf reference with
    | none => s.refusing .unknown
    | some i =>
      match s.claims.slots[i] with
      | none => s.refusing .unknown
      | some k =>
        match k.phase with
        | .assessing _ _ => s.refusing .busy
        | _ =>
          let snap := s.snapshot i s.slots[k.slot]
          (okay (le32 snap.stop ++ le8 (sat8 (snap.stop + 1 - k.heldStart))),
            (s.setClaim i (some { k with phase := .assessing snap (startWalk k snap) })).withQueue (s.claims.queue ++ [i]))

/-! ### The walk (R150 to R157) -/

/-- Whether the carried-in exposure plus the running sum is above the limit (R153). -/
def crossesAt (snap : Snapshot) (sum : Nat) : Bool := decide (snap.limit < sat32 (snap.carriedExposure + sum))

/-- An addition to the running sum and the crossing test after it: `place` is the crossing place of a clean walk (R151 to
R153). -/
def Walk.addSum (w : Walk) (snap : Snapshot) (increment : Nat) (place : Crossing) : Walk :=
  let sum := sat32 (w.sum + increment)
  { w with
    sum := sum
    crossing :=
      if w.crossing = .none ∧ crossesAt snap sum = true then (if w.clean then place else .unplaced) else w.crossing }

/-- The treatment of one record by the walk (Table 7-5). A COARSE record of the compartment ends the walk's cleanliness
whether RELATIVE or not (R151); a RELATIVE one adds nothing. Log entry 22. -/
def Walk.treat (w : Walk) (snap : Snapshot) (r : LogRecord) : Walk :=
  let own := r.compartment == some snap.compartment && !r.stamp.relative
  match r.body with
  | .sample b => if own then w.addSum snap b.increment (.record r.sequence r.stamp.time) else w
  | .coarse b =>
    if own then ({ w with clean := false }).addSum snap b.increment .unplaced
    else if r.compartment = some snap.compartment then { w with clean := false }
    else w
  | .hatch _ _ change => if own && change == .opened then { w with openings := w.openings + 1 } else w
  | .gap .. => { w with gaps := w.gaps + 1, clean := false }
  | _ => w

/-- The open-interval addition, the walk's last (R152). -/
def Walk.addOpen (w : Walk) (snap : Snapshot) : Walk :=
  match snap.openIncrement with
  | some o => if o.relative then w else w.addSum snap o.increment .openInterval
  | none => w

/-- The evidence grade (R155). -/
def gradeOf (k : Claim) (snap : Snapshot) (w : Walk) : Evidence :=
  if k.requestedStart < k.heldStart ∨ 0 < w.gaps ∨ snap.logDeferred = true then .partly else .complete

/-- The verdict (R156). -/
def verdictOf (snap : Snapshot) (e : Evidence) : Verdict :=
  if snap.limit < snap.carriedExposure then .upstream
  else if snap.limit < sat32 (snap.carriedExposure + snap.exposure) then .inCustody
  else if snap.cycleLimit ≠ 0 ∧ snap.cycleLimit < sat16 (snap.carriedCycles + snap.cycles) then .inCustodyCycles
  else if snap.allowance < snap.blind ∨ e = .partly then .undetermined
  else .within

/-- The results of a walk whose last addition is done (R157 step 1). -/
def resultsOf (k : Claim) (snap : Snapshot) (w : Walk) : Results :=
  let e := gradeOf k snap w
  { evidence := e, verdict := verdictOf snap e, crossing := w.crossing, recomputed := w.sum, openings := w.openings,
    gaps := w.gaps }

/-- The walk of claim slot i ends (R157). -/
def State.endWalk (s : State) (i : ClaimNo) (k : Claim) (snap : Snapshot) (w : Walk) : State :=
  let r := resultsOf k snap (w.addOpen snap)
  let s1 := (s.setClaim i (some { k with phase := .assessed snap r })).withQueue s.claims.queue.tail
  (s1.handGeneral
    (claimEntry s.stampNow s.slots[k.slot].compartment .assessed k (s.windowEnd i) (some (r.verdict, r.evidence)))).raise
    .assessDone

/-- The walk once the record at its position has been examined (R150, R151). -/
def Walk.examine (w : Walk) (l : Log) (snap : Snapshot) : Walk :=
  let treated := match l.recordAt w.position with
    | some r => w.treat snap r
    | none => w
  { treated with position := w.position + 1, examined := w.examined + 1 }

/-- The engine examines one record of the claim at the head of the queue; after the record at the snapshot end the walk
ends (R150). -/
def State.examineNext (s : State) : State :=
  match s.claims.queue with
  | [] => s
  | i :: _ =>
    match s.claims.slots[i] with
    | some k =>
      match k.phase with
      | .assessing snap w =>
        let w' := w.examine s.log snap
        if snap.stop < w'.position then s.endWalk i k snap w'
        else s.setClaim i (some { k with phase := .assessing snap w' })
      | _ => s
    | none => s

/-! ### CLAIM_GET, CLAIM_LIST and CLAIM_CONFIG_SET (R148, R159, R160) -/

/-- Claim state codes (Table 7-1). -/
def Claim.stateCode (k : Claim) : Nat :=
  match k.phase with
  | .opened => 1
  | .assessing _ _ => 2
  | .assessed _ _ => 3

/-- The snapshot fields in the order of R149. -/
def Snapshot.bytes (p : Snapshot) : List Byte :=
  le8 p.state.code ++ le8 p.compartment.val ++ le32 p.carriedExposure ++ le32 p.exposure ++ le16 p.carriedCycles
    ++ le16 p.cycles ++ le32 p.blind ++ le16 p.openings ++ le32 p.limit ++ le8 p.cycleLimit
    ++ le8 (flagsField [p.limitCrossed, p.logDeferred, p.declared]) ++ le32 p.stop
    ++ marked 5 (p.openIncrement.map fun o => le32 o.increment ++ yesNo o.relative) ++ le32 p.allowance ++ stampField p.time

/-- The snapshot fields of a claim that has none: each takes its absent marker, 0xFF for state and compartment, 0 for
the snapshot end, 0xFFFFFFFF for the snapshot time; the others, for which R201 names no marker, are free bytes. Log
entry 9. -/
def absentSnapshot : List Byte :=
  [0xFF, 0xFF] ++ unstatedAt 2 24 ++ seqField none ++ (unstatedAt 30 5 ++ yesNo false) ++ unstatedAt 36 4 ++ stampField? none

/-- The crossing sequence and time, absent unless the place is RECORD (Table 7-2). -/
def Crossing.bytes (c : Crossing) : List Byte :=
  le8 c.code
    ++ (match c with
      | .record q t => seqField (some q) ++ yesNo true ++ markedTime (some t)
      | _ => seqField Option.none ++ yesNo false ++ markedTime Option.none)

/-- The results in the order of Table 7-2. -/
def Results.bytes (r : Results) : List Byte :=
  le8 r.evidence.code ++ le8 r.verdict.code ++ r.crossing.bytes ++ le32 r.recomputed ++ le8 (sat8 r.openings) ++ le8 (sat8 r.gaps)

/-- The results of a claim that has none: 0xFF for evidence, verdict and crossing place, 0 and 0xFFFFFFFF for the
crossing sequence and time; the others, for which R201 names no marker, are free bytes. Log entry 9. -/
def absentResults : List Byte :=
  [0xFF, 0xFF, 0xFF] ++ (seqField none ++ yesNo false) ++ markedTime none ++ unstatedAt 0 6

/-- The snapshot of a claim, when it has one. -/
def Claim.snapshot? (k : Claim) : Option Snapshot :=
  match k.phase with
  | .opened => none
  | .assessing p _ => some p
  | .assessed p _ => some p

/-- Walk position, count examined and records remaining, in ASSESSING (R159). -/
def Claim.walkBytes? (k : Claim) : Option (List Byte) :=
  match k.phase with
  | .assessing p w => some (le32 w.position ++ le8 (sat8 w.examined) ++ le8 (sat8 (p.stop + 1 - w.position)))
  | _ => none

/-- Walk position, count examined and records remaining of a claim that is not walked: 0 for the position, a sequence;
the two counts have no absent marker. Log entry 9. -/
def absentWalk : List Byte := seqField none ++ unstatedAt 0 2

/-- The results of a claim, when it is ASSESSED. -/
def Claim.resultBytes? (k : Claim) : Option (List Byte) :=
  match k.phase with
  | .assessed _ r => some r.bytes
  | _ => none

/-- The queue place of a claim slot: 0 when being walked (R135). -/
def State.queuePlace (s : State) (i : ClaimNo) : Option Nat :=
  if i ∈ s.claims.queue then some (s.claims.queue.idxOf i) else none

/-- The reply data of CLAIM_GET (R159). -/
def State.claimBytes (s : State) (i : ClaimNo) (k : Claim) : List Byte :=
  le8 i.val ++ le32 k.reference.toNat ++ le32 k.identifier.toNat ++ le8 k.slot.val ++ le8 k.stateCode
    ++ le32 k.requestedStart ++ le32 k.heldStart ++ windowField (s.windowEnd i) ++ stampField k.openedAt
    ++ markedOr absentSnapshot (k.snapshot?.map Snapshot.bytes) ++ markedOr absentWalk k.walkBytes?
    ++ (le8 ((s.queuePlace i).getD 0xFF) ++ yesNo (s.queuePlace i).isSome) ++ markedOr absentResults k.resultBytes?

/-- CLAIM_GET (R159). -/
def State.claimGet (s : State) (reference : Word) : Answer × State :=
  if reference = 0 then s.refusing .badValue
  else
    match s.claimOf reference with
    | none => s.refusing .unknown
    | some i =>
      match s.claims.slots[i] with
      | some k => (okay (s.claimBytes i k), s)
      | none => s.refusing .unknown

/-- What CLAIM_LIST reports of a claim slot (R160); a FREE one has the empty values of R135. -/
def State.claimSummary (s : State) (i : ClaimNo) : List Byte :=
  match s.claims.slots[i] with
  | none => le8 0 ++ le32 0 ++ le32 0 ++ seqField none ++ seqField none ++ [0xFF, 0xFF]
  | some k =>
    le8 k.stateCode ++ le32 k.reference.toNat ++ le32 k.identifier.toNat ++ le32 k.heldStart ++ windowField (s.windowEnd i)
      ++ (match k.phase with
        | .assessed _ r => le8 r.verdict.code ++ le8 r.evidence.code
        | _ => [0xFF, 0xFF])

/-- CLAIM_LIST (R160). -/
def State.claimList (s : State) : Answer × State := (okay ((places 8).flatMap s.claimSummary), s)

/-- CLAIM_CONFIG_SET (R148). -/
def State.claimConfigSet (s : State) (allowance : Word) : Answer × State :=
  let a := clamp 0 86400 allowance.toNat
  let t := s.withClaims { s.claims with allowance := a }
  (okay [], if s.claims.allowance = a then t else t.handConfig none (.claim a))

/-! ### CLAIM_CLOSE (R161) -/

/-- The close of claim slot i (R161 steps 1 to 5; step 7 follows, since the head of the queue is the claim walked). -/
def State.acceptClose (s : State) (i : ClaimNo) (k : Claim) : State :=
  let stop := s.windowEnd i
  let s1 := (s.withQueue (s.claims.queue.filter (· != i))).releaseHold i
  let s2 := (s1.countClaim k.slot (· - 1)).handGeneral
    (claimEntry s.stampNow s.slots[k.slot].compartment .closed k stop none)
  s2.setClaim i none

/-- CLAIM_CLOSE (R161). -/
def State.claimClose (s : State) (reference : Word) : Answer × State :=
  if reference = 0 then s.refusing .badValue
  else
    match s.claimOf reference with
    | none => s.refusing .unknown
    | some i =>
      match s.claims.slots[i] with
      | none => s.refusing .unknown
      | some k =>
        let t := s.acceptClose i k
        (okay (le8 i.val ++ le8 t.slots[k.slot].openClaims), t)

/-! ### Start-up (R137) -/

/-- A claim whose walk end had not been taken returns to OPEN. -/
def Claim.restarted (k : Claim) : Claim :=
  match k.phase with
  | .assessing _ _ => { k with phase := .opened }
  | _ => k

/-- The Claim Unit after start-up, with the restored blind allowance (R137, R148). -/
def ClaimUnit.restarted (u : ClaimUnit) (allowance : Nat) : ClaimUnit :=
  { slots := mapAll (Option.map Claim.restarted) u.slots, queue := [], allowance := allowance }

end Sys2Proof.Machine
end

