-- ==== Sys2Proof/Machine/Handovers.lean ====
section
/-! DEFINITION. Handover and the proof record (spec/06): begin, end, lapse and abandonment of a handover. -/

namespace Sys2Proof.Machine

/-- A HANDOVER_ABANDON record of a slot (R127). -/
def abandonEntry (x : Slot) (i : SlotNo) (r : AbandonReason) (t : Stamp) : Entry :=
  { stamp := t, compartment := some x.compartment, body := .handoverAbandon x.identifier i r x.refusals }

/-- A slot returned from HANDING_OVER to IN_CUSTODY (R120, R123, R132). -/
def Slot.returned (x : Slot) : Slot := { x with state := .inCustody, handover := none }

/-- The return of a slot to IN_CUSTODY with its HANDOVER_ABANDON record (R127). -/
def State.abandon (s : State) (i : SlotNo) (r : AbandonReason) (t : Stamp) : State :=
  let s1 := s.setSlot i s.slots[i].returned
  s1.handCustody (abandonEntry s1.slots[i] i r t)

/-! ### Lapse (R119 to R121) -/

/-- A lapse (R120). -/
def State.lapse (s : State) (i : SlotNo) : State := (s.abandon i .lapsed s.stampNow).raise .handoverLapsed

/-- Whether a slot's running handover timer has reached its deadline. -/
def State.lapseDue (s : State) (i : SlotNo) : Bool :=
  match s.slots[i].state, s.slots[i].handover with
  | .handingOver, some h => decide (h.deadline ≤ s.now)
  | _, _ => false

/-- The slots of a list whose running timer has reached its deadline lapse, in the order of the list (R119). -/
def State.lapseAll (s : State) : List SlotNo → State
  | [] => s
  | i :: rest => (if s.lapseDue i then s.lapse i else s).lapseAll rest

/-! ### HANDOVER_LIMIT_SET and HANDOVER_BEGIN (R116 to R118) -/

/-- HANDOVER_LIMIT_SET (R116). -/
def State.handoverLimitSet (s : State) (limit : Half) : Answer × State :=
  let l := clamp 30 1800 limit.toNat
  let t := s.withHandoverLimit l
  (okay [], if s.handoverLimit = l then t else t.handConfig none (.handover l))

/-- The HANDOVER_BEGIN record (R118 step 3). -/
def beginEntry (x : Slot) (i : SlotNo) (t : Stamp) (deadline : Nat) : Entry :=
  { stamp := t, compartment := some x.compartment, body := .handoverBegin x.identifier i deadline }

/-- The deadline of a handover begun now (R118 step 1). -/
def State.deadline (s : State) : Nat := satTime (s.now + s.handoverLimit)

/-- An accepted HANDOVER_BEGIN (R118). -/
def State.acceptBegin (s : State) (i : SlotNo) : State :=
  let x := s.slots[i]
  (s.setSlot i { x with state := .handingOver, handover := some ⟨s.now, s.deadline⟩ }).handCustody
    (beginEntry x i s.stampNow s.deadline)

/-- HANDOVER_BEGIN, checked in the order of Table 6-2 (R117). -/
def State.handoverBegin (s : State) (identifier : Word) : Answer × State :=
  if !s.timed then s.refusing .noTime
  else if identifier = 0 then s.refusing .badValue
  else
    match s.slotOf identifier with
    | none => s.refusing .unknown
    | some i =>
      if s.slots[i].state ≠ .inCustody then s.refusing .wrongState
      else if s.log.custodyFits false then
        (okay (le8 i.val ++ le32 s.now ++ le32 s.deadline), s.acceptBegin i)
      else s.refusing .logHeld

/-! ### HANDOVER_END (R122 to R125, R128) -/

/-- An accepted HANDOVER_END with outcome REFUSED (R123). -/
def State.acceptRefused (s : State) (i : SlotNo) : State :=
  (s.setSlot i { s.slots[i] with refusals := sat8 (s.slots[i].refusals + 1) }).abandon i .refused s.stampNow

/-- The opening credit of a handover end (R62, R124 step 3). -/
def State.creditEnding (s : State) (i : SlotNo) : State :=
  let x := s.slots[i]
  let o := s.hatch.openings[x.compartment]
  if o.state = .opening then s.setSlot i (x.creditOpening s.now o.startTime) else s

/-- The custody-out fields of a slot, with the sequence its CUSTODY_OUT record will take (R124 steps 4 and 5). -/
def State.setOut (s : State) (i : SlotNo) (o : Outcome) (receipt : Word) : State :=
  s.setSlot i { s.slots[i] with handover := none, out := some ⟨s.now, s.log.nextSeq, receipt, o⟩ }

/-- The CUSTODY_OUT record (R125). -/
def custodyOutEntry (x : Slot) (i : SlotNo) (o : Outcome) (receipt : Word) (t : Stamp) : Entry :=
  { stamp := t, compartment := some x.compartment,
    body := .custodyOut x.identifier i o receipt x.exposure x.cycles x.limitCrossed x.logDeferred x.declared }

/-- Steps 6 and 7 of R124: the proof record is composed and stored, and the slot becomes HANDED_OVER. The chain value is
that of the record just appended, the log's. -/
def State.composeProof (s : State) (i : SlotNo) : State :=
  match s.slots[i].out with
  | some o =>
    s.setSlot i
      { s.slots[i] with
        state := .handedOver
        proof := some (proofRecord s.identity s.label s.slots[i] o s.log.chain) }
  | none => s

/-- The accounting of slot i is brought up to the present time: by the boundary step of its compartment, or, where
start-up has restored the compartment as disabled and no step is taken (R27), by a blind credit (R94, R124 step 2). Log
entry 19. -/
def State.closeAccount (s : State) (i : SlotNo) : State :=
  let c := s.slots[i].compartment
  if s.comps[c].settings.enabled then s.takeStep c .boundary else s.setSlot i (s.slots[i].creditGap s.now)

/-- An accepted HANDOVER_END with outcome ACCEPTED or DISPOSED (R124 steps 1 to 7). -/
def State.acceptEnd (s : State) (i : SlotNo) (o : Outcome) (receipt : Word) : State :=
  let s1 := s.closeAccount i
  let s2 := (s1.creditEnding i).setOut i o receipt
  (s2.handCustody (custodyOutEntry s2.slots[i] i o receipt s2.stampNow)).composeProof i

/-- The reply data of an accepted end (R124 step 8). -/
def State.endReply (s : State) (i : SlotNo) : List Byte :=
  let x := s.slots[i]
  le8 i.val ++ timeField (x.out.map (·.time)) ++ seqField (x.out.map (·.sequence)) ++ le32 s.log.chain.toNat
    ++ le32 x.totalExposure ++ yesNo x.limitCrossed

/-- What an outcome byte asks for: ACCEPTED, DISPOSED, or REFUSED as none (Table 11-3 note 1). The outer none is out of
range. -/
def outcomeOf (b : Byte) : Option (Option Outcome) :=
  if b = 0 then some (some .accepted) else if b = 1 then some (some .disposed) else if b = 2 then some none else none

/-- Whether an end of slot i hands a boundary SAMPLE: an ACCEPTED or DISPOSED one does, unless start-up has restored the
compartment as disabled, when it takes no step (R27, R40, R77). Log entry 19. -/
def State.endSteps (s : State) (i : SlotNo) (o : Option Outcome) : Bool :=
  o.isSome && s.comps[s.slots[i].compartment].settings.enabled

/-- HANDOVER_END, checked in the order of Table 6-3 (R122). -/
def State.handoverEnd (s : State) (identifier : Word) (outcome : Byte) (receipt : Word) : Answer × State :=
  if !s.timed then s.refusing .noTime
  else
    match outcomeOf outcome with
    | none => s.refusing .badValue
    | some o =>
      if identifier = 0 then s.refusing .badValue
      else
        match s.slotOf identifier with
        | none => s.refusing .unknown
        | some i =>
          if s.slots[i].state = .inCustody then s.refusing .lapsed
          else if s.slots[i].state ≠ .handingOver then s.refusing .wrongState
          else if s.log.custodyFits (s.endSteps i o) then
            match o with
            | some out =>
              let t := s.acceptEnd i out receipt
              (okay (t.endReply i), t)
            | none =>
              let t := s.acceptRefused i
              (okay (le8 i.val ++ le8 t.slots[i].refusals), t)
          else s.refusing .logHeld

/-- PROOF_FETCH (R131). -/
def State.proofFetch (s : State) (identifier : Word) : Answer × State :=
  if identifier = 0 then s.refusing .badValue
  else
    match s.slotOf identifier with
    | none => s.refusing .unknown
    | some i =>
      match s.slots[i].state, s.slots[i].proof with
      | .handedOver, some p => (okay (le8 i.val ++ p), s)
      | _, _ => s.refusing .wrongState

/-! ### Start-up (R132) -/

/-- The handovers open at start-up end in ascending slot number, each with a HANDOVER_ABANDON record of reason POWER. -/
def State.abandonAll (s : State) (t : Stamp) : List SlotNo → State
  | [] => s
  | i :: rest => (if s.slots[i].state = .handingOver then s.abandon i .power t else s).abandonAll t rest

end Sys2Proof.Machine
end

