-- ==== Sys2Proof/Machine/ClockUnit.lean ====
section
/-! DEFINITION. The Device Clock's requests (spec/10): TIME_SET, TIME_GET and WIPE. -/

namespace Sys2Proof.Machine

/-! ### A setting from UNSET (R190) -/

/-- Step 1 of R190, and of R191: the clock is VALID at a time, which is the last valid time too. -/
def DeviceClock.setTo (k : DeviceClock) (t : Nat) : DeviceClock := { k with state := .valid, counter := t, lastValid := t }

/-- A compartment passes from relative to device time (R47): an interval that holds a step is closed, the last step time
becomes the new time and a device-time interval opens. -/
def State.rebase (s : State) (c : CompNo) : State :=
  let t := if 0 < s.comps[c].interval.steps then s.closeInterval c s.stampNow else s
  t.setComp c { t.comps[c] with lastStep := s.stampNow, interval := .opening s.stampNow }

/-- Step 2 of R190: the enabled compartments of a list, in its order. -/
def State.rebaseAll (s : State) : List CompNo → State
  | [] => s
  | c :: rest => (if s.comps[c].settings.enabled then s.rebase c else s).rebaseAll rest

/-- Every slot in IN_CUSTODY takes its blind credit up to the present time (R190 step 3, R194). -/
def State.creditGaps (s : State) : State :=
  s.withSlots (mapAll (fun x => if x.state = .inCustody then x.creditGap s.now else x) s.slots)

/-- The opening start of a compartment in OPENING becomes a device time (R65). -/
def Opening.restart (t : Stamp) (o : Opening) : Opening := if o.state = .opening then { o with start := some t } else o

/-- Step 4 of R190. -/
def State.rebaseOpenings (s : State) : State :=
  s.withHatch { s.hatch with openings := mapAll (Opening.restart s.stampNow) s.hatch.openings }

/-- A TIME record at the present time (R190 step 5, R191 step 2). -/
def State.timeEntry (s : State) (previous : Stamp) (k : TimeSetting) : Entry :=
  { stamp := s.stampNow, compartment := none, body := .time previous s.now k }

/-- Steps 1 to 5 of R190. -/
def State.setFromUnset (s : State) (t : Nat) : State :=
  let s1 := ((s.withClock (s.clock.setTo t)).rebaseAll (places 4)).creditGaps.rebaseOpenings
  s1.handGeneral (s1.timeEntry s.stampNow .fromUnset)

/-! ### A trim (R191) -/

/-- Steps 1 and 2 of R191, and the handover timers that the new time reaches (R119). -/
def State.trim (s : State) (t : Nat) : State :=
  let s1 := s.withClock (s.clock.setTo t)
  (s1.handGeneral (s1.timeEntry s.stampNow .trim)).lapseAll (places 64)

/-- TIME_SET (R190). -/
def State.timeSet (s : State) (time : Word) : Answer × State :=
  let t := time.toNat
  if t = max32 then s.refusing .badValue
  else
    match s.clock.state with
    | .unset =>
      if t < s.clock.lastValid then s.refusing .backward else (okay (le32 t), s.setFromUnset t)
    | .valid =>
      if t < s.clock.counter then s.refusing .backward
      else if 120 < t - s.clock.counter then s.refusing .tooFar
      else (okay (le32 t), s.trim t)

/-- The reply data of TIME_GET: clock state, device time, last valid time, uptime counter (R189). -/
def DeviceClock.bytes (k : DeviceClock) : List Byte :=
  le8 k.state.code ++ timeField (if k.state = .valid then some k.counter else none) ++ le32 k.lastValid ++ le32 k.uptime

/-- TIME_GET (R189). -/
def State.timeGet (s : State) : Answer × State := (okay s.clock.bytes, s)

/-! ### WIPE (R196) -/

/-- Whether a slot is in use or a claim open. -/
def State.inUse (s : State) : Bool := anyAt s.slots (·.state != .empty) || anyAt s.claims.slots (·.isSome)

/-- WIPE (R90, R196): the reply carries the next sequence. -/
def State.wipe (s : State) : Answer × State :=
  if s.inUse then s.refusing .occupied
  else
    let t := s.withLog s.log.wiped
    (okay (le32 t.log.nextSeq), t)

end Sys2Proof.Machine
end

