-- ==== Sys2Proof/Machine/Scanning.lean ====
section
/-! DEFINITION. The Probe Scanner (spec/01): cycles, probe reads and their outcomes, conversion and calibration, and the
scanner's requests. -/

namespace Sys2Proof.Machine

/-- Replace the scanner's fields. -/
def State.updScan (s : State) (f : Scanner → Scanner) : State := s.withScan (f s.scan)

/-! ### The range (R4) -/

/-- The entries of a range in read order: first to last, wrapping through 15 to 0. -/
def ScanRange.entries (r : ScanRange) : List EntryNo :=
  if r.first.val ≤ r.last.val then (places 16).filter fun i => decide (r.first.val ≤ i.val) && decide (i.val ≤ r.last.val)
  else
    ((places 16).filter fun i => decide (r.first.val ≤ i.val)) ++ (places 16).filter fun i => decide (i.val ≤ r.last.val)

/-- The entries of a range after an entry. -/
def ScanRange.after (r : ScanRange) (i : EntryNo) : List EntryNo := (r.entries.dropWhile (· != i)).tail

/-- The range most recently written: the pending range when one exists, otherwise the installed range (R5). -/
def Scanner.writtenRange (x : Scanner) : ScanRange := x.pendingRange.getD x.range

/-! ### Conversion and calibration (R13 to R15) -/

/-- The converted value of a raw value, rounded half away from zero (R13). -/
def convert (raw : Int) : Int :=
  let magnitude : Int := ((raw.natAbs * 25 + 2) / 4 : Nat)
  if raw < 0 then -magnitude else magnitude

/-- The calibrated value, clamped to −5500..+8500 (R15). -/
def calibrate (raw offset : Int) : Int := max (-5500) (min (convert raw + 5 * offset) 8500)

/-- The offset a calibration entry gives a completing read, and whether BLANK_OFFSET is set (R14, R174). -/
def OffsetEntry.given : OffsetEntry → Int × Bool
  | .programmed v => (v, false)
  | .blank => (0, true)
  | .programming => (0, true)

/-- The offset used and BLANK_OFFSET for an entry read with the fields `e` (R14). -/
def State.offsetFor (s : State) (i : EntryNo) (e : ScanEntry) : Int × Bool :=
  match e.source with
  | .none => (0, false)
  | .message => (e.message, false)
  | .slotA => s.offsets.slotA[i].given
  | .slotB => s.offsets.slotB[i].given

/-- The outcome of an answer (R10). -/
def answerOutcome (raw : Int) (checkGood : Bool) : ReadOutcome :=
  if !checkGood then .badCheck else if -880 ≤ raw ∧ raw ≤ 1360 then .valid else .outOfRange

/-! ### Cycles (R8 to R12) -/

/-- A cycle ends: the step is handed on, the ending recorded, and the scanner enters a state (R12, R20, R21). -/
def State.endCycle (s : State) (ending : CycleEnding) (next : ScanState) : State :=
  (s.cycleStep s.scan.cycleSet).updScan fun x => { x with lastEnding := ending, state := next, read := none }

/-- A cycle ends normally (R12). -/
def State.endNormally (s : State) : State :=
  s.endCycle .complete (match s.scan.mode with | .continuous => .waiting | .single => .stopped)

/-- An entry becomes the completed entry and joins the cycle set (R10, R11 step 3). -/
def Scanner.complete (x : Scanner) (item : CycleItem) : Scanner :=
  { x with completed := some item.entry, cycleSet := x.cycleSet ++ [item], read := none }

/-- An entry whose address is 0 is passed over (R10). -/
def State.passOver (s : State) (i : EntryNo) : State :=
  let e := s.scan.entries[i]
  s.updScan fun x =>
    { x with rows := setAt x.rows i ⟨.skipped, none, some s.stampNow, none, false⟩ }.complete
      ⟨i, .skipped, none, e.compartment, e.role⟩

/-- A probe read of an entry begins: its fields are taken as they stand (R2, R10). With a settle time of 0 the exchange
starts at once. -/
def State.startRead (s : State) (i : EntryNo) : State :=
  let e := s.scan.entries[i]
  s.updScan fun x => { x with read := some ⟨i, e, if e.settleSteps = 0 then .exchanging else .settling⟩ }

/-- The remaining entries of the range are taken up: unused ones are passed over, the first used one is read, and when
none remains the cycle ends normally (R10, R11 step 4). -/
def State.takeUp (s : State) : List EntryNo → State
  | [] => s.endNormally
  | i :: rest => if s.scan.entries[i].address = 0 then (s.passOver i).takeUp rest else s.startRead i

/-- A cycle starts (R9). -/
def State.startCycle (s : State) : State :=
  let t := s.updScan fun x =>
    { x with range := x.writtenRange, pendingRange := none, cycleSet := [], state := .reading, read := none }
  t.takeUp t.scan.range.entries

/-! ### The end of a read (R11, R16, R17) -/

/-- Failure count and fault mark after a read of an entry that is not VALID; a mark newly set raises PROBE_FAULT (R17). -/
def State.countFailure (s : State) (i : EntryNo) : State :=
  let n := sat8 (s.scan.failures[i] + 1)
  if 3 ≤ n ∧ s.scan.faults[i] = false then
    (s.updScan fun x => { x with failures := setAt x.failures i n, faults := setAt x.faults i true }).raise .probeFault
  else s.updScan fun x => { x with failures := setAt x.failures i n }

/-- A VALID read clears both (R17). -/
def State.clearFailure (s : State) (i : EntryNo) : State :=
  s.updScan fun x => { x with failures := setAt x.failures i 0, faults := setAt x.faults i false }

/-- After a completed read the cycle ends early in HALTING, and otherwise moves on (R11 step 4, R20). -/
def State.moveOn (s : State) (i : EntryNo) : State :=
  if s.scan.state = .halting then s.endCycle .halted .stopped else s.takeUp (s.scan.range.after i)

/-- A read in flight ends without a value (R11). -/
def State.endReadFailed (s : State) (r : ReadInFlight) (o : ReadOutcome) : State :=
  let t := s.updScan fun x => { x with rows := setAt x.rows r.entry ⟨o, none, some s.stampNow, none, false⟩ }
  ((t.countFailure r.entry).updScan fun x => x.complete ⟨r.entry, o, none, r.fields.compartment, r.fields.role⟩).moveOn r.entry

/-- A read in flight ends VALID with a raw value (R11, R13 to R15). -/
def State.endReadValid (s : State) (r : ReadInFlight) (raw : Int) : State :=
  let o := s.offsetFor r.entry r.fields
  let v := calibrate raw o.1
  let t := s.updScan fun x =>
    { x with rows := setAt x.rows r.entry ⟨.valid, some v, some s.stampNow, some r.fields.source, o.2⟩ }
  ((t.clearFailure r.entry).updScan fun x =>
    x.complete ⟨r.entry, .valid, some v, r.fields.compartment, r.fields.role⟩).moveOn r.entry

/-- A probe answer ends the read in flight, when the exchange is open (R10, R11); otherwise it is ignored (R21). -/
def State.probeAnswer (s : State) (raw : Int) (checkGood : Bool) : State :=
  match s.scan.read with
  | some r =>
    match r.phase with
    | .exchanging =>
      if answerOutcome raw checkGood = .valid then s.endReadValid r raw
      else s.endReadFailed r (answerOutcome raw checkGood)
    | .settling => s
  | none => s

/-- The answer window of the read in flight expires (R10, R11). -/
def State.answerWindowExpiry (s : State) : State :=
  match s.scan.read with
  | some r =>
    match r.phase with
    | .exchanging => s.endReadFailed r .noAnswer
    | .settling => s
  | none => s

/-- The settle time of the read in flight ends and the exchange starts (R10). -/
def State.settleExpiry (s : State) : State :=
  match s.scan.read with
  | some r => s.updScan fun x => { x with read := some { r with phase := .exchanging } }
  | none => s

/-- A tick taken by the scanner (R8). -/
def State.takeTick (s : State) : State :=
  match s.scan.state with
  | .waiting => s.startCycle
  | .reading => s.updScan fun x => { x with overruns := sat8 (x.overruns + 1) }
  | .halting => s.updScan fun x => { x with overruns := sat8 (x.overruns + 1) }
  | .stopped => s.blindTick

/-- A tick falls now: the interval after it has the cycle period in force, and the tick is taken (R7, R8). -/
def State.fallTick (s : State) : State := (s.updScan fun x => { x with tickIn := x.period }).takeTick

/-! ### Requests -/

/-- Whether an entry is the current entry (R2). -/
def Scanner.isCurrent (x : Scanner) (i : EntryNo) : Bool :=
  (x.state == .reading || x.state == .halting)
    && (match x.read with | some r => r.entry == i | none => false)

/-- SCAN_ENTRY_SET (R1, R2). -/
def State.scanEntrySet (s : State) (entry address compartment role settleSteps source offset : Byte) : Answer × State :=
  match numOf 16 entry, compOf compartment, roleOf role, sourceOf source, offsetOf offset with
  | some i, some c, some r, some o, some m =>
    if 126 < address.toNat then s.refusing .badValue
    else if s.scan.isCurrent i then s.refusing .collision
    else
      (okay [], s.updScan fun x =>
        { x with entries := setAt x.entries i ⟨address.toNat, c, r, min settleSteps.toNat 25, o, m⟩ })
  | _, _, _, _, _ => s.refusing .badValue

/-- The six fields of a scan entry (Table 1-2, R3). -/
def ScanEntry.bytes (e : ScanEntry) : List Byte :=
  le8 e.address ++ numField e.compartment ++ le8 e.role.code ++ le8 e.settleSteps ++ le8 e.source.code ++ offsetField e.message

/-- SCAN_ENTRY_GET (R3). -/
def State.scanEntryGet (s : State) (entry : Byte) : Answer × State :=
  match numOf 16 entry with
  | some i => (okay s.scan.entries[i].bytes, s)
  | none => s.refusing .badValue

/-- SCAN_RANGE_SET (R5). -/
def State.scanRangeSet (s : State) (first last : Byte) : Answer × State :=
  match numOf 16 first, numOf 16 last with
  | some a, some b =>
    (okay [], s.updScan fun x =>
      match x.state with
      | .stopped => { x with range := ⟨a, b⟩, pendingRange := none }
      | .waiting => { x with range := ⟨a, b⟩, pendingRange := none }
      | .reading => { x with pendingRange := some ⟨a, b⟩ }
      | .halting => { x with pendingRange := some ⟨a, b⟩ })
  | _, _ => s.refusing .badValue

/-- SCAN_CONFIG_SET (R6). -/
def State.scanConfigSet (s : State) (mode : Byte) (period : Half) (autoStart : Byte) : Answer × State :=
  match modeOf mode, yesNoOf autoStart with
  | some m, some a => (okay [], s.updScan fun x => { x with mode := m, period := clamp 5 300 period.toNat, autoStart := a })
  | _, _ => s.refusing .badValue

/-- SCAN_START (R19). -/
def State.scanStart (s : State) : Answer × State :=
  if s.scan.state = .stopped then (okay [], s.updScan fun x => { x with state := .waiting }) else s.refusing .busy

/-- SCAN_HALT (R20). -/
def State.scanHalt (s : State) : Answer × State :=
  match s.scan.state with
  | .reading => (okay [], s.updScan fun x => { x with state := .halting })
  | .waiting => (okay [], s.updScan fun x => { x with state := .stopped })
  | .stopped => (okay [], s)
  | .halting => (okay [], s)

/-- SCAN_STOP (R21). -/
def State.scanStop (s : State) : Answer × State :=
  match s.scan.state with
  | .reading => (okay [], s.endCycle .aborted .stopped)
  | .halting => (okay [], s.endCycle .aborted .stopped)
  | .waiting => (okay [], s.updScan fun x => { x with state := .stopped })
  | .stopped => (okay [], s)

/-- The two bytes of a range. -/
def rangeField (r : Option ScanRange) : List Byte := numField (r.map (·.first)) ++ numField (r.map (·.last))

/-- The reply data of SCAN_STATUS (R22). -/
def Scanner.statusBytes (x : Scanner) : List Byte :=
  le8 x.state.code ++ rangeField (some x.range) ++ rangeField x.pendingRange ++ le8 x.mode.code ++ le16 x.period
    ++ yesNo x.autoStart ++ numField x.completed ++ le8 x.lastEnding.code ++ le8 x.overruns

/-- SCAN_STATUS (R22): the reply, and then an overrun count of 0. -/
def State.scanStatus (s : State) : Answer × State :=
  (okay s.scan.statusBytes, s.updScan fun x => { x with overruns := 0 })

/-- One row of the readings table with its entry's failure count and fault mark (R16, R18). The fault mark is sent as a
yes/no field, 1 for set. Log entry 10. -/
def Scanner.rowBytes (x : Scanner) (i : EntryNo) : List Byte :=
  let r := x.rows[i]
  le8 r.outcome.code ++ tempField r.value ++ stampField? r.stamp
    ++ le8 (match r.source with | some o => o.code | none => 0xFF) ++ yesNo r.blankOffset ++ le8 x.failures[i]
    ++ yesNo x.faults[i]

/-- PROBE_STATUS (R18): the reply, and then every failure count 0. -/
def State.probeStatus (s : State) : Answer × State :=
  (okay ((places 16).flatMap s.scan.rowBytes), s.updScan fun x => { x with failures := Vector.replicate 16 0 })

end Sys2Proof.Machine
end

