-- ==== Sys2Proof/Machine/Stores.lean ====
section
/-! DEFINITION. The Offset Store and the Settings Store (spec/09), and the Notice Unit's requests, whose enables are
part of the working configuration (spec/08). -/

namespace Sys2Proof.Machine

/-! ### Calibration slots (R174 to R180) -/

/-- The sixteen entries of a calibration slot. -/
def OffsetStore.entriesOf (o : OffsetStore) : CalSlot → Vector OffsetEntry 16
  | .slotA => o.slotA
  | .slotB => o.slotB

/-- Replace the sixteen entries of a calibration slot. -/
def OffsetStore.withEntries (o : OffsetStore) (c : CalSlot) (v : Vector OffsetEntry 16) : OffsetStore :=
  match c with
  | .slotA => { o with slotA := v }
  | .slotB => { o with slotB := v }

/-- Replace one entry of a calibration slot. -/
def OffsetStore.setEntry (o : OffsetStore) (c : CalSlot) (i : EntryNo) (x : OffsetEntry) : OffsetStore :=
  o.withEntries c (setAt (o.entriesOf c) i x)

/-- An operation starts: the operation state and the last operation become it, with result NONE (R176, R177). -/
def OffsetStore.begin (o : OffsetStore) (p : StoreOp) : OffsetStore :=
  { o with running := some p, lastOp := some p, lastResult := .none }

/-- OFFSET_ERASE (R176). -/
def State.offsetErase (s : State) (slot : Byte) : Answer × State :=
  match calSlotOf slot with
  | none => s.refusing .badValue
  | some c =>
    if s.offsets.running.isSome then s.refusing .busy
    else (okay (le8 c.code), s.withOffsets ((s.offsets.begin (.erase c)).withEntries c (Vector.replicate 16 .blank)))

/-- OFFSET_PROGRAM, checked in the order of R177. -/
def State.offsetProgram (s : State) (slot entry value : Byte) : Answer × State :=
  match calSlotOf slot, numOf 16 entry, offsetOf value with
  | some c, some i, some v =>
    if s.offsets.running.isSome then s.refusing .busy
    else if (s.offsets.entriesOf c)[i] ≠ .blank then s.refusing .notBlank
    else
      (okay (le8 c.code ++ le8 i.val ++ offsetField v),
        s.withOffsets ((s.offsets.begin (.program c i v)).setEntry c i .programming))
  | _, _, _ => s.refusing .badValue

/-- The store once its operation is done (R178 step 2). -/
def OffsetStore.finished (o : OffsetStore) : OffsetStore := { o with running := none, lastResult := .done }

/-- Steps 3 and 4 of R178. -/
def State.reportStore (s : State) (c : CalSlot) (i : Option EntryNo) (x : OffsetEntry) : State :=
  (s.handConfig none (.offset c i x)).raise .storeDone

/-- The erase in flight completes (R178); without one nothing completes. -/
def State.eraseComplete (s : State) : State :=
  match s.offsets.running with
  | some (.erase c) => (s.withOffsets s.offsets.finished).reportStore c none .blank
  | _ => s

/-- The program in flight completes (R178); without one nothing completes. -/
def State.programComplete (s : State) : State :=
  match s.offsets.running with
  | some (.program c i v) =>
    (s.withOffsets (s.offsets.setEntry c i (.programmed v)).finished).reportStore c (some i) (.programmed v)
  | _ => s

/-- An operation in flight at start-up is not completed: what it touched is BLANK and the result INTERRUPTED (R179). -/
def OffsetStore.settle (o : OffsetStore) : OffsetStore :=
  match o.running with
  | none => o
  | some (.erase c) =>
    { o.withEntries c (Vector.replicate 16 .blank) with running := none, lastResult := .interrupted }
  | some (.program c i _) => { o.setEntry c i .blank with running := none, lastResult := .interrupted }

/-- Slot, entry and value of an operation; a field it has not is absent (R175, R180). Log entry 9. -/
def StoreOp.bytes : StoreOp → List Byte
  | .erase c => le8 c.code ++ [0xFF] ++ unstated 1
  | .program c i v => le8 c.code ++ le8 i.val ++ offsetField v

/-- Operation state code (R175). -/
def runningCode : Option StoreOp → Nat
  | none => 0
  | some (.erase _) => 1
  | some (.program ..) => 2

/-- Kind of the last operation: erase 0, program 1, absent when there has been none. R175 speaks of its kind and lists
none. Log entry 10. -/
def lastKind : Option StoreOp → Byte
  | none => 0xFF
  | some (.erase _) => 0
  | some (.program ..) => 1

/-- The fields of an operation, or those of none. -/
def opBytes : Option StoreOp → List Byte
  | some p => p.bytes
  | none => [0xFF, 0xFF] ++ unstated 1

/-- The reply data of OFFSET_READ (R180). -/
def OffsetStore.statusBytes (o : OffsetStore) (c : CalSlot) : List Byte :=
  (places 16).flatMap (fun i => ((o.entriesOf c)[i]).bytes) ++ le8 (runningCode o.running) ++ opBytes o.running
    ++ [lastKind o.lastOp] ++ opBytes o.lastOp ++ le8 o.lastResult.code

/-- OFFSET_READ (R180). -/
def State.offsetRead (s : State) (slot : Byte) : Answer × State :=
  match calSlotOf slot with
  | some c => (okay (s.offsets.statusBytes c), s)
  | none => s.refusing .badValue

/-! ### The working configuration (R181) -/

/-- The settings as they currently stand in their blocks (R181, Table 9-2 note 1). -/
def State.config (s : State) : WorkingConfig :=
  { entries := s.scan.entries, range := s.scan.writtenRange, mode := s.scan.mode, period := s.scan.period,
    autoStart := s.scan.autoStart, comps := mapAll (·.settings) s.comps, logInterval := s.logInterval,
    inputs := mapAll (·.settings) s.hatch.inputs, debounceSteps := s.hatch.debounceSteps,
    bandRequired := s.hatch.bandRequired, handoverLimit := s.handoverLimit, allowance := s.claims.allowance,
    enables := s.notices.enables, label := s.label }

/-! ### The places of the saved image (R183) -/

/-- The bytes of a working configuration, its items in the order of Table 9-2. Log entry 21. -/
def WorkingConfig.bytes (w : WorkingConfig) : List Byte :=
  (places 16).flatMap (fun i => w.entries[i].bytes) ++ le8 w.range.first.val ++ le8 w.range.last.val ++ le8 w.mode.code
    ++ le16 w.period ++ yesNo w.autoStart
    ++ (places 4).flatMap (fun c => yesNo w.comps[c].enabled ++ tempField (some w.comps[c].threshold)
      ++ tempField (some w.comps[c].softLine) ++ le16 w.comps[c].longOpenLimit)
    ++ le8 w.logInterval ++ (places 8).flatMap (fun i => w.inputs[i].bytes) ++ le8 w.debounceSteps ++ yesNo w.bandRequired
    ++ le16 w.handoverLimit ++ le32 w.allowance ++ le32 (maskOf w.enables) ++ le64 w.label.toNat

/-- The image check over an image and its count: the CRC of R72 (R183). -/
def imageCheck (image : WorkingConfig) (count : Word) : Word := crc32 (image.bytes ++ le32 count.toNat)

/-- A place is valid when its check matches its contents (R183). -/
def Place.valid (p : Place) : Bool := p.check == imageCheck p.image p.count

/-- A check that does not match where `right` would. Log entry 8. -/
def wrongCheck (right : Word) : Word := right ^^^ (if Config.writeDamage right = 0 then 1 else Config.writeDamage right)

/-- A place that holds an image and a count under the check that matches them. -/
def Place.sound (image : WorkingConfig) (count : Word) : Place := ⟨image, count, imageCheck image count⟩

/-- A place that holds an image and a count under a check that does not match them. -/
def Place.broken (image : WorkingConfig) (count : Word) : Place := ⟨image, count, wrongCheck (imageCheck image count)⟩

/-- A place as a write of an image and a count leaves it, whether or not its check then matches (R184, R185). -/
def Place.written (image : WorkingConfig) (count : Word) (matched : Bool) : Place :=
  if matched then .sound image count else .broken image count

/-- Which place is current: 0 as true, 1 as false, none when neither is valid (R183). -/
def SettingsStore.current (x : SettingsStore) : Option Bool :=
  match x.place0.valid, x.place1.valid with
  | true, true => if x.place1.count = x.place0.count + 1 then some false else some true
  | true, false => some true
  | false, true => some false
  | false, false => none

/-- A place by its name. -/
def SettingsStore.place (x : SettingsStore) (zero : Bool) : Place := if zero then x.place0 else x.place1

/-- Write a place. -/
def SettingsStore.setPlace (x : SettingsStore) (zero : Bool) (p : Place) : SettingsStore :=
  if zero then { x with place0 := p } else { x with place1 := p }

/-- The image of the current place, or the defaults when there is none (R185, R186). -/
def SettingsStore.image (x : SettingsStore) : WorkingConfig :=
  match x.current with
  | some z => (x.place z).image
  | none => .default

/-- The save count of the current place. -/
def SettingsStore.count (x : SettingsStore) : Option Word := x.current.map fun z => (x.place z).count

/-- The save count a new image takes: one more than the current place's, or 1 (R183). -/
def SettingsStore.nextCount (x : SettingsStore) : Word :=
  match x.count with
  | some n => n + 1
  | none => 1

/-- The place a save writes: the one that is not current, or place 0 (R183). -/
def SettingsStore.target (x : SettingsStore) : Bool :=
  match x.current with
  | some z => !z
  | none => true

/-- A save starts (R183): its target's check no longer matches from the first byte written. Log entry 13. -/
def SettingsStore.startSave (x : SettingsStore) (image : WorkingConfig) : SettingsStore :=
  let z := x.target
  { x.setPlace z (.broken (x.place z).image (x.place z).count) with saving := some ⟨image, x.nextCount, z⟩, lastResult := .none }

/-- SETTINGS_SAVE (R183). -/
def State.settingsSave (s : State) : Answer × State :=
  if s.settings.saving.isSome then s.refusing .busy
  else (okay (le32 s.settings.nextCount.toNat), s.withSettings (s.settings.startSave s.config))

/-- The Settings Store after the write ends (R184). -/
def SettingsStore.endSave (x : SettingsStore) (w : Saving) (matched : Bool) : SettingsStore :=
  { x.setPlace w.toZero (.written w.image w.count matched) with
    saving := none, lastResult := if matched then .done else .failed }

/-- The settings write ends (R184); without a save in flight nothing ends. -/
def State.saveWriteEnd (s : State) (matched : Bool) : State :=
  match s.settings.saving with
  | some w =>
    let x := s.settings.endSave w matched
    ((s.withSettings x).handConfig none (.saved x.lastResult x.count)).raise .storeDone
  | none => s

/-- A save cut off by start-up: the place is left as the write left it, and its check decides (R185 step 1). -/
def SettingsStore.settle (x : SettingsStore) (landed : Bool) : SettingsStore :=
  match x.saving with
  | some w => { x.setPlace w.toZero (.written w.image w.count landed) with saving := none, lastResult := .interrupted }
  | none => x

/-- The image source of a start-up (R185 step 3). -/
def SettingsStore.sourceNow (x : SettingsStore) : ImageSource := if x.current.isSome then .saved else .defaulted

/-- What SETTINGS_STATUS reports of a place (R186): 'valid or invalid' is a yes/no field, 1 for valid (log entry 10);
the count of an invalid place is log entry 9. -/
def Place.statusBytes (p : Place) : List Byte := yesNo p.valid ++ (if p.valid then le32 p.count.toNat else unstated 4)

/-- The current place as SETTINGS_STATUS reports it: 0 or 1, absent when there is none (R186, R201). -/
def placeByte : Option Bool → Byte
  | some true => 0
  | some false => 1
  | none => 0xFF

/-- The reply data of SETTINGS_STATUS (R186). -/
def State.settingsBytes (s : State) : List Byte :=
  yesNo s.settings.saving.isSome ++ le8 s.settings.lastResult.code ++ s.settings.place0.statusBytes
    ++ s.settings.place1.statusBytes
    ++ [placeByte s.settings.current] ++ le8 s.settings.source.code
    ++ yesNo (decide (s.config ≠ s.settings.image))

/-- SETTINGS_STATUS (R186). -/
def State.settingsStatus (s : State) : Answer × State := (okay s.settingsBytes, s)

/-- LABEL_SET (R182). -/
def State.labelSet (s : State) (label : Wide) : Answer × State :=
  (okay [], if s.label = label then s else (s.withLabel label).handConfig none (.label label))

/-- The revision of the part this document describes (R187). -/
def revision : Nat := 2

/-- The capacities of Table 0-2 in its order, each at the least width that holds it: numbered things by their count, the
probe addresses by their first and last, 1 and 126, the frame payload by its greatest length, 1024, the records by their
number and their size, the offset slots by their number and their entries. Log entry 10. -/
def capacityBytes : List Byte :=
  le8 4 ++ le8 16 ++ le8 1 ++ le8 126 ++ le8 8 ++ le8 64 ++ le8 8 ++ le16 4096 ++ le8 32 ++ le8 2 ++ le8 16 ++ le8 18 ++ le8 4
    ++ le16 1024 ++ le8 72

/-- The link counts in the order of Table 11-1. -/
def LinkCounts.bytes (n : LinkCounts) : List Byte := le16 n.length ++ le16 n.check ++ le16 n.silence ++ le16 n.overflow

/-- IDENTIFY (R187). -/
def State.identify (s : State) : Answer × State :=
  (okay (le64 s.identity.toNat ++ le8 revision ++ le64 s.label.toNat ++ capacityBytes ++ le8 s.clock.state.code
    ++ s.link.counts.bytes), s)

/-! ### Notice requests (R164, R169, R172) -/

/-- The conditions whose enable a mask clears leave the pending set, and the enables are written (R164). -/
def State.writeEnables (s : State) (mask : Word) : List Condition → State
  | [] => s.withNotices { s.notices with enables := enablesOf mask }
  | c :: rest =>
    (if s.notices.enables[c.place] && !inMask mask c then s.withNotices (s.notices.drop c.place) else s).writeEnables mask rest

/-- The conditions of a list arise, each when its truth holds. -/
def State.raiseTrue (s : State) : List Condition → State
  | [] => s
  | c :: rest => (s.raiseIf (s.truth c) c).raiseTrue rest

/-- The conditions whose enable a mask sets (R164). -/
def State.newlyEnabled (s : State) (mask : Word) : List Condition :=
  Condition.all.filter fun c => !s.notices.enables[c.place] && inMask mask c

/-- The effects of an accepted NOTICE_ENABLE (R164). The CONFIG record is handed after the removals and the raises, so
the LOG_HELD of a record that the log enters HELD_FULL with meets the new enables; R164 gives no order. Log entry 25. -/
def State.applyEnables (s : State) (mask : Word) : State :=
  let t := (s.writeEnables mask Condition.all).raiseTrue (s.newlyEnabled mask)
  if s.notices.enables = enablesOf mask then t else t.handConfig none (.notice (enablesOf mask))

/-- NOTICE_ENABLE (R164). -/
def State.noticeEnable (s : State) (mask : Word) : Answer × State :=
  if maskTooWide mask then s.refusing .badValue
  else
    let t := s.applyEnables mask
    (okay (le32 (maskOf t.notices.enables) ++ le32 (maskOf t.notices.members)), t)

/-- The named conditions leave the pending set (R169 step 1). -/
def State.dropNamed (s : State) (mask : Word) : List Condition → State
  | [] => s
  | c :: rest => (if inMask mask c then s.withNotices (s.notices.drop c.place) else s).dropNamed mask rest

/-- The conditions a clear removes (R169). -/
def State.removedBy (s : State) (mask : Word) : List Condition :=
  Condition.all.filter fun c => inMask mask c && s.notices.members[c.place]

/-- The conditions that re-arise after a clear: enabled, with their truth holding (R169 step 2). -/
def State.rearising (s : State) (mask : Word) : List Condition :=
  (s.removedBy mask).filter fun c => s.truth c && s.notices.enables[c.place]

/-- Steps 1 and 2 of R169. -/
def State.applyClear (s : State) (mask : Word) : State := (s.dropNamed mask Condition.all).raiseTrue (s.rearising mask)

/-- A mask of the listed conditions, in the bit order of R164. The conditions that re-arose stand in the reply of
NOTICE_CLEAR as such a mask of 4 bytes: R169 gives no coding. Log entry 10. -/
def conditionMask (cs : List Condition) : Nat := maskOf (Vector.ofFn fun k => cs.any fun c => c.place == k)

/-- NOTICE_CLEAR (R169). -/
def State.noticeClear (s : State) (mask : Word) : Answer × State :=
  if maskTooWide mask then s.refusing .badValue
  else
    let t := s.applyClear mask
    (okay (le32 (maskOf t.notices.members) ++ le32 (conditionMask (s.rearising mask))), t)

/-- The truth NOTICE_STATUS reports for an input: only with watch OPEN_LEVEL (R172). The byte of any other input keeps
its place and is 0xFF. Log entry 10. -/
def State.hatchTruthByte (s : State) (i : InputNo) : Byte :=
  match s.hatch.inputs[i].settings.watch with
  | .openLevel => if s.truth (.hatch i) then 1 else 0
  | _ => 0xFF

/-- The reply data of NOTICE_STATUS (R172). Truths are yes/no fields, 1 for true, and stand in the order of Table 8-1,
BLIND's between PATTERN's and LOG_HELD's: R172 names no order. Log entry 10. -/
def State.noticeBytes (s : State) : List Byte :=
  let u := s.notices
  le32 (maskOf u.enables) ++ le32 (maskOf u.members) ++ numField u.highest ++ (places 18).flatMap (fun k => le8 u.counts[k])
    ++ yesNo (s.truth .pattern) ++ yesNo (s.truth .blind) ++ yesNo (s.truth .logHeld) ++ yesNo (s.truth .clockLost)
    ++ (places 8).map s.hatchTruthByte ++ yesNo u.owed ++ le8 u.lastNumber

/-- NOTICE_STATUS (R172). -/
def State.noticeStatus (s : State) : Answer × State := (okay s.noticeBytes, s)

/-! ### The log's requests (R88, R89) -/

/-- The records a LOG_READ returns (R88). -/
def Log.readFrom (l : Log) (start count : Nat) : List LogRecord :=
  (l.records.filter fun r => decide (start ≤ r.sequence)).take count

/-- Whether a sequence lies below the oldest record (R88). -/
def Log.belowOldest (l : Log) (q : Nat) : Bool :=
  match l.oldest with
  | some o => decide (q < o)
  | none => false

/-- LOG_READ (R88). A from sequence of 0, the absent marker of a sequence, is a sequence below the oldest record and is
not refused. Log entry 26. -/
def State.logRead (s : State) (start : Word) (count : Byte) : Answer × State :=
  if count = 0 ∨ 16 < count.toNat then s.refusing .badValue
  else
    (⟨if s.log.belowOldest start.toNat then .partly else .ok,
      counted ((s.log.readFrom start.toNat count.toNat).map LogRecord.image) ++ seqField s.log.oldest
        ++ seqField s.log.newest⟩, s)

/-- The lowest held start among the holds (R89). -/
def Log.lowestHold (l : Log) : Option Nat :=
  (places 8).foldl (fun m i =>
    match l.holds[i], m with
    | some h, some q => some (min h.start q)
    | some h, none => some h.start
    | none, _ => m) none

/-- The reply data of LOG_STATUS (R89). The held-full start time, present or absent, has a RELATIVE mark after it, which
R89 does not name. Log entry 10. -/
def Log.statusBytes (l : Log) : List Byte :=
  seqField l.oldest ++ seqField l.newest ++ le16 l.records.length ++ le32 l.nextSeq ++ le32 l.chain.toNat ++ yesNo l.heldFull
    ++ stampField? l.heldSince ++ yesNo l.ended ++ le16 l.hatchLost ++ le16 l.claimLost ++ le16 l.otherLost
    ++ le16 l.custodyLost ++ le8 (countAt l.holds (·.isSome)) ++ seqField l.lowestHold
    ++ (places 4).flatMap fun c => le16 (match l.coarse[c] with | some a => a.merged | none => 0)

/-- LOG_STATUS (R89). -/
def State.logStatus (s : State) : Answer × State := (okay s.log.statusBytes, s)

end Sys2Proof.Machine
end

