-- ==== Sys2Proof/Machine/StartUp.lean ====
section
/-! DEFINITION. Start-up (spec/10, R193 to R195) with each block's part of it, and the loss of the supply. -/

namespace Sys2Proof.Machine

/-! ### Each block's start-up state -/

/-- The Probe Scanner after start-up (R23). -/
def Scanner.started (w : WorkingConfig) : Scanner :=
  { entries := w.entries, range := w.range, pendingRange := none, mode := w.mode, period := w.period,
    autoStart := w.autoStart, state := if w.autoStart then .waiting else .stopped, read := none, cycleSet := [],
    completed := none, lastEnding := .none, overruns := 0, rows := Vector.replicate 16 .cleared,
    failures := Vector.replicate 16 0, faults := Vector.replicate 16 false, tickIn := w.period }

/-- A compartment after start-up, its retained interval still in place: step 8a closes it (R48). -/
def Compartment.started (x : Compartment) (new : CompSettings) : Compartment :=
  { x.forget with settings := new, band := .unset }

/-- The compartments after start-up (R48). -/
def State.startedComps (s : State) (w : WorkingConfig) : Vector Compartment 4 :=
  Vector.ofFn fun c => s.comps[c].started w.comps[c]

/-- A contact input after start-up, its first debounce timer running (R66). -/
def ContactInput.started (x : ContactInput) (new : InputSettings) (debounce : Nat) : ContactInput :=
  { settings := new, made := x.made, settled := .unsettled, timer := some debounce, bounces := 0 }

/-- The Hatch Contact Monitor after start-up (R66). -/
def HatchMonitor.started (h : HatchMonitor) (w : WorkingConfig) : HatchMonitor :=
  { inputs := Vector.ofFn fun i => h.inputs[i].started w.inputs[i] w.debounceSteps, openings := Vector.replicate 4 .shut,
    debounceSteps := w.debounceSteps, bandRequired := w.bandRequired, patternTruth := false }

/-- The Message Link after start-up (R203). The frames already sent whole stay in the model's record of them. -/
def Link.started (l : Link) : Link :=
  { receiver := .hunting, queue := [], transmitter := .idle, reply := none, counts := ⟨0, 0, 0, 0⟩, sent := l.sent }

/-- The Settings Store after start-up (R185 steps 1 to 3). -/
def SettingsStore.started (x : SettingsStore) (landed : Bool) : SettingsStore :=
  { x.settle landed with source := (x.settle landed).sourceNow }

/-- Steps 3, 5 and 6 of R193: the stores settle, the working configuration is restored and every block takes its start-up
state. -/
def State.startBlocks (s : State) : State :=
  let settings := s.settings.started (Config.cutOffWriteValid s.free)
  let w := settings.image
  { s with
    scan := .started w
    comps := s.startedComps w
    logInterval := w.logInterval
    hatch := s.hatch.started w
    handoverLimit := w.handoverLimit
    claims := s.claims.restarted w.allowance
    notices := { s.notices.emptied with enables := w.enables }
    offsets := s.offsets.settle
    settings := settings
    label := w.label
    link := s.link.started
    clock := { s.clock with uptime := 0 } }

/-! ### Records and credits (R193 step 8) -/

/-- Step 8a: the retained intervals that hold a step are closed, in the order of the list (R48). -/
def State.closeRetained (s : State) : List CompNo → State
  | [] => s
  | c :: rest => (if 0 < s.comps[c].interval.steps then s.closeInterval c s.stampNow else s).closeRetained rest

/-- How many slots stand in HANDING_OVER (R194). -/
def State.handingOver (s : State) : Nat := countAt s.slots (·.state == .handingOver)

/-- Step 8c: the blind gap credits, with the clock VALID (R194). -/
def State.creditStart (s : State) : State := if s.timed then s.creditGaps else s

/-- Step 8d: the CONFIG record of a part that starts DEFAULTED (R185 step 4). -/
def State.recordDefaulted (s : State) : State :=
  if s.settings.source = .defaulted then s.handConfig none .defaulted else s

/-- The POWER record; `since` is the time from which its gap is measured (R194). -/
def State.powerEntry (s : State) (r : StartReason) (since abandoned : Nat) : Entry :=
  { stamp := s.stampNow, compartment := none,
    body := .power r (if s.timed then some (s.now - since) else none) s.clock.state abandoned }

/-- Step 8. -/
def State.startRecords (s : State) (r : StartReason) (since : Nat) : State :=
  let n := s.handingOver
  let t := (((s.closeRetained (places 4)).abandonAll s.stampNow (places 64)).creditStart).recordDefaulted
  t.handGeneral (t.powerEntry r since n)

/-! ### The end of start-up (R193 step 9) -/

/-- The last step time and the new interval of a compartment (R48). -/
def Compartment.opened (t : Stamp) (x : Compartment) : Compartment := { x with lastStep := t, interval := .opening t }

/-- Start-up ends: last step times and intervals take the start-up time, raises handed before this are dropped, and
CLOCK_LOST and LOG_HELD arise when their truth holds (R173, R193). -/
def State.endStart (s : State) : State :=
  (((s.withComps (mapAll (Compartment.opened s.stampNow) s.comps)).withNotices s.notices.emptied).raiseIf
    (s.truth .clockLost) .clockLost).raiseIf (s.truth .logHeld) .logHeld

/-- Start-up from the moment the clock state is decided; the start-up time is the present time of `s` (R193 steps 3 to
9). -/
def State.startUp (s : State) (r : StartReason) (since : Nat) : State :=
  ((s.startBlocks.startRecords r since).endStart).withFree (s.free + 1)

/-! ### The three events -/

/-- An opening in progress is ended and credited, with the clock VALID (R66, R193 step 2). -/
def State.creditOpen (s : State) (c : CompNo) : State := if s.hatch.openings[c].state = .opening then s.creditOpenings c else s

/-- Step 2 of R193, over a list of compartments. -/
def State.creditOpenAll (s : State) : List CompNo → State
  | [] => s
  | c :: rest => (s.creditOpen c).creditOpenAll rest

/-- The clock as start-up passes with VDD present (R188). -/
def DeviceClock.pass (n : Nat) (k : DeviceClock) : DeviceClock :=
  { k with counter := satTime (k.counter + n), lastValid := if k.state = .valid then satTime (k.counter + n) else k.lastValid }

/-- A start-up with VDD present throughout, `n` seconds after the event was taken (R188, R193, R194). -/
def State.restartAs (s : State) (r : StartReason) (n : Nat) : State :=
  let t := s.creditOpenAll (places 4)
  (t.withClock (t.clock.pass n)).startUp r s.now

/-- The clock at a power-on: VALID if it was VALID when the supply failed and the cell kept it, else UNSET with a counter
that means nothing but keeps its range (R188, spec/00 section 4.1). -/
def DeviceClock.powered (k : DeviceClock) (absence : Nat) (held : Bool) (lost : Nat) : DeviceClock :=
  if k.state = .valid ∧ held = true then
    { k with counter := satTime (k.counter + absence), lastValid := satTime (k.counter + absence) }
  else { k with state := .unset, counter := satTime lost }

/-- Start-up with reason POWER_ON, `absence` seconds after the supply failed (R193, R194). -/
def State.powerUp (s : State) (absence : Nat) (held : Bool) : State :=
  ((s.withPower .on).withClock (s.clock.powered absence held (Config.lostCounter s.free))).startUp .powerOn s.clock.lastValid

/-- The supply fails: the frame being sent stops where it is, the pending set is lost and ALERT released, and the clock
runs from VBAT or stops (R188, R193, R203). -/
def State.failSupply (s : State) (cellGood : Bool) : State :=
  (((s.withPower .off).withNotices s.notices.emptied).withLink { s.link with transmitter := .idle }).withClock
    { s.clock with state := if cellGood then s.clock.state else .unset }

end Sys2Proof.Machine
end

