-- ==== Sys2Proof/Machine/Requests.lean ====
section
/-! DEFINITION. Request kinds and payloads (Table 11-3): how a request is written into a payload, how a payload is read
(R200), and which rule carries a request out. -/

namespace Sys2Proof

/-- The kind of a request (Table 11-3). -/
def Request.kind : Request → Byte
  | .scanEntrySet .. => 0x01
  | .scanEntryGet _ => 0x02
  | .scanRangeSet .. => 0x03
  | .scanConfigSet .. => 0x04
  | .scanStart => 0x05
  | .scanHalt => 0x06
  | .scanStop => 0x07
  | .scanStatus => 0x08
  | .probeStatus => 0x09
  | .compartmentSet .. => 0x10
  | .compartmentGet _ => 0x11
  | .logIntervalSet _ => 0x12
  | .hatchInputSet .. => 0x18
  | .hatchConfigSet .. => 0x19
  | .hatchStatus => 0x1A
  | .logRead .. => 0x20
  | .logStatus => 0x21
  | .custodyIn .. => 0x28
  | .consignmentGet _ => 0x29
  | .consignmentList _ => 0x2A
  | .release _ => 0x2B
  | .handoverLimitSet _ => 0x30
  | .handoverBegin _ => 0x31
  | .handoverEnd .. => 0x32
  | .proofFetch _ => 0x33
  | .claimOpen .. => 0x38
  | .claimGather .. => 0x39
  | .claimAssess _ => 0x3A
  | .claimGet _ => 0x3B
  | .claimList => 0x3C
  | .claimClose _ => 0x3D
  | .claimConfigSet _ => 0x3E
  | .noticeEnable _ => 0x40
  | .noticeClear _ => 0x41
  | .noticeStatus => 0x42
  | .offsetErase _ => 0x48
  | .offsetProgram .. => 0x49
  | .offsetRead _ => 0x4A
  | .settingsSave => 0x50
  | .settingsStatus => 0x51
  | .labelSet _ => 0x52
  | .timeSet _ => 0x58
  | .timeGet => 0x59
  | .identify => 0x5A
  | .restart => 0x5B
  | .wipe => 0x5C

namespace Machine

/-! ### Writing a payload (Table 11-3) -/

/-- A two-byte operand. -/
def half (x : Half) : List Byte := le16 x.toNat

/-- A four-byte operand. -/
def word (x : Word) : List Byte := le32 x.toNat

end Machine

open Machine in
/-- The mode byte and what follows it in a CUSTODY_IN (R99). -/
def Upstream.bytes : Upstream → List Byte
  | .none => [0]
  | .record r => 1 :: r
  | .declared e c b => 2 :: (word e ++ half c ++ word b)
  | .unnamed m rest => m :: rest

open Machine in
/-- The payload of a request (Table 11-3). -/
def Request.payload : Request → List Byte
  | .scanEntrySet e a c r st so o => [e, a, c, r, st, so, o]
  | .scanEntryGet e => [e]
  | .scanRangeSet a b => [a, b]
  | .scanConfigSet m p a => [m] ++ half p ++ [a]
  | .scanStart => []
  | .scanHalt => []
  | .scanStop => []
  | .scanStatus => []
  | .probeStatus => []
  | .compartmentSet c e th ts l => [c, e] ++ half th ++ half ts ++ half l
  | .compartmentGet c => [c]
  | .logIntervalSet l => [l]
  | .hatchInputSet i c e w m => [i, c, e, w, m]
  | .hatchConfigSet d b => [d, b]
  | .hatchStatus => []
  | .logRead q n => word q ++ [n]
  | .logStatus => []
  | .custodyIn i c l cl u => word i ++ [c] ++ word l ++ [cl] ++ u.bytes
  | .consignmentGet i => word i
  | .consignmentList q => word q
  | .release i => word i
  | .handoverLimitSet l => half l
  | .handoverBegin i => word i
  | .handoverEnd i o r => word i ++ [o] ++ word r
  | .proofFetch i => word i
  | .claimOpen r i => word r ++ word i
  | .claimGather r b m => word r ++ word b ++ half m
  | .claimAssess r => word r
  | .claimGet r => word r
  | .claimList => []
  | .claimClose r => word r
  | .claimConfigSet a => word a
  | .noticeEnable m => word m
  | .noticeClear m => word m
  | .noticeStatus => []
  | .offsetErase c => [c]
  | .offsetProgram c i v => [c, i, v]
  | .offsetRead c => [c]
  | .settingsSave => []
  | .settingsStatus => []
  | .labelSet l => le64 l.toNat
  | .timeSet t => word t
  | .timeGet => []
  | .identify => []
  | .restart => []
  | .wipe => []

namespace Machine

/-- The request frame a host sends for a request with a tag (R197, Table 11-3). -/
def requestFrame (tag : Byte) (r : Request) : Frame := ⟨r.kind, tag, r.payload⟩

/-! ### Reading a payload (R200) -/

/-- The byte at an offset of a payload. -/
def byteAt (p : List Byte) (i : Nat) : Byte := p.getD i 0

/-- The two-byte field at an offset. -/
def halfAt (p : List Byte) (i : Nat) : Half := BitVec.ofNat 16 (fieldAt p i 2)

/-- The four-byte field at an offset. -/
def wordAt (p : List Byte) (i : Nat) : Word := BitVec.ofNat 32 (fieldAt p i 4)

/-- The eight-byte field at an offset. -/
def wideAt (p : List Byte) (i : Nat) : Wide := BitVec.ofNat 64 (fieldAt p i 8)

/-- The request of a kind with the one length Table 11-3 gives it (R200 test 2). -/
def sized (n : Nat) (p : List Byte) (r : Request) : Except Status Request :=
  if p.length = n then .ok r else .error .badLength

/-- The upstream part of a CUSTODY_IN payload of 11 bytes or more, when the length fits its mode byte (R200 test 2). -/
def upstreamAt (p : List Byte) : Option Upstream :=
  let m := byteAt p 10
  if m = 0 then if p.length = 11 then some .none else none
  else if m = 1 then if p.length = 83 then some (.record (p.drop 11)) else none
  else if m = 2 then if p.length = 21 then some (.declared (wordAt p 11) (halfAt p 15) (wordAt p 17)) else none
  else if p.length = 11 ∨ p.length = 21 ∨ p.length = 83 then some (.unnamed m (p.drop 11))
  else none

/-- Read a CUSTODY_IN payload. -/
def parseCustodyIn (p : List Byte) : Except Status Request :=
  if p.length < 11 then .error .badLength
  else
    match upstreamAt p with
    | some u => .ok (.custodyIn (wordAt p 0) (byteAt p 4) (wordAt p 5) (byteAt p 9) u)
    | none => .error .badLength

/-- Tests 1 and 2 of R200: the request of a frame's kind and payload, or the status that refuses it. -/
def parse (kind : Byte) (p : List Byte) : Except Status Request :=
  match kind.toNat with
  | 0x01 => sized 7 p
      (.scanEntrySet (byteAt p 0) (byteAt p 1) (byteAt p 2) (byteAt p 3) (byteAt p 4) (byteAt p 5) (byteAt p 6))
  | 0x02 => sized 1 p (.scanEntryGet (byteAt p 0))
  | 0x03 => sized 2 p (.scanRangeSet (byteAt p 0) (byteAt p 1))
  | 0x04 => sized 4 p (.scanConfigSet (byteAt p 0) (halfAt p 1) (byteAt p 3))
  | 0x05 => sized 0 p .scanStart
  | 0x06 => sized 0 p .scanHalt
  | 0x07 => sized 0 p .scanStop
  | 0x08 => sized 0 p .scanStatus
  | 0x09 => sized 0 p .probeStatus
  | 0x10 => sized 8 p (.compartmentSet (byteAt p 0) (byteAt p 1) (halfAt p 2) (halfAt p 4) (halfAt p 6))
  | 0x11 => sized 1 p (.compartmentGet (byteAt p 0))
  | 0x12 => sized 1 p (.logIntervalSet (byteAt p 0))
  | 0x18 => sized 5 p (.hatchInputSet (byteAt p 0) (byteAt p 1) (byteAt p 2) (byteAt p 3) (byteAt p 4))
  | 0x19 => sized 2 p (.hatchConfigSet (byteAt p 0) (byteAt p 1))
  | 0x1A => sized 0 p .hatchStatus
  | 0x20 => sized 5 p (.logRead (wordAt p 0) (byteAt p 4))
  | 0x21 => sized 0 p .logStatus
  | 0x28 => parseCustodyIn p
  | 0x29 => sized 4 p (.consignmentGet (wordAt p 0))
  | 0x2A => sized 4 p (.consignmentList (wordAt p 0))
  | 0x2B => sized 4 p (.release (wordAt p 0))
  | 0x30 => sized 2 p (.handoverLimitSet (halfAt p 0))
  | 0x31 => sized 4 p (.handoverBegin (wordAt p 0))
  | 0x32 => sized 9 p (.handoverEnd (wordAt p 0) (byteAt p 4) (wordAt p 5))
  | 0x33 => sized 4 p (.proofFetch (wordAt p 0))
  | 0x38 => sized 8 p (.claimOpen (wordAt p 0) (wordAt p 4))
  | 0x39 => sized 10 p (.claimGather (wordAt p 0) (wordAt p 4) (halfAt p 8))
  | 0x3A => sized 4 p (.claimAssess (wordAt p 0))
  | 0x3B => sized 4 p (.claimGet (wordAt p 0))
  | 0x3C => sized 0 p .claimList
  | 0x3D => sized 4 p (.claimClose (wordAt p 0))
  | 0x3E => sized 4 p (.claimConfigSet (wordAt p 0))
  | 0x40 => sized 4 p (.noticeEnable (wordAt p 0))
  | 0x41 => sized 4 p (.noticeClear (wordAt p 0))
  | 0x42 => sized 0 p .noticeStatus
  | 0x48 => sized 1 p (.offsetErase (byteAt p 0))
  | 0x49 => sized 3 p (.offsetProgram (byteAt p 0) (byteAt p 1) (byteAt p 2))
  | 0x4A => sized 1 p (.offsetRead (byteAt p 0))
  | 0x50 => sized 0 p .settingsSave
  | 0x51 => sized 0 p .settingsStatus
  | 0x52 => sized 8 p (.labelSet (wideAt p 0))
  | 0x58 => sized 4 p (.timeSet (wordAt p 0))
  | 0x59 => sized 0 p .timeGet
  | 0x5A => sized 0 p .identify
  | 0x5B => sized 0 p .restart
  | 0x5C => sized 0 p .wipe
  | _ => .error .unknownKind

/-! ### Carrying a request out (R200 test 3) -/

/-- The reply and the state a request leaves, each by its own rule. What a RESTART does after its reply is start-up's. -/
def State.perform (s : State) : Request → Answer × State
  | .scanEntrySet e a c r st so o => s.scanEntrySet e a c r st so o
  | .scanEntryGet e => s.scanEntryGet e
  | .scanRangeSet a b => s.scanRangeSet a b
  | .scanConfigSet m p a => s.scanConfigSet m p a
  | .scanStart => s.scanStart
  | .scanHalt => s.scanHalt
  | .scanStop => s.scanStop
  | .scanStatus => s.scanStatus
  | .probeStatus => s.probeStatus
  | .compartmentSet c e th ts l => s.compartmentSet c e th ts l
  | .compartmentGet c => s.compartmentGet c
  | .logIntervalSet l => s.logIntervalSet l
  | .hatchInputSet i c e w m => s.hatchInputSet i c e w m
  | .hatchConfigSet d b => s.hatchConfigSet d b
  | .hatchStatus => s.hatchStatus
  | .logRead q n => s.logRead q n
  | .logStatus => s.logStatus
  | .custodyIn i c l cl u => s.custodyIn i c l cl u
  | .consignmentGet i => s.consignmentGet i
  | .consignmentList q => s.consignmentList q
  | .release i => s.release i
  | .handoverLimitSet l => s.handoverLimitSet l
  | .handoverBegin i => s.handoverBegin i
  | .handoverEnd i o r => s.handoverEnd i o r
  | .proofFetch i => s.proofFetch i
  | .claimOpen r i => s.claimOpen r i
  | .claimGather r b m => s.claimGather r b m
  | .claimAssess r => s.claimAssess r
  | .claimGet r => s.claimGet r
  | .claimList => s.claimList
  | .claimClose r => s.claimClose r
  | .claimConfigSet a => s.claimConfigSet a
  | .noticeEnable m => s.noticeEnable m
  | .noticeClear m => s.noticeClear m
  | .noticeStatus => s.noticeStatus
  | .offsetErase c => s.offsetErase c
  | .offsetProgram c i v => s.offsetProgram c i v
  | .offsetRead c => s.offsetRead c
  | .settingsSave => s.settingsSave
  | .settingsStatus => s.settingsStatus
  | .labelSet l => s.labelSet l
  | .timeSet t => s.timeSet t
  | .timeGet => s.timeGet
  | .identify => s.identify
  | .restart => (okay [], s)
  | .wipe => s.wipe

end Machine

end Sys2Proof
end

