-- ==== Sys2Proof/Machine/Link.lean ====
section
/-! DEFINITION. The Message Link (spec/11): frames and their check, the receiver, the receive queue, the taking of a
request and the transmitter. -/

namespace Sys2Proof.Machine

/-! ### Frames (R197) -/

/-- The bytes the check covers: length, kind, tag and payload. -/
def Frame.body (f : Frame) : List Byte := le16 f.payload.length ++ [f.kind, f.tag] ++ f.payload

/-- A frame as it stands on the line (Table 11-4). -/
def Frame.wire (f : Frame) : List Byte := 0xC3 :: (f.body ++ le16 (crc16 f.body).toNat)

/-- Change the link. -/
def State.updLink (s : State) (f : Link → Link) : State := s.withLink (f s.link)

/-- Change the link counts. -/
def State.count (s : State) (f : LinkCounts → LinkCounts) : State := s.updLink fun l => { l with counts := f l.counts }

/-! ### The transmitter (R202) -/

/-- The frame the transmitter is sending. -/
def Transmitter.frame? : Transmitter → Option Frame
  | .idle => none
  | .sendingReply f => some f
  | .sendingNotice f => some f

/-- The transmission of the waiting reply begins. -/
def State.sendReply (s : State) (f : Frame) : State :=
  s.updLink fun l => { l with transmitter := .sendingReply f, reply := none }

/-- The transmission of the owed notice would begin: its content is taken and it is sent, or it is withdrawn when the
pending set is empty (R167, R168). -/
def State.sendNotice (s : State) : State :=
  if s.notices.anyPending then
    (s.updLink fun l => { l with transmitter := .sendingNotice s.noticeFrame }).withNotices s.notices.taken
  else s.withNotices { s.notices with owed := false }

/-- An IDLE transmitter chooses: a waiting reply first, then an owed notice. -/
def State.offer (s : State) : State :=
  match s.link.transmitter with
  | .idle =>
    match s.link.reply with
    | some f => s.sendReply f
    | none => if s.notices.owed then s.sendNotice else s
  | _ => s

/-! ### Taking a request (R199, R200) -/

/-- The reply formed at the taking of a request waits for the transmitter. -/
def State.formReply (s : State) (f : Frame) : State := s.updLink fun l => { l with reply := some f }

/-- A RESTART taken with a tag: the frame being sent is finished and the reply is sent in full, and then the part restarts
(R195, R203). -/
def State.takeRestart (s : State) (tag : Byte) : State :=
  let t := s.updLink fun l =>
    { l with sent := l.sent ++ l.transmitter.frame?.toList ++ [replyFrame Request.restart.kind tag (okay [])] }
  t.restartAs .restart (Config.restartSeconds s.free)

/-- A request is taken: it is carried out or refused, and its reply is formed. -/
def State.take (s : State) (tag : Byte) (r : Request) : State :=
  if r = .restart then s.takeRestart tag
  else (s.perform r).2.formReply (replyFrame r.kind tag (s.perform r).1)

/-- A frame is taken, by the three tests of R200. -/
def State.takeFrame (s : State) (f : Frame) : State :=
  match parse f.kind f.payload with
  | .error st => s.formReply (replyFrame f.kind f.tag (refuse st))
  | .ok r => s.take f.tag r

/-- The head of the queue is taken when no formed reply waits. -/
def State.takeHead (s : State) : State :=
  match s.link.reply, s.link.queue with
  | none, f :: rest => (s.updLink fun l => { l with queue := rest }).takeFrame f
  | _, _ => s

/-- The link's work that follows every event at once: an IDLE transmitter begins what waits, and the head frame is taken
when the reply before it has begun. Two rounds leave nothing to do. -/
def State.pump (s : State) : State := s.offer.takeHead.offer.takeHead.offer

/-- The transmitter finishes a frame and chooses the next: after a reply an owed notice goes first, after a notice a
waiting reply (R202). -/
def State.finishFrame (s : State) : State :=
  match s.link.transmitter with
  | .idle => s
  | .sendingReply f =>
    let t := s.updLink fun l => { l with transmitter := .idle, sent := l.sent ++ [f] }
    if t.notices.owed then t.sendNotice else t
  | .sendingNotice f => s.updLink fun l => { l with transmitter := .idle, sent := l.sent ++ [f] }

/-! ### The receiver and the queue (R198, R199) -/

/-- A frame whose check matches enters the queue, unless four wait. -/
def State.enqueue (s : State) (f : Frame) : State :=
  if 4 ≤ s.link.queue.length then s.count fun n => { n with overflow := sat16 (n.overflow + 1) }
  else s.updLink fun l => { l with queue := l.queue ++ [f] }

/-- A well-formed frame completes: it is taken at once when nothing waits before it, and otherwise it queues or
overflows. -/
def State.accept (s : State) (f : Frame) : State :=
  if s.link.reply = none ∧ s.link.queue = [] then s.takeFrame f else s.enqueue f

/-- A frame in assembly is discarded. -/
def State.hunt (s : State) : State := s.updLink fun l => { l with receiver := .hunting }

/-- The payload length stated by the bytes of a frame in assembly. -/
def statedLength (bytes : List Byte) : Nat := fieldAt bytes 0 2

/-- The frame that the bytes since the sync byte spell. -/
def frameOf (bytes : List Byte) : Frame := ⟨byteAt bytes 2, byteAt bytes 3, (bytes.drop 4).take (statedLength bytes)⟩

/-- Whether the check of a whole frame matches. -/
def checkMatches (bytes : List Byte) : Bool :=
  halfAt bytes (4 + statedLength bytes) == crc16 (bytes.take (4 + statedLength bytes))

/-- The bytes since the sync byte after one more has arrived (R198). -/
def State.assemble (s : State) (bytes : List Byte) : State :=
  if bytes.length < 2 then s.updLink fun l => { l with receiver := .inFrame bytes }
  else if 1024 < statedLength bytes then s.hunt.count fun n => { n with length := sat16 (n.length + 1) }
  else if bytes.length < 6 + statedLength bytes then s.updLink fun l => { l with receiver := .inFrame bytes }
  else if checkMatches bytes then (s.hunt.accept (frameOf bytes)).pump
  else s.hunt.count fun n => { n with check := sat16 (n.check + 1) }

/-- One character arrives on LRX (R198). A character without its stop bit is discarded under CHECK before its value
counts, also as the second length byte of a length above 1024. Log entry 27. -/
def State.receive (s : State) (b : LineByte) : State :=
  match s.link.receiver, b with
  | .hunting, .good x => if x = 0xC3 then s.updLink fun l => { l with receiver := .inFrame [] } else s
  | .hunting, .noStop _ => s
  | .inFrame bytes, .good x => s.assemble (bytes ++ [x])
  | .inFrame _, .noStop _ => s.hunt.count fun n => { n with check := sat16 (n.check + 1) }

/-- Characters arrive one after another. Those that follow the end of a RESTART frame taken at once fall into its
start-up and are ignored (R203). -/
def State.receiveAll (s : State) : List LineByte → State
  | [] => s
  | b :: rest => if (s.receive b).free = s.free then (s.receive b).receiveAll rest else s.receive b

/-- The silence of more than 50 ms (R198). -/
def State.silence (s : State) : State :=
  match s.link.receiver with
  | .hunting => s
  | .inFrame _ => s.hunt.count fun n => { n with silence := sat16 (n.silence + 1) }

/-! ### Commands -/

/-- An event of the part's surroundings or of its own timers happens: with VDD present it has its effect and the link
follows; with VDD absent it has none. -/
def State.happen (s : State) (f : State → State) : State :=
  match s.power with
  | .on => (f s).pump
  | .off => s

/-- A well-formed frame completes at the part (R199). -/
def State.arrive (s : State) (f : Frame) : State := s.happen fun s => s.accept f

/-- The frame of a request completes at the part. When nothing waits before it the request is taken at once. -/
def State.submit (s : State) (tag : Byte) (r : Request) : State :=
  s.happen fun s => if s.link.reply = none ∧ s.link.queue = [] then s.take tag r else s.enqueue (requestFrame tag r)

end Sys2Proof.Machine
end

