-- ==== Sys2Proof/Machine/ClaimCommands.lean ====
section
/-! DEFINITION. The commands of the Claim Unit (spec/07), one meaning for each constructor of `Instr`. -/

namespace Sys2Proof.Machine

/-- CLAIM_OPEN (R138 to R140). -/
def execClaimOpen (tag : Byte) (reference identifier : Word) (s : State) : Host.Outcome State Fault Refusal :=
  .next (s.submit tag (.claimOpen reference identifier))

/-- CLAIM_GATHER (R143 to R145). -/
def execClaimGather (tag : Byte) (reference base : Word) (mask : Half) (s : State) : Host.Outcome State Fault Refusal :=
  .next (s.submit tag (.claimGather reference base mask))

/-- CLAIM_ASSESS (R149). -/
def execClaimAssess (tag : Byte) (reference : Word) (s : State) : Host.Outcome State Fault Refusal :=
  .next (s.submit tag (.claimAssess reference))

/-- CLAIM_GET (R159). -/
def execClaimGet (tag : Byte) (reference : Word) (s : State) : Host.Outcome State Fault Refusal :=
  .next (s.submit tag (.claimGet reference))

/-- CLAIM_LIST (R160). -/
def execClaimList (tag : Byte) (s : State) : Host.Outcome State Fault Refusal := .next (s.submit tag .claimList)

/-- CLAIM_CLOSE (R161). -/
def execClaimClose (tag : Byte) (reference : Word) (s : State) : Host.Outcome State Fault Refusal :=
  .next (s.submit tag (.claimClose reference))

/-- CLAIM_CONFIG_SET (R148). -/
def execClaimConfigSet (tag : Byte) (allowance : Word) (s : State) : Host.Outcome State Fault Refusal :=
  .next (s.submit tag (.claimConfigSet allowance))

/-- The walk engine examines one record (R150 to R157). -/
def execWalkExamination (s : State) : Host.Outcome State Fault Refusal := .next (s.happen State.examineNext)

end Sys2Proof.Machine
end

