-- ==== Sys2Proof/Machine/ClockCommands.lean ====
section
/-! DEFINITION. The commands of the Device Clock, start-up and the supply (spec/10), one meaning for each constructor of
`Instr`. -/

namespace Sys2Proof.Machine

/-- TIME_SET (R190, R191). -/
def execTimeSet (tag : Byte) (time : Word) (s : State) : Host.Outcome State Fault Refusal :=
  .next (s.submit tag (.timeSet time))

/-- TIME_GET (R189). -/
def execTimeGet (tag : Byte) (s : State) : Host.Outcome State Fault Refusal := .next (s.submit tag .timeGet)

/-- RESTART (R195). -/
def execRestart (tag : Byte) (s : State) : Host.Outcome State Fault Refusal := .next (s.submit tag .restart)

/-- WIPE (R196). -/
def execWipe (tag : Byte) (s : State) : Host.Outcome State Fault Refusal := .next (s.submit tag .wipe)

/-- VDD returns and the part starts up (R193). -/
def execPowerOn (absence : Nat) (cellHeld : Bool) (s : State) : Host.Outcome State Fault Refusal :=
  .next (s.powerUp absence cellHeld).pump

/-- RESETN is asserted and released (R193). With VDD absent it has no effect. -/
def execResetLine (seconds : Nat) (s : State) : Host.Outcome State Fault Refusal :=
  .next (s.happen (fun s => s.restartAs .resetLine seconds))

/-- VDD fails (R188, R193). -/
def execSupplyFailure (cellGood : Bool) (s : State) : Host.Outcome State Fault Refusal :=
  .next (match s.power with
    | .on => s.failSupply cellGood
    | .off => s)

end Sys2Proof.Machine
end

