-- ==== Sys2Proof/Machine/Timers.lean ====
section
/-! DEFINITION. The timers of whole seconds (R7, R63, R119): which of their events are due, how seconds pass with each
event taken at its own second, the three events, and what an empty queue of commands brings. Log entries 2 and 12. -/

namespace Sys2Proof.Machine

/-- The events of the timers of whole seconds (R7, R63, R119). -/
inductive TimerEvent where
  | tick
  | longOpen (compartment : CompNo)
  | lapse (slot : SlotNo)
  deriving DecidableEq, Repr

/-- The command of a timer event. -/
def TimerEvent.command : TimerEvent → Instr
  | .tick => .cycleTimerTick
  | .longOpen c => .longOpenExpiry c
  | .lapse i => .handoverLapse i

/-- The timer events that are due, in the order in which they are taken: the cycle timer's tick, the long-open timers in
ascending compartment number, the handover timers in ascending slot number (R7, R63, R119). Log entry 2. -/
def State.due (s : State) : List TimerEvent :=
  (if s.scan.tickIn = 0 then [.tick] else [])
    ++ ((places 4).filter s.longOpenDue).map .longOpen ++ ((places 64).filter s.lapseDue).map .lapse

/-- A timer event is taken now, and the link follows. -/
def State.fire (s : State) (e : TimerEvent) : State :=
  (match e with
    | .tick => s.fallTick
    | .longOpen c => s.expireLongOpen c
    | .lapse i => s.lapse i).pump

/-- Timer events are taken one after another. -/
def State.fireAll (s : State) : List TimerEvent → State
  | [] => s
  | e :: rest => (s.fire e).fireAll rest

/-- `n` seconds pass, every timer event being taken at the second in which it falls (R7, R63, R119). Those that fall in
the last second are still due at the end. Log entry 12. -/
def State.passTo (s : State) : Nat → State
  | 0 => s
  | n + 1 => ((s.fireAll s.due).elapse 1).passTo n

/-- The next tick falls, once the seconds left of its interval have passed (R7, R8). -/
def State.nextTick (s : State) : State := (s.passTo s.scan.tickIn).fallTick

/-- The seconds left to the limit of a compartment's long-open timer (R63). -/
def State.longOpenLeft (s : State) (c : CompNo) : Nat := s.comps[c].settings.longOpenLimit - s.hatch.openings[c].elapsed

/-- The long-open timer of a compartment reaches its limit: the seconds left have passed, and it expires. One that does
not run does not. -/
def State.longOpenExpiry (s : State) (c : CompNo) : State :=
  if s.longOpenRuns c then (s.passTo (s.longOpenLeft c)).expireLongOpen c else s

/-- The handover timer of a slot reaches its deadline: the seconds left have passed, and the slot lapses. A timer that
does not run does not expire. -/
def State.handoverLapse (s : State) (i : SlotNo) : State :=
  match s.slots[i].state, s.slots[i].handover with
  | .handingOver, some h => (s.passTo (h.deadline - s.now)).lapse i
  | _, _ => s

/-- What an empty queue brings with VDD present: the timer events that are due join it; when none is, one second passes,
and those it makes due join it. With VDD absent nothing happens: POWER_ON brings the seconds of the absence. -/
def State.passSecond (s : State) : State :=
  match s.power with
  | .on =>
    if s.due = [] then (s.elapse 1).withPending ((s.elapse 1).due.map TimerEvent.command)
    else s.withPending (s.due.map TimerEvent.command)
  | .off => s

end Sys2Proof.Machine
end

