-- ==== Sys2Proof/Machine/CustodyCommands.lean ====
section
/-! DEFINITION. The commands of the Custody Log and of the Custody Table (spec/04 to spec/06), one meaning for each
constructor of `Instr`. -/

namespace Sys2Proof.Machine

/-- LOG_READ (R88). -/
def execLogRead (tag : Byte) (start : Word) (count : Byte) (s : State) : Host.Outcome State Fault Refusal :=
  .next (s.submit tag (.logRead start count))

/-- LOG_STATUS (R89). -/
def execLogStatus (tag : Byte) (s : State) : Host.Outcome State Fault Refusal := .next (s.submit tag .logStatus)

/-- CUSTODY_IN (R99 to R108). -/
def execCustodyIn (tag : Byte) (identifier : Word) (compartment : Byte) (limit : Word) (cycleLimit : Byte) (upstream : Upstream) (s : State) :
    Host.Outcome State Fault Refusal :=
  .next (s.submit tag (.custodyIn identifier compartment limit cycleLimit upstream))

/-- CONSIGNMENT_GET (R110). -/
def execConsignmentGet (tag : Byte) (identifier : Word) (s : State) : Host.Outcome State Fault Refusal :=
  .next (s.submit tag (.consignmentGet identifier))

/-- CONSIGNMENT_LIST (R111). -/
def execConsignmentList (tag : Byte) (index : Word) (s : State) : Host.Outcome State Fault Refusal :=
  .next (s.submit tag (.consignmentList index))

/-- RELEASE (R113). -/
def execRelease (tag : Byte) (identifier : Word) (s : State) : Host.Outcome State Fault Refusal :=
  .next (s.submit tag (.release identifier))

/-- HANDOVER_LIMIT_SET (R116). -/
def execHandoverLimitSet (tag : Byte) (limit : Half) (s : State) : Host.Outcome State Fault Refusal :=
  .next (s.submit tag (.handoverLimitSet limit))

/-- HANDOVER_BEGIN (R117, R118). -/
def execHandoverBegin (tag : Byte) (identifier : Word) (s : State) : Host.Outcome State Fault Refusal :=
  .next (s.submit tag (.handoverBegin identifier))

/-- HANDOVER_END with outcome ACCEPTED (R122, R124). -/
def execHandoverEndAccepted (tag : Byte) (identifier receipt : Word) (s : State) : Host.Outcome State Fault Refusal :=
  .next (s.submit tag (.handoverEnd identifier 0 receipt))

/-- HANDOVER_END with outcome DISPOSED (R122, R124). -/
def execHandoverEndDisposed (tag : Byte) (identifier receipt : Word) (s : State) : Host.Outcome State Fault Refusal :=
  .next (s.submit tag (.handoverEnd identifier 1 receipt))

/-- HANDOVER_END with outcome REFUSED (R122, R123). -/
def execHandoverEndRefused (tag : Byte) (identifier receipt : Word) (s : State) : Host.Outcome State Fault Refusal :=
  .next (s.submit tag (.handoverEnd identifier 2 receipt))

/-- PROOF_FETCH (R131). -/
def execProofFetch (tag : Byte) (identifier : Word) (s : State) : Host.Outcome State Fault Refusal :=
  .next (s.submit tag (.proofFetch identifier))

/-- The handover timer of a slot reaches its deadline (R119, R120). -/
def execHandoverLapse (slot : SlotNo) (s : State) : Host.Outcome State Fault Refusal :=
  .next (s.happen (fun s => s.handoverLapse slot))

end Sys2Proof.Machine
end

