-- ==== Sys2Proof/Machine/LinkCommands.lean ====
section
/-! DEFINITION. The commands of the Message Link (spec/11), one meaning for each constructor of `Instr`. -/

namespace Sys2Proof.Machine

/-- A frame of a kind that is not in Table 11-3 (R200 test 1). -/
def execUnknownKind (kind tag : Byte) (payload : List Byte) (s : State) : Host.Outcome State Fault Refusal :=
  .next (s.arrive ⟨kind, tag, payload⟩)

/-- Bytes arrive on LRX (R198, R199). -/
def execFrameReceived (bytes : List LineByte) (s : State) : Host.Outcome State Fault Refusal :=
  .next (s.happen (fun s => s.receiveAll bytes))

/-- No byte has arrived for more than 50 ms (R198). -/
def execLinkSilenceTimeout (s : State) : Host.Outcome State Fault Refusal := .next (s.happen State.silence)

/-- The transmitter finishes a frame (R202). -/
def execTransmitEnd (s : State) : Host.Outcome State Fault Refusal := .next (s.happen State.finishFrame)

/-- A byte 0xC3 arrives on LRX (R198). -/
def execSyncByte (s : State) : Host.Outcome State Fault Refusal := .next (s.happen (fun s => s.receive (.good 0xC3)))

end Sys2Proof.Machine
end

