-- ==== Sys2Proof/Machine/MonitorCommands.lean ====
section
/-! DEFINITION. The commands of the Compartment Monitor and of the Hatch Contact Monitor (spec/02, spec/03), one meaning
for each constructor of `Instr`. -/

namespace Sys2Proof.Machine

/-- COMPARTMENT_SET (R25, R26). -/
def execCompartmentSet (tag : Byte) (compartment enabled : Byte) (threshold softLine longOpenLimit : Half) (s : State) :
    Host.Outcome State Fault Refusal :=
  .next (s.submit tag (.compartmentSet compartment enabled threshold softLine longOpenLimit))

/-- COMPARTMENT_GET (R49). -/
def execCompartmentGet (tag : Byte) (compartment : Byte) (s : State) : Host.Outcome State Fault Refusal :=
  .next (s.submit tag (.compartmentGet compartment))

/-- LOG_INTERVAL_SET (R46). -/
def execLogIntervalSet (tag : Byte) (interval : Byte) (s : State) : Host.Outcome State Fault Refusal :=
  .next (s.submit tag (.logIntervalSet interval))

/-- HATCH_INPUT_SET (R50, R51). -/
def execHatchInputSet (tag : Byte) (input compartment sense watch member : Byte) (s : State) :
    Host.Outcome State Fault Refusal :=
  .next (s.submit tag (.hatchInputSet input compartment sense watch member))

/-- HATCH_CONFIG_SET (R52). -/
def execHatchConfigSet (tag : Byte) (debounceSteps bandRequired : Byte) (s : State) : Host.Outcome State Fault Refusal :=
  .next (s.submit tag (.hatchConfigSet debounceSteps bandRequired))

/-- HATCH_STATUS (R67). -/
def execHatchStatus (tag : Byte) (s : State) : Host.Outcome State Fault Refusal := .next (s.submit tag .hatchStatus)

/-- The contact of an input takes a level (R53, R54). With VDD absent nothing looks at it. -/
def execRawChange (input : InputNo) (made : Bool) (s : State) : Host.Outcome State Fault Refusal :=
  .next (match s.power with
    | .on => (s.rawChange input made).pump
    | .off => s.setInput input { s.hatch.inputs[input] with made := made })

/-- The debounce timer of an input expires (R54, R56, R66). -/
def execDebounceExpiry (input : InputNo) (s : State) : Host.Outcome State Fault Refusal :=
  .next (s.happen (fun s => s.debounceExpiry input))

/-- The long-open timer of a compartment reaches its limit (R63). -/
def execLongOpenExpiry (compartment : CompNo) (s : State) : Host.Outcome State Fault Refusal :=
  .next (s.happen (fun s => s.longOpenExpiry compartment))

end Sys2Proof.Machine
end

