-- ==== Sys2Proof/Machine/ScanCommands.lean ====
section
/-! DEFINITION. The commands of the Probe Scanner (spec/01), one meaning for each constructor of `Instr`. -/

namespace Sys2Proof.Machine

/-- SCAN_ENTRY_SET (R1, R2). -/
def execScanEntrySet (tag : Byte) (entry address compartment role settleSteps source offset : Byte) (s : State) :
    Host.Outcome State Fault Refusal :=
  .next (s.submit tag (.scanEntrySet entry address compartment role settleSteps source offset))

/-- SCAN_ENTRY_GET (R3). -/
def execScanEntryGet (tag : Byte) (entry : Byte) (s : State) : Host.Outcome State Fault Refusal :=
  .next (s.submit tag (.scanEntryGet entry))

/-- SCAN_RANGE_SET (R5). -/
def execScanRangeSet (tag : Byte) (first last : Byte) (s : State) : Host.Outcome State Fault Refusal :=
  .next (s.submit tag (.scanRangeSet first last))

/-- SCAN_CONFIG_SET (R6). -/
def execScanConfigSet (tag : Byte) (mode : Byte) (period : Half) (autoStart : Byte) (s : State) :
    Host.Outcome State Fault Refusal :=
  .next (s.submit tag (.scanConfigSet mode period autoStart))

/-- SCAN_START (R19). -/
def execScanStart (tag : Byte) (s : State) : Host.Outcome State Fault Refusal := .next (s.submit tag .scanStart)

/-- SCAN_HALT (R20). -/
def execScanHalt (tag : Byte) (s : State) : Host.Outcome State Fault Refusal := .next (s.submit tag .scanHalt)

/-- SCAN_STOP (R21). -/
def execScanStop (tag : Byte) (s : State) : Host.Outcome State Fault Refusal := .next (s.submit tag .scanStop)

/-- SCAN_STATUS (R22). -/
def execScanStatus (tag : Byte) (s : State) : Host.Outcome State Fault Refusal := .next (s.submit tag .scanStatus)

/-- PROBE_STATUS (R18). -/
def execProbeStatus (tag : Byte) (s : State) : Host.Outcome State Fault Refusal := .next (s.submit tag .probeStatus)

/-- The next tick of the cycle timer falls (R7, R8). -/
def execCycleTimerTick (s : State) : Host.Outcome State Fault Refusal := .next (s.happen State.nextTick)

/-- The settle time of the read in flight ends (R10). -/
def execSettleExpiry (s : State) : Host.Outcome State Fault Refusal := .next (s.happen State.settleExpiry)

/-- The probe answers (R10, R11). -/
def execProbeAnswer (raw : Int) (checkGood : Bool) (s : State) : Host.Outcome State Fault Refusal :=
  .next (s.happen (fun s => s.probeAnswer raw checkGood))

/-- The answer window ends (R10, R11). -/
def execAnswerWindowExpiry (s : State) : Host.Outcome State Fault Refusal := .next (s.happen State.answerWindowExpiry)

end Sys2Proof.Machine
end

