-- ==== Sys2Proof/Machine/StoreCommands.lean ====
section
/-! DEFINITION. The commands of the Notice Unit and of the two stores (spec/08, spec/09), one meaning for each
constructor of `Instr`. -/

namespace Sys2Proof.Machine

/-- NOTICE_ENABLE (R164). -/
def execNoticeEnable (tag : Byte) (mask : Word) (s : State) : Host.Outcome State Fault Refusal :=
  .next (s.submit tag (.noticeEnable mask))

/-- NOTICE_CLEAR (R169). -/
def execNoticeClear (tag : Byte) (mask : Word) (s : State) : Host.Outcome State Fault Refusal :=
  .next (s.submit tag (.noticeClear mask))

/-- NOTICE_STATUS (R172). -/
def execNoticeStatus (tag : Byte) (s : State) : Host.Outcome State Fault Refusal := .next (s.submit tag .noticeStatus)

/-- OFFSET_ERASE (R176). -/
def execOffsetErase (tag : Byte) (slot : Byte) (s : State) : Host.Outcome State Fault Refusal :=
  .next (s.submit tag (.offsetErase slot))

/-- OFFSET_PROGRAM (R177). -/
def execOffsetProgram (tag : Byte) (slot entry value : Byte) (s : State) : Host.Outcome State Fault Refusal :=
  .next (s.submit tag (.offsetProgram slot entry value))

/-- OFFSET_READ (R180). -/
def execOffsetRead (tag : Byte) (slot : Byte) (s : State) : Host.Outcome State Fault Refusal :=
  .next (s.submit tag (.offsetRead slot))

/-- SETTINGS_SAVE (R183). -/
def execSettingsSave (tag : Byte) (s : State) : Host.Outcome State Fault Refusal := .next (s.submit tag .settingsSave)

/-- SETTINGS_STATUS (R186). -/
def execSettingsStatus (tag : Byte) (s : State) : Host.Outcome State Fault Refusal := .next (s.submit tag .settingsStatus)

/-- LABEL_SET (R182). -/
def execLabelSet (tag : Byte) (label : Wide) (s : State) : Host.Outcome State Fault Refusal :=
  .next (s.submit tag (.labelSet label))

/-- IDENTIFY (R187). -/
def execIdentify (tag : Byte) (s : State) : Host.Outcome State Fault Refusal := .next (s.submit tag .identify)

/-- The erase in flight completes (R178). -/
def execOffsetEraseComplete (s : State) : Host.Outcome State Fault Refusal := .next (s.happen State.eraseComplete)

/-- The program in flight completes (R178). -/
def execOffsetProgramComplete (s : State) : Host.Outcome State Fault Refusal := .next (s.happen State.programComplete)

/-- The settings write ends (R184). -/
def execSaveWriteEnd (matched : Bool) (s : State) : Host.Outcome State Fault Refusal :=
  .next (s.happen (fun s => s.saveWriteEnd matched))

end Sys2Proof.Machine
end

