-- ==== Sys2Proof/Machine/Dispatch.lean ====
section
/-! DEFINITION. Which meaning each command has: one arm per constructor of `Instr`. -/

namespace Sys2Proof.Machine

def exec (i : Instr) (s : State) : Host.Outcome State Fault Refusal :=
  match i with
  | .scanEntrySet tag entry address compartment role settleSteps source offset => Sys2Proof.Machine.execScanEntrySet tag entry address compartment role settleSteps source offset s
  | .scanEntryGet tag entry => Sys2Proof.Machine.execScanEntryGet tag entry s
  | .scanRangeSet tag first last => Sys2Proof.Machine.execScanRangeSet tag first last s
  | .scanConfigSet tag mode period autoStart => Sys2Proof.Machine.execScanConfigSet tag mode period autoStart s
  | .scanStart tag => Sys2Proof.Machine.execScanStart tag s
  | .scanHalt tag => Sys2Proof.Machine.execScanHalt tag s
  | .scanStop tag => Sys2Proof.Machine.execScanStop tag s
  | .scanStatus tag => Sys2Proof.Machine.execScanStatus tag s
  | .probeStatus tag => Sys2Proof.Machine.execProbeStatus tag s
  | .compartmentSet tag compartment enabled threshold softLine longOpenLimit => Sys2Proof.Machine.execCompartmentSet tag compartment enabled threshold softLine longOpenLimit s
  | .compartmentGet tag compartment => Sys2Proof.Machine.execCompartmentGet tag compartment s
  | .logIntervalSet tag interval => Sys2Proof.Machine.execLogIntervalSet tag interval s
  | .hatchInputSet tag input compartment sense watch member => Sys2Proof.Machine.execHatchInputSet tag input compartment sense watch member s
  | .hatchConfigSet tag debounceSteps bandRequired => Sys2Proof.Machine.execHatchConfigSet tag debounceSteps bandRequired s
  | .hatchStatus tag => Sys2Proof.Machine.execHatchStatus tag s
  | .logRead tag start count => Sys2Proof.Machine.execLogRead tag start count s
  | .logStatus tag => Sys2Proof.Machine.execLogStatus tag s
  | .custodyIn tag identifier compartment limit cycleLimit upstream => Sys2Proof.Machine.execCustodyIn tag identifier compartment limit cycleLimit upstream s
  | .consignmentGet tag identifier => Sys2Proof.Machine.execConsignmentGet tag identifier s
  | .consignmentList tag index => Sys2Proof.Machine.execConsignmentList tag index s
  | .release tag identifier => Sys2Proof.Machine.execRelease tag identifier s
  | .handoverLimitSet tag limit => Sys2Proof.Machine.execHandoverLimitSet tag limit s
  | .handoverBegin tag identifier => Sys2Proof.Machine.execHandoverBegin tag identifier s
  | .handoverEndAccepted tag identifier receipt => Sys2Proof.Machine.execHandoverEndAccepted tag identifier receipt s
  | .handoverEndDisposed tag identifier receipt => Sys2Proof.Machine.execHandoverEndDisposed tag identifier receipt s
  | .handoverEndRefused tag identifier receipt => Sys2Proof.Machine.execHandoverEndRefused tag identifier receipt s
  | .proofFetch tag identifier => Sys2Proof.Machine.execProofFetch tag identifier s
  | .claimOpen tag reference identifier => Sys2Proof.Machine.execClaimOpen tag reference identifier s
  | .claimGather tag reference base mask => Sys2Proof.Machine.execClaimGather tag reference base mask s
  | .claimAssess tag reference => Sys2Proof.Machine.execClaimAssess tag reference s
  | .claimGet tag reference => Sys2Proof.Machine.execClaimGet tag reference s
  | .claimList tag => Sys2Proof.Machine.execClaimList tag s
  | .claimClose tag reference => Sys2Proof.Machine.execClaimClose tag reference s
  | .claimConfigSet tag allowance => Sys2Proof.Machine.execClaimConfigSet tag allowance s
  | .noticeEnable tag mask => Sys2Proof.Machine.execNoticeEnable tag mask s
  | .noticeClear tag mask => Sys2Proof.Machine.execNoticeClear tag mask s
  | .noticeStatus tag => Sys2Proof.Machine.execNoticeStatus tag s
  | .offsetErase tag slot => Sys2Proof.Machine.execOffsetErase tag slot s
  | .offsetProgram tag slot entry value => Sys2Proof.Machine.execOffsetProgram tag slot entry value s
  | .offsetRead tag slot => Sys2Proof.Machine.execOffsetRead tag slot s
  | .settingsSave tag => Sys2Proof.Machine.execSettingsSave tag s
  | .settingsStatus tag => Sys2Proof.Machine.execSettingsStatus tag s
  | .labelSet tag label => Sys2Proof.Machine.execLabelSet tag label s
  | .timeSet tag time => Sys2Proof.Machine.execTimeSet tag time s
  | .timeGet tag => Sys2Proof.Machine.execTimeGet tag s
  | .identify tag => Sys2Proof.Machine.execIdentify tag s
  | .restart tag => Sys2Proof.Machine.execRestart tag s
  | .wipe tag => Sys2Proof.Machine.execWipe tag s
  | .unknownKind kind tag payload => Sys2Proof.Machine.execUnknownKind kind tag payload s
  | .cycleTimerTick => Sys2Proof.Machine.execCycleTimerTick s
  | .settleExpiry => Sys2Proof.Machine.execSettleExpiry s
  | .probeAnswer raw checkGood => Sys2Proof.Machine.execProbeAnswer raw checkGood s
  | .answerWindowExpiry => Sys2Proof.Machine.execAnswerWindowExpiry s
  | .rawChange input made => Sys2Proof.Machine.execRawChange input made s
  | .debounceExpiry input => Sys2Proof.Machine.execDebounceExpiry input s
  | .longOpenExpiry compartment => Sys2Proof.Machine.execLongOpenExpiry compartment s
  | .handoverLapse slot => Sys2Proof.Machine.execHandoverLapse slot s
  | .walkExamination => Sys2Proof.Machine.execWalkExamination s
  | .offsetEraseComplete => Sys2Proof.Machine.execOffsetEraseComplete s
  | .offsetProgramComplete => Sys2Proof.Machine.execOffsetProgramComplete s
  | .saveWriteEnd matched => Sys2Proof.Machine.execSaveWriteEnd matched s
  | .powerOn absence cellHeld => Sys2Proof.Machine.execPowerOn absence cellHeld s
  | .resetLine seconds => Sys2Proof.Machine.execResetLine seconds s
  | .frameReceived bytes => Sys2Proof.Machine.execFrameReceived bytes s
  | .linkSilenceTimeout => Sys2Proof.Machine.execLinkSilenceTimeout s
  | .transmitEnd => Sys2Proof.Machine.execTransmitEnd s
  | .syncByte => Sys2Proof.Machine.execSyncByte s
  | .supplyFailure cellGood => Sys2Proof.Machine.execSupplyFailure cellGood s

end Sys2Proof.Machine
end

