-- ==== Sys2Proof/WellFormed.lean ====
section
/-! DEFINITION. Well-formed commands: the terms of `Instr` that stand for a frame or an event of spec/. -/

namespace Sys2Proof

/-- The kinds of Table 11-3. -/
def requestKinds : List Nat :=
  [0x01, 0x02, 0x03, 0x04, 0x05, 0x06, 0x07, 0x08, 0x09, 0x10, 0x11, 0x12, 0x18, 0x19, 0x1A, 0x20, 0x21, 0x28, 0x29, 0x2A, 0x2B,
    0x30, 0x31, 0x32, 0x33, 0x38, 0x39, 0x3A, 0x3B, 0x3C, 0x3D, 0x3E, 0x40, 0x41, 0x42, 0x48, 0x49, 0x4A, 0x50, 0x51, 0x52,
    0x58, 0x59, 0x5A, 0x5B, 0x5C]

/-- A RECORD brings 72 bytes; a mode byte that names no mode is above 2 and stands in a payload of 11, 21 or 83 bytes
(R99, R200). -/
def Upstream.wellFormed : Upstream → Bool
  | .none => true
  | .record bytes => bytes.length == 72
  | .declared .. => true
  | .unnamed mode rest => decide (2 < mode.toNat) && (rest.length == 0 || rest.length == 10 || rest.length == 72)

/-- A request that a payload of Table 11-3 spells. -/
def Request.wellFormed : Request → Bool
  | .custodyIn _ _ _ _ u => u.wellFormed
  | _ => true

/-- A command that a frame or an event of spec/ stands for. An UNKNOWN_KIND frame has a kind outside Table 11-3 and a
payload of at most 1024 bytes (R197, R200). -/
def Instr.wellFormed : Instr → Bool
  | .custodyIn _ _ _ _ _ u => u.wellFormed
  | .unknownKind kind _ payload => !requestKinds.contains kind.toNat && decide (payload.length ≤ 1024)
  | _ => true

end Sys2Proof
end

