-- ==== Sys2Proof/Safety.lean ====
section
/-! DEFINITION. The terms in which claims are made: when a command meets nothing in its way, what answering a request
does, and the invariants of the blocks. -/

namespace Sys2Proof

/-- The frame that a request row stands for (Table 11-3); an event has none. -/
def Instr.frame? : Instr → Option Machine.Frame
  | .scanEntrySet t e a c r st so o => some (Machine.requestFrame t (.scanEntrySet e a c r st so o))
  | .scanEntryGet t e => some (Machine.requestFrame t (.scanEntryGet e))
  | .scanRangeSet t a b => some (Machine.requestFrame t (.scanRangeSet a b))
  | .scanConfigSet t m p a => some (Machine.requestFrame t (.scanConfigSet m p a))
  | .scanStart t => some (Machine.requestFrame t .scanStart)
  | .scanHalt t => some (Machine.requestFrame t .scanHalt)
  | .scanStop t => some (Machine.requestFrame t .scanStop)
  | .scanStatus t => some (Machine.requestFrame t .scanStatus)
  | .probeStatus t => some (Machine.requestFrame t .probeStatus)
  | .compartmentSet t c e th ts l => some (Machine.requestFrame t (.compartmentSet c e th ts l))
  | .compartmentGet t c => some (Machine.requestFrame t (.compartmentGet c))
  | .logIntervalSet t l => some (Machine.requestFrame t (.logIntervalSet l))
  | .hatchInputSet t i c e w m => some (Machine.requestFrame t (.hatchInputSet i c e w m))
  | .hatchConfigSet t d b => some (Machine.requestFrame t (.hatchConfigSet d b))
  | .hatchStatus t => some (Machine.requestFrame t .hatchStatus)
  | .logRead t q n => some (Machine.requestFrame t (.logRead q n))
  | .logStatus t => some (Machine.requestFrame t .logStatus)
  | .custodyIn t i c l cl u => some (Machine.requestFrame t (.custodyIn i c l cl u))
  | .consignmentGet t i => some (Machine.requestFrame t (.consignmentGet i))
  | .consignmentList t q => some (Machine.requestFrame t (.consignmentList q))
  | .release t i => some (Machine.requestFrame t (.release i))
  | .handoverLimitSet t l => some (Machine.requestFrame t (.handoverLimitSet l))
  | .handoverBegin t i => some (Machine.requestFrame t (.handoverBegin i))
  | .handoverEndAccepted t i r => some (Machine.requestFrame t (.handoverEnd i 0 r))
  | .handoverEndDisposed t i r => some (Machine.requestFrame t (.handoverEnd i 1 r))
  | .handoverEndRefused t i r => some (Machine.requestFrame t (.handoverEnd i 2 r))
  | .proofFetch t i => some (Machine.requestFrame t (.proofFetch i))
  | .claimOpen t r i => some (Machine.requestFrame t (.claimOpen r i))
  | .claimGather t r b m => some (Machine.requestFrame t (.claimGather r b m))
  | .claimAssess t r => some (Machine.requestFrame t (.claimAssess r))
  | .claimGet t r => some (Machine.requestFrame t (.claimGet r))
  | .claimList t => some (Machine.requestFrame t .claimList)
  | .claimClose t r => some (Machine.requestFrame t (.claimClose r))
  | .claimConfigSet t a => some (Machine.requestFrame t (.claimConfigSet a))
  | .noticeEnable t m => some (Machine.requestFrame t (.noticeEnable m))
  | .noticeClear t m => some (Machine.requestFrame t (.noticeClear m))
  | .noticeStatus t => some (Machine.requestFrame t .noticeStatus)
  | .offsetErase t c => some (Machine.requestFrame t (.offsetErase c))
  | .offsetProgram t c i v => some (Machine.requestFrame t (.offsetProgram c i v))
  | .offsetRead t c => some (Machine.requestFrame t (.offsetRead c))
  | .settingsSave t => some (Machine.requestFrame t .settingsSave)
  | .settingsStatus t => some (Machine.requestFrame t .settingsStatus)
  | .labelSet t l => some (Machine.requestFrame t (.labelSet l))
  | .timeSet t x => some (Machine.requestFrame t (.timeSet x))
  | .timeGet t => some (Machine.requestFrame t .timeGet)
  | .identify t => some (Machine.requestFrame t .identify)
  | .restart t => some (Machine.requestFrame t .restart)
  | .wipe t => some (Machine.requestFrame t .wipe)
  | .unknownKind k t p => some ⟨k, t, p⟩
  | .cycleTimerTick => none
  | .settleExpiry => none
  | .probeAnswer .. => none
  | .answerWindowExpiry => none
  | .rawChange .. => none
  | .debounceExpiry _ => none
  | .longOpenExpiry _ => none
  | .handoverLapse _ => none
  | .walkExamination => none
  | .offsetEraseComplete => none
  | .offsetProgramComplete => none
  | .saveWriteEnd _ => none
  | .powerOn .. => none
  | .resetLine _ => none
  | .frameReceived _ => none
  | .linkSilenceTimeout => none
  | .transmitEnd => none
  | .syncByte => none
  | .supplyFailure _ => none

namespace Machine

/-! ### When a command meets nothing in its way -/

/-- VDD is present and no reply and no frame waits: the request of a frame that completes is taken at once (R199). -/
def State.ready (s : State) : Prop := s.power = .on ∧ s.link.reply = none ∧ s.link.queue = []

/-- VDD is present and the link has nothing left to do but, at most, a notice to begin: no reply waits for an IDLE
transmitter and no frame waits for its taking (R199, R202). Every state a run reaches with VDD present is one. -/
def State.quiet (s : State) : Prop :=
  s.power = .on ∧ (s.link.transmitter = .idle → s.link.reply = none) ∧ (s.link.reply = none → s.link.queue = [])

/-- A reply is formed and offered to the transmitter: it is sent at once by an IDLE transmitter and waits for a busy one
(R202). -/
def State.answered (s : State) (f : Frame) : State := (s.formReply f).offer

/-- A request of a kind and tag is answered. -/
def State.replies (s : State) (kind tag : Byte) (a : Answer) : State := s.answered (replyFrame kind tag a)

/-- `n` seconds pass and nothing else happens. -/
def State.after (s : State) : Nat → State
  | 0 => s
  | n + 1 => s.elapse (n + 1)

/-- No timer event is due now or falls within the `n` seconds from now; one may fall at their end. -/
def State.calmFor (s : State) (n : Nat) : Prop := ∀ k : Nat, k < n → (s.after k).due = []

/-- The scanner once it has passed over the entries of a list, all unused, at a time (R10, R11). -/
def Scanner.skipped (x : Scanner) (t : Stamp) (l : List EntryNo) : Scanner :=
  { x with
    rows := Vector.ofFn fun j => if j ∈ l then ⟨.skipped, none, some t, none, false⟩ else x.rows[j]
    cycleSet := x.cycleSet ++ l.map fun j => ⟨j, .skipped, none, x.entries[j].compartment, x.entries[j].role⟩
    completed := l.getLast?.or x.completed }

/-- The cycle of a scanner `x` ends now: every compartment takes the step of its cycle set, and the ending and the
scanner's next state are recorded (R12, R20). -/
def State.cycleEnds (s : State) (x : Scanner) (ending : CycleEnding) (next : ScanState) : State :=
  ((s.withScan x).cycleStep x.cycleSet).withScan { x with lastEnding := ending, state := next, read := none }

/-- How a cycle goes on to `t` when the entries `l` of its range remain: those that are unused are passed over, the
first used one is read, and when there is none the cycle ends normally (R10, R11 step 4, R12). -/
def State.goesOn (s : State) (l : List EntryNo) (t : State) : Prop :=
  (∀ pre i post, l = pre ++ i :: post → (∀ j ∈ pre, s.scan.entries[j].address = 0) → s.scan.entries[i].address ≠ 0 →
    t = s.withScan { s.scan.skipped s.stampNow pre with
      read := some ⟨i, s.scan.entries[i], if s.scan.entries[i].settleSteps = 0 then .exchanging else .settling⟩ }) ∧
  ((∀ j ∈ l, s.scan.entries[j].address = 0) →
    t = s.cycleEnds (s.scan.skipped s.stampNow l) .complete
      (match s.scan.mode with | .continuous => .waiting | .single => .stopped))

/-! ### Invariants of the blocks -/

/-- Message Link: with VDD present the link is quiet and no owed notice waits for an IDLE transmitter; at most four
frames wait (R199, R202). -/
def State.linkOk (s : State) : Prop :=
  (s.power = .on → s.quiet ∧ (s.link.transmitter = .idle → s.notices.owed = false)) ∧ s.link.queue.length ≤ 4

/-- Notice Unit: ALERT is asserted exactly while the pending set has a member, members are enabled, new members are
members, a raise count is 0 exactly for a condition that is not pending and is at most 255 (R165, R166, R168, R171). -/
def NoticeUnit.ok (u : NoticeUnit) : Prop :=
  u.alert = u.anyPending ∧
  ∀ k : Fin 18, (u.members[k] = true → u.enables[k] = true) ∧ (u.fresh[k] = true → u.members[k] = true) ∧
    (u.counts[k] = 0 ↔ u.members[k] = false) ∧ u.counts[k] ≤ 255

/-- Probe Scanner: a read is in flight exactly in READING and HALTING (R8 to R12, R20, R21). -/
def Scanner.ok (x : Scanner) : Prop := x.read.isSome = (x.state == .reading || x.state == .halting)

/-- Compartment Monitor: held value and miss count go with the knowledge (Table 2-1 notes 1 and 2), and a disabled
compartment is UNKNOWN with band UNSET (R26, R27, R48). -/
def Compartment.ok (x : Compartment) : Prop :=
  (match x.knowledge with
    | .unknown => x.held = none ∧ x.misses = 0
    | .live => x.held.isSome = true ∧ x.misses = 0
    | .holding => x.held.isSome = true ∧ 1 ≤ x.misses ∧ x.misses ≤ 6
    | .blind => x.held = none ∧ x.misses = 7) ∧
  (x.settings.enabled = false → x.knowledge = .unknown ∧ x.band = .unset)

/-- Scanner, compartments and pattern watch: the scanner and every compartment are in order, and the truth kept for the
pattern watch is its truth as its inputs stand (R64). -/
def State.monitorsOk (s : State) : Prop := s.scan.ok ∧ (∀ c : CompNo, s.comps[c].ok) ∧ s.hatch.patternTruth = s.patternNow

/-- Records after `a`: each has the next sequence, and its chain value covers its predecessor's and its own image (R71,
R72). -/
def linkedFrom (a : LogRecord) : List LogRecord → Bool
  | [] => true
  | b :: rest =>
    b.sequence == a.sequence + 1 && b.chain == chainOver a.chain (image28 b.sequence b.stamp b.compartment b.body)
      && linkedFrom b rest

/-- Custody Log: an empty log is as manufacture or a wipe left it; the records of another are linked, the first of all
over 0xFFFFFFFF, and the newest carries the log's chain value and precedes the next sequence, or took the last one (R70
to R72, R87, R90). At most 4096 records are kept (R76). -/
def Log.ok (l : Log) : Prop :=
  (match l.records with
    | [] => l.nextSeq = 1 ∧ l.chain = 0xFFFFFFFF ∧ l.ended = false
    | a :: rest =>
      linkedFrom a rest = true ∧ 1 ≤ a.sequence ∧
      (a.sequence = 1 → a.chain = chainOver 0xFFFFFFFF (image28 1 a.stamp a.compartment a.body)) ∧
      l.chain = ((a :: rest).getLast (List.cons_ne_nil a rest)).chain ∧
      (if l.ended then
        ((a :: rest).getLast (List.cons_ne_nil a rest)).sequence = lastSequence ∧ l.nextSeq = lastSequence
      else l.nextSeq = ((a :: rest).getLast (List.cons_ne_nil a rest)).sequence + 1 ∧ l.nextSeq ≤ lastSequence)) ∧
  l.records.length ≤ logPlaces

/-- Whether a claim is ASSESSING. -/
def Claim.assessing (k : Claim) : Bool := match k.phase with | .assessing _ _ => true | _ => false

/-- Claims and holds: a hold stands exactly for each open claim, the walk queue holds exactly the ASSESSING claims, each
once, and references are not 0 and differ, and each consignment slot counts the open claims that name it (R74, R135,
R136, R150). -/
def State.claimsOk (s : State) : Prop :=
  (∀ i : ClaimNo, s.log.holds[i].isSome = s.claims.slots[i].isSome) ∧
  (∀ i : ClaimNo, i ∈ s.claims.queue ↔ (s.claims.slots[i].map Claim.assessing) = some true) ∧ s.claims.queue.Nodup ∧
  (∀ (i : ClaimNo) (k : Claim), s.claims.slots[i] = some k → k.reference ≠ 0) ∧
  (∀ (i j : ClaimNo) (k l : Claim), s.claims.slots[i] = some k → s.claims.slots[j] = some l → k.reference = l.reference →
    i = j) ∧
  (∀ j : SlotNo, s.slots[j].openClaims =
    countAt s.claims.slots fun k => match k with | some x => x.slot == j | none => false)

/-- HELD_FULL is in force only over a held oldest record, in a log that has reached the general places, with its start
time kept (R75, R78, R79, R83). -/
def State.heldOk (s : State) : Prop :=
  s.log.heldFull = true → s.log.oldestHeld = true ∧ generalPlaces ≤ s.log.records.length ∧ s.log.heldSince.isSome = true

/-- A consignment slot: EMPTY is blank, another names a consignment; a handover stands exactly in HANDING_OVER, and
custody-out fields and a proof record of 72 bytes exactly in HANDED_OVER (R93, R96, R118, R124, Table 5-2). -/
def Slot.ok (x : Slot) : Prop :=
  (x.state = .empty → x = .blank) ∧ (x.state ≠ .empty → x.identifier ≠ 0) ∧
  (x.handover.isSome = (x.state == .handingOver)) ∧ (x.out.isSome = (x.state == .handedOver)) ∧
  (x.proof.isSome = (x.state == .handedOver)) ∧ (x.proof.all fun p => p.length == 72) = true

/-- Custody Table: every slot is in order, and no two slots hold one identifier (R96). -/
def State.tableOk (s : State) : Prop :=
  (∀ i : SlotNo, s.slots[i].ok) ∧
  ∀ i j : SlotNo, s.slots[i].state ≠ .empty → s.slots[j].state ≠ .empty → s.slots[i].identifier = s.slots[j].identifier →
    i = j

/-- The Custody Log with the claims that hold it and the consignments they name. -/
def State.evidenceOk (s : State) : Prop := s.log.ok ∧ s.claimsOk ∧ s.heldOk ∧ s.tableOk

end Machine

end Sys2Proof
end

