-- ==== Sys2Proof/Certificates/Slice0/Obligations.lean ====
section
/-! DEFINITION. The statements for the provers. Each docstring names the rules of spec/ it rests on. -/

open Sys2Proof Sys2Proof.Machine

/-! ### The queue of commands and the passing of seconds -/

/-- A step runs the command at the front of the queue with the queue's rest. -/
def Obligations.StepRunsTheFrontCommand : Prop :=
  ∀ (c : Instr) (rest : List Instr) (s : State), s.pending = c :: rest → step s = exec c (s.withPending rest)

/-- The model's choice of log entry 2: on an empty queue nothing happens with VDD absent; with VDD present the timer
events that are due join the queue, and when none is due one second passes: the clock's counters advance by 1 (R188),
openings in progress grow by 1 (R63), the cycle timer runs down (R7), and the events this makes due join the queue. -/
def Obligations.EmptyQueuePassesOneSecond : Prop :=
  ∀ s : State, s.pending = [] →
    (s.power = .off → step s = .next s) ∧
    (s.power = .on → s.due ≠ [] → step s = .next (s.withPending (s.due.map TimerEvent.command))) ∧
    (s.power = .on → s.due = [] → ∃ t : State, step s = .next t ∧ t.clock.state = s.clock.state ∧
      t.clock.counter = min (s.clock.counter + 1) 4294967294 ∧ t.clock.uptime = min (s.clock.uptime + 1) 4294967294 ∧
      t.clock.lastValid = (if s.clock.state = .valid then t.clock.counter else s.clock.lastValid) ∧
      t.scan = { s.scan with tickIn := s.scan.tickIn - 1 } ∧ t.hatch.inputs = s.hatch.inputs ∧
      (∀ c : CompNo, t.hatch.openings[c] = if s.hatch.openings[c].state = .opening then
        { s.hatch.openings[c] with elapsed := min (s.hatch.openings[c].elapsed + 1) 4294967295 } else s.hatch.openings[c]) ∧
      (.cycleTimerTick ∈ t.pending ↔ t.scan.tickIn = 0) ∧
      (∀ c : CompNo, .longOpenExpiry c ∈ t.pending ↔ t.hatch.openings[c].state = .opening ∧
        t.hatch.openings[c].timer = .running ∧ s.comps[c].settings.longOpenLimit ≤ t.hatch.openings[c].elapsed) ∧
      (∀ i : SlotNo, .handoverLapse i ∈ t.pending ↔ s.slots[i].state = .handingOver ∧
        ∃ h, s.slots[i].handover = some h ∧ h.deadline ≤ t.now) ∧
      t.log = s.log ∧ t.slots = s.slots ∧ t.comps = s.comps ∧ t.claims = s.claims ∧ t.notices = s.notices ∧
      t.link = s.link ∧ t.offsets = s.offsets ∧ t.settings = s.settings)

/-- Every command completes: no command faults or is refused by the model, and none touches the queue of commands or the
part identity, which is fixed at manufacture (R187). That no command faults or is refused by the model is log entry 4
(DEDUCED): no rule says that anything stops the part. -/
def Obligations.EveryCommandCompletes : Prop :=
  ∀ (c : Instr) (s : State), ∃ t : State, exec c s = .next t ∧ t.pending = s.pending ∧ t.identity = s.identity

/-- SUPPLY_FAILURE stops the part: the frame being sent stops, the pending set is lost, ALERT is released and the clock
stops unless the cell is good (R188, R193, R203). What else is kept until POWER_ON, when start-up rebuilds it, is log
entry 3's choice, and so is that while VDD is absent no command but POWER_ON has an effect, except that a contact still
takes its level. -/
def Obligations.SupplyFailureStopsThePart : Prop :=
  (∀ (s : State) (cellGood : Bool), s.power = .on → ∃ t : State, exec (.supplyFailure cellGood) s = .next t ∧ t.power = .off ∧
    t.link = { s.link with transmitter := .idle } ∧ t.notices.anyPending = false ∧ t.notices.alert = false ∧
    t.clock = { s.clock with state := if cellGood then s.clock.state else .unset } ∧
    t.scan = s.scan ∧ t.comps = s.comps ∧ t.hatch = s.hatch ∧ t.log = s.log ∧ t.slots = s.slots ∧ t.claims = s.claims ∧
    t.offsets = s.offsets ∧ t.settings = s.settings) ∧
  (∀ (s : State) (c : Instr), s.power = .off → (∀ n b, c ≠ .powerOn n b) → (∀ i b, c ≠ .rawChange i b) →
    exec c s = .next s) ∧
  (∀ (s : State) (i : InputNo) (made : Bool), s.power = .off →
    exec (.rawChange i made) s = .next (s.setInput i { s.hatch.inputs[i] with made := made }))

/-! ### The Message Link (spec/11) -/

/-- While a reply waits behind the frame being sent, the frame of a request row, or any frame of at most 1024 payload
bytes whose bytes arrive at a hunting receiver, joins the queue, up to four; a fifth is discarded and OVERFLOW rises,
saturating at 65 535; nothing else changes (R197 to R199, R204). -/
def Obligations.RequestsWaitTheirTurn : Prop :=
  ∀ (c : Instr) (f : Frame) (s : State), s.power = .on → s.link.transmitter ≠ .idle → s.link.reply.isSome = true →
    (c.frame? = some f ∨
      (c = .frameReceived (f.wire.map .good) ∧ f.payload.length ≤ 1024 ∧ s.link.receiver = .hunting)) →
    (s.link.queue.length < 4 → exec c s = .next (s.withLink { s.link with queue := s.link.queue ++ [f] })) ∧
    (4 ≤ s.link.queue.length → exec c s = .next (s.withLink
      { s.link with counts := { s.link.counts with overflow := min (s.link.counts.overflow + 1) 65535 } }))

/-- A request row does exactly what the bytes of its frame do when they arrive on LRX at a hunting receiver: framing,
check, queue, tests of R200 and the request's own rule (R197 to R200). What a row stands for is log entry 1's reading.
-/
def Obligations.RowIsItsFrame : Prop :=
  ∀ (c : Instr) (f : Frame) (s : State), c.wellFormed = true → c.frame? = some f → s.power = .on →
    s.link.receiver = .hunting → exec (.frameReceived (f.wire.map .good)) s = exec c s

/-- Reading the payload of a well-formed request gives the request back, every operand at every value its field admits
(Table 11-3, R200, R201). -/
def Obligations.PayloadRoundTrip : Prop :=
  ∀ r : Request, r.wellFormed = true → parse r.kind r.payload = .ok r

/-- Tests 1 and 2 of R200: a kind outside Table 11-3 is UNKNOWN_KIND whatever its payload, a kind with one length is
BAD_LENGTH at any other, CUSTODY_IN is BAD_LENGTH below 11 bytes and at a length its mode byte does not allow, and the
UNKNOWN_KIND row answers with the kind's reply mark, the tag and the status alone. That the reply mark is bit 7, also of
a kind that has it set, is log entry 1's reading. -/
def Obligations.FramesThatNameNoRequest : Prop :=
  (∀ (kind : Byte) (p : List Byte), kind.toNat ∉ requestKinds → parse kind p = .error .unknownKind) ∧
  (∀ (r : Request) (p : List Byte), r.kind ≠ 0x28 → p.length ≠ r.payload.length → parse r.kind p = .error .badLength) ∧
  (∀ p : List Byte,
    (p.length < 11 ∨ (byteAt p 10 = 0 ∧ p.length ≠ 11) ∨ (byteAt p 10 = 1 ∧ p.length ≠ 83) ∨
      (byteAt p 10 = 2 ∧ p.length ≠ 21) ∨ (2 < (byteAt p 10).toNat ∧ p.length ≠ 11 ∧ p.length ≠ 21 ∧ p.length ≠ 83)) →
    parse 0x28 p = .error .badLength) ∧
  (∀ (s : State) (kind tag : Byte) (p : List Byte), s.ready → kind.toNat ∉ requestKinds →
    exec (.unknownKind kind tag p) s = .next (s.answered ⟨kind ||| 0x80, tag, [0x10]⟩))

/-- The transmitter's choice (R202). A reply formed is sent at once by an IDLE transmitter and waits for a busy one. At
TRANSMIT_END the finished frame is out; after a reply an owed notice goes first, after a notice a waiting reply; an owed
notice whose turn finds the pending set empty is withdrawn, and a waiting reply goes (R167); a reply that begins lets
the head of the queue be taken (R199), and where that is a RESTART, whose start-up StartUpLeavesTheBlocks gives, the
notice that start-up makes owed begins (R193, R203). An IDLE transmitter begins a waiting reply, and else an owed notice,
withdrawn where nothing is pending; a busy one begins nothing. A notice carries its number, the pending set, the highest
member, the new members, the raise count of each member and the time, and with its content taken no notice is owed and
no member new (R167, R168). How its payload is laid out is log entry 10, and that a notice counts as sent once its
transmission begins is log entry 24's choice. -/
def Obligations.TransmitterChoosesTheNextFrame : Prop :=
  (∀ s : State, s.link.transmitter ≠ .idle → s.offer = s) ∧
  (∀ s : State, s.link.transmitter = .idle →
    (∀ f : Frame, s.link.reply = some f →
      s.offer = s.withLink { s.link with transmitter := .sendingReply f, reply := none }) ∧
    (s.link.reply = none →
      (s.notices.owed = false → s.offer = s) ∧
      (s.notices.owed = true → s.notices.anyPending = false → s.offer = s.withNotices { s.notices with owed := false }) ∧
      (s.notices.owed = true → s.notices.anyPending = true → s.offer
        = (s.withLink { s.link with transmitter := .sendingNotice s.noticeFrame }).withNotices s.notices.taken))) ∧
  (∀ (s : State) (p : List Byte) (n : Nat), p = s.noticeFrame.payload →
    n = (if s.notices.lastNumber = 255 then 1 else s.notices.lastNumber + 1) →
    s.notices.taken = { s.notices with owed := false, fresh := Vector.replicate 18 false, lastNumber := n } ∧
    s.noticeFrame.kind = 0xFE ∧ s.noticeFrame.tag = 0 ∧ (s.notices.lastNumber ≤ 255 → fieldAt p 0 1 = n) ∧
    fieldAt p 1 4 < 2 ^ 18 ∧ fieldAt p 6 4 < 2 ^ 18 ∧
    (∀ k : Fin 18, (fieldAt p 1 4).testBit k.val = s.notices.members[k] ∧
      (fieldAt p 6 4).testBit k.val = s.notices.fresh[k] ∧
      (s.notices.members[k] = true → (∀ j : Fin 18, j < k → s.notices.members[j] = false) → fieldAt p 5 1 = k.val)) ∧
    fieldAt p 10 1 = (places 18).countP (fun k => s.notices.members[k]) ∧
    p.drop 11 = ((places 18).filter fun k => s.notices.members[k]).map (fun k => BitVec.ofNat 8 s.notices.counts[k])
      ++ le32 s.now ++ yesNo (decide (s.clock.state = .unset))) ∧
  (∀ (s : State) (f : Frame),
    (s.link.transmitter = .idle →
      s.answered f = s.withLink { s.link with transmitter := .sendingReply f, reply := none }) ∧
    (s.link.transmitter ≠ .idle → s.answered f = s.withLink { s.link with reply := some f })) ∧
  (∀ (s : State) (f : Frame), s.quiet →
    (s.link.transmitter = .sendingReply f ∨ (s.link.transmitter = .sendingNotice f ∧ s.link.reply = none)) →
    s.notices.owed = true → s.notices.anyPending = true →
    exec .transmitEnd s = .next ((s.withLink
      { s.link with transmitter := .sendingNotice s.noticeFrame, sent := s.link.sent ++ [f] }).withNotices s.notices.taken)) ∧
  (∀ (s u v : State) (f g : Frame), s.quiet → s.link.reply = some g →
    ((s.link.transmitter = .sendingReply f ∧ (s.notices.owed = false ∨ s.notices.anyPending = false)) ∨
      s.link.transmitter = .sendingNotice f) →
    u = (s.withLink
      { s.link with transmitter := .sendingReply g, reply := none, sent := s.link.sent ++ [f] }).withNotices
        { s.notices with owed := s.notices.owed && decide (s.link.transmitter = .sendingNotice f) } →
    (s.link.queue = [] → exec .transmitEnd s = .next u) ∧
    (∀ (h : Frame) (rest : List Frame), s.link.queue = h :: rest → v = u.withLink { u.link with queue := rest } →
      (parse h.kind h.payload ≠ .ok .restart → exec .transmitEnd s = .next (v.takeFrame h)) ∧
      (parse h.kind h.payload = .ok .restart → exec .transmitEnd s = .next (v.takeFrame h).offer))) ∧
  (∀ (s : State) (f : Frame), s.quiet → s.link.reply = none → (s.notices.owed = false ∨ s.notices.anyPending = false) →
    (s.link.transmitter = .sendingReply f ∨ s.link.transmitter = .sendingNotice f) →
    exec .transmitEnd s = .next ((s.withLink
      { s.link with transmitter := .idle, sent := s.link.sent ++ [f] }).withNotices { s.notices with owed := false }))

/-- The receiver (R198): hunting, it passes over every byte but 0xC3, which begins a frame; in a frame it discards on a
length above 1024 (LENGTH), on a byte without its stop bit and on a check that does not match (CHECK), and on silence
(SILENCE). That LINK_SILENCE_TIMEOUT changes nothing while the receiver is HUNTING is log entry 14's choice, and that a
second length byte without its stop bit raises CHECK alone, whatever length it would state, log entry 27's. -/
def Obligations.ReceiverDiscardsAndCounts : Prop :=
  ∀ s : State, s.linkOk → s.power = .on →
    (s.link.receiver = .hunting →
      (∀ x : Byte, x ≠ 0xC3 → exec (.frameReceived [.good x]) s = .next s) ∧
      exec .syncByte s = .next (s.withLink { s.link with receiver := .inFrame [] }) ∧
      exec .linkSilenceTimeout s = .next s) ∧
    (∀ bytes : List Byte, s.link.receiver = .inFrame bytes →
      (∀ x : Byte, exec (.frameReceived [.noStop x]) s = .next (s.withLink
        { s.link with
          receiver := .hunting, counts := { s.link.counts with check := min (s.link.counts.check + 1) 65535 } })) ∧
      exec .linkSilenceTimeout s = .next (s.withLink
        { s.link with
          receiver := .hunting, counts := { s.link.counts with silence := min (s.link.counts.silence + 1) 65535 } }) ∧
      (∀ x : Byte, bytes.length = 1 → 1024 < fieldAt (bytes ++ [x]) 0 2 →
        exec (.frameReceived [.good x]) s = .next (s.withLink
          { s.link with
            receiver := .hunting, counts := { s.link.counts with length := min (s.link.counts.length + 1) 65535 } })) ∧
      (∀ (x : Byte) (n : Nat), fieldAt (bytes ++ [x]) 0 2 = n → n ≤ 1024 → bytes.length + 1 = n + 6 →
        halfAt (bytes ++ [x]) (n + 4) ≠ crc16 ((bytes ++ [x]).take (n + 4)) →
        exec (.frameReceived [.good x]) s = .next (s.withLink
          { s.link with
            receiver := .hunting, counts := { s.link.counts with check := min (s.link.counts.check + 1) 65535 } })))

/-! ### Probe Scanner (spec/01) -/

/-- SCAN_ENTRY_SET writes the six fields of one entry, its settle steps clamped to 25; a value out of range is
BAD_VALUE, and only then the current entry of a read is COLLISION; a refusal leaves the part as it was (R1, R2).
SCAN_ENTRY_GET in every scanner state reports the six stored fields with the settle time as its count of steps, and is
BAD_VALUE above entry 15; the part is otherwise unchanged (R3). -/
def Obligations.ScanEntriesAreWrittenAndRead : Prop :=
  (∀ (s : State) (tag entry address compartment role settle source offset : Byte), s.ready →
    ((15 < entry.toNat ∨ 126 < address.toNat ∨ (3 < compartment.toNat ∧ compartment ≠ 0xFF) ∨ 1 < role.toNat ∨
        3 < source.toNat ∨ offset = 0x80) →
      exec (.scanEntrySet tag entry address compartment role settle source offset) s
        = .next (s.replies 0x01 tag (refuse .badValue))) ∧
    (∀ (i : EntryNo) (c : Option CompNo) (r : Role) (o : OffsetSource), i.val = entry.toNat → address.toNat ≤ 126 →
      numField c = [compartment] → r.code = role.toNat → o.code = source.toNat → offset ≠ 0x80 →
      (s.scan.isCurrent i = true →
        exec (.scanEntrySet tag entry address compartment role settle source offset) s
          = .next (s.replies 0x01 tag (refuse .collision))) ∧
      (s.scan.isCurrent i = false →
        exec (.scanEntrySet tag entry address compartment role settle source offset) s
          = .next ((s.withScan
            { s.scan with
              entries := setAt s.scan.entries i ⟨address.toNat, c, r, min settle.toNat 25, o, offset.toInt⟩ }).replies
            0x01 tag (okay []))))) ∧
  (∀ (s : State) (tag entry : Byte), s.ready →
    (15 < entry.toNat → exec (.scanEntryGet tag entry) s = .next (s.replies 0x02 tag (refuse .badValue))) ∧
    (∀ i : EntryNo, i.val = entry.toNat → exec (.scanEntryGet tag entry) s = .next (s.replies 0x02 tag (okay
      ([BitVec.ofNat 8 s.scan.entries[i].address] ++ numField s.scan.entries[i].compartment
        ++ [BitVec.ofNat 8 s.scan.entries[i].role.code, BitVec.ofNat 8 s.scan.entries[i].settleSteps,
          BitVec.ofNat 8 s.scan.entries[i].source.code, BitVec.ofInt 8 s.scan.entries[i].message])))))

/-- SCAN_RANGE_SET installs at once in STOPPED and WAITING and is held pending in READING and HALTING (R5);
SCAN_CONFIG_SET writes the mode, the period clamped to 5..300 and auto-start (R6); a value out of range is BAD_VALUE. -/
def Obligations.ScanRangeAndConfig : Prop :=
  ∀ (s : State) (tag : Byte), s.ready →
    (∀ first last : Byte, (15 < first.toNat ∨ 15 < last.toNat) →
      exec (.scanRangeSet tag first last) s = .next (s.replies 0x03 tag (refuse .badValue))) ∧
    (∀ (first last : Byte) (a b : EntryNo), a.val = first.toNat → b.val = last.toNat →
      ((s.scan.state = .stopped ∨ s.scan.state = .waiting) → exec (.scanRangeSet tag first last) s
        = .next ((s.withScan { s.scan with range := ⟨a, b⟩, pendingRange := none }).replies 0x03 tag (okay []))) ∧
      ((s.scan.state = .reading ∨ s.scan.state = .halting) → exec (.scanRangeSet tag first last) s
        = .next ((s.withScan { s.scan with pendingRange := some ⟨a, b⟩ }).replies 0x03 tag (okay [])))) ∧
    (∀ (mode auto : Byte) (period : Half), (1 < mode.toNat ∨ 1 < auto.toNat) →
      exec (.scanConfigSet tag mode period auto) s = .next (s.replies 0x04 tag (refuse .badValue))) ∧
    (∀ (mode auto : Byte) (period : Half) (m : ScanMode) (a : Bool), m.code = mode.toNat → yesNo a = [auto] →
      exec (.scanConfigSet tag mode period auto) s = .next ((s.withScan
        { s.scan with mode := m, period := max 5 (min period.toNat 300), autoStart := a }).replies 0x04 tag (okay [])))

/-- SCAN_START, SCAN_HALT and SCAN_STOP by scanner state (R19 to R21): a stop during a cycle hands the step of the cycle
set gathered so far, as EveryCompartmentTakesItsStep spells it, and leaves rows, failure counts and fault marks as they
were. -/
def Obligations.ScanStartHaltStop : Prop :=
  ∀ (s : State) (tag : Byte), s.ready →
    (s.scan.state = .stopped →
      exec (.scanStart tag) s = .next ((s.withScan { s.scan with state := .waiting }).replies 0x05 tag (okay [])) ∧
      exec (.scanHalt tag) s = .next (s.replies 0x06 tag (okay [])) ∧
      exec (.scanStop tag) s = .next (s.replies 0x07 tag (okay []))) ∧
    (s.scan.state ≠ .stopped → exec (.scanStart tag) s = .next (s.replies 0x05 tag (refuse .busy))) ∧
    (s.scan.state = .waiting →
      exec (.scanHalt tag) s = .next ((s.withScan { s.scan with state := .stopped }).replies 0x06 tag (okay [])) ∧
      exec (.scanStop tag) s = .next ((s.withScan { s.scan with state := .stopped }).replies 0x07 tag (okay []))) ∧
    (s.scan.state = .reading →
      exec (.scanHalt tag) s = .next ((s.withScan { s.scan with state := .halting }).replies 0x06 tag (okay []))) ∧
    (s.scan.state = .halting → exec (.scanHalt tag) s = .next (s.replies 0x06 tag (okay []))) ∧
    ((s.scan.state = .reading ∨ s.scan.state = .halting) →
      exec (.scanStop tag) s = .next (((s.cycleStep s.scan.cycleSet).withScan
        { s.scan with lastEnding := .aborted, state := .stopped, read := none }).replies 0x07 tag (okay [])))

/-- The reports without a name to look up change nothing: COMPARTMENT_GET (R49), LOG_READ (R88), LOG_STATUS (R89),
CONSIGNMENT_LIST (R111), CLAIM_LIST (R160), NOTICE_STATUS (R172), OFFSET_READ (R180), SETTINGS_STATUS (R186), IDENTIFY
(R187) and TIME_GET (R189). How the fields of a reply are laid out where no rule gives bytes is log entries 9 and 10, and
that LOG_READ takes a from sequence of 0 is log entry 26's choice. -/
def Obligations.ReportsChangeNothing : Prop :=
  ∀ (s : State) (tag : Byte), s.ready →
    (∀ (b : Byte) (c : CompNo), c.val = b.toNat →
      exec (.compartmentGet tag b) s = .next (s.replies 0x11 tag (okay (s.compBytes c)))) ∧
    (∀ b : Byte, 3 < b.toNat → exec (.compartmentGet tag b) s = .next (s.replies 0x11 tag (refuse .badValue))) ∧
    (∀ (q : Word) (n : Byte), 1 ≤ n.toNat → n.toNat ≤ 16 →
      exec (.logRead tag q n) s = .next (s.replies 0x20 tag
        ⟨if s.log.belowOldest q.toNat then .partly else .ok,
          counted (((s.log.records.filter fun r => decide (q.toNat ≤ r.sequence)).take n.toNat).map LogRecord.image)
            ++ seqField s.log.oldest ++ seqField s.log.newest⟩)) ∧
    (∀ (q : Word) (n : Byte), n.toNat = 0 ∨ 16 < n.toNat →
      exec (.logRead tag q n) s = .next (s.replies 0x20 tag (refuse .badValue))) ∧
    exec (.logStatus tag) s = .next (s.replies 0x21 tag (okay s.log.statusBytes)) ∧
    (∀ q : Word, exec (.consignmentList tag q) s = .next (s.replies 0x2A tag
      (okay (counted (((s.listing q.toNat).take 16).map s.summaryBytes) ++ seqField (s.continuation (s.listing q.toNat)))))) ∧
    exec (.claimList tag) s = .next (s.replies 0x3C tag (okay ((places 8).flatMap s.claimSummary))) ∧
    exec (.noticeStatus tag) s = .next (s.replies 0x42 tag (okay s.noticeBytes)) ∧
    (∀ (b : Byte) (c : CalSlot), c.code = b.toNat →
      exec (.offsetRead tag b) s = .next (s.replies 0x4A tag (okay (s.offsets.statusBytes c)))) ∧
    (∀ b : Byte, 1 < b.toNat → exec (.offsetRead tag b) s = .next (s.replies 0x4A tag (refuse .badValue))) ∧
    exec (.settingsStatus tag) s = .next (s.replies 0x51 tag (okay s.settingsBytes)) ∧
    exec (.timeGet tag) s = .next (s.replies 0x59 tag (okay (le8 s.clock.state.code
      ++ timeField (if s.clock.state = .valid then some s.clock.counter else none) ++ le32 s.clock.lastValid
      ++ le32 s.clock.uptime))) ∧
    exec (.identify tag) s = .next (s.replies 0x5A tag (okay (le64 s.identity.toNat ++ [2] ++ le64 s.label.toNat
      ++ capacityBytes ++ [BitVec.ofNat 8 s.clock.state.code] ++ s.link.counts.bytes)))

/-- SCAN_STATUS, PROBE_STATUS and HATCH_STATUS report, and then clear the overrun count, the failure counts and the
bounce counts; fault marks and everything else stay (R18, R22, R67). The reports that look a consignment or a claim up
change nothing, found or not: CONSIGNMENT_GET (R110), PROOF_FETCH (R131), CLAIM_GATHER (R143, R145) and CLAIM_GET
(R159). How the fields of a reply are laid out where no rule gives bytes is log entries 9 and 10. -/
def Obligations.ReportsThatClearAndLookUp : Prop :=
  (∀ (s : State) (tag : Byte), s.ready →
    exec (.scanStatus tag) s
      = .next ((s.withScan { s.scan with overruns := 0 }).replies 0x08 tag (okay s.scan.statusBytes)) ∧
    exec (.probeStatus tag) s
      = .next ((s.withScan { s.scan with failures := Vector.replicate 16 0 }).replies 0x09 tag
        (okay ((places 16).flatMap s.scan.rowBytes))) ∧
    exec (.hatchStatus tag) s
      = .next ((s.withHatch { s.hatch with inputs := mapAll (fun x => { x with bounces := 0 }) s.hatch.inputs }).replies
        0x1A tag (okay s.hatch.statusBytes))) ∧
  (∀ (s : State) (tag : Byte), s.ready →
    (∀ (id : Word) (i : SlotNo), id ≠ 0 → s.slotOf id = some i →
      exec (.consignmentGet tag id) s = .next (s.replies 0x29 tag (okay (s.slotBytes i))) ∧
      (∀ p, s.slots[i].state = .handedOver → s.slots[i].proof = some p →
        exec (.proofFetch tag id) s = .next (s.replies 0x33 tag (okay (le8 i.val ++ p)))) ∧
      (s.slots[i].state ≠ .handedOver →
        exec (.proofFetch tag id) s = .next (s.replies 0x33 tag (refuse .wrongState)))) ∧
    (∀ id : Word, id ≠ 0 → s.slotOf id = none →
      exec (.consignmentGet tag id) s = .next (s.replies 0x29 tag (refuse .unknown)) ∧
      exec (.proofFetch tag id) s = .next (s.replies 0x33 tag (refuse .unknown))) ∧
    (∀ (ref base : Word) (mask : Half) (i : ClaimNo) (k : Claim), ref ≠ 0 → s.claimOf ref = some i →
      s.claims.slots[i] = some k →
      exec (.claimGet tag ref) s = .next (s.replies 0x3B tag (okay (s.claimBytes i k))) ∧
      exec (.claimGather tag ref base mask) s = .next (s.replies 0x39 tag (s.gatherReply i k base mask))) ∧
    (∀ (ref base : Word) (mask : Half), ref ≠ 0 → s.claimOf ref = none →
      exec (.claimGet tag ref) s = .next (s.replies 0x3B tag (refuse .unknown)) ∧
      exec (.claimGather tag ref base mask) s = .next (s.replies 0x39 tag (refuse .unknown))) ∧
    (∀ (base : Word) (mask : Half),
      exec (.consignmentGet tag 0) s = .next (s.replies 0x29 tag (refuse .badValue)) ∧
      exec (.proofFetch tag 0) s = .next (s.replies 0x33 tag (refuse .badValue)) ∧
      exec (.claimGet tag 0) s = .next (s.replies 0x3B tag (refuse .badValue)) ∧
      exec (.claimGather tag 0 base mask) s = .next (s.replies 0x39 tag (refuse .badValue))))

/-- CYCLE_TIMER_TICK (R7 to R10): the seconds left pass, the next interval has the period in force, and the tick is a
blind tick in STOPPED, an overrun in READING and HALTING, and in WAITING it starts a cycle over the range most recently
written, whose leading unused entries are passed over. That the command brings the seconds left with it, each timer
event of other timers falling at its own second, is log entry 12's choice. That a read whose settle time is 0 opens its
exchange at once is log entry 15 (DEDUCED). -/
def Obligations.TickByScannerState : Prop :=
  ∀ s p : State, s.quiet → p = s.passTo s.scan.tickIn →
    p.scan = { s.scan with tickIn := 0 } ∧ (s.calmFor s.scan.tickIn → p = s.after s.scan.tickIn) ∧
    (s.scan.state = .stopped → exec .cycleTimerTick s
      = .next (((p.withScan { s.scan with tickIn := s.scan.period }).blindTick).offer)) ∧
    ((s.scan.state = .reading ∨ s.scan.state = .halting) → exec .cycleTimerTick s
      = .next ((p.withScan
        { s.scan with tickIn := s.scan.period, overruns := min (s.scan.overruns + 1) 255 }).offer)) ∧
    (∀ x : Scanner, s.scan.state = .waiting →
      x = { s.scan with
        tickIn := s.scan.period, range := s.scan.writtenRange, pendingRange := none, cycleSet := [], state := .reading,
        read := none } →
      (∃ u : State, exec .cycleTimerTick s = .next u.offer ∧ (p.withScan x).goesOn s.scan.writtenRange.entries u) ∧
      (∀ (i : EntryNo) (e : ScanEntry), s.scan.writtenRange.first = i → s.scan.entries[i] = e → e.address ≠ 0 →
        exec .cycleTimerTick s = .next ((p.withScan
          { x with read := some ⟨i, e, if e.settleSteps = 0 then .exchanging else .settling⟩ }).offer)))

/-- A cycle over unused entries only starts and ends normally at one instant: every entry of the range is SKIPPED, in
order, and failure counts and fault marks stay (R10 to R12, R17). The entries of a range run from the first to the last,
through 15 to 0 (R4). -/
def Obligations.UnusedEntriesArePassedOver : Prop :=
  (∀ s : State, s.quiet → s.scan.state = .waiting →
    (∀ i ∈ s.scan.writtenRange.entries, s.scan.entries[i].address = 0) →
    ∃ t : State, exec .cycleTimerTick s = .next t ∧ t.scan.lastEnding = .complete ∧ t.scan.read = none ∧
      t.scan.state = (match s.scan.mode with | .continuous => .waiting | .single => .stopped) ∧
      t.scan.cycleSet.map (·.entry) = s.scan.writtenRange.entries ∧ (∀ x ∈ t.scan.cycleSet, x.outcome = .skipped) ∧
      (∀ i ∈ s.scan.writtenRange.entries, t.scan.rows[i].outcome = .skipped) ∧
      (∀ i : EntryNo, i ∉ s.scan.writtenRange.entries → t.scan.rows[i] = s.scan.rows[i]) ∧
      t.scan.failures = s.scan.failures ∧ t.scan.faults = s.scan.faults) ∧
  (∀ r : ScanRange, r.entries.map Fin.val
    = (List.range ((r.last.val + 16 - r.first.val) % 16 + 1)).map fun k => (r.first.val + k) % 16)

/-- SETTLE_EXPIRY opens the exchange of the read in flight, and a PROBE_ANSWER with a good check inside −880..+1360 ends
it VALID: the row takes the calibrated value, the time and the offset source, the entry's failure count and fault mark
are cleared and no other entry's change, and the entry joins the cycle set (R10, R11, R14, R16, R17). In HALTING the
cycle then ends HALTED (R20); otherwise the next used entry of the range is read, and after the last entry the cycle
ends normally (R11 step 4, R12). That the next read opens its exchange at once when its settle time is 0 is log entry 15
(DEDUCED), that a SETTLE_EXPIRY of a read already exchanging changes nothing is log entry 14's choice, and that the raw
value is any integer is log entry 17. -/
def Obligations.ValidReadEndsTheExchange : Prop :=
  (∀ (s : State) (r : ReadInFlight), s.quiet → s.scan.read = some r →
    exec .settleExpiry s = .next ((s.withScan { s.scan with read := some { r with phase := .exchanging } }).offer)) ∧
  (∀ (s v : State) (r : ReadInFlight) (raw off : Int) (blank : Bool), s.quiet → s.scan.read = some r →
    r.phase = .exchanging → -880 ≤ raw → raw ≤ 1360 →
    ((r.fields.source = .none ∧ off = 0 ∧ blank = false) ∨
      (r.fields.source = .message ∧ off = r.fields.message ∧ blank = false) ∨
      (r.fields.source = .slotA ∧ s.offsets.slotA[r.entry] = .programmed off ∧ blank = false) ∨
      (r.fields.source = .slotB ∧ s.offsets.slotB[r.entry] = .programmed off ∧ blank = false) ∨
      (r.fields.source = .slotA ∧ (∀ v, s.offsets.slotA[r.entry] ≠ .programmed v) ∧ off = 0 ∧ blank = true) ∨
      (r.fields.source = .slotB ∧ (∀ v, s.offsets.slotB[r.entry] ≠ .programmed v) ∧ off = 0 ∧ blank = true)) →
    v = s.withScan { s.scan with
      rows := setAt s.scan.rows r.entry
        ⟨.valid, some (calibrate raw off), some s.stampNow, some r.fields.source, blank⟩
      failures := setAt s.scan.failures r.entry 0
      faults := setAt s.scan.faults r.entry false
      completed := some r.entry
      cycleSet := s.scan.cycleSet ++
        [⟨r.entry, .valid, some (calibrate raw off), r.fields.compartment, r.fields.role⟩]
      read := none } →
    ∃ u : State, exec (.probeAnswer raw true) s = .next u.offer ∧
      u.scan.rows[r.entry] = ⟨.valid, some (calibrate raw off), some s.stampNow, some r.fields.source, blank⟩ ∧
      u.scan.failures = v.scan.failures ∧ u.scan.faults = v.scan.faults ∧
      (s.scan.state = .halting → u = v.cycleEnds v.scan .halted .stopped) ∧
      (∀ before after, s.scan.state ≠ .halting → s.scan.range.entries = before ++ r.entry :: after → v.goesOn after u))

/-- A read that ends BAD_CHECK, OUT_OF_RANGE or NO_ANSWER writes its outcome without a value, raises the entry's failure
count and, at three or more, sets its fault mark; a mark newly set raises PROBE_FAULT; the entry joins the cycle set and
the cycle goes on as after a VALID read (R10, R11, R12, R16, R17, R20). That the next read opens its exchange at once
when its settle time is 0 is log entry 15 (DEDUCED), and that the raw value is any integer is log entry 17. -/
def Obligations.FailedReadCounts : Prop :=
  ∀ (s v : State) (r : ReadInFlight) (c : Instr) (o : ReadOutcome) (n : Nat), s.quiet → s.scan.read = some r →
    r.phase = .exchanging → n = min (s.scan.failures[r.entry] + 1) 255 →
    ((∃ raw, c = .probeAnswer raw false ∧ o = .badCheck) ∨
      (∃ raw, c = .probeAnswer raw true ∧ (raw < -880 ∨ 1360 < raw) ∧ o = .outOfRange) ∨
      (c = .answerWindowExpiry ∧ o = .noAnswer)) →
    v = (s.withScan { s.scan with
      rows := setAt s.scan.rows r.entry ⟨o, none, some s.stampNow, none, false⟩
      failures := setAt s.scan.failures r.entry n
      faults := setAt s.scan.faults r.entry (s.scan.faults[r.entry] || decide (3 ≤ n))
      completed := some r.entry
      cycleSet := s.scan.cycleSet ++ [⟨r.entry, o, none, r.fields.compartment, r.fields.role⟩]
      read := none }).raiseIf (!s.scan.faults[r.entry] && decide (3 ≤ n)) .probeFault →
    ∃ u : State, exec c s = .next u.offer ∧ u.scan.rows[r.entry] = ⟨o, none, some s.stampNow, none, false⟩ ∧
      u.scan.failures = v.scan.failures ∧ u.scan.faults = v.scan.faults ∧
      (s.scan.faults[r.entry] = false → 2 ≤ s.scan.failures[r.entry] →
        s.notices.enables[Condition.probeFault.place] = true → u.notices.members[Condition.probeFault.place] = true) ∧
      (s.scan.state = .halting → u = v.cycleEnds v.scan .halted .stopped) ∧
      (∀ before after, s.scan.state ≠ .halting → s.scan.range.entries = before ++ r.entry :: after → v.goesOn after u)

/-- The arithmetic of readings and means: conversion rounds half away from zero (R13), calibration adds five times the
offset and clamps to −5500..+8500 (R15), and a mean is rounded to the nearest whole value, half-way toward the warmer
(R44). -/
def Obligations.ReadingArithmetic : Prop :=
  (∀ r : Int, (convert r).natAbs = (r.natAbs * 25 + 2) / 4 ∧ (r < 0 → convert r < 0) ∧ (0 < r → 0 < convert r) ∧
    (r = 0 → convert r = 0)) ∧
  (∀ r off : Int,
    (convert r + 5 * off < -5500 → calibrate r off = -5500) ∧ (8500 < convert r + 5 * off → calibrate r off = 8500) ∧
    (-5500 ≤ convert r + 5 * off → convert r + 5 * off ≤ 8500 → calibrate r off = convert r + 5 * off)) ∧
  (∀ (sum : Int) (n : Nat), 1 ≤ n → ∃ m, meanOf sum n = some m ∧ 2 * n * m ≤ 2 * sum + n ∧ 2 * sum + n < 2 * n * (m + 1))

/-! ### Compartment Monitor (spec/02) -/

/-- The step a cycle end hands and the step of a blind tick (R12, R27, R29, R31, R45): compartments 0 to 3 in order,
each with the warmest VALID EXPOSURE value and the warmest VALID WATCH value that the cycle set read under it, or blind.
What the step of one compartment does, and that a disabled one takes none, is StepMovesKnowledge. -/
def Obligations.EveryCompartmentTakesItsStep : Prop :=
  (∀ (s : State) (items : List CycleItem) (v w : CompNo → Option Int),
    (∀ (c : CompNo) (x : Int), v c = some x ↔
      (∃ i ∈ items, i.outcome = .valid ∧ i.role = .exposure ∧ i.compartment = some c ∧ i.value = some x) ∧
      ∀ i ∈ items, i.outcome = .valid → i.role = .exposure → i.compartment = some c → ∀ y, i.value = some y → y ≤ x) →
    (∀ (c : CompNo) (x : Int), w c = some x ↔
      (∃ i ∈ items, i.outcome = .valid ∧ i.role = .watch ∧ i.compartment = some c ∧ i.value = some x) ∧
      ∀ i ∈ items, i.outcome = .valid → i.role = .watch → i.compartment = some c → ∀ y, i.value = some y → y ≤ x) →
    s.cycleStep items = (((s.stepComp 0 (.cycle (v 0) (w 0))).stepComp 1 (.cycle (v 1) (w 1))).stepComp 2
      (.cycle (v 2) (w 2))).stepComp 3 (.cycle (v 3) (w 3))) ∧
  (∀ s : State, s.blindTick
    = (((s.stepComp 0 .blindTick).stepComp 1 .blindTick).stepComp 2 .blindTick).stepComp 3 .blindTick)

/-- The clamped settings with their CONFIG record when the value changes and none when it stays: LOG_INTERVAL_SET (R46),
HANDOVER_LIMIT_SET (R116), CLAIM_CONFIG_SET (R148); and LABEL_SET (R182). That these CONFIG records carry the present
time and the compartment NONE is log entry 20's choice. -/
def Obligations.SettingsRecordTheirChange : Prop :=
  ∀ (s : State) (tag : Byte), s.ready →
    (∀ (b : Byte) (l : Nat), l = max 1 (min b.toNat 60) →
      (s.logInterval = l → exec (.logIntervalSet tag b) s = .next (s.replies 0x12 tag (okay []))) ∧
      (s.logInterval ≠ l → exec (.logIntervalSet tag b) s
        = .next (((s.withLogInterval l).handConfig none (.interval l)).replies 0x12 tag (okay [])))) ∧
    (∀ (h : Half) (l : Nat), l = max 30 (min h.toNat 1800) →
      (s.handoverLimit = l → exec (.handoverLimitSet tag h) s = .next (s.replies 0x30 tag (okay []))) ∧
      (s.handoverLimit ≠ l → exec (.handoverLimitSet tag h) s
        = .next (((s.withHandoverLimit l).handConfig none (.handover l)).replies 0x30 tag (okay [])))) ∧
    (∀ (w : Word) (a : Nat), a = min w.toNat 86400 →
      (s.claims.allowance = a → exec (.claimConfigSet tag w) s = .next (s.replies 0x3E tag (okay []))) ∧
      (s.claims.allowance ≠ a → exec (.claimConfigSet tag w) s
        = .next (((s.withClaims { s.claims with allowance := a }).handConfig none (.claim a)).replies 0x3E tag (okay [])))) ∧
    (∀ l : Wide,
      (s.label = l → exec (.labelSet tag l) s = .next (s.replies 0x52 tag (okay []))) ∧
      (s.label ≠ l → exec (.labelSet tag l) s
        = .next (((s.withLabel l).handConfig none (.label l)).replies 0x52 tag (okay []))))

/-- COMPARTMENT_SET (R25, R26): out-of-range values are BAD_VALUE, disabling a compartment that a non-EMPTY slot names
is OCCUPIED; an accepted request stores the four settings, starts an enabled compartment afresh, makes a disabled one
UNKNOWN and UNSET, leaves the running state of one whose enable stays, and touches no other compartment. A change of
enabled, threshold or soft line hands one CONFIG record of reason COMPARTMENT, after the SAMPLE record of an interval
that disabling closes (R26, R43); what the log makes of a record handed is GeneralRecordsByTheLog. A new long-open limit
that a running timer has passed expires it and raises LONG_OPEN (R63), and the return of the band to UNSET evaluates the
pattern watch afresh (R64). Consignments in custody in a compartment enabled again are credited their blind seconds up
to now with the clock VALID (R94, log entry 19); no other slot's accounting changes. That the CONFIG record carries the
present time is log entry 20's choice. -/
def Obligations.CompartmentSetWritesSettings : Prop :=
  ∀ (s : State) (tag b enabled : Byte) (th ts limit : Half), s.ready →
    ((3 < b.toNat ∨ 1 < enabled.toNat ∨ th.toInt < -4000 ∨ 0 < th.toInt ∨ ts.toInt < th.toInt + 100 ∨ 1000 < ts.toInt) →
      exec (.compartmentSet tag b enabled th ts limit) s = .next (s.replies 0x10 tag (refuse .badValue))) ∧
    (∀ (c : CompNo) (e : Bool), c.val = b.toNat → yesNo e = [enabled] → -4000 ≤ th.toInt → th.toInt ≤ 0 →
      th.toInt + 100 ≤ ts.toInt → ts.toInt ≤ 1000 →
      (e = false → s.comps[c].settings.enabled = true →
        (∃ i : SlotNo, s.slots[i].state ≠ .empty ∧ s.slots[i].compartment = c) →
        exec (.compartmentSet tag b enabled th ts limit) s = .next (s.replies 0x10 tag (refuse .occupied))) ∧
      ((e = true ∨ s.comps[c].settings.enabled = false ∨
          ∀ i : SlotNo, s.slots[i].state ≠ .empty → s.slots[i].compartment ≠ c) →
        ∃ t : State, exec (.compartmentSet tag b enabled th ts limit) s = .next (t.replies 0x10 tag (okay [])) ∧
          t.comps[c].settings = ⟨e, th.toInt, ts.toInt, max 10 (min limit.toNat 3600)⟩ ∧
          (∀ d : CompNo, d ≠ c → t.comps[d] = s.comps[d]) ∧ t.scan = s.scan ∧ t.link = s.link ∧
          (e = true → s.comps[c].settings.enabled = false →
            t.comps[c].knowledge = .unknown ∧ t.comps[c].band = .unset ∧ t.comps[c].held = none ∧ t.comps[c].misses = 0 ∧
            t.comps[c].lastStep = s.stampNow ∧ t.comps[c].interval = .opening s.stampNow) ∧
          (e = false → s.comps[c].settings.enabled = true →
            t.comps[c].knowledge = .unknown ∧ t.comps[c].band = .unset ∧ t.comps[c].held = none ∧ t.comps[c].misses = 0) ∧
          (∀ i : SlotNo, { t.slots[i] with logDeferred := s.slots[i].logDeferred } =
            if e = true ∧ s.comps[c].settings.enabled = false ∧ s.clock.state = .valid ∧ s.slots[i].heldIn c = true then
              { s.slots[i] with
                blind := min (s.slots[i].blind + (s.clock.counter - s.slots[i].lastAccounted)) 4294967295
                lastAccounted := s.clock.counter }
            else s.slots[i]) ∧
          (e = s.comps[c].settings.enabled → { t.comps[c] with settings := s.comps[c].settings } = s.comps[c]) ∧
          (∀ a : Interval, a = s.comps[c].interval → t.log =
            if e = s.comps[c].settings.enabled ∧ th.toInt = s.comps[c].settings.threshold ∧
              ts.toInt = s.comps[c].settings.softLine then s.log
            else ((if e = false ∧ s.comps[c].settings.enabled = true ∧ 0 < a.steps then
              s.handGeneral
                { stamp := ⟨a.last, a.relative⟩, compartment := some c, tempSum := a.sum, tempCount := a.count
                  body := .sample
                    { span := min (a.last - a.start) 65535, minimum := a.minimum, maximum := a.maximum
                      mean := meanOf a.sum a.count, increment := a.increment, blind := min a.blind 65535, live := a.live
                      held := a.held, watchMax := a.watchMax } }
              else s).handGeneral
                { stamp := s.stampNow, compartment := some c, body := .config (.compartment e th.toInt ts.toInt) }).log) ∧
          t.hatch.inputs = s.hatch.inputs ∧
          (∀ (l : Nat) (overtaken : Bool), l = max 10 (min limit.toNat 3600) →
            overtaken = decide (l ≠ s.comps[c].settings.longOpenLimit ∧ s.hatch.openings[c].state = .opening ∧
              s.hatch.openings[c].timer = .running ∧ l ≤ s.hatch.openings[c].elapsed) →
            t.hatch.openings = (if overtaken then
              setAt s.hatch.openings c { s.hatch.openings[c] with timer := .expired } else s.hatch.openings) ∧
            ∀ k : Fin 18, k = Condition.longOpen.place →
              t.notices.members[k] = (s.notices.members[k] || (s.notices.enables[k] && overtaken))) ∧
          ((e = true ∨ s.comps[c].settings.enabled = false ∨ s.comps[c].band = .unset ∨
            ∀ j : InputNo, s.hatch.inputs[j].settings.member = true → s.hatch.inputs[j].settings.compartment ≠ some c) →
            t.hatch.patternTruth = s.hatch.patternTruth) ∧
          (∀ j : InputNo, e = false → s.comps[c].settings.enabled = true → s.comps[c].band ≠ .unset →
            s.hatch.inputs[j].settings.member = true → s.hatch.inputs[j].settings.compartment = some c →
            (t.hatch.patternTruth = true ↔
              (∀ i : InputNo, s.hatch.inputs[i].settings.member = true → s.hatch.inputs[i].settled = .opened) ∧
              (s.hatch.bandRequired = true → ∃ (i : InputNo) (d : CompNo), s.hatch.inputs[i].settings.member = true ∧
                s.hatch.inputs[i].settings.compartment = some d ∧ d ≠ c ∧ s.comps[d].band = .warm))) ∧
          (∀ k : Fin 18, k = Condition.pattern.place → t.notices.members[k] = (s.notices.members[k] ||
            (s.notices.enables[k] && !s.hatch.patternTruth && t.hatch.patternTruth)))))

/-- The step of an enabled compartment: its kind, and its knowledge, held value, miss count and last step time after it,
for each cause; a disabled compartment takes none (R27, R30, R31, R40, Table 2-3). BLIND is raised exactly by a step
that enters it (R34). -/
def Obligations.StepMovesKnowledge : Prop :=
  ∀ (s : State) (c : CompNo),
    (s.comps[c].settings.enabled = false → ∀ cause, s.stepComp c cause = s) ∧
    (s.comps[c].settings.enabled = true →
      (∀ cause, (s.stepComp c cause).comps[c].lastStep = s.stampNow) ∧
      (∀ (v : Int) (w : Option Int) (y : Compartment), (s.stepComp c (.cycle (some v) w)).comps[c] = y →
        s.comps[c].stepKind (.cycle (some v) w) = .live v ∧ y.knowledge = .live ∧ y.held = some v ∧ y.misses = 0) ∧
      (∀ (w : Option Int) (y : Compartment), (s.stepComp c (.cycle none w)).comps[c] = y →
        ((s.comps[c].knowledge = .unknown ∨ s.comps[c].knowledge = .blind) →
          s.comps[c].stepKind (.cycle none w) = .blind ∧ y.knowledge = s.comps[c].knowledge ∧ y.held = s.comps[c].held ∧
          y.misses = s.comps[c].misses) ∧
        (∀ v, (s.comps[c].knowledge = .live ∨ s.comps[c].knowledge = .holding) → s.comps[c].held = some v →
          (s.comps[c].misses ≤ 5 → s.comps[c].stepKind (.cycle none w) = .held v ∧ y.knowledge = .holding ∧
            y.held = some v ∧ y.misses = s.comps[c].misses + 1) ∧
          (6 ≤ s.comps[c].misses → s.comps[c].stepKind (.cycle none w) = .blind ∧ y.knowledge = .blind ∧ y.held = none ∧
            y.misses = 7))) ∧
      (∀ y : Compartment, (s.stepComp c .blindTick).comps[c] = y →
        s.comps[c].stepKind .blindTick = .blind ∧ y.knowledge = .blind ∧ y.held = none ∧ y.misses = 7) ∧
      (∀ y : Compartment, (s.stepComp c .boundary).comps[c] = y →
        y.knowledge = s.comps[c].knowledge ∧ y.held = s.comps[c].held ∧ y.misses = s.comps[c].misses ∧
        (∀ v, (s.comps[c].knowledge = .live ∨ s.comps[c].knowledge = .holding) → s.comps[c].held = some v →
          s.comps[c].stepKind .boundary = .held v) ∧
        ((s.comps[c].knowledge = .unknown ∨ s.comps[c].knowledge = .blind) → s.comps[c].stepKind .boundary = .blind)) ∧
      (∀ (cause : StepCause) (t : State) (k : Fin 18), s.stepComp c cause = t → k = Condition.blind.place →
        (s.comps[c].knowledge ≠ .blind → t.comps[c].knowledge = .blind → s.notices.enables[k] = true →
          t.notices.members[k] = true ∧
          t.notices.counts[k] = if s.notices.members[k] = true then min (s.notices.counts[k] + 1) 255 else 1) ∧
        ((s.comps[c].knowledge = .blind ∨ t.comps[c].knowledge ≠ .blind) →
          t.notices.members[k] = s.notices.members[k] ∧ t.notices.counts[k] = s.notices.counts[k])))

/-- The band moves at live steps alone, as Table 2-4 says, and WARM to COLD credits one heat-shock cycle to every
consignment in custody in the compartment, with the clock VALID (R32, R33, R39). PATTERN is raised exactly by a step
whose band change makes the pattern watch true (R64). -/
def Obligations.BandMovesAtLiveSteps : Prop :=
  ∀ (s : State) (c : CompNo) (cause : StepCause) (b : Band), s.comps[c].settings.enabled = true → s.comps[c].band = b →
    (∀ v, s.comps[c].stepKind cause = .live v →
      (s.stepComp c cause).comps[c].band =
        (if b = .warm then (if v ≤ s.comps[c].settings.threshold then .cold else .warm)
        else (if s.comps[c].settings.softLine < v then .warm else .cold)) ∧
      ∀ i : SlotNo, (s.stepComp c cause).slots[i].cycles =
        if s.clock.state = .valid ∧ s.slots[i].heldIn c = true ∧ b = .warm ∧ v ≤ s.comps[c].settings.threshold then
          min (s.slots[i].cycles + 1) 65535
        else s.slots[i].cycles) ∧
    ((∀ v, s.comps[c].stepKind cause ≠ .live v) → (s.stepComp c cause).comps[c].band = b ∧
      ∀ i : SlotNo, (s.stepComp c cause).slots[i].cycles = s.slots[i].cycles) ∧
    (∀ (t : State) (k : Fin 18), s.stepComp c cause = t → k = Condition.pattern.place →
      t.notices.members[k] = (s.notices.members[k] ||
        (s.notices.enables[k] && !s.hatch.patternTruth && t.hatch.patternTruth)) ∧
      (t.comps[c].band = b → t.hatch.patternTruth = s.hatch.patternTruth))

/-- With the clock VALID a live or held step gives every consignment in custody in the compartment its share and checks
its limit, and a blind step its blind credit; every other slot is untouched. With the clock UNSET no slot is accounted
(R35 to R39). EXPOSURE_LIMIT is raised once for each consignment whose LIMIT_CROSSED the step sets (R38). That these
shares are of their step's kind also for a consignment taken into a compartment without a value, the blind first share
of R101 being the one at its custody-in, is log entry 23 (DEDUCED). -/
def Obligations.StepSharesAndBlindCredits : Prop :=
  (∀ (s : State) (c : CompNo) (cause : StepCause) (i : SlotNo) (x y : Slot) (seconds : Nat),
    s.comps[c].settings.enabled = true → s.slots[i] = x → (s.stepComp c cause).slots[i] = y →
    seconds = s.now - max x.lastAccounted s.comps[c].lastStep.time →
    (x.heldIn c = false → y = x) ∧
    (s.clock.state = .unset → y.exposure = x.exposure ∧ y.covered = x.covered ∧ y.blind = x.blind ∧
      y.lastAccounted = x.lastAccounted ∧ y.limitCrossed = x.limitCrossed) ∧
    (s.clock.state = .valid → x.heldIn c = true → y.lastAccounted = s.now ∧
      (∀ v, (s.comps[c].stepKind cause = .live v ∨ s.comps[c].stepKind cause = .held v) →
        y.exposure = min (x.exposure + ((max 0 (v - s.comps[c].settings.threshold)).toNat
          + (max 0 (v - s.comps[c].settings.softLine)).toNat) * seconds) 4294967295 ∧
        y.covered = min (x.covered + seconds) 4294967295 ∧ y.blind = x.blind ∧
        y.limitCrossed = (x.limitCrossed || decide (x.limit < min (x.carriedExposure + y.exposure) 4294967295))) ∧
      (s.comps[c].stepKind cause = .blind →
        y.blind = min (x.blind + seconds) 4294967295 ∧ y.exposure = x.exposure ∧ y.covered = x.covered ∧
        y.limitCrossed = x.limitCrossed))) ∧
  (∀ (s t : State) (c : CompNo) (cause : StepCause) (k : Fin 18) (n : Nat), s.stepComp c cause = t →
    k = Condition.exposureLimit.place →
    n = (places 64).countP (fun i => !s.slots[i].limitCrossed && t.slots[i].limitCrossed) →
    (n = 0 → t.notices.members[k] = s.notices.members[k] ∧ t.notices.counts[k] = s.notices.counts[k]) ∧
    (0 < n → s.notices.enables[k] = true → t.notices.members[k] = true ∧
      t.notices.counts[k] = if s.notices.members[k] = true then min (s.notices.counts[k] + n) 255 else min n 255))

/-- A step adds its contributions to the open sample interval, field by field (R42); the interval closes at the log
interval and at a boundary step, a new one opens at the step, and its SAMPLE record is handed to the log (R43, R44),
whose doings with it, LOG_DEFERRED and LOG_HELD among them, are GeneralRecordsByTheLog. -/
def Obligations.StepFeedsTheSampleInterval : Prop :=
  ∀ (s : State) (c : CompNo) (cause : StepCause) (k : StepKind) (x : Compartment) (a : Interval) (span : Nat)
    (temp : Option Int), s.comps[c] = x → x.settings.enabled = true → x.stepKind cause = k →
    span = s.now - x.lastStep.time → temp = (match k with | .live v => some v | .held v => some v | .blind => none) →
    a = { x.interval with
      last := s.now
      steps := x.interval.steps + 1
      live := x.interval.live + (match k with | .live _ => 1 | _ => 0)
      held := x.interval.held + (match k with | .held _ => 1 | _ => 0)
      sum := x.interval.sum + (match temp with | some v => v | none => 0)
      count := x.interval.count + (match temp with | some _ => 1 | none => 0)
      minimum := (match temp, x.interval.minimum with
        | some v, some m => some (min m v) | some v, none => some v | none, m => m)
      maximum := (match temp, x.interval.maximum with
        | some v, some m => some (max m v) | some v, none => some v | none, m => m)
      increment := min (x.interval.increment + (match temp with
        | some v => ((max 0 (v - x.settings.threshold)).toNat + (max 0 (v - x.settings.softLine)).toNat) * span
        | none => 0)) 4294967295
      blind := min (x.interval.blind + (match temp with | some _ => 0 | none => span)) 4294967295
      watchMax := (match cause, x.interval.watchMax with
        | .cycle _ (some w), some m => some (max m w) | .cycle _ (some w), none => some w | _, m => m) } →
    ((cause ≠ .boundary ∧ x.interval.steps + 1 < s.logInterval) →
      (s.stepComp c cause).comps[c].interval = a ∧ (s.stepComp c cause).log = s.log) ∧
    ((cause = .boundary ∨ s.logInterval ≤ x.interval.steps + 1) →
      (s.stepComp c cause).comps[c].interval = .opening s.stampNow ∧
      ∀ w : State, w = s.handGeneral
          { stamp := ⟨a.last, a.relative⟩, compartment := some c, tempSum := a.sum, tempCount := a.count
            body := .sample
              { span := min (a.last - a.start) 65535, minimum := a.minimum, maximum := a.maximum
                mean := meanOf a.sum a.count, increment := a.increment, blind := min a.blind 65535, live := a.live
                held := a.held, watchMax := a.watchMax } } →
        (s.stepComp c cause).log = w.log ∧
        (∀ i : SlotNo, (s.stepComp c cause).slots[i].logDeferred = w.slots[i].logDeferred) ∧
        (∀ l : Fin 18, l = Condition.logHeld.place →
          (s.stepComp c cause).notices.members[l] = w.notices.members[l]) ∧
        (s.log.generalFate = .appended → ∃ r, (s.stepComp c cause).log.records = s.log.records ++ [r] ∧
          r.sequence = s.log.nextSeq ∧ r.stamp = ⟨a.last, a.relative⟩ ∧ r.compartment = some c))

/-! ### Hatch Contact Monitor (spec/03) -/

/-- RAW_CHANGE (R53, R54, R66): an UNSETTLED input restarts its timer; a level away from the settled state starts a
timer; a return to it under a running timer is a bounce. No other input changes. That a RAW_CHANGE to the level the
contact already has does nothing is log entry 14's choice. -/
def Obligations.RawChangeDebounces : Prop :=
  ∀ (s : State) (i : InputNo) (made : Bool) (x : ContactInput), s.quiet → s.hatch.inputs[i] = x →
    (x.made = made → exec (.rawChange i made) s = .next s.offer) ∧
    (x.made ≠ made → x.settled = .unsettled → exec (.rawChange i made) s
      = .next (s.setInput i { x with made := made, timer := some s.hatch.debounceSteps }).offer) ∧
    (x.made ≠ made → x.settled ≠ .unsettled →
      (x.timer = none → levelOf x.settings.sense made ≠ x.settled → exec (.rawChange i made) s
        = .next (s.setInput i { x with made := made, timer := some s.hatch.debounceSteps }).offer) ∧
      (x.timer = none → levelOf x.settings.sense made = x.settled → exec (.rawChange i made) s
        = .next (s.setInput i { x with made := made }).offer) ∧
      (x.timer.isSome = true → levelOf x.settings.sense made = x.settled → exec (.rawChange i made) s
        = .next (s.setInput i { x with made := made, timer := none, bounces := min (x.bounces + 1) 255 }).offer) ∧
      (x.timer.isSome = true → levelOf x.settings.sense made ≠ x.settled → exec (.rawChange i made) s
        = .next (s.setInput i { x with made := made }).offer))

/-- DEBOUNCE_EXPIRY of a settled input takes the change: the new debounced state, its HATCH record with the compartment
change OPENED or CLOSED where the log appends, an opening that starts with its count on the consignments in custody, one
that ends with its credit, and a compartment OPEN_AT_START that becomes SHUT (R56, R57, R59 to R61). HATCHi is raised as
the input's watch says (R58), and PATTERN when a change of a member makes the pattern watch true (R64). -/
def Obligations.DebounceExpiryTakesTheChange : Prop :=
  ∀ (s : State) (i : InputNo) (x : ContactInput), s.quiet → s.hatch.inputs[i] = x → x.timer.isSome = true →
    x.settled ≠ .unsettled → ∃ t : State, exec (.debounceExpiry i) s = .next t ∧
      t.hatch.inputs[i] = { x with settled := x.level, timer := none } ∧
      (∀ j : InputNo, j ≠ i → t.hatch.inputs[j] = s.hatch.inputs[j]) ∧ t.comps = s.comps ∧ t.scan = s.scan ∧
      (s.log.generalFate = .appended → ∃ r, t.log.records = s.log.records ++ [r] ∧ r.stamp = s.stampNow ∧
        r.compartment = x.settings.compartment ∧ ∃ change, r.body = .hatch i x.level change ∧
          (change = .opened ↔ ∃ c, x.settings.compartment = some c ∧ s.hatch.openings[c].state = .shut ∧
            x.level = .opened) ∧
          (change = .closed ↔ ∃ c, x.settings.compartment = some c ∧ s.hatch.openings[c].state ≠ .shut ∧
            x.level = .shut ∧ ∀ j : InputNo, j ≠ i → s.hatch.inputs[j].settings.compartment = some c →
              s.hatch.inputs[j].settled ≠ .opened)) ∧
      (∀ c, x.settings.compartment = some c → s.hatch.openings[c].state = .shut → x.level = .opened →
        t.hatch.openings[c] = ⟨.opening, some s.stampNow, 0, .running⟩ ∧
        ∀ j : SlotNo, t.slots[j] = if s.clock.state = .valid ∧ s.slots[j].heldIn c = true then
          { s.slots[j] with openings := min (s.slots[j].openings + 1) 65535 } else s.slots[j]) ∧
      (∀ c start, x.settings.compartment = some c → s.hatch.openings[c].state = .opening →
        s.hatch.openings[c].start = some start → x.level = .shut →
        (∀ j : InputNo, j ≠ i → s.hatch.inputs[j].settings.compartment = some c → s.hatch.inputs[j].settled ≠ .opened) →
        t.hatch.openings[c] = .shut ∧
        ∀ j : SlotNo, t.slots[j] = if s.clock.state = .valid ∧ s.slots[j].heldIn c = true then
          { s.slots[j] with
            openingSeconds := min (s.slots[j].openingSeconds + (s.now - max start.time s.slots[j].inTime)) 4294967295 }
          else s.slots[j]) ∧
      (∀ c, x.settings.compartment = some c → s.hatch.openings[c].state = .openAtStart → x.level = .shut →
        (∀ j : InputNo, j ≠ i → s.hatch.inputs[j].settings.compartment = some c → s.hatch.inputs[j].settled ≠ .opened) →
        t.hatch.openings[c] = .shut ∧ t.slots = s.slots) ∧
      (∀ k : Fin 18, k = (Condition.hatch i).place → t.notices.members[k] = (s.notices.members[k] ||
        (s.notices.enables[k] && (decide (x.settings.watch = .change) ||
          decide (x.settings.watch = .openLevel ∧ x.level = .opened))))) ∧
      (x.settings.member = true → (t.hatch.patternTruth = true ↔
        (∀ j : InputNo, t.hatch.inputs[j].settings.member = true → t.hatch.inputs[j].settled = .opened) ∧
        (s.hatch.bandRequired = true → ∃ (j : InputNo) (c : CompNo), t.hatch.inputs[j].settings.member = true ∧
          t.hatch.inputs[j].settings.compartment = some c ∧ s.comps[c].band = .warm))) ∧
      (x.settings.member = false → t.hatch.patternTruth = s.hatch.patternTruth) ∧
      (∀ k : Fin 18, k = Condition.pattern.place → t.notices.members[k] = (s.notices.members[k] ||
        (s.notices.enables[k] && !s.hatch.patternTruth && t.hatch.patternTruth)))

/-- The first settling of an input after start-up records its level without a HATCH record and without an opening: a
compartment found open is OPEN_AT_START (R66). An expiry without a running timer changes nothing (log entry 14). -/
def Obligations.FirstSettlingIsNoTakenChange : Prop :=
  ∀ (s : State) (i : InputNo) (x : ContactInput), s.quiet → s.hatch.inputs[i] = x →
    (x.timer = none → exec (.debounceExpiry i) s = .next s.offer) ∧
    (x.timer.isSome = true → x.settled = .unsettled → ∃ t : State, exec (.debounceExpiry i) s = .next t ∧
      t.hatch.inputs[i] = { x with settled := x.level, timer := none } ∧ t.log = s.log ∧ t.slots = s.slots ∧
      (∀ c : CompNo, t.hatch.openings[c] =
        if x.level = .opened ∧ x.settings.compartment = some c ∧ s.hatch.openings[c].state = .shut then
          ⟨.openAtStart, none, 0, .stopped⟩
        else s.hatch.openings[c]) ∧
      (x.level = .opened → x.settings.watch = .openLevel → s.notices.enables[(Condition.hatch i).place] = true →
        t.notices.members[(Condition.hatch i).place] = true))

/-- LONG_OPEN_EXPIRY of a compartment whose long-open timer runs: the seconds left pass, the timer is expired, the
opening goes on, an enabled LONG_OPEN is pending, and no record is written; a timer that does not run does not expire
(R63, log entry 14). The seconds that the command brings with it are log entry 12's choice: a tick inside them falls at
its own second and starts the next interval (R7). -/
def Obligations.LongOpenExpiresOnce : Prop :=
  ∀ (s : State) (c : CompNo), s.quiet →
    ((s.hatch.openings[c].state ≠ .opening ∨ s.hatch.openings[c].timer ≠ .running) →
      exec (.longOpenExpiry c) s = .next s.offer) ∧
    (∀ (n : Nat) (p : State), s.hatch.openings[c].state = .opening → s.hatch.openings[c].timer = .running →
      n = s.comps[c].settings.longOpenLimit - s.hatch.openings[c].elapsed → p = s.passTo n →
      exec (.longOpenExpiry c) s
        = .next (((p.setOpening c { p.hatch.openings[c] with timer := .expired }).raise .longOpen).offer) ∧
      p.hatch.openings[c].state = .opening ∧ p.hatch.openings[c].start = s.hatch.openings[c].start ∧
      (0 < n → p.hatch.openings[c].elapsed = min (s.hatch.openings[c].elapsed + n) 4294967295 ∧
        p.clock.uptime = min (s.clock.uptime + n) 4294967294) ∧
      p.hatch.inputs = s.hatch.inputs ∧ (s.calmFor n → p = s.after n) ∧
      (s.scan.tickIn < n → n ≤ s.scan.tickIn + s.scan.period → p.scan.tickIn = s.scan.tickIn + s.scan.period - n ∧
        ((s.scan.state = .reading ∨ s.scan.state = .halting) → p.scan.overruns = min (s.scan.overruns + 1) 255)) ∧
      ∃ t : State, exec (.longOpenExpiry c) s = .next t ∧ t.hatch.openings[c].timer = .expired ∧
        t.hatch.openings[c].state = .opening ∧ t.hatch.inputs = s.hatch.inputs ∧
        (s.calmFor n → t.log = s.log ∧ t.slots = s.slots ∧ t.comps = s.comps) ∧
        (s.notices.enables[Condition.longOpen.place] = true → t.notices.members[Condition.longOpen.place] = true))

/-- HATCH_INPUT_SET (R50, R51) and HATCH_CONFIG_SET (R52): out-of-range values are BAD_VALUE, moving or reinterpreting
an OPEN input is WRONG_STATE, and an accepted request stores the settings and keeps every debounced state and opening. A
change of sense takes the level afresh: it stops the debounce timer, or starts it anew where the level differs or the
input is UNSETTLED; a watch set to OPEN_LEVEL over an OPEN input raises its condition; a change of membership or of band
required evaluates the pattern watch afresh (R64); and a change of any setting hands one CONFIG record of reason HATCH,
whose fate is GeneralRecordsByTheLog. That it carries the present time and the compartment NONE is log entry 20's
choice. -/
def Obligations.HatchSettings : Prop :=
  ∀ (s : State) (tag : Byte), s.ready →
    (∀ i c e w m : Byte, (7 < i.toNat ∨ (3 < c.toNat ∧ c ≠ 0xFF) ∨ 1 < e.toNat ∨ 2 < w.toNat ∨ 1 < m.toNat) →
      exec (.hatchInputSet tag i c e w m) s = .next (s.replies 0x18 tag (refuse .badValue))) ∧
    (∀ (b c e w m : Byte) (i : InputNo) (new : InputSettings), i.val = b.toNat → numField new.compartment = [c] →
      new.sense.code = e.toNat → new.watch.code = w.toNat → yesNo new.member = [m] →
      (s.hatch.inputs[i].settled = .opened →
        (s.hatch.inputs[i].settings.compartment ≠ new.compartment ∨ s.hatch.inputs[i].settings.sense ≠ new.sense) →
        exec (.hatchInputSet tag b c e w m) s = .next (s.replies 0x18 tag (refuse .wrongState))) ∧
      ((s.hatch.inputs[i].settled ≠ .opened ∨
          (s.hatch.inputs[i].settings.compartment = new.compartment ∧ s.hatch.inputs[i].settings.sense = new.sense)) →
        ∃ t : State, exec (.hatchInputSet tag b c e w m) s = .next (t.replies 0x18 tag (okay [])) ∧
          (∀ x : ContactInput, x = s.hatch.inputs[i] → t.hatch.inputs = setAt s.hatch.inputs i { x with
            settings := new
            timer := if new.sense = x.settings.sense then x.timer else if x.settled = .unsettled then some s.hatch.debounceSteps
              else if levelOf new.sense x.made = x.settled then none else some s.hatch.debounceSteps }) ∧
          t.hatch.openings = s.hatch.openings ∧ t.comps = s.comps ∧ t.link = s.link ∧ t.slots = s.slots ∧
          (∀ k : Fin 18, k = (Condition.hatch i).place → t.notices.members[k] = (s.notices.members[k] ||
            (s.notices.enables[k] && decide (s.hatch.inputs[i].settings.watch ≠ .openLevel ∧ new.watch = .openLevel ∧
              s.hatch.inputs[i].settled = .opened)))) ∧
          (new.member = s.hatch.inputs[i].settings.member → t.hatch.patternTruth = s.hatch.patternTruth) ∧
          (new.member ≠ s.hatch.inputs[i].settings.member → (t.hatch.patternTruth = true ↔
            (∃ j : InputNo, t.hatch.inputs[j].settings.member = true) ∧
            (∀ j : InputNo, t.hatch.inputs[j].settings.member = true → t.hatch.inputs[j].settled = .opened) ∧
            (s.hatch.bandRequired = true → ∃ (j : InputNo) (d : CompNo), t.hatch.inputs[j].settings.member = true ∧
              t.hatch.inputs[j].settings.compartment = some d ∧ s.comps[d].band = .warm))) ∧
          (∀ k : Fin 18, k = Condition.pattern.place → t.notices.members[k] = (s.notices.members[k] ||
            (s.notices.enables[k] && !s.hatch.patternTruth && t.hatch.patternTruth))) ∧
          t.log = (if new = s.hatch.inputs[i].settings then s
            else s.handGeneral { stamp := s.stampNow, compartment := none, body := .config (.hatchInput i new) }).log)) ∧
    (∀ d b : Byte, 1 < b.toNat → exec (.hatchConfigSet tag d b) s = .next (s.replies 0x19 tag (refuse .badValue))) ∧
    (∀ (d b : Byte) (band : Bool), yesNo band = [b] →
      ∃ t : State, exec (.hatchConfigSet tag d b) s = .next (t.replies 0x19 tag (okay [])) ∧
        t.hatch.debounceSteps = max 2 (min d.toNat 200) ∧ t.hatch.bandRequired = band ∧ t.hatch.inputs = s.hatch.inputs ∧
        t.hatch.openings = s.hatch.openings ∧ t.comps = s.comps ∧ t.link = s.link ∧ t.slots = s.slots ∧
        (band = s.hatch.bandRequired → t.hatch.patternTruth = s.hatch.patternTruth) ∧
        (band ≠ s.hatch.bandRequired → (t.hatch.patternTruth = true ↔
          (∃ j : InputNo, s.hatch.inputs[j].settings.member = true) ∧
          (∀ j : InputNo, s.hatch.inputs[j].settings.member = true → s.hatch.inputs[j].settled = .opened) ∧
          (band = true → ∃ (j : InputNo) (c : CompNo), s.hatch.inputs[j].settings.member = true ∧
            s.hatch.inputs[j].settings.compartment = some c ∧ s.comps[c].band = .warm))) ∧
        (∀ k : Fin 18, k = Condition.pattern.place → t.notices.members[k] = (s.notices.members[k] ||
          (s.notices.enables[k] && !s.hatch.patternTruth && t.hatch.patternTruth))) ∧
        t.log = (if max 2 (min d.toNat 200) = s.hatch.debounceSteps ∧ band = s.hatch.bandRequired then s
          else s.handGeneral
            { stamp := s.stampNow, compartment := none
              body := .config (.hatchPart (max 2 (min d.toNat 200)) band) }).log)

/-! ### Custody Log (spec/04) -/

/-- A general record handed to the log (R71, R72, R75, R79 to R82, R87): appended below 4032 records, appended after an
eviction when the oldest is not held, else merged (SAMPLE) or lost and counted by its kind, entering HELD_FULL with
LOG_HELD raised. An appended record takes the next sequence, and its chain value covers the log's chain value and its
first 28 bytes; the one that takes sequence 0xFFFFFFFF leaves the log ENDED, and in ENDED every general record is lost,
a SAMPLE under other. That a merge brings the record's saturated span and blind seconds and the exact sum and count is
log entry 16 (DEDUCED). -/
def Obligations.GeneralRecordsByTheLog : Prop :=
  (∀ (s : State) (e : Entry), s.log.ended = false → s.log.nextSeq ≤ 4294967295 → e.body.isCustody = false →
    (s.log.heldFull = false → (s.log.records.length < 4032 ∨ s.log.oldestHeld = false) →
      ∃ r : LogRecord, r.sequence = s.log.nextSeq ∧ r.stamp = e.stamp ∧ r.compartment = e.compartment ∧ r.body = e.body ∧
        r.chain = crc32 (le32 s.log.chain.toNat ++ r.image.take 28) ∧
        s.handGeneral e = s.withLog
          { s.log with
            records := (if s.log.records.length < 4032 then s.log.records else s.log.records.tail) ++ [r],
            nextSeq := if s.log.nextSeq = 4294967295 then 4294967295 else s.log.nextSeq + 1, chain := r.chain,
            ended := decide (s.log.nextSeq = 4294967295) }) ∧
    (∀ l : Log, (s.log.heldFull = true ∨ (4032 ≤ s.log.records.length ∧ s.log.oldestHeld = true)) →
      l = (if s.log.heldFull then s.log
        else { s.log with heldFull := true, heldSince := some (s.log.heldSince.getD e.stamp) }) →
      (∀ b (c : CompNo), e.body = .sample b → e.compartment = some c →
        (s.handGeneral e).log
          = { l with
              coarse := setAt l.coarse c (some (match l.coarse[c] with
                | none =>
                  { spanStart := e.stamp.time - b.span, last := e.stamp.time, minimum := b.minimum, maximum := b.maximum
                    sum := e.tempSum, count := e.tempCount, increment := min b.increment 4294967295
                    blind := min b.blind 4294967295, merged := 1, relative := e.stamp.relative }
                | some a =>
                  { spanStart := a.spanStart, last := e.stamp.time
                    minimum := (match a.minimum, b.minimum with
                      | some m, some n => some (min m n) | some m, none => some m | none, n => n)
                    maximum := (match a.maximum, b.maximum with
                      | some m, some n => some (max m n) | some m, none => some m | none, n => n)
                    sum := a.sum + e.tempSum, count := a.count + e.tempCount
                    increment := min (a.increment + b.increment) 4294967295
                    blind := min (a.blind + b.blind) 4294967295, merged := min (a.merged + 1) 65535
                    relative := a.relative || e.stamp.relative })) } ∧
        (s.handGeneral e).slots = mapAll (fun x => if x.heldIn c then { x with logDeferred := true } else x) s.slots) ∧
      ((∀ b, e.body ≠ .sample b) → (s.handGeneral e).slots = s.slots) ∧
      (∀ i st ch, e.body = .hatch i st ch →
        (s.handGeneral e).log = { l with hatchLost := min (l.hatchLost + 1) 65535 }) ∧
      (∀ a r i h w v, e.body = .claim a r i h w v →
        (s.handGeneral e).log = { l with claimLost := min (l.claimLost + 1) 65535 }) ∧
      (((∃ c, e.body = .config c) ∨ (∃ p n k, e.body = .time p n k) ∨ (∃ r g k n, e.body = .power r g k n)) →
        (s.handGeneral e).log = { l with otherLost := min (l.otherLost + 1) 65535 }) ∧
      (s.log.heldFull = false → s.notices.enables[Condition.logHeld.place] = true →
        (s.handGeneral e).notices.members[Condition.logHeld.place] = true))) ∧
  (∀ (s : State) (e : Entry), s.log.ended = true →
    (∀ b, e.body = .sample b →
      (s.handGeneral e).log = { s.log with otherLost := min (s.log.otherLost + 1) 65535 } ∧
      ∀ i : SlotNo, (s.handGeneral e).slots[i] =
        if ∃ c, e.compartment = some c ∧ s.slots[i].heldIn c = true then { s.slots[i] with logDeferred := true }
        else s.slots[i]) ∧
    (∀ i st ch, e.body = .hatch i st ch →
      s.handGeneral e = s.withLog { s.log with hatchLost := min (s.log.hatchLost + 1) 65535 }) ∧
    (∀ a r i h w v, e.body = .claim a r i h w v →
      s.handGeneral e = s.withLog { s.log with claimLost := min (s.log.claimLost + 1) 65535 }) ∧
    (((∃ c, e.body = .config c) ∨ (∃ p n k, e.body = .time p n k) ∨ (∃ r g k n, e.body = .power r g k n)) →
      s.handGeneral e = s.withLog { s.log with otherLost := min (s.log.otherLost + 1) 65535 }))

/-- A custody record that must be taken (R76, R78, R87) is appended below 4096 records or, after an eviction, when the
oldest is not held; otherwise, and in ENDED, it is lost and counted, and a log that is not ENDED is HELD_FULL. A
CUSTODY_OUT record that is appended fixes the window end of every OPEN hold whose claim names its consignment (R74). The
release of the hold that held the oldest record ends HELD_FULL and, with no accumulator filled, writes the GAP record
with the lost counts, which become 0 (R83, R84, R86). The custody test of R77 asks whether the custody record would be
written, alone or after a SAMPLE. -/
def Obligations.CustodyRecordsAndTheEndOfHeldFull : Prop :=
  (∀ (s : State) (e : Entry), s.log.ended = false → e.body.isCustody = true →
    ((s.log.records.length < 4096 ∨ s.log.oldestHeld = false) →
      ∃ r : LogRecord, r.sequence = s.log.nextSeq ∧ r.body = e.body ∧ r.stamp = e.stamp ∧ r.compartment = e.compartment ∧
        (s.handCustody e).log.records
          = (if s.log.records.length < 4096 then s.log.records else s.log.records.tail) ++ [r] ∧
        (s.handCustody e).log.chain = r.chain ∧ (s.handCustody e).log.custodyLost = s.log.custodyLost ∧
        (s.handCustody e).log.ended = decide (s.log.nextSeq = 4294967295) ∧
        ∀ i : ClaimNo, (s.handCustody e).log.holds[i] =
          match e.body, s.log.holds[i], s.claims.slots[i] with
          | .custodyOut id .., some h, some k =>
            if h.stop = none ∧ k.identifier = id then some ⟨h.start, some s.log.nextSeq⟩ else some h
          | _, h, _ => h) ∧
    (4096 ≤ s.log.records.length → s.log.oldestHeld = true →
      (s.handCustody e).log =
        { s.log with
          custodyLost := min (s.log.custodyLost + 1) 65535, heldFull := true,
          heldSince := if s.log.heldFull then s.log.heldSince else some (s.log.heldSince.getD e.stamp) })) ∧
  (∀ (s : State) (e : Entry), s.log.ended = true →
    s.handCustody e = s.withLog { s.log with custodyLost := min (s.log.custodyLost + 1) 65535 }) ∧
  (∀ (s : State) (i : ClaimNo), s.log.heldFull = true → s.log.ended = false →
    { s.log with holds := setAt s.log.holds i none }.oldestHeld = false → (∀ c : CompNo, s.log.coarse[c] = none) →
    ∃ r : LogRecord, r.sequence = s.log.nextSeq ∧ r.stamp = s.stampNow ∧ r.compartment = none ∧
      r.body = .gap s.log.heldSince s.log.hatchLost s.log.claimLost s.log.otherLost s.log.custodyLost ∧
      (s.releaseHold i).log.records
        = (if s.log.records.length < 4032 then s.log.records else s.log.records.tail) ++ [r] ∧
      (s.releaseHold i).log.heldFull = false ∧ (s.releaseHold i).log.heldSince = none ∧
      (s.releaseHold i).log.hatchLost = 0 ∧ (s.releaseHold i).log.claimLost = 0 ∧ (s.releaseHold i).log.otherLost = 0 ∧
      (s.releaseHold i).log.custodyLost = 0 ∧ (s.releaseHold i).log.holds[i] = none ∧ (s.releaseHold i).slots = s.slots) ∧
  (∀ l : Log,
    (l.custodyFits false = true ↔ l.ended = false ∧ (l.records.length < 4096 ∨ l.oldestHeld = false)) ∧
    (l.custodyFits true = true ↔ l.ended = false ∧
      ((l.heldFull = true ∧ (l.records.length < 4096 ∨ l.oldestHeld = false)) ∨
        (l.heldFull = false ∧ l.records.length < 4032 ∧ l.nextSeq ≠ 4294967295) ∨
        (l.heldFull = false ∧ 4032 ≤ l.records.length ∧ l.oldestHeld = true ∧ l.records.length < 4096) ∨
        (l.heldFull = false ∧ 4032 ≤ l.records.length ∧ l.oldestHeld = false ∧ l.nextSeq ≠ 4294967295 ∧
          (l.records.length < 4096 ∨ ∀ r, l.records[1]? = some r → l.heldAt r.sequence = false)))) ∧
    (∀ q : Nat, l.heldAt q = true ↔
      ∃ (i : ClaimNo) (h : Hold), l.holds[i] = some h ∧ h.start ≤ q ∧ ∀ e, h.stop = some e → q ≤ e))

/-- The recovery records, one at a time (R83 to R87): HELD_FULL ends when the release of a hold leaves the oldest record
not held; then the COARSE records of the filled accumulators in ascending compartment order, each emptying its
accumulator, and last the GAP record. A record that finds the oldest held again brings HELD_FULL back and is owed with
those after it, its accumulator, the counts and the start time kept. In ENDED none is written. -/
def Obligations.RecoveryRecordByRecord : Prop :=
  (∀ (s u : State) (i : ClaimNo), u = s.withLog { s.log with holds := setAt s.log.holds i none } →
    ((s.log.heldFull = false ∨ u.log.oldestHeld = true) → s.releaseHold i = u) ∧
    (s.log.heldFull = true → u.log.oldestHeld = false →
      s.releaseHold i = (u.withLog { u.log with heldFull := false }).recover [0, 1, 2, 3])) ∧
  (∀ (s : State) (l : List CompNo), s.log.ended = true → s.recover l = s) ∧
  (∀ (s : State) (c : CompNo) (rest : List CompNo), s.log.coarse[c] = none → s.recover (c :: rest) = s.recover rest) ∧
  (∀ (s : State) (c : CompNo) (rest : List CompNo) (a : Coarse), s.log.ended = false → s.log.heldFull = false →
    s.log.coarse[c] = some a →
    ((s.log.records.length < 4032 ∨ s.log.oldestHeld = false) → ∃ (u : State) (r : LogRecord),
      s.recover (c :: rest) = u.recover rest ∧
      u = s.withLog { s.log with
        records := (if s.log.records.length < 4032 then s.log.records else s.log.records.tail) ++ [r]
        nextSeq := u.log.nextSeq, chain := r.chain, ended := decide (s.log.nextSeq = 4294967295)
        coarse := setAt s.log.coarse c none } ∧
      r.sequence = s.log.nextSeq ∧ r.stamp = ⟨a.last, a.relative⟩ ∧ r.compartment = some c ∧
      r.body = .coarse
        { spanStart := a.spanStart, minimum := if a.count = 0 then none else a.minimum,
          maximum := if a.count = 0 then none else a.maximum, mean := meanOf a.sum a.count, increment := a.increment,
          blind := min a.blind 65535, merged := a.merged }) ∧
    (4032 ≤ s.log.records.length → s.log.oldestHeld = true →
      (s.recover (c :: rest)).log = { s.log with
        heldFull := true, heldSince := some (s.log.heldSince.getD ⟨a.last, a.relative⟩) } ∧
      (s.notices.enables[Condition.logHeld.place] = true →
        (s.recover (c :: rest)).notices.members[Condition.logHeld.place] = true))) ∧
  (∀ s : State, s.log.ended = false → s.log.heldFull = false →
    ((s.log.records.length < 4032 ∨ s.log.oldestHeld = false) → ∃ r : LogRecord,
      (s.recover []).log.records
        = (if s.log.records.length < 4032 then s.log.records else s.log.records.tail) ++ [r] ∧
      r.sequence = s.log.nextSeq ∧ r.stamp = s.stampNow ∧ r.compartment = none ∧
      r.body = .gap s.log.heldSince s.log.hatchLost s.log.claimLost s.log.otherLost s.log.custodyLost ∧
      (s.recover []).log.heldSince = none ∧ (s.recover []).log.hatchLost = 0 ∧ (s.recover []).log.claimLost = 0 ∧
      (s.recover []).log.otherLost = 0 ∧ (s.recover []).log.custodyLost = 0 ∧
      (s.recover []).log.coarse = s.log.coarse ∧ (s.recover []).log.heldFull = false) ∧
    (4032 ≤ s.log.records.length → s.log.oldestHeld = true →
      (s.recover []).log.records = s.log.records ∧ (s.recover []).log.heldFull = true ∧
      (s.recover []).log.heldSince = some (s.log.heldSince.getD s.stampNow) ∧
      (s.recover []).log.hatchLost = s.log.hatchLost ∧ (s.recover []).log.claimLost = s.log.claimLost ∧
      (s.recover []).log.otherLost = s.log.otherLost ∧ (s.recover []).log.custodyLost = s.log.custodyLost))

/-! ### Custody Table: custody and handover (spec/05, spec/06) -/

/-- CUSTODY_IN is checked in the order of Table 5-4; the first failing check decides the status and nothing changes
(R100 to R102, R105, R192, R200). The four checks of an upstream record, in their order: its check over its first 68
bytes, its kind, its identifier, its custody-out time not after now (R102, Table 11-6). -/
def Obligations.CustodyInChecksInOrder : Prop :=
  ∀ (s : State) (tag compartment cycleLimit : Byte) (id limit : Word) (u : Upstream), s.ready → u.wellFormed = true →
    (s.clock.state = .unset →
      exec (.custodyIn tag id compartment limit cycleLimit u) s = .next (s.replies 0x28 tag (refuse .noTime))) ∧
    (s.clock.state = .valid →
      ((id = 0 ∨ limit = 0 ∨ limit.toNat = 4294967295 ∨ (∃ m rest, u = .unnamed m rest) ∨ 3 < compartment.toNat ∨
          ∃ c : CompNo, c.val = compartment.toNat ∧ s.comps[c].settings.enabled = false) →
        exec (.custodyIn tag id compartment limit cycleLimit u) s = .next (s.replies 0x28 tag (refuse .badValue))) ∧
      (∀ c : CompNo, id ≠ 0 → limit ≠ 0 → limit.toNat ≠ 4294967295 → (∀ m rest, u ≠ .unnamed m rest) →
        c.val = compartment.toNat → s.comps[c].settings.enabled = true →
        ((∃ i : SlotNo, s.slots[i].state ≠ .empty ∧ s.slots[i].identifier = id) →
          exec (.custodyIn tag id compartment limit cycleLimit u) s = .next (s.replies 0x28 tag (refuse .duplicate))) ∧
        ((∀ i : SlotNo, s.slots[i].state ≠ .empty → s.slots[i].identifier ≠ id) →
          (∀ (r : List Byte) (n : Nat), u = .record r →
            ((n = 1 ∧ fieldAt r 68 4 ≠ (crc32 (r.take 68)).toNat) ∨
              (n = 2 ∧ fieldAt r 68 4 = (crc32 (r.take 68)).toNat ∧ fieldAt r 0 1 ≠ 0x5A) ∨
              (n = 3 ∧ fieldAt r 68 4 = (crc32 (r.take 68)).toNat ∧ fieldAt r 0 1 = 0x5A ∧ fieldAt r 20 4 ≠ id.toNat) ∨
              (n = 4 ∧ fieldAt r 68 4 = (crc32 (r.take 68)).toNat ∧ fieldAt r 0 1 = 0x5A ∧ fieldAt r 20 4 = id.toNat ∧
                s.clock.counter < fieldAt r 28 4)) →
            exec (.custodyIn tag id compartment limit cycleLimit u) s
              = .next (s.replies 0x28 tag ⟨.badRecord, [BitVec.ofNat 8 n]⟩)) ∧
          ((∀ r : List Byte, u = .record r → fieldAt r 68 4 = (crc32 (r.take 68)).toNat ∧ fieldAt r 0 1 = 0x5A ∧
              fieldAt r 20 4 = id.toNat ∧ fieldAt r 28 4 ≤ s.clock.counter) →
            upstreamFailure u id s.clock.counter = none ∧
            ((∀ i : SlotNo, s.slots[i].state ≠ .empty) →
              exec (.custodyIn tag id compartment limit cycleLimit u) s = .next (s.replies 0x28 tag (refuse .full))) ∧
            ((∃ i : SlotNo, s.slots[i].state = .empty) → s.log.custodyFits true = false →
              exec (.custodyIn tag id compartment limit cycleLimit u) s = .next (s.replies 0x28 tag (refuse .logHeld)))))))

/-- An accepted CUSTODY_IN takes the boundary step of its compartment, whose shares and blind credits the consignments
already there take as StepSharesAndBlindCredits says, fills the lowest EMPTY slot with the request's figures and the
carried-in figures of its mode (R103, R104, Table 11-6), writes its CUSTODY_IN record and checks the limit against the
carried-in exposure; slots outside the compartment are untouched (R40, R105 to R108). That the blind first share of a
consignment taken into a compartment that is UNKNOWN or BLIND (R101) is the one of 0 seconds at its custody-in, which
leaves the slot as R106 fills it, is log entry 23 (DEDUCED). -/
def Obligations.CustodyInFillsTheSlot : Prop :=
  ∀ (s : State) (tag compartment cycleLimit : Byte) (id limit : Word) (u : Upstream) (c : CompNo) (i : SlotNo),
    s.ready → u.wellFormed = true → s.clock.state = .valid → id ≠ 0 → limit ≠ 0 → limit.toNat ≠ 4294967295 →
    (∀ m rest, u ≠ .unnamed m rest) → s.enabledComp compartment = some c → s.slotOf id = none →
    upstreamFailure u id s.clock.counter = none → s.emptySlot = some i → s.log.custodyFits true = true →
    ∃ (t : State) (k : Carried), exec (.custodyIn tag id compartment limit cycleLimit u) s
        = .next (t.replies 0x28 tag (okay ([BitVec.ofNat 8 i.val] ++ le32 s.clock.counter ++ le32 t.slots[i].inSeq
          ++ le32 k.exposure ++ yesNo (decide (limit.toNat < k.exposure))))) ∧
      k.mode = (match u with | .record _ => .record | .declared .. => .declared | _ => .none) ∧
      (u = .none → k = ⟨.none, 0, 0, 0, none, false⟩) ∧
      (∀ e cy b, u = .declared e cy b → k = ⟨.declared, e.toNat, cy.toNat, b.toNat, none, true⟩) ∧
      (∀ p, u = .record p → k =
        { mode := .record
          exposure := min (fieldAt p 32 4 + fieldAt p 36 4) 4294967295
          cycles := fieldAt p 40 2
          blind := fieldAt p 48 4
          upstream := some
            { issuer := BitVec.ofNat 64 (fieldAt p 4 8), chain := BitVec.ofNat 32 (fieldAt p 60 4)
              outTime := fieldAt p 28 4, declared := (fieldAt p 2 1).testBit 0, logDeferred := (fieldAt p 2 1).testBit 1
              disposed := (fieldAt p 2 1).testBit 2 }
          declared := (fieldAt p 2 1).testBit 0 }) ∧
      t.slots[i] = { Slot.blank with
        identifier := id, compartment := c, state := .inCustody, inTime := s.clock.counter, inSeq := t.slots[i].inSeq
        limit := limit.toNat, cycleLimit := cycleLimit.toNat, mode := k.mode, carriedExposure := k.exposure
        carriedCycles := k.cycles, carriedBlind := k.blind, upstream := k.upstream, declared := k.declared
        lastAccounted := s.clock.counter, limitCrossed := decide (limit.toNat < k.exposure) } ∧
      (∃ r, t.log.records.getLast? = some r ∧ r.sequence = t.slots[i].inSeq ∧ r.stamp = ⟨s.clock.counter, false⟩ ∧
        r.compartment = some c ∧
        r.body = .custodyIn id i k.mode k.exposure k.cycles limit.toNat cycleLimit.toNat) ∧
      (∀ j : SlotNo, j ≠ i → t.slots[j] = (s.stepComp c .boundary).slots[j] ∧
        (s.slots[j].heldIn c = false → t.slots[j] = s.slots[j])) ∧
      t.comps = (s.stepComp c .boundary).comps ∧
      t.comps[c].interval = .opening s.stampNow ∧ t.comps[c].lastStep = s.stampNow ∧
      (limit.toNat < k.exposure → s.notices.enables[Condition.exposureLimit.place] = true →
        t.notices.members[Condition.exposureLimit.place] = true)

/-- HANDOVER_BEGIN in the order of Table 6-2; accepted, the slot is HANDING_OVER with its start and deadline, its
HANDOVER_BEGIN record is written, and no other slot changes (R117, R118, R192). That the deadline stops at the largest
device time is log entry 12's choice. -/
def Obligations.HandoverBegins : Prop :=
  ∀ (s : State) (tag : Byte) (id : Word), s.ready →
    (s.clock.state = .unset → exec (.handoverBegin tag id) s = .next (s.replies 0x31 tag (refuse .noTime))) ∧
    (s.clock.state = .valid →
      (id = 0 → exec (.handoverBegin tag id) s = .next (s.replies 0x31 tag (refuse .badValue))) ∧
      (id ≠ 0 → s.slotOf id = none → exec (.handoverBegin tag id) s = .next (s.replies 0x31 tag (refuse .unknown))) ∧
      (∀ i : SlotNo, id ≠ 0 → s.slotOf id = some i →
        (s.slots[i].state ≠ .inCustody →
          exec (.handoverBegin tag id) s = .next (s.replies 0x31 tag (refuse .wrongState))) ∧
        (s.slots[i].state = .inCustody → s.log.custodyFits false = false →
          exec (.handoverBegin tag id) s = .next (s.replies 0x31 tag (refuse .logHeld))) ∧
        (s.slots[i].state = .inCustody → s.log.custodyFits false = true →
          ∀ deadline, deadline = min (s.clock.counter + s.handoverLimit) 4294967294 →
          ∃ t : State, exec (.handoverBegin tag id) s = .next (t.replies 0x31 tag
              (okay ([BitVec.ofNat 8 i.val] ++ le32 s.clock.counter ++ le32 deadline))) ∧
            t.slots = setAt s.slots i
              { s.slots[i] with state := .handingOver, handover := some ⟨s.clock.counter, deadline⟩ } ∧
            (∃ r, t.log.records.getLast? = some r ∧ r.stamp = s.stampNow ∧
              r.body = .handoverBegin s.slots[i].identifier i deadline) ∧
            t.comps = s.comps ∧ t.hatch = s.hatch)))

/-- HANDOVER_END in the order of Table 6-3, all six checks: NO_TIME, BAD_VALUE for identifier 0 and, in a frame that
arrives, for an outcome above 2, UNKNOWN, LAPSED, WRONG_STATE and, from HANDING_OVER, LOG_HELD for each outcome (R77,
R122). A REFUSED end returns the slot to IN_CUSTODY with its refusal count raised and a HANDOVER_ABANDON record of
reason REFUSED (R123, R127). That LOG_HELD for ACCEPTED and DISPOSED tests the custody record alone where start-up has
restored the slot's compartment as disabled is log entry 19 (DEDUCED). -/
def Obligations.HandoverEndRefusals : Prop :=
  (∀ (s : State) (tag : Byte) (id receipt : Word) (c : Instr), s.ready →
    (c = .handoverEndAccepted tag id receipt ∨ c = .handoverEndDisposed tag id receipt ∨
      c = .handoverEndRefused tag id receipt) →
    (s.clock.state = .unset → exec c s = .next (s.replies 0x32 tag (refuse .noTime))) ∧
    (s.clock.state = .valid →
      (id = 0 → exec c s = .next (s.replies 0x32 tag (refuse .badValue))) ∧
      (id ≠ 0 → s.slotOf id = none → exec c s = .next (s.replies 0x32 tag (refuse .unknown))) ∧
      (∀ i : SlotNo, id ≠ 0 → s.slotOf id = some i →
        (s.slots[i].state = .inCustody → exec c s = .next (s.replies 0x32 tag (refuse .lapsed))) ∧
        (s.slots[i].state = .handedOver → exec c s = .next (s.replies 0x32 tag (refuse .wrongState))) ∧
        (s.slots[i].state = .handingOver → c = .handoverEndRefused tag id receipt → s.log.custodyFits false = false →
          exec c s = .next (s.replies 0x32 tag (refuse .logHeld))) ∧
        (s.slots[i].state = .handingOver → c ≠ .handoverEndRefused tag id receipt →
          s.log.custodyFits s.comps[s.slots[i].compartment].settings.enabled = false →
          exec c s = .next (s.replies 0x32 tag (refuse .logHeld)))))) ∧
  (∀ (s : State) (tag outcome : Byte) (id receipt : Word) (bytes : List LineByte), s.ready → s.link.receiver = .hunting →
    2 < outcome.toNat → bytes = (requestFrame tag (.handoverEnd id outcome receipt)).wire.map .good →
    (s.clock.state = .unset → exec (.frameReceived bytes) s = .next (s.replies 0x32 tag (refuse .noTime))) ∧
    (s.clock.state = .valid → exec (.frameReceived bytes) s = .next (s.replies 0x32 tag (refuse .badValue)))) ∧
  (∀ (s : State) (tag : Byte) (id receipt : Word) (i : SlotNo) (x : Slot), s.ready → s.clock.state = .valid → id ≠ 0 →
    s.slotOf id = some i → s.slots[i] = x → x.state = .handingOver → s.log.custodyFits false = true →
    ∃ t : State, exec (.handoverEndRefused tag id receipt) s = .next (t.replies 0x32 tag
        (okay [BitVec.ofNat 8 i.val, BitVec.ofNat 8 (min (x.refusals + 1) 255)])) ∧
      t.slots = setAt s.slots i
        { x with state := .inCustody, handover := none, refusals := min (x.refusals + 1) 255 } ∧
      (∃ r, t.log.records.getLast? = some r ∧ r.stamp = s.stampNow ∧ r.compartment = some x.compartment ∧
        r.body = .handoverAbandon x.identifier i .refused (min (x.refusals + 1) 255)) ∧
      t.comps = s.comps ∧ t.hatch = s.hatch)

/-- HANDOVER_END ACCEPTED or DISPOSED (R62, R94, R124, R125, R128, R129): the slot's accounting is brought up to now, by
the boundary step of its compartment or, where start-up has restored that compartment as disabled, by a blind credit
(log entry 19); an opening in progress is credited; then the slot is HANDED_OVER with its custody-out fields, the newest
record is its CUSTODY_OUT, whose chain value and sequence the stored 72-byte proof record carries under its own check.
Every field of the proof record stands at its place in Table 11-6, each modulo its width, which no state that a run
reaches passes. The other consignments of the compartment take the boundary step as StepSharesAndBlindCredits says. -/
def Obligations.HandoverEndComposesTheProof : Prop :=
  ∀ (s : State) (tag : Byte) (id receipt : Word) (i : SlotNo) (x y : Slot) (opening : Opening) (c : Instr) (o : Outcome),
    s.ready → s.clock.state = .valid → id ≠ 0 → s.slotOf id = some i → s.slots[i] = x → x.state = .handingOver →
    s.log.custodyFits s.comps[x.compartment].settings.enabled = true →
    ((c = .handoverEndAccepted tag id receipt ∧ o = .accepted) ∨
      (c = .handoverEndDisposed tag id receipt ∧ o = .disposed)) →
    y = (if s.comps[x.compartment].settings.enabled then (s.stepComp x.compartment .boundary).slots[i]
      else { x with
        blind := min (x.blind + (s.clock.counter - x.lastAccounted)) 4294967295, lastAccounted := s.clock.counter }) →
    s.hatch.openings[x.compartment] = opening →
    ∃ (t : State) (r : LogRecord) (out : CustodyOut) (p : List Byte),
      exec c s = .next (t.replies 0x32 tag (okay (t.endReply i))) ∧
      t.slots[i] = { y with
        openingSeconds := if opening.state = .opening then
          min (y.openingSeconds + (s.clock.counter - max opening.startTime x.inTime)) 4294967295 else y.openingSeconds
        state := .handedOver, handover := none, out := some out, proof := some p } ∧
      out = ⟨s.clock.counter, r.sequence, receipt, o⟩ ∧ t.log.records.getLast? = some r ∧
      r.stamp = ⟨s.clock.counter, false⟩ ∧ r.compartment = some x.compartment ∧
      r.body = .custodyOut id i o receipt t.slots[i].exposure t.slots[i].cycles t.slots[i].limitCrossed
        t.slots[i].logDeferred t.slots[i].declared ∧
      p.length = 72 ∧ p = proofRecord s.identity s.label t.slots[i] out r.chain ∧
      (fieldAt p 0 1 = 0x5A ∧ fieldAt p 1 1 = x.compartment.val ∧
        fieldAt p 2 1 = (if t.slots[i].declared then 1 else 0) + (if t.slots[i].logDeferred then 2 else 0)
          + (if o = .disposed then 4 else 0) ∧
        fieldAt p 3 1 = 0 ∧ fieldAt p 4 8 = s.identity.toNat ∧ fieldAt p 12 8 = s.label.toNat ∧
        fieldAt p 20 4 = id.toNat ∧ fieldAt p 24 4 = t.slots[i].inTime % 4294967296 ∧
        fieldAt p 28 4 = s.clock.counter % 4294967296 ∧ fieldAt p 32 4 = t.slots[i].carriedExposure % 4294967296 ∧
        fieldAt p 36 4 = t.slots[i].exposure % 4294967296 ∧
        fieldAt p 40 2 = min (t.slots[i].carriedCycles + t.slots[i].cycles) 65535 ∧
        fieldAt p 42 2 = t.slots[i].openings % 65536 ∧ fieldAt p 44 4 = t.slots[i].openingSeconds % 4294967296 ∧
        fieldAt p 48 4 = min (t.slots[i].carriedBlind + t.slots[i].blind) 4294967295 ∧ fieldAt p 52 4 = receipt.toNat ∧
        fieldAt p 56 4 = r.sequence % 4294967296 ∧ fieldAt p 60 4 = r.chain.toNat ∧
        fieldAt p 64 4 = t.slots[i].limit % 4294967296) ∧
      fieldAt p 68 4 = (crc32 (p.take 68)).toNat ∧ t.slots[i].lastAccounted = s.clock.counter ∧
      t.hatch.openings = s.hatch.openings ∧
      (∀ j : SlotNo, j ≠ i → t.slots[j] = (s.stepComp x.compartment .boundary).slots[j] ∧
        (s.slots[j].heldIn x.compartment = false → t.slots[j] = s.slots[j]))

/-- HANDOVER_LAPSE of a running handover timer: the seconds left pass (log entry 12), the slot returns to IN_CUSTODY, a
HANDOVER_ABANDON record of reason LAPSED is handed to the log and an enabled HANDOVER_LAPSED is pending; without a running
timer nothing lapses (R119 to R121, R127, log entry 14). -/
def Obligations.HandoverLapses : Prop :=
  ∀ (s : State) (i : SlotNo) (x : Slot), s.quiet → s.slots[i] = x →
    (x.state ≠ .handingOver → exec (.handoverLapse i) s = .next s.offer) ∧
    (∀ (h : Handover) (n : Nat) (p : State), x.state = .handingOver → x.handover = some h → n = h.deadline - s.now →
      p = s.passTo n →
      exec (.handoverLapse i) s = .next ((((p.setSlot i { p.slots[i] with state := .inCustody, handover := none }).handCustody
        { stamp := p.stampNow, compartment := some x.compartment,
          body := .handoverAbandon x.identifier i .lapsed x.refusals }).raise .handoverLapsed).offer) ∧
      p.slots[i].state = .handingOver ∧ p.slots[i].handover = some h ∧ (s.calmFor n → p = s.after n) ∧
      (s.clock.state = .valid → h.deadline ≤ 4294967294 → h.deadline ≤ p.clock.counter) ∧
      (s.scan.tickIn < n → n ≤ s.scan.tickIn + s.scan.period → p.scan.tickIn = s.scan.tickIn + s.scan.period - n) ∧
      ∃ t : State, exec (.handoverLapse i) s = .next t ∧ t.slots[i].state = .inCustody ∧ t.slots[i].handover = none ∧
        (s.calmFor n → t.slots = setAt s.slots i { x with state := .inCustody, handover := none } ∧ t.comps = s.comps ∧
          (s.log.custodyFits false = true → ∃ r, t.log.records.getLast? = some r ∧
            r.body = .handoverAbandon x.identifier i .lapsed x.refusals)) ∧
        (s.notices.enables[Condition.handoverLapsed.place] = true →
          t.notices.members[Condition.handoverLapsed.place] = true) ∧
        t.claims = s.claims)

/-! ### Claim Unit (spec/07) -/

/-- CLAIM_OPEN in the order of Table 7-3; accepted, the claim is OPEN in the lowest FREE slot with its hold, the slot's
open-claim count rises, and a CLAIM record of action OPENED is handed to the log (R138 to R140). That the record carries
the present time is log entry 20's choice. -/
def Obligations.ClaimOpens : Prop :=
  ∀ (s : State) (tag : Byte) (ref id : Word), s.ready →
    ((ref = 0 ∨ id = 0) → exec (.claimOpen tag ref id) s = .next (s.replies 0x38 tag (refuse .badValue))) ∧
    (ref ≠ 0 → id ≠ 0 →
      ((s.claimOf ref).isSome = true →
        exec (.claimOpen tag ref id) s = .next (s.replies 0x38 tag (refuse .duplicate))) ∧
      (s.claimOf ref = none → s.slotOf id = none →
        exec (.claimOpen tag ref id) s = .next (s.replies 0x38 tag (refuse .unknown))) ∧
      (∀ j : SlotNo, s.claimOf ref = none → s.slotOf id = some j →
        (s.freeClaim = none → exec (.claimOpen tag ref id) s = .next (s.replies 0x38 tag (refuse .full))) ∧
        (∀ i : ClaimNo, s.freeClaim = some i →
          (s.log.evicted s.slots[j].windowEnd = true →
            exec (.claimOpen tag ref id) s = .next (s.replies 0x38 tag (refuse .evicted))) ∧
          (s.log.evicted s.slots[j].windowEnd = false →
            ∃ (t : State) (start : Nat), start = s.log.heldStart s.slots[j].inSeq ∧
              exec (.claimOpen tag ref id) s = .next (t.replies 0x38 tag (okay ([BitVec.ofNat 8 i.val]
                ++ le32 s.slots[j].inSeq ++ le32 start ++ windowField s.slots[j].windowEnd))) ∧
              t.claims = { s.claims with
                slots := setAt s.claims.slots i
                  (some ⟨ref, s.slots[j].identifier, j, s.slots[j].inSeq, start, s.stampNow, .opened⟩) } ∧
              t.log.holds = setAt s.log.holds i (some ⟨start, s.slots[j].windowEnd⟩) ∧
              t.slots = setAt s.slots j { s.slots[j] with openClaims := s.slots[j].openClaims + 1 } ∧
              (s.log.generalFate = .appended → ∃ r, t.log.records = s.log.records ++ [r] ∧ r.stamp = s.stampNow ∧
                r.body = .claim .opened ref s.slots[j].identifier start s.slots[j].windowEnd none)))))

/-- CLAIM_ASSESS is BAD_VALUE, UNKNOWN or, in ASSESSING, BUSY, and else takes the snapshot, the figures of the
consignment's slot, the snapshot end, the open-interval increment of a claim whose window is OPEN, the allowance and the
time, and queues the claim (R149, R150); WALK_EXAMINATION examines one record of the claim at the head of the queue, and
after the snapshot end the claim is ASSESSED and leaves the queue, with its CLAIM record and an enabled ASSESS_DONE
pending (R150, R157). What a record does to the walk is WalkWeighsTheRecords. Without a claim in the queue nothing is
examined (log entry 14). That the reply's count of records is one byte that stops at 255 is log entry 10's reading of
R201. That the CLAIM record carries the present time is log entry 20's choice. -/
def Obligations.ClaimIsAssessedByTheWalk : Prop :=
  (∀ (s : State) (tag : Byte) (ref : Word), s.ready →
    exec (.claimAssess tag 0) s = .next (s.replies 0x3A tag (refuse .badValue)) ∧
    (ref ≠ 0 → s.claimOf ref = none → exec (.claimAssess tag ref) s = .next (s.replies 0x3A tag (refuse .unknown)))) ∧
  (∀ (s : State) (tag : Byte) (ref : Word) (i : ClaimNo) (k : Claim), s.ready → ref ≠ 0 → s.claimOf ref = some i →
    s.claims.slots[i] = some k →
    (k.assessing = true → exec (.claimAssess tag ref) s = .next (s.replies 0x3A tag (refuse .busy))) ∧
    (k.assessing = false → ∀ (x : Slot) (stop : Option Nat) (snap : Snapshot), x = s.slots[k.slot] →
      stop = s.log.holds[i].bind (·.stop) →
      snap =
        { state := x.state, compartment := x.compartment, carriedExposure := x.carriedExposure, exposure := x.exposure
          carriedCycles := x.carriedCycles, cycles := x.cycles, blind := x.blind, openings := x.openings, limit := x.limit
          cycleLimit := x.cycleLimit, limitCrossed := x.limitCrossed, logDeferred := x.logDeferred, declared := x.declared
          stop := stop.getD ((s.log.records.getLast?.map (·.sequence)).getD 0)
          openIncrement := (match stop with
            | some _ => none
            | none => some ⟨s.comps[x.compartment].interval.increment, s.comps[x.compartment].interval.relative⟩)
          allowance := s.claims.allowance, time := s.stampNow } →
      exec (.claimAssess tag ref) s = .next ((s.withClaims
        { s.claims with
          slots := setAt s.claims.slots i (some { k with phase := .assessing snap (startWalk k snap) }),
          queue := s.claims.queue ++ [i] }).replies 0x3A tag
        (okay (le32 snap.stop ++ [BitVec.ofNat 8 (min (snap.stop + 1 - k.heldStart) 255)]))))) ∧
  (∀ s : State, s.quiet →
    (s.claims.queue = [] → exec .walkExamination s = .next s.offer) ∧
    (∀ (i : ClaimNo) (rest : List ClaimNo) (k : Claim) (snap : Snapshot) (w : Walk), s.claims.queue = i :: rest →
      s.claims.slots[i] = some k → k.phase = .assessing snap w →
      (w.position + 1 ≤ snap.stop → exec .walkExamination s = .next ((s.withClaims
        { s.claims with
          slots := setAt s.claims.slots i (some { k with phase := .assessing snap (w.examine s.log snap) }) }).offer)) ∧
      (snap.stop < w.position + 1 → ∃ t : State, exec .walkExamination s = .next t ∧
        t.claims = { s.claims with
          slots := setAt s.claims.slots i
            (some { k with phase := .assessed snap (resultsOf k snap ((w.examine s.log snap).addOpen snap)) }),
          queue := rest } ∧
        (s.log.generalFate = .appended → ∃ r v e, t.log.records = s.log.records ++ [r] ∧ r.stamp = s.stampNow ∧
          r.compartment = some s.slots[k.slot].compartment ∧
          r.body = .claim .assessed k.reference k.identifier k.heldStart (s.windowEnd i) (some (v, e)) ∧
          e = (if k.requestedStart < k.heldStart ∨ 0 < (w.examine s.log snap).gaps ∨ snap.logDeferred = true then .partly
            else .complete) ∧ v = verdictOf snap e) ∧
        (s.notices.enables[Condition.assessDone.place] = true →
          t.notices.members[Condition.assessDone.place] = true))))

/-- The walk's arithmetic: where it starts (R149, R151, R153), what each record does to it (Table 7-5, R151, R153,
R154), its last addition (R152), its results (R155, R157) and the verdict (R156). That a RELATIVE COARSE record of the
compartment ends the walk's cleanliness though Table 7-5 passes it over is log entry 22's reading of R151. -/
def Obligations.WalkWeighsTheRecords : Prop :=
  (∀ (k : Claim) (snap : Snapshot), startWalk k snap =
    { position := k.heldStart, examined := 0, sum := 0, clean := decide (k.heldStart = k.requestedStart),
      crossing := if snap.limit < snap.carriedExposure then .carriedIn else .none, openings := 0, gaps := 0 }) ∧
  (∀ (w base : Walk) (l : Log) (snap : Snapshot) (r : LogRecord) (own device : Prop), l.recordAt w.position = some r →
    base = { w with position := w.position + 1, examined := w.examined + 1 } →
    (own ↔ r.compartment = some snap.compartment) → (device ↔ r.stamp.relative = false) →
    (∀ (b : SampleBody) (sum : Nat), r.body = .sample b → own → device → sum = min (w.sum + b.increment) 4294967295 →
      w.examine l snap = { base with
        sum := sum
        crossing := if w.crossing = .none ∧ snap.limit < min (snap.carriedExposure + sum) 4294967295 then
          (if w.clean = true then .record r.sequence r.stamp.time else .unplaced) else w.crossing }) ∧
    (∀ (b : CoarseBody) (sum : Nat), r.body = .coarse b → own → device → sum = min (w.sum + b.increment) 4294967295 →
      w.examine l snap = { base with
        sum := sum
        clean := false
        crossing := if w.crossing = .none ∧ snap.limit < min (snap.carriedExposure + sum) 4294967295 then .unplaced
          else w.crossing }) ∧
    (∀ b : CoarseBody, r.body = .coarse b → own → ¬ device → w.examine l snap = { base with clean := false }) ∧
    (∀ i st, r.body = .hatch i st .opened → own → device →
      w.examine l snap = { base with openings := w.openings + 1 }) ∧
    (∀ since h c o k, r.body = .gap since h c o k →
      w.examine l snap = { base with gaps := w.gaps + 1, clean := false }) ∧
    ((∀ b, r.body = .sample b → ¬ (own ∧ device)) → (∀ b, r.body = .coarse b → ¬ own) →
      (∀ i st, r.body = .hatch i st .opened → ¬ (own ∧ device)) → (∀ since h c o k, r.body ≠ .gap since h c o k) →
      w.examine l snap = base)) ∧
  (∀ (w : Walk) (snap : Snapshot),
    (∀ n sum, snap.openIncrement = some ⟨n, false⟩ → sum = min (w.sum + n) 4294967295 →
      w.addOpen snap = { w with
        sum := sum
        crossing := if w.crossing = .none ∧ snap.limit < min (snap.carriedExposure + sum) 4294967295 then
          (if w.clean = true then .openInterval else .unplaced) else w.crossing }) ∧
    ((∀ n, snap.openIncrement ≠ some ⟨n, false⟩) → w.addOpen snap = w)) ∧
  (∀ (k : Claim) (snap : Snapshot) (w : Walk) (e : Evidence),
    e = (if k.requestedStart < k.heldStart ∨ 0 < w.gaps ∨ snap.logDeferred = true then .partly else .complete) →
    resultsOf k snap w =
      { evidence := e
        verdict :=
          if snap.limit < snap.carriedExposure then .upstream
          else if snap.limit < min (snap.carriedExposure + snap.exposure) 4294967295 then .inCustody
          else if snap.cycleLimit ≠ 0 ∧ snap.cycleLimit < min (snap.carriedCycles + snap.cycles) 65535 then .inCustodyCycles
          else if snap.allowance < snap.blind ∨ e = .partly then .undetermined
          else .within
        crossing := w.crossing, recomputed := w.sum, openings := w.openings, gaps := w.gaps })

/-- A gather (R144, R145): its mask is cut to the claim's range and to sequences up to 0xFFFFFFFF, its bits are served
lowest first, and serving stops at the first sequence that is absent: what it delivers and what it leaves split its
bits. The reply is OK when all are served, else MISSING with the failing sequence, and carries the remaining mask and
the records. -/
def Obligations.GatherStopsAtTheFirstAbsent : Prop :=
  (∀ (base bottom top : Nat) (mask : Half),
    (cutBits base mask bottom top).Pairwise (fun a b => a.1 < b.1 ∧ a.2 < b.2) ∧
    ∀ n q : Nat, (n, q) ∈ cutBits base mask bottom top ↔
      mask.getLsbD n = true ∧ q = base + n ∧ bottom ≤ q ∧ q ≤ top ∧ q ≤ 4294967295) ∧
  (∀ (l : Log) (bits : List (Nat × Nat)), ∃ n, (l.serve bits).2 = bits.drop n ∧
    (l.serve bits).1.map (·.sequence) = (bits.take n).map (·.2) ∧ (∀ r ∈ (l.serve bits).1, r ∈ l.records) ∧
    ∀ b, (bits.drop n).head? = some b → ∀ r ∈ l.records, r.sequence ≠ b.2) ∧
  (∀ (s : State) (tag : Byte) (ref base : Word) (mask : Half) (i : ClaimNo) (k : Claim) (top : Nat)
    (bits left : List (Nat × Nat)), s.ready → ref ≠ 0 → s.claimOf ref = some i → s.claims.slots[i] = some k →
    (s.windowEnd i = some top ∨ (s.windowEnd i = none ∧ s.log.newest.getD 0 = top)) →
    bits = cutBits base.toNat mask k.requestedStart top → left = (s.log.serve bits).2 →
    ∃ remaining : Half, (∀ n : Nat, remaining.getLsbD n = true ↔ ∃ q, (n, q) ∈ left) ∧
      exec (.claimGather tag ref base mask) s = .next (s.replies 0x39 tag
        ⟨if left = [] then .ok else .missing,
          seqField (left.head?.map (·.2)) ++ le32 k.requestedStart ++ le32 k.heldStart ++ le32 top ++ le16 remaining.toNat
            ++ counted ((s.log.serve bits).1.map LogRecord.image)⟩))

/-- CLAIM_CLOSE of an open claim frees its slot, drops it from the walk queue, releases its hold and lowers the
open-claim count of its consignment slot; an unknown reference is UNKNOWN and 0 is BAD_VALUE (R136, R161). The release
of the hold may end HELD_FULL and write the recovery records, as CustodyRecordsAndTheEndOfHeldFull and
RecoveryRecordByRecord say, and the CLAIM record of action CLOSED is handed to the log after them (R83, R161); that it
carries the present time is log entry 20's choice. -/
def Obligations.ClaimCloses : Prop :=
  ∀ (s : State) (tag : Byte) (ref : Word), s.ready →
    (ref = 0 → exec (.claimClose tag ref) s = .next (s.replies 0x3D tag (refuse .badValue))) ∧
    (ref ≠ 0 → s.claimOf ref = none → exec (.claimClose tag ref) s = .next (s.replies 0x3D tag (refuse .unknown))) ∧
    (∀ (i : ClaimNo) (k : Claim), ref ≠ 0 → s.claimOf ref = some i → s.claims.slots[i] = some k →
      ∃ t : State, exec (.claimClose tag ref) s = .next (t.replies 0x3D tag
          (okay [BitVec.ofNat 8 i.val, BitVec.ofNat 8 (s.slots[k.slot].openClaims - 1)])) ∧
        t.claims = { s.claims with
          slots := setAt s.claims.slots i none, queue := s.claims.queue.filter (· != i) } ∧
        t.log.holds = setAt s.log.holds i none ∧ t.slots[k.slot].openClaims = s.slots[k.slot].openClaims - 1 ∧
        (∀ j : SlotNo, t.slots[j].openClaims = if j = k.slot then s.slots[j].openClaims - 1 else s.slots[j].openClaims) ∧
        (s.log.heldFull = false → s.log.generalFate = .appended → ∃ r, t.log.records = s.log.records ++ [r] ∧
          r.stamp = s.stampNow ∧ r.body = .claim .closed ref k.identifier k.heldStart (s.windowEnd i) none) ∧
        (∀ w : State, w = (s.releaseHold i).handGeneral
            { stamp := s.stampNow, compartment := some s.slots[k.slot].compartment
              body := .claim .closed ref k.identifier k.heldStart (s.windowEnd i) none } →
          t.log = w.log ∧ t.notices = w.notices) ∧
        t.comps = s.comps ∧ t.hatch = s.hatch)

/-! ### Notice Unit (spec/08) -/

/-- A raise by the table of R165: dropped while the enable is clear, a join with count 1 and an owed notice while it is
not pending, and one more on the count, at most 255, while it is. No other condition changes. -/
def Obligations.RaiseByEnableAndPending : Prop :=
  ∀ (u : NoticeUnit) (k : Fin 18),
    (u.enables[k] = false → u.raise k = u) ∧
    (u.enables[k] = true → u.members[k] = false → (u.raise k).members = setAt u.members k true ∧
      (u.raise k).counts = setAt u.counts k 1 ∧ (u.raise k).owed = true ∧ (u.raise k).alert = true ∧
      (u.raise k).enables = u.enables ∧ (u.raise k).lastNumber = u.lastNumber) ∧
    (u.enables[k] = true → u.members[k] = true →
      u.raise k = { u with counts := setAt u.counts k (min (u.counts[k] + 1) 255) })

/-- NOTICE_ENABLE and NOTICE_CLEAR (R164, R169): bits 18 to 31 are BAD_VALUE; an enable write removes what it disables
and raises what it enables while its truth holds, and a change hands one CONFIG record with reason NOTICE, which is lost
and brings HELD_FULL with LOG_HELD when the log enters HELD_FULL with it (R79, R82); a clear removes the named
conditions, and those whose truth still holds re-arise with count 1, and its reply carries the pending set after it and
the conditions that re-arose. A condition that a mask leaves alone stays. That the reply codes the conditions that
re-arose as a mask of 4 bytes in the bit order of R164 is log entry 10's choice, that the CONFIG record is handed after
the removals and raises log entry 25's, and that it carries the present time log entry 20's. -/
def Obligations.EnableAndClear : Prop :=
  ∀ (s : State) (tag : Byte) (mask : Word), s.ready →
    (2 ^ 18 ≤ mask.toNat → exec (.noticeEnable tag mask) s = .next (s.replies 0x40 tag (refuse .badValue)) ∧
      exec (.noticeClear tag mask) s = .next (s.replies 0x41 tag (refuse .badValue))) ∧
    (mask.toNat < 2 ^ 18 → s.notices.ok →
      ∃ t : State, exec (.noticeEnable tag mask) s = .next (t.replies 0x40 tag
          (okay (le32 (maskOf t.notices.enables) ++ le32 (maskOf t.notices.members)))) ∧
        (∀ k : Fin 18, t.notices.enables[k] = mask.getLsbD k.val) ∧
        (∀ c : Condition, t.notices.members[c.place] = (mask.getLsbD c.place.val &&
          (s.notices.members[c.place] || (!s.notices.enables[c.place] && s.truth c) ||
            decide (c = .logHeld ∧ s.notices.enables ≠ enablesOf mask ∧ s.log.generalFate = .entering)))) ∧
        (s.notices.enables = enablesOf mask → t.log = s.log) ∧
        (s.notices.enables ≠ enablesOf mask → t.log = (s.handGeneral
          { stamp := s.stampNow, compartment := none, body := .config (.notice (enablesOf mask)) }).log) ∧
        (s.notices.enables ≠ enablesOf mask → s.log.generalFate = .entering → t.log = { s.log with
          heldFull := true, heldSince := some (s.log.heldSince.getD s.stampNow),
          otherLost := min (s.log.otherLost + 1) 65535 }) ∧
        (s.notices.enables ≠ enablesOf mask → s.log.generalFate = .appended → ∃ r : LogRecord,
          t.log.records = s.log.records ++ [r] ∧ r.stamp = s.stampNow ∧ r.compartment = none ∧
          r.body = .config (.notice (enablesOf mask))) ∧
        t.comps = s.comps ∧ t.hatch = s.hatch ∧ t.claims = s.claims) ∧
    (mask.toNat < 2 ^ 18 → ∃ (u : NoticeUnit) (again : Word),
      exec (.noticeClear tag mask) s = .next ((s.withNotices u).replies 0x41 tag
        (okay (le32 (maskOf u.members) ++ le32 again.toNat))) ∧ u.enables = s.notices.enables ∧ again.toNat < 2 ^ 18 ∧
      ∀ c : Condition,
        again.getLsbD c.place.val
          = (mask.getLsbD c.place.val && s.notices.members[c.place] && s.truth c && s.notices.enables[c.place]) ∧
        (mask.getLsbD c.place.val = false → u.members[c.place] = s.notices.members[c.place] ∧
          u.counts[c.place] = s.notices.counts[c.place]) ∧
        (mask.getLsbD c.place.val = true →
          u.members[c.place] = (s.notices.members[c.place] && s.truth c && s.notices.enables[c.place]) ∧
          u.counts[c.place] = if u.members[c.place] = true then 1 else 0))

/-! ### Offset Store and Settings Store (spec/09) -/

/-- OFFSET_ERASE and OFFSET_PROGRAM start one operation (R176, R177) and their completions end it DONE, with the entries
BLANK or PROGRAMMED and an enabled STORE_DONE pending (R178); a completion without its operation changes nothing (log
entry 14). -/
def Obligations.OffsetOperations : Prop :=
  (∀ (s : State) (tag slot : Byte), s.ready →
    (1 < slot.toNat → exec (.offsetErase tag slot) s = .next (s.replies 0x48 tag (refuse .badValue))) ∧
    (∀ c : CalSlot, c.code = slot.toNat →
      (s.offsets.running.isSome = true → exec (.offsetErase tag slot) s = .next (s.replies 0x48 tag (refuse .busy))) ∧
      (s.offsets.running = none → ∃ o : OffsetStore,
        exec (.offsetErase tag slot) s = .next ((s.withOffsets o).replies 0x48 tag (okay [slot])) ∧
        o.running = some (.erase c) ∧ o.lastOp = some (.erase c) ∧ o.lastResult = .none ∧
        o.entriesOf c = Vector.replicate 16 .blank ∧ ∀ d, d ≠ c → o.entriesOf d = s.offsets.entriesOf d))) ∧
  (∀ (s : State) (tag slot entry value : Byte), s.ready →
    ((1 < slot.toNat ∨ 15 < entry.toNat ∨ value = 0x80) →
      exec (.offsetProgram tag slot entry value) s = .next (s.replies 0x49 tag (refuse .badValue))) ∧
    (∀ (c : CalSlot) (i : EntryNo), c.code = slot.toNat → i.val = entry.toNat → value ≠ 0x80 →
      (s.offsets.running.isSome = true →
        exec (.offsetProgram tag slot entry value) s = .next (s.replies 0x49 tag (refuse .busy))) ∧
      (s.offsets.running = none → (s.offsets.entriesOf c)[i] ≠ .blank →
        exec (.offsetProgram tag slot entry value) s = .next (s.replies 0x49 tag (refuse .notBlank))) ∧
      (s.offsets.running = none → (s.offsets.entriesOf c)[i] = .blank → ∃ o : OffsetStore,
        exec (.offsetProgram tag slot entry value) s
          = .next ((s.withOffsets o).replies 0x49 tag (okay [slot, entry, value])) ∧
        o.running = some (.program c i value.toInt) ∧ o.lastResult = .none ∧
        o.entriesOf c = setAt (s.offsets.entriesOf c) i .programming ∧
        ∀ d, d ≠ c → o.entriesOf d = s.offsets.entriesOf d))) ∧
  (∀ s : State, s.quiet →
    (∀ c, s.offsets.running = some (.erase c) → ∃ t : State, exec .offsetEraseComplete s = .next t ∧
      t.offsets = { s.offsets with running := none, lastResult := .done } ∧
      (s.notices.enables[Condition.storeDone.place] = true → t.notices.members[Condition.storeDone.place] = true) ∧
      (s.log.generalFate = .appended → ∃ r, t.log.records = s.log.records ++ [r] ∧
        r.body = .config (.offset c none .blank)) ∧ exec .offsetProgramComplete s = .next s.offer) ∧
    (∀ c i v, s.offsets.running = some (.program c i v) → ∃ t : State, exec .offsetProgramComplete s = .next t ∧
      t.offsets.running = none ∧ t.offsets.lastResult = .done ∧
      t.offsets.entriesOf c = setAt (s.offsets.entriesOf c) i (.programmed v) ∧
      (s.notices.enables[Condition.storeDone.place] = true → t.notices.members[Condition.storeDone.place] = true) ∧
      (s.log.generalFate = .appended → ∃ r, t.log.records = s.log.records ++ [r] ∧
        r.body = .config (.offset c (some i) (.programmed v))) ∧ exec .offsetEraseComplete s = .next s.offer) ∧
    (s.offsets.running = none → exec .offsetEraseComplete s = .next s.offer ∧
      exec .offsetProgramComplete s = .next s.offer))

/-- SETTINGS_SAVE captures the working configuration for the place that is not current (R183), and SAVE_WRITE_END makes
it current when its check matches, the CRC of R72 over image and count, and leaves the earlier place current when it
does not (R184). Without a save in flight no write ends (log entry 14). Which bytes stand for the image in that CRC is
log entry 21's choice. What else a place holds whose check does not match is log entries 8 and 13. -/
def Obligations.SavedImages : Prop :=
  (∀ (s : State) (tag : Byte), s.ready →
    (s.settings.saving.isSome = true → exec (.settingsSave tag) s = .next (s.replies 0x50 tag (refuse .busy))) ∧
    (s.settings.saving = none → ∃ (x : SettingsStore) (w : Saving),
      exec (.settingsSave tag) s = .next ((s.withSettings x).replies 0x50 tag (okay (le32 w.count.toNat))) ∧
      x.saving = some w ∧ w.image = s.config ∧
      w.count = (match s.settings.count with | some n => n + 1 | none => 1) ∧
      (match s.settings.current with | some z => w.toZero ≠ z | none => w.toZero = true) ∧
      x.current = s.settings.current ∧ x.image = s.settings.image ∧ x.lastResult = .none)) ∧
  (∀ (s : State) (w : Saving) (matched : Bool), s.quiet → s.settings.saving = some w → ∃ (t : State) (p : Place),
    exec (.saveWriteEnd matched) s = .next t ∧ t.settings.saving = none ∧
    t.settings.lastResult = (if matched then .done else .failed) ∧
    t.settings.place w.toZero = p ∧ p.image = w.image ∧ p.count = w.count ∧
    (p.check = crc32 (w.image.bytes ++ le32 w.count.toNat) ↔ matched = true) ∧ (p.valid = true ↔ matched = true) ∧
    t.settings.place (!w.toZero) = s.settings.place (!w.toZero) ∧
    (s.notices.enables[Condition.storeDone.place] = true → t.notices.members[Condition.storeDone.place] = true) ∧
    (s.log.generalFate = .appended → ∃ r, t.log.records = s.log.records ++ [r] ∧
      r.body = .config (.saved t.settings.lastResult t.settings.count))) ∧
  (∀ (x : SettingsStore) (image : WorkingConfig) (w : Saving), (x.startSave image).saving = some w →
    (((x.startSave image).endSave w true).current = some w.toZero ∧ ((x.startSave image).endSave w true).image = image) ∧
    (((x.startSave image).endSave w false).current = x.current ∧
      ((x.startSave image).endSave w false).image = x.image)) ∧
  (∀ (s : State) (matched : Bool), s.quiet → s.settings.saving = none →
    exec (.saveWriteEnd matched) s = .next s.offer)

/-! ### Device Clock and start-up (spec/10) -/

/-- TIME_SET by the table of R190: BAD_VALUE, BACKWARD and TOO_FAR change nothing; from UNSET the clock becomes VALID,
enabled compartments take the new time, slots in IN_CUSTODY take their blind credit and openings in progress their new
start, and the SAMPLE records of the relative intervals that hold a step are handed before the TIME record, by
compartment (R47, R65, R190); a trim sets the time and moves no compartment and no interval, and the handovers it
overtakes lapse (R119, R191). Each hands a TIME record with the earlier time, FROM_UNSET or TRIM. -/
def Obligations.TimeIsSet : Prop :=
  ∀ (s : State) (tag : Byte) (time : Word) (n : Nat), s.ready → n = time.toNat →
    (n = 4294967295 → exec (.timeSet tag time) s = .next (s.replies 0x58 tag (refuse .badValue))) ∧
    (n ≠ 4294967295 → s.clock.state = .unset → n < s.clock.lastValid →
      exec (.timeSet tag time) s = .next (s.replies 0x58 tag (refuse .backward))) ∧
    (n ≠ 4294967295 → s.clock.state = .valid → n < s.clock.counter →
      exec (.timeSet tag time) s = .next (s.replies 0x58 tag (refuse .backward))) ∧
    (n ≠ 4294967295 → s.clock.state = .valid → s.clock.counter + 120 < n →
      exec (.timeSet tag time) s = .next (s.replies 0x58 tag (refuse .tooFar))) ∧
    (n ≠ 4294967295 → s.clock.state = .unset → s.clock.lastValid ≤ n →
      ∃ t : State, exec (.timeSet tag time) s = .next (t.replies 0x58 tag (okay (le32 n))) ∧
        t.clock = { s.clock with state := .valid, counter := n, lastValid := n } ∧
        (∀ c : CompNo, s.comps[c].settings.enabled = true →
          t.comps[c] = { s.comps[c] with lastStep := ⟨n, false⟩, interval := .opening ⟨n, false⟩ }) ∧
        (∀ c : CompNo, s.comps[c].settings.enabled = false → t.comps[c] = s.comps[c]) ∧
        (∀ i : SlotNo, t.slots[i].blind = (if s.slots[i].state = .inCustody then
            min (s.slots[i].blind + (n - s.slots[i].lastAccounted)) 4294967295 else s.slots[i].blind) ∧
          t.slots[i].lastAccounted = (if s.slots[i].state = .inCustody then n else s.slots[i].lastAccounted)) ∧
        (∀ c : CompNo, t.hatch.openings[c] = if s.hatch.openings[c].state = .opening then
          { s.hatch.openings[c] with start := some ⟨n, false⟩ } else s.hatch.openings[c]) ∧
        (s.log.ended = false → s.log.heldFull = false → s.log.records.length ≤ 4000 → s.log.nextSeq ≤ 4294967000 →
          ∃ r, t.log.records.getLast? = some r ∧ r.stamp = ⟨n, false⟩ ∧ r.compartment = none ∧
            r.body = .time ⟨s.clock.uptime, true⟩ n .fromUnset) ∧
        (∀ w : State, w = ((places 4).foldl (fun (u : State) (c : CompNo) =>
            let a := s.comps[c].interval
            if s.comps[c].settings.enabled = true ∧ 0 < a.steps then u.handGeneral
              { stamp := ⟨a.last, a.relative⟩, compartment := some c, tempSum := a.sum, tempCount := a.count
                body := .sample
                  { span := min (a.last - a.start) 65535, minimum := a.minimum, maximum := a.maximum
                    mean := meanOf a.sum a.count, increment := a.increment, blind := min a.blind 65535, live := a.live
                    held := a.held, watchMax := a.watchMax } }
            else u) s).handGeneral
              { stamp := ⟨n, false⟩, compartment := none, body := .time ⟨s.clock.uptime, true⟩ n .fromUnset } →
          t.log = w.log ∧ t.notices = w.notices ∧
          ∀ i : SlotNo, t.slots[i].logDeferred = w.slots[i].logDeferred) ∧
        t.hatch.inputs = s.hatch.inputs ∧ t.claims = s.claims) ∧
    (n ≠ 4294967295 → s.clock.state = .valid → s.clock.counter ≤ n → n ≤ s.clock.counter + 120 →
      ∃ t : State, exec (.timeSet tag time) s = .next (t.replies 0x58 tag (okay (le32 n))) ∧
        t.clock = { s.clock with counter := n, lastValid := n } ∧ t.comps = s.comps ∧ t.hatch = s.hatch ∧
        (s.log.ended = false → s.log.heldFull = false → s.log.records.length ≤ 3900 → s.log.nextSeq ≤ 4294967000 →
          ∃ r rest, t.log.records = s.log.records ++ r :: rest ∧ r.stamp = ⟨n, false⟩ ∧ r.compartment = none ∧
            r.body = .time ⟨s.clock.counter, false⟩ n .trim ∧
            ∀ q ∈ rest, q.stamp = ⟨n, false⟩ ∧ ∃ id i m, q.body = .handoverAbandon id i .lapsed m) ∧
        (∀ i : SlotNo, (s.slots[i].state = .handingOver → ∀ h, s.slots[i].handover = some h →
          t.slots[i].state = (if h.deadline ≤ n then .inCustody else .handingOver))) ∧
        (∀ i : SlotNo, s.slots[i].state ≠ .handingOver → t.slots[i] = s.slots[i]))

/-- RELEASE empties a HANDED_OVER slot without open claims, and is otherwise UNKNOWN, WRONG_STATE or CLAIMED with
nothing changed (R113). WIPE is OCCUPIED while a slot is in use or a claim open, and otherwise empties the log: no
record, next sequence 1, chain value 0xFFFFFFFF, accumulators and counts empty, not ENDED, the reply carrying the next
sequence; all else stays (R90, R196). -/
def Obligations.ReleaseAndWipeRemoveWhatIsDone : Prop :=
  (∀ (s : State) (tag : Byte) (id : Word), s.ready →
    ((id = 0 ∨ s.slotOf id = none) → exec (.release tag id) s = .next (s.replies 0x2B tag (refuse .unknown))) ∧
    (∀ i : SlotNo, id ≠ 0 → s.slotOf id = some i →
      (s.slots[i].state ≠ .handedOver → exec (.release tag id) s = .next (s.replies 0x2B tag (refuse .wrongState))) ∧
      (s.slots[i].state = .handedOver → 0 < s.slots[i].openClaims →
        exec (.release tag id) s = .next (s.replies 0x2B tag (refuse .claimed))) ∧
      (s.slots[i].state = .handedOver → s.slots[i].openClaims = 0 →
        exec (.release tag id) s
          = .next ((s.setSlot i Slot.blank).replies 0x2B tag (okay [BitVec.ofNat 8 i.val]))))) ∧
  (∀ (s : State) (tag : Byte), s.ready →
    (((∃ i : SlotNo, s.slots[i].state ≠ .empty) ∨ ∃ i : ClaimNo, s.claims.slots[i].isSome = true) →
      exec (.wipe tag) s = .next (s.replies 0x5C tag (refuse .occupied))) ∧
    ((∀ i : SlotNo, s.slots[i].state = .empty) → (∀ i : ClaimNo, s.claims.slots[i] = none) →
      exec (.wipe tag) s = .next ((s.withLog
        { s.log with
          records := [], nextSeq := 1, chain := 0xFFFFFFFF, ended := false, coarse := Vector.replicate 4 none, hatchLost := 0,
          claimLost := 0, otherLost := 0, custodyLost := 0, heldSince := none }).replies 0x5C tag (okay [1, 0, 0, 0]))))

/-- What start-up leaves after each of its three events (R23, R48, R66, R91, R97, R132, R133, R137, R173, R179, R185,
R188, R193, R195, R203): blocks at their start-up state with the restored configuration `w`, the clock as the event
leaves it, uptime 0, no handover, no walk, an empty link, a RESTART's reply sent in full (R195, log entry 11), and in
the pending set at most LOG_HELD and CLOCK_LOST, each pending when enabled and its truth holds, HELD_FULL and the clock
UNSET. An operation and a save cut off end INTERRUPTED, the operation's entries BLANK (R179, R185); the slots keep every
field, custody-out fields and proof records among them, but for an ended handover, the blind gap that
StartUpCreditsTheGap gives, a LOG_DEFERRED that a merge sets, and at the reset line and RESTART the seconds of an
opening in progress (R66, R97, R133); the holds and HELD_FULL stay (R91). That POWER_ON has the same effect with VDD
present is log entry 3's choice, and whether the place of a save that was cut off is the one restored is log entry 8's
free value. -/
def Obligations.StartUpLeavesTheBlocks : Prop :=
  ∀ (s : State) (c : Instr) (w : WorkingConfig) (k : ClockState) (live : Bool),
    ((∃ n b, c = .powerOn n b ∧ live = false ∧ k = (if s.clock.state = .valid ∧ b = true then .valid else .unset)) ∨
      (∃ n, c = .resetLine n ∧ s.power = .on ∧ live = true ∧ k = s.clock.state) ∨
      (∃ tag, c = .restart tag ∧ s.ready ∧ live = true ∧ k = s.clock.state)) →
    w = (s.settings.started (Config.cutOffWriteValid s.free)).image →
    ∃ t : State, exec c s = .next t ∧ t.power = .on ∧ t.clock.state = k ∧ t.clock.uptime = 0 ∧
      t.scan.state = (if w.autoStart then .waiting else .stopped) ∧ t.scan.read = none ∧ t.scan.cycleSet = [] ∧
      t.scan.pendingRange = none ∧ t.scan.completed = none ∧ t.scan.lastEnding = .none ∧ t.scan.overruns = 0 ∧
      t.scan.tickIn = w.period ∧ (∀ i : EntryNo, t.scan.rows[i] = .cleared ∧ t.scan.failures[i] = 0 ∧
        t.scan.faults[i] = false) ∧
      t.config = w ∧
      (∀ i : CompNo, t.comps[i] = ⟨w.comps[i], .unknown, .unset, none, 0, t.stampNow, .opening t.stampNow⟩) ∧
      (∀ i : InputNo, t.hatch.inputs[i] = ⟨w.inputs[i], s.hatch.inputs[i].made, .unsettled, some w.debounceSteps, 0⟩) ∧
      (∀ i : CompNo, t.hatch.openings[i] = .shut) ∧ t.hatch.patternTruth = false ∧
      (∀ (i : SlotNo) (x : Slot) (o : Opening), x = s.slots[i] → o = s.hatch.openings[x.compartment] →
        t.slots[i] = { x with
          state := if x.state = .handingOver then .inCustody else x.state
          handover := if x.state = .handingOver then none else x.handover
          openingSeconds := if live = true ∧ s.clock.state = .valid ∧ x.inCustody = true ∧ o.state = .opening then
            min (x.openingSeconds + (s.now - max o.startTime x.inTime)) 4294967295 else x.openingSeconds
          blind := t.slots[i].blind, lastAccounted := t.slots[i].lastAccounted, logDeferred := t.slots[i].logDeferred } ∧
        (x.logDeferred = true → t.slots[i].logDeferred = true)) ∧
      t.log.holds = s.log.holds ∧ (s.log.heldFull = true → t.log.heldFull = true) ∧
      t.claims.queue = [] ∧ (∀ i : ClaimNo, t.claims.slots[i] = s.claims.slots[i].map Claim.restarted) ∧
      t.offsets.running = none ∧ t.settings.saving = none ∧
      t.offsets.lastResult = (if s.offsets.running.isSome then .interrupted else s.offsets.lastResult) ∧
      t.offsets.lastOp = s.offsets.lastOp ∧
      (∀ d : CalSlot, t.offsets.entriesOf d = match s.offsets.running with
        | some (.erase e) => if d = e then Vector.replicate 16 .blank else s.offsets.entriesOf d
        | some (.program e j _) => if d = e then setAt (s.offsets.entriesOf d) j .blank else s.offsets.entriesOf d
        | none => s.offsets.entriesOf d) ∧
      t.settings.lastResult = (if s.settings.saving.isSome then .interrupted else s.settings.lastResult) ∧
      (t.notices.members[Condition.logHeld.place] = (w.enables[Condition.logHeld.place] && t.log.heldFull)) ∧
      (∀ j : Fin 18, t.notices.members[j] = true → j = Condition.logHeld.place ∨ j = Condition.clockLost.place) ∧
      (k = .unset → w.enables[Condition.clockLost.place] = true → t.notices.members[Condition.clockLost.place] = true) ∧
      t.link.receiver = .hunting ∧ t.link.queue = [] ∧ t.link.reply = none ∧ t.link.counts = ⟨0, 0, 0, 0⟩ ∧
      (∀ tag, c = .restart tag → t.link.sent = s.link.sent ++ s.link.transmitter.frame?.toList
        ++ [replyFrame 0x5B tag (okay [])])

/-- The blind gap credits and the records of a start-up with room in the log (R188, R193 step 8, R194), after POWER_ON,
the reset line and RESTART: with the clock VALID every slot in custody is credited up to the start-up time, which the
clock holds; with it UNSET none is. The records are the SAMPLE of each retained interval that holds a step, a
HANDOVER_ABANDON of reason POWER for each open handover, CONFIG DEFAULTED when the part starts DEFAULTED, and POWER with
its reason, its gap and the number of handovers abandoned. That a span ends at the end of start-up and a counter stops
at 4 294 967 294 is log entry 12, POWER_ON with VDD present log entry 3, the seconds of a RESTART log entry 6. -/
def Obligations.StartUpCreditsTheGap : Prop :=
  ∀ (s : State) (n : Nat) (held : Bool) (c : Instr) (reason : StartReason) (since : Nat),
    ((c = .powerOn n held ∧ reason = .powerOn ∧ since = s.clock.lastValid) ∨
      (c = .resetLine n ∧ s.power = .on ∧ reason = .resetLine ∧ since = s.now ∧ held = true) ∨
      (∃ tag, c = .restart tag ∧ s.ready ∧ reason = .restart ∧ since = s.now ∧ held = true ∧
        n = Config.restartSeconds s.free)) →
    s.log.ended = false → s.log.heldFull = false → s.log.records.length ≤ 3900 → s.log.nextSeq ≤ 4294967000 →
    ∃ (t : State) (r : LogRecord) (earlier : List LogRecord), exec c s = .next t ∧
      t.log.records = s.log.records ++ earlier ++ [r] ∧ r.stamp = t.stampNow ∧ r.compartment = none ∧
      earlier.map (fun q => (q.stamp, q.compartment, q.body)) =
        ((places 4).filter fun d => decide (0 < s.comps[d].interval.steps)).map (fun d =>
          ((s.comps[d].interval.entry d).stamp, some d, (s.comps[d].interval.entry d).body))
        ++ ((places 64).filter fun i => s.slots[i].state == .handingOver).map (fun i =>
          (t.stampNow, some s.slots[i].compartment,
            .handoverAbandon s.slots[i].identifier i .power s.slots[i].refusals))
        ++ (if t.settings.source = .defaulted then [(t.stampNow, none, .config .defaulted)] else []) ∧
      ((s.clock.state = .valid ∧ held = true) →
        t.clock.counter = min (s.clock.counter + n) 4294967294 ∧
        r.body = .power reason (some (t.clock.counter - since)) .valid s.handingOver ∧
        ∀ i : SlotNo, s.slots[i].inCustody = true → t.slots[i].lastAccounted = t.clock.counter ∧
          t.slots[i].blind = min (s.slots[i].blind + (t.clock.counter - s.slots[i].lastAccounted)) 4294967295 ∧
          t.slots[i].covered = s.slots[i].covered) ∧
      ((s.clock.state = .unset ∨ held = false) → r.body = .power reason none .unset s.handingOver ∧
        ∀ i : SlotNo, t.slots[i].lastAccounted = s.slots[i].lastAccounted ∧ t.slots[i].blind = s.slots[i].blind)

/-! ### Invariants -/

/-- Every step keeps the link in order: a quiet link with VDD present, no owed notice beside an IDLE transmitter, at
most four frames waiting (R199, R202). -/
def Obligations.StepKeepsTheLink : Prop :=
  ∀ s t : State, s.linkOk → step s = .next t → t.linkOk

/-- Every step keeps the Notice Unit in order: ALERT exactly while a condition is pending, pending conditions enabled,
raise counts of the pending alone (R165, R166, R171). -/
def Obligations.StepKeepsTheNotices : Prop :=
  ∀ s t : State, s.notices.ok → step s = .next t → t.notices.ok

/-- Every step keeps scanner, compartments and pattern watch in order: a read exactly during a cycle, held value and
miss count with the knowledge, disabled compartments UNKNOWN and UNSET, and the pattern watch never stale (R26, R30,
R31, R64, Table 2-1). -/
def Obligations.StepKeepsTheMonitors : Prop :=
  ∀ s t : State, s.monitorsOk → step s = .next t → t.monitorsOk

/-- Every step keeps the Custody Table in order: no identifier twice, EMPTY slots blank, handover, custody-out fields
and proof record exactly in the states that have them (R93, R96, R118, R124). -/
def Obligations.StepKeepsTheCustodyTable : Prop :=
  ∀ s t : State, s.tableOk → step s = .next t → t.tableOk

/-- Every step keeps the evidence in order: records of consecutive sequences with an unbroken chain, at most 4096 of
them; a hold and a counted open claim for each claim; HELD_FULL only over a held oldest record (R71, R72, R74 to R76,
R79, R83, R87, R136). -/
def Obligations.StepKeepsTheEvidence : Prop :=
  ∀ s t : State, s.evidenceOk → step s = .next t → t.evidenceOk

/-- The part right after reset is in order in every block, with the values spec/ gives: defaults of Table 9-2 in force
(R185), clock UNSET (R188), scanner WAITING with its first tick 10 s away (R23), compartments UNKNOWN and UNSET (R48),
inputs UNSETTLED (R66), slots EMPTY (R97), claims FREE (R137), CLOCK_LOST alone pending and ALERT asserted (R171, R173,
R193), store entries BLANK (R174), link counts 0 (R203); and, as log entry 5 has it, the CONFIG DEFAULTED and POWER
records of the first start-up (R193). -/
def Obligations.ResetValues : Prop :=
  State.reset.linkOk ∧ State.reset.notices.ok ∧ State.reset.monitorsOk ∧ State.reset.tableOk ∧ State.reset.evidenceOk ∧
  State.reset.config = .default ∧ State.reset.settings.source = .defaulted ∧ State.reset.clock.state = .unset ∧
  State.reset.clock.uptime = 0 ∧ State.reset.clock.lastValid = 0 ∧ State.reset.scan.state = .waiting ∧
  State.reset.scan.tickIn = 10 ∧
  (∀ c : CompNo, State.reset.comps[c].knowledge = .unknown ∧ State.reset.comps[c].band = .unset ∧
    State.reset.hatch.openings[c] = .shut) ∧
  (∀ i : InputNo, State.reset.hatch.inputs[i].settled = .unsettled) ∧ (∀ i : SlotNo, State.reset.slots[i] = .blank) ∧
  (∀ i : ClaimNo, State.reset.claims.slots[i] = none) ∧
  (∀ k : Fin 18, State.reset.notices.members[k] = decide (k = Condition.clockLost.place)) ∧
  State.reset.notices.alert = true ∧
  (∀ i : EntryNo, State.reset.offsets.slotA[i] = .blank ∧ State.reset.offsets.slotB[i] = .blank) ∧
  State.reset.link.counts = ⟨0, 0, 0, 0⟩ ∧
  State.reset.log.records.map (·.body) = [.config .defaulted, .power .powerOn none .unset 0]
end

