-- ==== Sys2Proof/Laws/State.lean ====
section
/-! SUPPORT. What each named update of `State` leaves in each field: one lemma for each update, true by rfl. -/

namespace Sys2Proof.Machine

@[simp] theorem State.withPending_pending (s : State) (x : List Instr) : (s.withPending x).pending = x := rfl
@[simp] theorem State.withPending_power (s : State) (x : List Instr) : (s.withPending x).power = s.power := rfl
@[simp] theorem State.withPending_scan (s : State) (x : List Instr) : (s.withPending x).scan = s.scan := rfl
@[simp] theorem State.withPending_comps (s : State) (x : List Instr) : (s.withPending x).comps = s.comps := rfl
@[simp] theorem State.withPending_logInterval (s : State) (x : List Instr) : (s.withPending x).logInterval = s.logInterval := rfl
@[simp] theorem State.withPending_hatch (s : State) (x : List Instr) : (s.withPending x).hatch = s.hatch := rfl
@[simp] theorem State.withPending_log (s : State) (x : List Instr) : (s.withPending x).log = s.log := rfl
@[simp] theorem State.withPending_slots (s : State) (x : List Instr) : (s.withPending x).slots = s.slots := rfl
@[simp] theorem State.withPending_handoverLimit (s : State) (x : List Instr) : (s.withPending x).handoverLimit = s.handoverLimit := rfl
@[simp] theorem State.withPending_claims (s : State) (x : List Instr) : (s.withPending x).claims = s.claims := rfl
@[simp] theorem State.withPending_notices (s : State) (x : List Instr) : (s.withPending x).notices = s.notices := rfl
@[simp] theorem State.withPending_offsets (s : State) (x : List Instr) : (s.withPending x).offsets = s.offsets := rfl
@[simp] theorem State.withPending_settings (s : State) (x : List Instr) : (s.withPending x).settings = s.settings := rfl
@[simp] theorem State.withPending_label (s : State) (x : List Instr) : (s.withPending x).label = s.label := rfl
@[simp] theorem State.withPending_clock (s : State) (x : List Instr) : (s.withPending x).clock = s.clock := rfl
@[simp] theorem State.withPending_link (s : State) (x : List Instr) : (s.withPending x).link = s.link := rfl
@[simp] theorem State.withPending_identity (s : State) (x : List Instr) : (s.withPending x).identity = s.identity := rfl
@[simp] theorem State.withPending_free (s : State) (x : List Instr) : (s.withPending x).free = s.free := rfl

@[simp] theorem State.withPower_pending (s : State) (x : Power) : (s.withPower x).pending = s.pending := rfl
@[simp] theorem State.withPower_power (s : State) (x : Power) : (s.withPower x).power = x := rfl
@[simp] theorem State.withPower_scan (s : State) (x : Power) : (s.withPower x).scan = s.scan := rfl
@[simp] theorem State.withPower_comps (s : State) (x : Power) : (s.withPower x).comps = s.comps := rfl
@[simp] theorem State.withPower_logInterval (s : State) (x : Power) : (s.withPower x).logInterval = s.logInterval := rfl
@[simp] theorem State.withPower_hatch (s : State) (x : Power) : (s.withPower x).hatch = s.hatch := rfl
@[simp] theorem State.withPower_log (s : State) (x : Power) : (s.withPower x).log = s.log := rfl
@[simp] theorem State.withPower_slots (s : State) (x : Power) : (s.withPower x).slots = s.slots := rfl
@[simp] theorem State.withPower_handoverLimit (s : State) (x : Power) : (s.withPower x).handoverLimit = s.handoverLimit := rfl
@[simp] theorem State.withPower_claims (s : State) (x : Power) : (s.withPower x).claims = s.claims := rfl
@[simp] theorem State.withPower_notices (s : State) (x : Power) : (s.withPower x).notices = s.notices := rfl
@[simp] theorem State.withPower_offsets (s : State) (x : Power) : (s.withPower x).offsets = s.offsets := rfl
@[simp] theorem State.withPower_settings (s : State) (x : Power) : (s.withPower x).settings = s.settings := rfl
@[simp] theorem State.withPower_label (s : State) (x : Power) : (s.withPower x).label = s.label := rfl
@[simp] theorem State.withPower_clock (s : State) (x : Power) : (s.withPower x).clock = s.clock := rfl
@[simp] theorem State.withPower_link (s : State) (x : Power) : (s.withPower x).link = s.link := rfl
@[simp] theorem State.withPower_identity (s : State) (x : Power) : (s.withPower x).identity = s.identity := rfl
@[simp] theorem State.withPower_free (s : State) (x : Power) : (s.withPower x).free = s.free := rfl

@[simp] theorem State.withScan_pending (s : State) (x : Scanner) : (s.withScan x).pending = s.pending := rfl
@[simp] theorem State.withScan_power (s : State) (x : Scanner) : (s.withScan x).power = s.power := rfl
@[simp] theorem State.withScan_scan (s : State) (x : Scanner) : (s.withScan x).scan = x := rfl
@[simp] theorem State.withScan_comps (s : State) (x : Scanner) : (s.withScan x).comps = s.comps := rfl
@[simp] theorem State.withScan_logInterval (s : State) (x : Scanner) : (s.withScan x).logInterval = s.logInterval := rfl
@[simp] theorem State.withScan_hatch (s : State) (x : Scanner) : (s.withScan x).hatch = s.hatch := rfl
@[simp] theorem State.withScan_log (s : State) (x : Scanner) : (s.withScan x).log = s.log := rfl
@[simp] theorem State.withScan_slots (s : State) (x : Scanner) : (s.withScan x).slots = s.slots := rfl
@[simp] theorem State.withScan_handoverLimit (s : State) (x : Scanner) : (s.withScan x).handoverLimit = s.handoverLimit := rfl
@[simp] theorem State.withScan_claims (s : State) (x : Scanner) : (s.withScan x).claims = s.claims := rfl
@[simp] theorem State.withScan_notices (s : State) (x : Scanner) : (s.withScan x).notices = s.notices := rfl
@[simp] theorem State.withScan_offsets (s : State) (x : Scanner) : (s.withScan x).offsets = s.offsets := rfl
@[simp] theorem State.withScan_settings (s : State) (x : Scanner) : (s.withScan x).settings = s.settings := rfl
@[simp] theorem State.withScan_label (s : State) (x : Scanner) : (s.withScan x).label = s.label := rfl
@[simp] theorem State.withScan_clock (s : State) (x : Scanner) : (s.withScan x).clock = s.clock := rfl
@[simp] theorem State.withScan_link (s : State) (x : Scanner) : (s.withScan x).link = s.link := rfl
@[simp] theorem State.withScan_identity (s : State) (x : Scanner) : (s.withScan x).identity = s.identity := rfl
@[simp] theorem State.withScan_free (s : State) (x : Scanner) : (s.withScan x).free = s.free := rfl

@[simp] theorem State.withComps_pending (s : State) (x : Vector Compartment 4) : (s.withComps x).pending = s.pending := rfl
@[simp] theorem State.withComps_power (s : State) (x : Vector Compartment 4) : (s.withComps x).power = s.power := rfl
@[simp] theorem State.withComps_scan (s : State) (x : Vector Compartment 4) : (s.withComps x).scan = s.scan := rfl
@[simp] theorem State.withComps_comps (s : State) (x : Vector Compartment 4) : (s.withComps x).comps = x := rfl
@[simp] theorem State.withComps_logInterval (s : State) (x : Vector Compartment 4) : (s.withComps x).logInterval = s.logInterval := rfl
@[simp] theorem State.withComps_hatch (s : State) (x : Vector Compartment 4) : (s.withComps x).hatch = s.hatch := rfl
@[simp] theorem State.withComps_log (s : State) (x : Vector Compartment 4) : (s.withComps x).log = s.log := rfl
@[simp] theorem State.withComps_slots (s : State) (x : Vector Compartment 4) : (s.withComps x).slots = s.slots := rfl
@[simp] theorem State.withComps_handoverLimit (s : State) (x : Vector Compartment 4) : (s.withComps x).handoverLimit = s.handoverLimit := rfl
@[simp] theorem State.withComps_claims (s : State) (x : Vector Compartment 4) : (s.withComps x).claims = s.claims := rfl
@[simp] theorem State.withComps_notices (s : State) (x : Vector Compartment 4) : (s.withComps x).notices = s.notices := rfl
@[simp] theorem State.withComps_offsets (s : State) (x : Vector Compartment 4) : (s.withComps x).offsets = s.offsets := rfl
@[simp] theorem State.withComps_settings (s : State) (x : Vector Compartment 4) : (s.withComps x).settings = s.settings := rfl
@[simp] theorem State.withComps_label (s : State) (x : Vector Compartment 4) : (s.withComps x).label = s.label := rfl
@[simp] theorem State.withComps_clock (s : State) (x : Vector Compartment 4) : (s.withComps x).clock = s.clock := rfl
@[simp] theorem State.withComps_link (s : State) (x : Vector Compartment 4) : (s.withComps x).link = s.link := rfl
@[simp] theorem State.withComps_identity (s : State) (x : Vector Compartment 4) : (s.withComps x).identity = s.identity := rfl
@[simp] theorem State.withComps_free (s : State) (x : Vector Compartment 4) : (s.withComps x).free = s.free := rfl

@[simp] theorem State.withLogInterval_pending (s : State) (x : Nat) : (s.withLogInterval x).pending = s.pending := rfl
@[simp] theorem State.withLogInterval_power (s : State) (x : Nat) : (s.withLogInterval x).power = s.power := rfl
@[simp] theorem State.withLogInterval_scan (s : State) (x : Nat) : (s.withLogInterval x).scan = s.scan := rfl
@[simp] theorem State.withLogInterval_comps (s : State) (x : Nat) : (s.withLogInterval x).comps = s.comps := rfl
@[simp] theorem State.withLogInterval_logInterval (s : State) (x : Nat) : (s.withLogInterval x).logInterval = x := rfl
@[simp] theorem State.withLogInterval_hatch (s : State) (x : Nat) : (s.withLogInterval x).hatch = s.hatch := rfl
@[simp] theorem State.withLogInterval_log (s : State) (x : Nat) : (s.withLogInterval x).log = s.log := rfl
@[simp] theorem State.withLogInterval_slots (s : State) (x : Nat) : (s.withLogInterval x).slots = s.slots := rfl
@[simp] theorem State.withLogInterval_handoverLimit (s : State) (x : Nat) : (s.withLogInterval x).handoverLimit = s.handoverLimit := rfl
@[simp] theorem State.withLogInterval_claims (s : State) (x : Nat) : (s.withLogInterval x).claims = s.claims := rfl
@[simp] theorem State.withLogInterval_notices (s : State) (x : Nat) : (s.withLogInterval x).notices = s.notices := rfl
@[simp] theorem State.withLogInterval_offsets (s : State) (x : Nat) : (s.withLogInterval x).offsets = s.offsets := rfl
@[simp] theorem State.withLogInterval_settings (s : State) (x : Nat) : (s.withLogInterval x).settings = s.settings := rfl
@[simp] theorem State.withLogInterval_label (s : State) (x : Nat) : (s.withLogInterval x).label = s.label := rfl
@[simp] theorem State.withLogInterval_clock (s : State) (x : Nat) : (s.withLogInterval x).clock = s.clock := rfl
@[simp] theorem State.withLogInterval_link (s : State) (x : Nat) : (s.withLogInterval x).link = s.link := rfl
@[simp] theorem State.withLogInterval_identity (s : State) (x : Nat) : (s.withLogInterval x).identity = s.identity := rfl
@[simp] theorem State.withLogInterval_free (s : State) (x : Nat) : (s.withLogInterval x).free = s.free := rfl

@[simp] theorem State.withHatch_pending (s : State) (x : HatchMonitor) : (s.withHatch x).pending = s.pending := rfl
@[simp] theorem State.withHatch_power (s : State) (x : HatchMonitor) : (s.withHatch x).power = s.power := rfl
@[simp] theorem State.withHatch_scan (s : State) (x : HatchMonitor) : (s.withHatch x).scan = s.scan := rfl
@[simp] theorem State.withHatch_comps (s : State) (x : HatchMonitor) : (s.withHatch x).comps = s.comps := rfl
@[simp] theorem State.withHatch_logInterval (s : State) (x : HatchMonitor) : (s.withHatch x).logInterval = s.logInterval := rfl
@[simp] theorem State.withHatch_hatch (s : State) (x : HatchMonitor) : (s.withHatch x).hatch = x := rfl
@[simp] theorem State.withHatch_log (s : State) (x : HatchMonitor) : (s.withHatch x).log = s.log := rfl
@[simp] theorem State.withHatch_slots (s : State) (x : HatchMonitor) : (s.withHatch x).slots = s.slots := rfl
@[simp] theorem State.withHatch_handoverLimit (s : State) (x : HatchMonitor) : (s.withHatch x).handoverLimit = s.handoverLimit := rfl
@[simp] theorem State.withHatch_claims (s : State) (x : HatchMonitor) : (s.withHatch x).claims = s.claims := rfl
@[simp] theorem State.withHatch_notices (s : State) (x : HatchMonitor) : (s.withHatch x).notices = s.notices := rfl
@[simp] theorem State.withHatch_offsets (s : State) (x : HatchMonitor) : (s.withHatch x).offsets = s.offsets := rfl
@[simp] theorem State.withHatch_settings (s : State) (x : HatchMonitor) : (s.withHatch x).settings = s.settings := rfl
@[simp] theorem State.withHatch_label (s : State) (x : HatchMonitor) : (s.withHatch x).label = s.label := rfl
@[simp] theorem State.withHatch_clock (s : State) (x : HatchMonitor) : (s.withHatch x).clock = s.clock := rfl
@[simp] theorem State.withHatch_link (s : State) (x : HatchMonitor) : (s.withHatch x).link = s.link := rfl
@[simp] theorem State.withHatch_identity (s : State) (x : HatchMonitor) : (s.withHatch x).identity = s.identity := rfl
@[simp] theorem State.withHatch_free (s : State) (x : HatchMonitor) : (s.withHatch x).free = s.free := rfl

@[simp] theorem State.withLog_pending (s : State) (x : Log) : (s.withLog x).pending = s.pending := rfl
@[simp] theorem State.withLog_power (s : State) (x : Log) : (s.withLog x).power = s.power := rfl
@[simp] theorem State.withLog_scan (s : State) (x : Log) : (s.withLog x).scan = s.scan := rfl
@[simp] theorem State.withLog_comps (s : State) (x : Log) : (s.withLog x).comps = s.comps := rfl
@[simp] theorem State.withLog_logInterval (s : State) (x : Log) : (s.withLog x).logInterval = s.logInterval := rfl
@[simp] theorem State.withLog_hatch (s : State) (x : Log) : (s.withLog x).hatch = s.hatch := rfl
@[simp] theorem State.withLog_log (s : State) (x : Log) : (s.withLog x).log = x := rfl
@[simp] theorem State.withLog_slots (s : State) (x : Log) : (s.withLog x).slots = s.slots := rfl
@[simp] theorem State.withLog_handoverLimit (s : State) (x : Log) : (s.withLog x).handoverLimit = s.handoverLimit := rfl
@[simp] theorem State.withLog_claims (s : State) (x : Log) : (s.withLog x).claims = s.claims := rfl
@[simp] theorem State.withLog_notices (s : State) (x : Log) : (s.withLog x).notices = s.notices := rfl
@[simp] theorem State.withLog_offsets (s : State) (x : Log) : (s.withLog x).offsets = s.offsets := rfl
@[simp] theorem State.withLog_settings (s : State) (x : Log) : (s.withLog x).settings = s.settings := rfl
@[simp] theorem State.withLog_label (s : State) (x : Log) : (s.withLog x).label = s.label := rfl
@[simp] theorem State.withLog_clock (s : State) (x : Log) : (s.withLog x).clock = s.clock := rfl
@[simp] theorem State.withLog_link (s : State) (x : Log) : (s.withLog x).link = s.link := rfl
@[simp] theorem State.withLog_identity (s : State) (x : Log) : (s.withLog x).identity = s.identity := rfl
@[simp] theorem State.withLog_free (s : State) (x : Log) : (s.withLog x).free = s.free := rfl

@[simp] theorem State.withSlots_pending (s : State) (x : Vector Slot 64) : (s.withSlots x).pending = s.pending := rfl
@[simp] theorem State.withSlots_power (s : State) (x : Vector Slot 64) : (s.withSlots x).power = s.power := rfl
@[simp] theorem State.withSlots_scan (s : State) (x : Vector Slot 64) : (s.withSlots x).scan = s.scan := rfl
@[simp] theorem State.withSlots_comps (s : State) (x : Vector Slot 64) : (s.withSlots x).comps = s.comps := rfl
@[simp] theorem State.withSlots_logInterval (s : State) (x : Vector Slot 64) : (s.withSlots x).logInterval = s.logInterval := rfl
@[simp] theorem State.withSlots_hatch (s : State) (x : Vector Slot 64) : (s.withSlots x).hatch = s.hatch := rfl
@[simp] theorem State.withSlots_log (s : State) (x : Vector Slot 64) : (s.withSlots x).log = s.log := rfl
@[simp] theorem State.withSlots_slots (s : State) (x : Vector Slot 64) : (s.withSlots x).slots = x := rfl
@[simp] theorem State.withSlots_handoverLimit (s : State) (x : Vector Slot 64) : (s.withSlots x).handoverLimit = s.handoverLimit := rfl
@[simp] theorem State.withSlots_claims (s : State) (x : Vector Slot 64) : (s.withSlots x).claims = s.claims := rfl
@[simp] theorem State.withSlots_notices (s : State) (x : Vector Slot 64) : (s.withSlots x).notices = s.notices := rfl
@[simp] theorem State.withSlots_offsets (s : State) (x : Vector Slot 64) : (s.withSlots x).offsets = s.offsets := rfl
@[simp] theorem State.withSlots_settings (s : State) (x : Vector Slot 64) : (s.withSlots x).settings = s.settings := rfl
@[simp] theorem State.withSlots_label (s : State) (x : Vector Slot 64) : (s.withSlots x).label = s.label := rfl
@[simp] theorem State.withSlots_clock (s : State) (x : Vector Slot 64) : (s.withSlots x).clock = s.clock := rfl
@[simp] theorem State.withSlots_link (s : State) (x : Vector Slot 64) : (s.withSlots x).link = s.link := rfl
@[simp] theorem State.withSlots_identity (s : State) (x : Vector Slot 64) : (s.withSlots x).identity = s.identity := rfl
@[simp] theorem State.withSlots_free (s : State) (x : Vector Slot 64) : (s.withSlots x).free = s.free := rfl

@[simp] theorem State.withHandoverLimit_pending (s : State) (x : Nat) : (s.withHandoverLimit x).pending = s.pending := rfl
@[simp] theorem State.withHandoverLimit_power (s : State) (x : Nat) : (s.withHandoverLimit x).power = s.power := rfl
@[simp] theorem State.withHandoverLimit_scan (s : State) (x : Nat) : (s.withHandoverLimit x).scan = s.scan := rfl
@[simp] theorem State.withHandoverLimit_comps (s : State) (x : Nat) : (s.withHandoverLimit x).comps = s.comps := rfl
@[simp] theorem State.withHandoverLimit_logInterval (s : State) (x : Nat) : (s.withHandoverLimit x).logInterval = s.logInterval := rfl
@[simp] theorem State.withHandoverLimit_hatch (s : State) (x : Nat) : (s.withHandoverLimit x).hatch = s.hatch := rfl
@[simp] theorem State.withHandoverLimit_log (s : State) (x : Nat) : (s.withHandoverLimit x).log = s.log := rfl
@[simp] theorem State.withHandoverLimit_slots (s : State) (x : Nat) : (s.withHandoverLimit x).slots = s.slots := rfl
@[simp] theorem State.withHandoverLimit_handoverLimit (s : State) (x : Nat) : (s.withHandoverLimit x).handoverLimit = x := rfl
@[simp] theorem State.withHandoverLimit_claims (s : State) (x : Nat) : (s.withHandoverLimit x).claims = s.claims := rfl
@[simp] theorem State.withHandoverLimit_notices (s : State) (x : Nat) : (s.withHandoverLimit x).notices = s.notices := rfl
@[simp] theorem State.withHandoverLimit_offsets (s : State) (x : Nat) : (s.withHandoverLimit x).offsets = s.offsets := rfl
@[simp] theorem State.withHandoverLimit_settings (s : State) (x : Nat) : (s.withHandoverLimit x).settings = s.settings := rfl
@[simp] theorem State.withHandoverLimit_label (s : State) (x : Nat) : (s.withHandoverLimit x).label = s.label := rfl
@[simp] theorem State.withHandoverLimit_clock (s : State) (x : Nat) : (s.withHandoverLimit x).clock = s.clock := rfl
@[simp] theorem State.withHandoverLimit_link (s : State) (x : Nat) : (s.withHandoverLimit x).link = s.link := rfl
@[simp] theorem State.withHandoverLimit_identity (s : State) (x : Nat) : (s.withHandoverLimit x).identity = s.identity := rfl
@[simp] theorem State.withHandoverLimit_free (s : State) (x : Nat) : (s.withHandoverLimit x).free = s.free := rfl

@[simp] theorem State.withClaims_pending (s : State) (x : ClaimUnit) : (s.withClaims x).pending = s.pending := rfl
@[simp] theorem State.withClaims_power (s : State) (x : ClaimUnit) : (s.withClaims x).power = s.power := rfl
@[simp] theorem State.withClaims_scan (s : State) (x : ClaimUnit) : (s.withClaims x).scan = s.scan := rfl
@[simp] theorem State.withClaims_comps (s : State) (x : ClaimUnit) : (s.withClaims x).comps = s.comps := rfl
@[simp] theorem State.withClaims_logInterval (s : State) (x : ClaimUnit) : (s.withClaims x).logInterval = s.logInterval := rfl
@[simp] theorem State.withClaims_hatch (s : State) (x : ClaimUnit) : (s.withClaims x).hatch = s.hatch := rfl
@[simp] theorem State.withClaims_log (s : State) (x : ClaimUnit) : (s.withClaims x).log = s.log := rfl
@[simp] theorem State.withClaims_slots (s : State) (x : ClaimUnit) : (s.withClaims x).slots = s.slots := rfl
@[simp] theorem State.withClaims_handoverLimit (s : State) (x : ClaimUnit) : (s.withClaims x).handoverLimit = s.handoverLimit := rfl
@[simp] theorem State.withClaims_claims (s : State) (x : ClaimUnit) : (s.withClaims x).claims = x := rfl
@[simp] theorem State.withClaims_notices (s : State) (x : ClaimUnit) : (s.withClaims x).notices = s.notices := rfl
@[simp] theorem State.withClaims_offsets (s : State) (x : ClaimUnit) : (s.withClaims x).offsets = s.offsets := rfl
@[simp] theorem State.withClaims_settings (s : State) (x : ClaimUnit) : (s.withClaims x).settings = s.settings := rfl
@[simp] theorem State.withClaims_label (s : State) (x : ClaimUnit) : (s.withClaims x).label = s.label := rfl
@[simp] theorem State.withClaims_clock (s : State) (x : ClaimUnit) : (s.withClaims x).clock = s.clock := rfl
@[simp] theorem State.withClaims_link (s : State) (x : ClaimUnit) : (s.withClaims x).link = s.link := rfl
@[simp] theorem State.withClaims_identity (s : State) (x : ClaimUnit) : (s.withClaims x).identity = s.identity := rfl
@[simp] theorem State.withClaims_free (s : State) (x : ClaimUnit) : (s.withClaims x).free = s.free := rfl

@[simp] theorem State.withNotices_pending (s : State) (x : NoticeUnit) : (s.withNotices x).pending = s.pending := rfl
@[simp] theorem State.withNotices_power (s : State) (x : NoticeUnit) : (s.withNotices x).power = s.power := rfl
@[simp] theorem State.withNotices_scan (s : State) (x : NoticeUnit) : (s.withNotices x).scan = s.scan := rfl
@[simp] theorem State.withNotices_comps (s : State) (x : NoticeUnit) : (s.withNotices x).comps = s.comps := rfl
@[simp] theorem State.withNotices_logInterval (s : State) (x : NoticeUnit) : (s.withNotices x).logInterval = s.logInterval := rfl
@[simp] theorem State.withNotices_hatch (s : State) (x : NoticeUnit) : (s.withNotices x).hatch = s.hatch := rfl
@[simp] theorem State.withNotices_log (s : State) (x : NoticeUnit) : (s.withNotices x).log = s.log := rfl
@[simp] theorem State.withNotices_slots (s : State) (x : NoticeUnit) : (s.withNotices x).slots = s.slots := rfl
@[simp] theorem State.withNotices_handoverLimit (s : State) (x : NoticeUnit) : (s.withNotices x).handoverLimit = s.handoverLimit := rfl
@[simp] theorem State.withNotices_claims (s : State) (x : NoticeUnit) : (s.withNotices x).claims = s.claims := rfl
@[simp] theorem State.withNotices_notices (s : State) (x : NoticeUnit) : (s.withNotices x).notices = x := rfl
@[simp] theorem State.withNotices_offsets (s : State) (x : NoticeUnit) : (s.withNotices x).offsets = s.offsets := rfl
@[simp] theorem State.withNotices_settings (s : State) (x : NoticeUnit) : (s.withNotices x).settings = s.settings := rfl
@[simp] theorem State.withNotices_label (s : State) (x : NoticeUnit) : (s.withNotices x).label = s.label := rfl
@[simp] theorem State.withNotices_clock (s : State) (x : NoticeUnit) : (s.withNotices x).clock = s.clock := rfl
@[simp] theorem State.withNotices_link (s : State) (x : NoticeUnit) : (s.withNotices x).link = s.link := rfl
@[simp] theorem State.withNotices_identity (s : State) (x : NoticeUnit) : (s.withNotices x).identity = s.identity := rfl
@[simp] theorem State.withNotices_free (s : State) (x : NoticeUnit) : (s.withNotices x).free = s.free := rfl

@[simp] theorem State.withOffsets_pending (s : State) (x : OffsetStore) : (s.withOffsets x).pending = s.pending := rfl
@[simp] theorem State.withOffsets_power (s : State) (x : OffsetStore) : (s.withOffsets x).power = s.power := rfl
@[simp] theorem State.withOffsets_scan (s : State) (x : OffsetStore) : (s.withOffsets x).scan = s.scan := rfl
@[simp] theorem State.withOffsets_comps (s : State) (x : OffsetStore) : (s.withOffsets x).comps = s.comps := rfl
@[simp] theorem State.withOffsets_logInterval (s : State) (x : OffsetStore) : (s.withOffsets x).logInterval = s.logInterval := rfl
@[simp] theorem State.withOffsets_hatch (s : State) (x : OffsetStore) : (s.withOffsets x).hatch = s.hatch := rfl
@[simp] theorem State.withOffsets_log (s : State) (x : OffsetStore) : (s.withOffsets x).log = s.log := rfl
@[simp] theorem State.withOffsets_slots (s : State) (x : OffsetStore) : (s.withOffsets x).slots = s.slots := rfl
@[simp] theorem State.withOffsets_handoverLimit (s : State) (x : OffsetStore) : (s.withOffsets x).handoverLimit = s.handoverLimit := rfl
@[simp] theorem State.withOffsets_claims (s : State) (x : OffsetStore) : (s.withOffsets x).claims = s.claims := rfl
@[simp] theorem State.withOffsets_notices (s : State) (x : OffsetStore) : (s.withOffsets x).notices = s.notices := rfl
@[simp] theorem State.withOffsets_offsets (s : State) (x : OffsetStore) : (s.withOffsets x).offsets = x := rfl
@[simp] theorem State.withOffsets_settings (s : State) (x : OffsetStore) : (s.withOffsets x).settings = s.settings := rfl
@[simp] theorem State.withOffsets_label (s : State) (x : OffsetStore) : (s.withOffsets x).label = s.label := rfl
@[simp] theorem State.withOffsets_clock (s : State) (x : OffsetStore) : (s.withOffsets x).clock = s.clock := rfl
@[simp] theorem State.withOffsets_link (s : State) (x : OffsetStore) : (s.withOffsets x).link = s.link := rfl
@[simp] theorem State.withOffsets_identity (s : State) (x : OffsetStore) : (s.withOffsets x).identity = s.identity := rfl
@[simp] theorem State.withOffsets_free (s : State) (x : OffsetStore) : (s.withOffsets x).free = s.free := rfl

@[simp] theorem State.withSettings_pending (s : State) (x : SettingsStore) : (s.withSettings x).pending = s.pending := rfl
@[simp] theorem State.withSettings_power (s : State) (x : SettingsStore) : (s.withSettings x).power = s.power := rfl
@[simp] theorem State.withSettings_scan (s : State) (x : SettingsStore) : (s.withSettings x).scan = s.scan := rfl
@[simp] theorem State.withSettings_comps (s : State) (x : SettingsStore) : (s.withSettings x).comps = s.comps := rfl
@[simp] theorem State.withSettings_logInterval (s : State) (x : SettingsStore) : (s.withSettings x).logInterval = s.logInterval := rfl
@[simp] theorem State.withSettings_hatch (s : State) (x : SettingsStore) : (s.withSettings x).hatch = s.hatch := rfl
@[simp] theorem State.withSettings_log (s : State) (x : SettingsStore) : (s.withSettings x).log = s.log := rfl
@[simp] theorem State.withSettings_slots (s : State) (x : SettingsStore) : (s.withSettings x).slots = s.slots := rfl
@[simp] theorem State.withSettings_handoverLimit (s : State) (x : SettingsStore) : (s.withSettings x).handoverLimit = s.handoverLimit := rfl
@[simp] theorem State.withSettings_claims (s : State) (x : SettingsStore) : (s.withSettings x).claims = s.claims := rfl
@[simp] theorem State.withSettings_notices (s : State) (x : SettingsStore) : (s.withSettings x).notices = s.notices := rfl
@[simp] theorem State.withSettings_offsets (s : State) (x : SettingsStore) : (s.withSettings x).offsets = s.offsets := rfl
@[simp] theorem State.withSettings_settings (s : State) (x : SettingsStore) : (s.withSettings x).settings = x := rfl
@[simp] theorem State.withSettings_label (s : State) (x : SettingsStore) : (s.withSettings x).label = s.label := rfl
@[simp] theorem State.withSettings_clock (s : State) (x : SettingsStore) : (s.withSettings x).clock = s.clock := rfl
@[simp] theorem State.withSettings_link (s : State) (x : SettingsStore) : (s.withSettings x).link = s.link := rfl
@[simp] theorem State.withSettings_identity (s : State) (x : SettingsStore) : (s.withSettings x).identity = s.identity := rfl
@[simp] theorem State.withSettings_free (s : State) (x : SettingsStore) : (s.withSettings x).free = s.free := rfl

@[simp] theorem State.withLabel_pending (s : State) (x : Wide) : (s.withLabel x).pending = s.pending := rfl
@[simp] theorem State.withLabel_power (s : State) (x : Wide) : (s.withLabel x).power = s.power := rfl
@[simp] theorem State.withLabel_scan (s : State) (x : Wide) : (s.withLabel x).scan = s.scan := rfl
@[simp] theorem State.withLabel_comps (s : State) (x : Wide) : (s.withLabel x).comps = s.comps := rfl
@[simp] theorem State.withLabel_logInterval (s : State) (x : Wide) : (s.withLabel x).logInterval = s.logInterval := rfl
@[simp] theorem State.withLabel_hatch (s : State) (x : Wide) : (s.withLabel x).hatch = s.hatch := rfl
@[simp] theorem State.withLabel_log (s : State) (x : Wide) : (s.withLabel x).log = s.log := rfl
@[simp] theorem State.withLabel_slots (s : State) (x : Wide) : (s.withLabel x).slots = s.slots := rfl
@[simp] theorem State.withLabel_handoverLimit (s : State) (x : Wide) : (s.withLabel x).handoverLimit = s.handoverLimit := rfl
@[simp] theorem State.withLabel_claims (s : State) (x : Wide) : (s.withLabel x).claims = s.claims := rfl
@[simp] theorem State.withLabel_notices (s : State) (x : Wide) : (s.withLabel x).notices = s.notices := rfl
@[simp] theorem State.withLabel_offsets (s : State) (x : Wide) : (s.withLabel x).offsets = s.offsets := rfl
@[simp] theorem State.withLabel_settings (s : State) (x : Wide) : (s.withLabel x).settings = s.settings := rfl
@[simp] theorem State.withLabel_label (s : State) (x : Wide) : (s.withLabel x).label = x := rfl
@[simp] theorem State.withLabel_clock (s : State) (x : Wide) : (s.withLabel x).clock = s.clock := rfl
@[simp] theorem State.withLabel_link (s : State) (x : Wide) : (s.withLabel x).link = s.link := rfl
@[simp] theorem State.withLabel_identity (s : State) (x : Wide) : (s.withLabel x).identity = s.identity := rfl
@[simp] theorem State.withLabel_free (s : State) (x : Wide) : (s.withLabel x).free = s.free := rfl

@[simp] theorem State.withClock_pending (s : State) (x : DeviceClock) : (s.withClock x).pending = s.pending := rfl
@[simp] theorem State.withClock_power (s : State) (x : DeviceClock) : (s.withClock x).power = s.power := rfl
@[simp] theorem State.withClock_scan (s : State) (x : DeviceClock) : (s.withClock x).scan = s.scan := rfl
@[simp] theorem State.withClock_comps (s : State) (x : DeviceClock) : (s.withClock x).comps = s.comps := rfl
@[simp] theorem State.withClock_logInterval (s : State) (x : DeviceClock) : (s.withClock x).logInterval = s.logInterval := rfl
@[simp] theorem State.withClock_hatch (s : State) (x : DeviceClock) : (s.withClock x).hatch = s.hatch := rfl
@[simp] theorem State.withClock_log (s : State) (x : DeviceClock) : (s.withClock x).log = s.log := rfl
@[simp] theorem State.withClock_slots (s : State) (x : DeviceClock) : (s.withClock x).slots = s.slots := rfl
@[simp] theorem State.withClock_handoverLimit (s : State) (x : DeviceClock) : (s.withClock x).handoverLimit = s.handoverLimit := rfl
@[simp] theorem State.withClock_claims (s : State) (x : DeviceClock) : (s.withClock x).claims = s.claims := rfl
@[simp] theorem State.withClock_notices (s : State) (x : DeviceClock) : (s.withClock x).notices = s.notices := rfl
@[simp] theorem State.withClock_offsets (s : State) (x : DeviceClock) : (s.withClock x).offsets = s.offsets := rfl
@[simp] theorem State.withClock_settings (s : State) (x : DeviceClock) : (s.withClock x).settings = s.settings := rfl
@[simp] theorem State.withClock_label (s : State) (x : DeviceClock) : (s.withClock x).label = s.label := rfl
@[simp] theorem State.withClock_clock (s : State) (x : DeviceClock) : (s.withClock x).clock = x := rfl
@[simp] theorem State.withClock_link (s : State) (x : DeviceClock) : (s.withClock x).link = s.link := rfl
@[simp] theorem State.withClock_identity (s : State) (x : DeviceClock) : (s.withClock x).identity = s.identity := rfl
@[simp] theorem State.withClock_free (s : State) (x : DeviceClock) : (s.withClock x).free = s.free := rfl

@[simp] theorem State.withLink_pending (s : State) (x : Link) : (s.withLink x).pending = s.pending := rfl
@[simp] theorem State.withLink_power (s : State) (x : Link) : (s.withLink x).power = s.power := rfl
@[simp] theorem State.withLink_scan (s : State) (x : Link) : (s.withLink x).scan = s.scan := rfl
@[simp] theorem State.withLink_comps (s : State) (x : Link) : (s.withLink x).comps = s.comps := rfl
@[simp] theorem State.withLink_logInterval (s : State) (x : Link) : (s.withLink x).logInterval = s.logInterval := rfl
@[simp] theorem State.withLink_hatch (s : State) (x : Link) : (s.withLink x).hatch = s.hatch := rfl
@[simp] theorem State.withLink_log (s : State) (x : Link) : (s.withLink x).log = s.log := rfl
@[simp] theorem State.withLink_slots (s : State) (x : Link) : (s.withLink x).slots = s.slots := rfl
@[simp] theorem State.withLink_handoverLimit (s : State) (x : Link) : (s.withLink x).handoverLimit = s.handoverLimit := rfl
@[simp] theorem State.withLink_claims (s : State) (x : Link) : (s.withLink x).claims = s.claims := rfl
@[simp] theorem State.withLink_notices (s : State) (x : Link) : (s.withLink x).notices = s.notices := rfl
@[simp] theorem State.withLink_offsets (s : State) (x : Link) : (s.withLink x).offsets = s.offsets := rfl
@[simp] theorem State.withLink_settings (s : State) (x : Link) : (s.withLink x).settings = s.settings := rfl
@[simp] theorem State.withLink_label (s : State) (x : Link) : (s.withLink x).label = s.label := rfl
@[simp] theorem State.withLink_clock (s : State) (x : Link) : (s.withLink x).clock = s.clock := rfl
@[simp] theorem State.withLink_link (s : State) (x : Link) : (s.withLink x).link = x := rfl
@[simp] theorem State.withLink_identity (s : State) (x : Link) : (s.withLink x).identity = s.identity := rfl
@[simp] theorem State.withLink_free (s : State) (x : Link) : (s.withLink x).free = s.free := rfl

@[simp] theorem State.withFree_pending (s : State) (x : Nat) : (s.withFree x).pending = s.pending := rfl
@[simp] theorem State.withFree_power (s : State) (x : Nat) : (s.withFree x).power = s.power := rfl
@[simp] theorem State.withFree_scan (s : State) (x : Nat) : (s.withFree x).scan = s.scan := rfl
@[simp] theorem State.withFree_comps (s : State) (x : Nat) : (s.withFree x).comps = s.comps := rfl
@[simp] theorem State.withFree_logInterval (s : State) (x : Nat) : (s.withFree x).logInterval = s.logInterval := rfl
@[simp] theorem State.withFree_hatch (s : State) (x : Nat) : (s.withFree x).hatch = s.hatch := rfl
@[simp] theorem State.withFree_log (s : State) (x : Nat) : (s.withFree x).log = s.log := rfl
@[simp] theorem State.withFree_slots (s : State) (x : Nat) : (s.withFree x).slots = s.slots := rfl
@[simp] theorem State.withFree_handoverLimit (s : State) (x : Nat) : (s.withFree x).handoverLimit = s.handoverLimit := rfl
@[simp] theorem State.withFree_claims (s : State) (x : Nat) : (s.withFree x).claims = s.claims := rfl
@[simp] theorem State.withFree_notices (s : State) (x : Nat) : (s.withFree x).notices = s.notices := rfl
@[simp] theorem State.withFree_offsets (s : State) (x : Nat) : (s.withFree x).offsets = s.offsets := rfl
@[simp] theorem State.withFree_settings (s : State) (x : Nat) : (s.withFree x).settings = s.settings := rfl
@[simp] theorem State.withFree_label (s : State) (x : Nat) : (s.withFree x).label = s.label := rfl
@[simp] theorem State.withFree_clock (s : State) (x : Nat) : (s.withFree x).clock = s.clock := rfl
@[simp] theorem State.withFree_link (s : State) (x : Nat) : (s.withFree x).link = s.link := rfl
@[simp] theorem State.withFree_identity (s : State) (x : Nat) : (s.withFree x).identity = s.identity := rfl
@[simp] theorem State.withFree_free (s : State) (x : Nat) : (s.withFree x).free = x := rfl

@[simp] theorem State.setComp_pending (s : State) (c : CompNo) (x : Compartment) :
    (s.setComp c x).pending = s.pending := rfl
@[simp] theorem State.setComp_power (s : State) (c : CompNo) (x : Compartment) :
    (s.setComp c x).power = s.power := rfl
@[simp] theorem State.setComp_scan (s : State) (c : CompNo) (x : Compartment) :
    (s.setComp c x).scan = s.scan := rfl
@[simp] theorem State.setComp_comps (s : State) (c : CompNo) (x : Compartment) :
    (s.setComp c x).comps = setAt s.comps c x := rfl
@[simp] theorem State.setComp_logInterval (s : State) (c : CompNo) (x : Compartment) :
    (s.setComp c x).logInterval = s.logInterval := rfl
@[simp] theorem State.setComp_hatch (s : State) (c : CompNo) (x : Compartment) :
    (s.setComp c x).hatch = s.hatch := rfl
@[simp] theorem State.setComp_log (s : State) (c : CompNo) (x : Compartment) :
    (s.setComp c x).log = s.log := rfl
@[simp] theorem State.setComp_slots (s : State) (c : CompNo) (x : Compartment) :
    (s.setComp c x).slots = s.slots := rfl
@[simp] theorem State.setComp_handoverLimit (s : State) (c : CompNo) (x : Compartment) :
    (s.setComp c x).handoverLimit = s.handoverLimit := rfl
@[simp] theorem State.setComp_claims (s : State) (c : CompNo) (x : Compartment) :
    (s.setComp c x).claims = s.claims := rfl
@[simp] theorem State.setComp_notices (s : State) (c : CompNo) (x : Compartment) :
    (s.setComp c x).notices = s.notices := rfl
@[simp] theorem State.setComp_offsets (s : State) (c : CompNo) (x : Compartment) :
    (s.setComp c x).offsets = s.offsets := rfl
@[simp] theorem State.setComp_settings (s : State) (c : CompNo) (x : Compartment) :
    (s.setComp c x).settings = s.settings := rfl
@[simp] theorem State.setComp_label (s : State) (c : CompNo) (x : Compartment) :
    (s.setComp c x).label = s.label := rfl
@[simp] theorem State.setComp_clock (s : State) (c : CompNo) (x : Compartment) :
    (s.setComp c x).clock = s.clock := rfl
@[simp] theorem State.setComp_link (s : State) (c : CompNo) (x : Compartment) :
    (s.setComp c x).link = s.link := rfl
@[simp] theorem State.setComp_identity (s : State) (c : CompNo) (x : Compartment) :
    (s.setComp c x).identity = s.identity := rfl
@[simp] theorem State.setComp_free (s : State) (c : CompNo) (x : Compartment) :
    (s.setComp c x).free = s.free := rfl

@[simp] theorem State.setSlot_pending (s : State) (i : SlotNo) (x : Slot) :
    (s.setSlot i x).pending = s.pending := rfl
@[simp] theorem State.setSlot_power (s : State) (i : SlotNo) (x : Slot) : (s.setSlot i x).power = s.power := rfl
@[simp] theorem State.setSlot_scan (s : State) (i : SlotNo) (x : Slot) : (s.setSlot i x).scan = s.scan := rfl
@[simp] theorem State.setSlot_comps (s : State) (i : SlotNo) (x : Slot) : (s.setSlot i x).comps = s.comps := rfl
@[simp] theorem State.setSlot_logInterval (s : State) (i : SlotNo) (x : Slot) :
    (s.setSlot i x).logInterval = s.logInterval := rfl
@[simp] theorem State.setSlot_hatch (s : State) (i : SlotNo) (x : Slot) : (s.setSlot i x).hatch = s.hatch := rfl
@[simp] theorem State.setSlot_log (s : State) (i : SlotNo) (x : Slot) : (s.setSlot i x).log = s.log := rfl
@[simp] theorem State.setSlot_slots (s : State) (i : SlotNo) (x : Slot) : (s.setSlot i x).slots = setAt s.slots i x := rfl
@[simp] theorem State.setSlot_handoverLimit (s : State) (i : SlotNo) (x : Slot) :
    (s.setSlot i x).handoverLimit = s.handoverLimit := rfl
@[simp] theorem State.setSlot_claims (s : State) (i : SlotNo) (x : Slot) : (s.setSlot i x).claims = s.claims := rfl
@[simp] theorem State.setSlot_notices (s : State) (i : SlotNo) (x : Slot) :
    (s.setSlot i x).notices = s.notices := rfl
@[simp] theorem State.setSlot_offsets (s : State) (i : SlotNo) (x : Slot) :
    (s.setSlot i x).offsets = s.offsets := rfl
@[simp] theorem State.setSlot_settings (s : State) (i : SlotNo) (x : Slot) :
    (s.setSlot i x).settings = s.settings := rfl
@[simp] theorem State.setSlot_label (s : State) (i : SlotNo) (x : Slot) : (s.setSlot i x).label = s.label := rfl
@[simp] theorem State.setSlot_clock (s : State) (i : SlotNo) (x : Slot) : (s.setSlot i x).clock = s.clock := rfl
@[simp] theorem State.setSlot_link (s : State) (i : SlotNo) (x : Slot) : (s.setSlot i x).link = s.link := rfl
@[simp] theorem State.setSlot_identity (s : State) (i : SlotNo) (x : Slot) :
    (s.setSlot i x).identity = s.identity := rfl
@[simp] theorem State.setSlot_free (s : State) (i : SlotNo) (x : Slot) : (s.setSlot i x).free = s.free := rfl

@[simp] theorem State.setClaim_pending (s : State) (i : ClaimNo) (x : Option Claim) :
    (s.setClaim i x).pending = s.pending := rfl
@[simp] theorem State.setClaim_power (s : State) (i : ClaimNo) (x : Option Claim) :
    (s.setClaim i x).power = s.power := rfl
@[simp] theorem State.setClaim_scan (s : State) (i : ClaimNo) (x : Option Claim) :
    (s.setClaim i x).scan = s.scan := rfl
@[simp] theorem State.setClaim_comps (s : State) (i : ClaimNo) (x : Option Claim) :
    (s.setClaim i x).comps = s.comps := rfl
@[simp] theorem State.setClaim_logInterval (s : State) (i : ClaimNo) (x : Option Claim) :
    (s.setClaim i x).logInterval = s.logInterval := rfl
@[simp] theorem State.setClaim_hatch (s : State) (i : ClaimNo) (x : Option Claim) :
    (s.setClaim i x).hatch = s.hatch := rfl
@[simp] theorem State.setClaim_log (s : State) (i : ClaimNo) (x : Option Claim) :
    (s.setClaim i x).log = s.log := rfl
@[simp] theorem State.setClaim_slots (s : State) (i : ClaimNo) (x : Option Claim) :
    (s.setClaim i x).slots = s.slots := rfl
@[simp] theorem State.setClaim_handoverLimit (s : State) (i : ClaimNo) (x : Option Claim) :
    (s.setClaim i x).handoverLimit = s.handoverLimit := rfl
@[simp] theorem State.setClaim_claims (s : State) (i : ClaimNo) (x : Option Claim) :
    (s.setClaim i x).claims = { s.claims with slots := setAt s.claims.slots i x } := rfl
@[simp] theorem State.setClaim_notices (s : State) (i : ClaimNo) (x : Option Claim) :
    (s.setClaim i x).notices = s.notices := rfl
@[simp] theorem State.setClaim_offsets (s : State) (i : ClaimNo) (x : Option Claim) :
    (s.setClaim i x).offsets = s.offsets := rfl
@[simp] theorem State.setClaim_settings (s : State) (i : ClaimNo) (x : Option Claim) :
    (s.setClaim i x).settings = s.settings := rfl
@[simp] theorem State.setClaim_label (s : State) (i : ClaimNo) (x : Option Claim) :
    (s.setClaim i x).label = s.label := rfl
@[simp] theorem State.setClaim_clock (s : State) (i : ClaimNo) (x : Option Claim) :
    (s.setClaim i x).clock = s.clock := rfl
@[simp] theorem State.setClaim_link (s : State) (i : ClaimNo) (x : Option Claim) :
    (s.setClaim i x).link = s.link := rfl
@[simp] theorem State.setClaim_identity (s : State) (i : ClaimNo) (x : Option Claim) :
    (s.setClaim i x).identity = s.identity := rfl
@[simp] theorem State.setClaim_free (s : State) (i : ClaimNo) (x : Option Claim) :
    (s.setClaim i x).free = s.free := rfl

@[simp] theorem State.setInput_pending (s : State) (i : InputNo) (x : ContactInput) :
    (s.setInput i x).pending = s.pending := rfl
@[simp] theorem State.setInput_power (s : State) (i : InputNo) (x : ContactInput) :
    (s.setInput i x).power = s.power := rfl
@[simp] theorem State.setInput_scan (s : State) (i : InputNo) (x : ContactInput) :
    (s.setInput i x).scan = s.scan := rfl
@[simp] theorem State.setInput_comps (s : State) (i : InputNo) (x : ContactInput) :
    (s.setInput i x).comps = s.comps := rfl
@[simp] theorem State.setInput_logInterval (s : State) (i : InputNo) (x : ContactInput) :
    (s.setInput i x).logInterval = s.logInterval := rfl
@[simp] theorem State.setInput_hatch (s : State) (i : InputNo) (x : ContactInput) :
    (s.setInput i x).hatch = { s.hatch with inputs := setAt s.hatch.inputs i x } := rfl
@[simp] theorem State.setInput_log (s : State) (i : InputNo) (x : ContactInput) :
    (s.setInput i x).log = s.log := rfl
@[simp] theorem State.setInput_slots (s : State) (i : InputNo) (x : ContactInput) :
    (s.setInput i x).slots = s.slots := rfl
@[simp] theorem State.setInput_handoverLimit (s : State) (i : InputNo) (x : ContactInput) :
    (s.setInput i x).handoverLimit = s.handoverLimit := rfl
@[simp] theorem State.setInput_claims (s : State) (i : InputNo) (x : ContactInput) :
    (s.setInput i x).claims = s.claims := rfl
@[simp] theorem State.setInput_notices (s : State) (i : InputNo) (x : ContactInput) :
    (s.setInput i x).notices = s.notices := rfl
@[simp] theorem State.setInput_offsets (s : State) (i : InputNo) (x : ContactInput) :
    (s.setInput i x).offsets = s.offsets := rfl
@[simp] theorem State.setInput_settings (s : State) (i : InputNo) (x : ContactInput) :
    (s.setInput i x).settings = s.settings := rfl
@[simp] theorem State.setInput_label (s : State) (i : InputNo) (x : ContactInput) :
    (s.setInput i x).label = s.label := rfl
@[simp] theorem State.setInput_clock (s : State) (i : InputNo) (x : ContactInput) :
    (s.setInput i x).clock = s.clock := rfl
@[simp] theorem State.setInput_link (s : State) (i : InputNo) (x : ContactInput) :
    (s.setInput i x).link = s.link := rfl
@[simp] theorem State.setInput_identity (s : State) (i : InputNo) (x : ContactInput) :
    (s.setInput i x).identity = s.identity := rfl
@[simp] theorem State.setInput_free (s : State) (i : InputNo) (x : ContactInput) :
    (s.setInput i x).free = s.free := rfl

@[simp] theorem State.setOpening_pending (s : State) (c : CompNo) (x : Opening) :
    (s.setOpening c x).pending = s.pending := rfl
@[simp] theorem State.setOpening_power (s : State) (c : CompNo) (x : Opening) :
    (s.setOpening c x).power = s.power := rfl
@[simp] theorem State.setOpening_scan (s : State) (c : CompNo) (x : Opening) :
    (s.setOpening c x).scan = s.scan := rfl
@[simp] theorem State.setOpening_comps (s : State) (c : CompNo) (x : Opening) :
    (s.setOpening c x).comps = s.comps := rfl
@[simp] theorem State.setOpening_logInterval (s : State) (c : CompNo) (x : Opening) :
    (s.setOpening c x).logInterval = s.logInterval := rfl
@[simp] theorem State.setOpening_hatch (s : State) (c : CompNo) (x : Opening) :
    (s.setOpening c x).hatch = { s.hatch with openings := setAt s.hatch.openings c x } := rfl
@[simp] theorem State.setOpening_log (s : State) (c : CompNo) (x : Opening) :
    (s.setOpening c x).log = s.log := rfl
@[simp] theorem State.setOpening_slots (s : State) (c : CompNo) (x : Opening) :
    (s.setOpening c x).slots = s.slots := rfl
@[simp] theorem State.setOpening_handoverLimit (s : State) (c : CompNo) (x : Opening) :
    (s.setOpening c x).handoverLimit = s.handoverLimit := rfl
@[simp] theorem State.setOpening_claims (s : State) (c : CompNo) (x : Opening) :
    (s.setOpening c x).claims = s.claims := rfl
@[simp] theorem State.setOpening_notices (s : State) (c : CompNo) (x : Opening) :
    (s.setOpening c x).notices = s.notices := rfl
@[simp] theorem State.setOpening_offsets (s : State) (c : CompNo) (x : Opening) :
    (s.setOpening c x).offsets = s.offsets := rfl
@[simp] theorem State.setOpening_settings (s : State) (c : CompNo) (x : Opening) :
    (s.setOpening c x).settings = s.settings := rfl
@[simp] theorem State.setOpening_label (s : State) (c : CompNo) (x : Opening) :
    (s.setOpening c x).label = s.label := rfl
@[simp] theorem State.setOpening_clock (s : State) (c : CompNo) (x : Opening) :
    (s.setOpening c x).clock = s.clock := rfl
@[simp] theorem State.setOpening_link (s : State) (c : CompNo) (x : Opening) :
    (s.setOpening c x).link = s.link := rfl
@[simp] theorem State.setOpening_identity (s : State) (c : CompNo) (x : Opening) :
    (s.setOpening c x).identity = s.identity := rfl
@[simp] theorem State.setOpening_free (s : State) (c : CompNo) (x : Opening) :
    (s.setOpening c x).free = s.free := rfl

@[simp] theorem State.updHeldIn_pending (s : State) (c : CompNo) (f : Slot → Slot) :
    (s.updHeldIn c f).pending = s.pending := by simp only [State.updHeldIn, State.withSlots_pending]
@[simp] theorem State.updHeldIn_power (s : State) (c : CompNo) (f : Slot → Slot) :
    (s.updHeldIn c f).power = s.power := by simp only [State.updHeldIn, State.withSlots_power]
@[simp] theorem State.updHeldIn_scan (s : State) (c : CompNo) (f : Slot → Slot) :
    (s.updHeldIn c f).scan = s.scan := by simp only [State.updHeldIn, State.withSlots_scan]
@[simp] theorem State.updHeldIn_comps (s : State) (c : CompNo) (f : Slot → Slot) :
    (s.updHeldIn c f).comps = s.comps := by simp only [State.updHeldIn, State.withSlots_comps]
@[simp] theorem State.updHeldIn_logInterval (s : State) (c : CompNo) (f : Slot → Slot) :
    (s.updHeldIn c f).logInterval = s.logInterval := by simp only [State.updHeldIn, State.withSlots_logInterval]
@[simp] theorem State.updHeldIn_hatch (s : State) (c : CompNo) (f : Slot → Slot) :
    (s.updHeldIn c f).hatch = s.hatch := by simp only [State.updHeldIn, State.withSlots_hatch]
@[simp] theorem State.updHeldIn_log (s : State) (c : CompNo) (f : Slot → Slot) :
    (s.updHeldIn c f).log = s.log := by simp only [State.updHeldIn, State.withSlots_log]
@[simp] theorem State.updHeldIn_slots (s : State) (c : CompNo) (f : Slot → Slot) :
    (s.updHeldIn c f).slots = mapAll (fun x => if x.heldIn c then f x else x) s.slots := rfl
@[simp] theorem State.updHeldIn_handoverLimit (s : State) (c : CompNo) (f : Slot → Slot) :
    (s.updHeldIn c f).handoverLimit = s.handoverLimit := by simp only [State.updHeldIn, State.withSlots_handoverLimit]
@[simp] theorem State.updHeldIn_claims (s : State) (c : CompNo) (f : Slot → Slot) :
    (s.updHeldIn c f).claims = s.claims := by simp only [State.updHeldIn, State.withSlots_claims]
@[simp] theorem State.updHeldIn_notices (s : State) (c : CompNo) (f : Slot → Slot) :
    (s.updHeldIn c f).notices = s.notices := by simp only [State.updHeldIn, State.withSlots_notices]
@[simp] theorem State.updHeldIn_offsets (s : State) (c : CompNo) (f : Slot → Slot) :
    (s.updHeldIn c f).offsets = s.offsets := by simp only [State.updHeldIn, State.withSlots_offsets]
@[simp] theorem State.updHeldIn_settings (s : State) (c : CompNo) (f : Slot → Slot) :
    (s.updHeldIn c f).settings = s.settings := by simp only [State.updHeldIn, State.withSlots_settings]
@[simp] theorem State.updHeldIn_label (s : State) (c : CompNo) (f : Slot → Slot) :
    (s.updHeldIn c f).label = s.label := by simp only [State.updHeldIn, State.withSlots_label]
@[simp] theorem State.updHeldIn_clock (s : State) (c : CompNo) (f : Slot → Slot) :
    (s.updHeldIn c f).clock = s.clock := by simp only [State.updHeldIn, State.withSlots_clock]
@[simp] theorem State.updHeldIn_link (s : State) (c : CompNo) (f : Slot → Slot) :
    (s.updHeldIn c f).link = s.link := by simp only [State.updHeldIn, State.withSlots_link]
@[simp] theorem State.updHeldIn_identity (s : State) (c : CompNo) (f : Slot → Slot) :
    (s.updHeldIn c f).identity = s.identity := by simp only [State.updHeldIn, State.withSlots_identity]
@[simp] theorem State.updHeldIn_free (s : State) (c : CompNo) (f : Slot → Slot) :
    (s.updHeldIn c f).free = s.free := by simp only [State.updHeldIn, State.withSlots_free]

/-! ### Tables -/

@[simp] theorem getElem_setAt {α : Type} {n : Nat} (v : Vector α n) (i j : Fin n) (x : α) :
    (setAt v i x)[j] = if i = j then x else v[j] := by
  simp only [setAt, Fin.getElem_fin, Vector.getElem_set, Fin.ext_iff]

@[simp] theorem getElem_updAt {α : Type} {n : Nat} (v : Vector α n) (i j : Fin n) (f : α → α) :
    (updAt v i f)[j] = if i = j then f v[i] else v[j] := by
  simp only [updAt, getElem_setAt]

@[simp] theorem getElem_mapAll {α β : Type} {n : Nat} (f : α → β) (v : Vector α n) (i : Fin n) :
    (mapAll f v)[i] = f v[i] := by
  simp only [mapAll, Fin.getElem_fin, Vector.getElem_ofFn]

/-- A table is known by its places. -/
theorem table_ext {α : Type} {n : Nat} {v w : Vector α n} (h : ∀ i : Fin n, v[i] = w[i]) : v = w :=
  Vector.ext fun i hi => h ⟨i, hi⟩

theorem anyAt_iff {α : Type} {n : Nat} (v : Vector α n) (p : α → Bool) :
    anyAt v p = true ↔ ∃ i : Fin n, p v[i] = true := by
  simp [anyAt, places]

theorem lowest_some {α : Type} {n : Nat} {v : Vector α n} {p : α → Bool} {i : Fin n} (h : lowest v p = some i) :
    p v[i] = true := List.find?_some (p := fun i => p v[i]) h

theorem lowest_none {α : Type} {n : Nat} {v : Vector α n} {p : α → Bool} (h : lowest v p = none) (i : Fin n) :
    p v[i] = false := by
  have := List.find?_eq_none.mp h i (List.mem_finRange i)
  simpa using this

end Sys2Proof.Machine
end

