-- ==== Sys2Proof/Laws/Frames.lean ====
section
/-! SUPPORT. Frames: what each operation over the clock of the blocks, the notices, the log, the compartments, the
scanner and the contacts leaves as it was, one lemma for each operation. -/

namespace Sys2Proof.Machine

@[simp] theorem State.elapse_frame (n : Nat) (s : State) :
    (s.elapse n).pending = s.pending ∧ (s.elapse n).power = s.power ∧ (s.elapse n).comps = s.comps ∧
    (s.elapse n).logInterval = s.logInterval ∧ (s.elapse n).log = s.log ∧ (s.elapse n).slots = s.slots ∧
    (s.elapse n).handoverLimit = s.handoverLimit ∧ (s.elapse n).claims = s.claims ∧ (s.elapse n).notices = s.notices ∧
    (s.elapse n).offsets = s.offsets ∧ (s.elapse n).settings = s.settings ∧ (s.elapse n).label = s.label ∧
    (s.elapse n).link = s.link ∧ (s.elapse n).identity = s.identity ∧ (s.elapse n).free = s.free := by
  unfold State.elapse
  simp

@[simp] theorem State.raise_frame (s : State) (c : Condition) :
    (s.raise c).pending = s.pending ∧ (s.raise c).power = s.power ∧ (s.raise c).scan = s.scan ∧
    (s.raise c).comps = s.comps ∧ (s.raise c).logInterval = s.logInterval ∧ (s.raise c).hatch = s.hatch ∧
    (s.raise c).log = s.log ∧ (s.raise c).slots = s.slots ∧ (s.raise c).handoverLimit = s.handoverLimit ∧
    (s.raise c).claims = s.claims ∧ (s.raise c).offsets = s.offsets ∧ (s.raise c).settings = s.settings ∧
    (s.raise c).label = s.label ∧ (s.raise c).clock = s.clock ∧ (s.raise c).link = s.link ∧
    (s.raise c).identity = s.identity ∧ (s.raise c).free = s.free := by
  unfold State.raise
  simp

@[simp] theorem State.raiseTimes_frame (s : State) (c : Condition) (l : Nat) :
    (s.raiseTimes c l).pending = s.pending ∧ (s.raiseTimes c l).power = s.power ∧ (s.raiseTimes c l).scan = s.scan ∧
    (s.raiseTimes c l).comps = s.comps ∧ (s.raiseTimes c l).logInterval = s.logInterval ∧
    (s.raiseTimes c l).hatch = s.hatch ∧ (s.raiseTimes c l).log = s.log ∧ (s.raiseTimes c l).slots = s.slots ∧
    (s.raiseTimes c l).handoverLimit = s.handoverLimit ∧ (s.raiseTimes c l).claims = s.claims ∧
    (s.raiseTimes c l).offsets = s.offsets ∧ (s.raiseTimes c l).settings = s.settings ∧
    (s.raiseTimes c l).label = s.label ∧ (s.raiseTimes c l).clock = s.clock ∧ (s.raiseTimes c l).link = s.link ∧
    (s.raiseTimes c l).identity = s.identity ∧ (s.raiseTimes c l).free = s.free := by
  induction l generalizing s <;> simp only [State.raiseTimes, *] <;> simp [*]

@[simp] theorem State.raiseIf_frame (s : State) (b : Bool) (c : Condition) :
    (s.raiseIf b c).pending = s.pending ∧ (s.raiseIf b c).power = s.power ∧ (s.raiseIf b c).scan = s.scan ∧
    (s.raiseIf b c).comps = s.comps ∧ (s.raiseIf b c).logInterval = s.logInterval ∧ (s.raiseIf b c).hatch = s.hatch ∧
    (s.raiseIf b c).log = s.log ∧ (s.raiseIf b c).slots = s.slots ∧ (s.raiseIf b c).handoverLimit = s.handoverLimit ∧
    (s.raiseIf b c).claims = s.claims ∧ (s.raiseIf b c).offsets = s.offsets ∧ (s.raiseIf b c).settings = s.settings ∧
    (s.raiseIf b c).label = s.label ∧ (s.raiseIf b c).clock = s.clock ∧ (s.raiseIf b c).link = s.link ∧
    (s.raiseIf b c).identity = s.identity ∧ (s.raiseIf b c).free = s.free := by
  unfold State.raiseIf
  (repeat' split) <;> simp

@[simp] theorem State.enterHeldFull_frame (s : State) (t : Stamp) :
    (s.enterHeldFull t).pending = s.pending ∧ (s.enterHeldFull t).power = s.power ∧ (s.enterHeldFull t).scan = s.scan ∧
    (s.enterHeldFull t).comps = s.comps ∧ (s.enterHeldFull t).logInterval = s.logInterval ∧
    (s.enterHeldFull t).hatch = s.hatch ∧ (s.enterHeldFull t).slots = s.slots ∧
    (s.enterHeldFull t).handoverLimit = s.handoverLimit ∧ (s.enterHeldFull t).claims = s.claims ∧
    (s.enterHeldFull t).offsets = s.offsets ∧ (s.enterHeldFull t).settings = s.settings ∧
    (s.enterHeldFull t).label = s.label ∧ (s.enterHeldFull t).clock = s.clock ∧ (s.enterHeldFull t).link = s.link ∧
    (s.enterHeldFull t).identity = s.identity ∧ (s.enterHeldFull t).free = s.free := by
  unfold State.enterHeldFull
  simp

@[simp] theorem State.flagDeferred_frame (s : State) (c : Option CompNo) :
    (s.flagDeferred c).pending = s.pending ∧ (s.flagDeferred c).power = s.power ∧ (s.flagDeferred c).scan = s.scan ∧
    (s.flagDeferred c).comps = s.comps ∧ (s.flagDeferred c).logInterval = s.logInterval ∧
    (s.flagDeferred c).hatch = s.hatch ∧ (s.flagDeferred c).log = s.log ∧
    (s.flagDeferred c).handoverLimit = s.handoverLimit ∧ (s.flagDeferred c).claims = s.claims ∧
    (s.flagDeferred c).notices = s.notices ∧ (s.flagDeferred c).offsets = s.offsets ∧
    (s.flagDeferred c).settings = s.settings ∧ (s.flagDeferred c).label = s.label ∧ (s.flagDeferred c).clock = s.clock ∧
    (s.flagDeferred c).link = s.link ∧ (s.flagDeferred c).identity = s.identity ∧ (s.flagDeferred c).free = s.free := by
  unfold State.flagDeferred
  (repeat' split) <;> simp

@[simp] theorem State.mergeSample_frame (s : State) (e : Entry) (b : SampleBody) :
    (s.mergeSample e b).pending = s.pending ∧ (s.mergeSample e b).power = s.power ∧ (s.mergeSample e b).scan = s.scan ∧
    (s.mergeSample e b).comps = s.comps ∧ (s.mergeSample e b).logInterval = s.logInterval ∧
    (s.mergeSample e b).hatch = s.hatch ∧ (s.mergeSample e b).handoverLimit = s.handoverLimit ∧
    (s.mergeSample e b).claims = s.claims ∧ (s.mergeSample e b).notices = s.notices ∧
    (s.mergeSample e b).offsets = s.offsets ∧ (s.mergeSample e b).settings = s.settings ∧
    (s.mergeSample e b).label = s.label ∧ (s.mergeSample e b).clock = s.clock ∧ (s.mergeSample e b).link = s.link ∧
    (s.mergeSample e b).identity = s.identity ∧ (s.mergeSample e b).free = s.free := by
  unfold State.mergeSample
  (repeat' split) <;> simp

@[simp] theorem State.loseGeneral_frame (s : State) (e : Entry) :
    (s.loseGeneral e).pending = s.pending ∧ (s.loseGeneral e).power = s.power ∧ (s.loseGeneral e).scan = s.scan ∧
    (s.loseGeneral e).comps = s.comps ∧ (s.loseGeneral e).logInterval = s.logInterval ∧ (s.loseGeneral e).hatch = s.hatch ∧
    (s.loseGeneral e).handoverLimit = s.handoverLimit ∧ (s.loseGeneral e).claims = s.claims ∧
    (s.loseGeneral e).notices = s.notices ∧ (s.loseGeneral e).offsets = s.offsets ∧
    (s.loseGeneral e).settings = s.settings ∧ (s.loseGeneral e).label = s.label ∧ (s.loseGeneral e).clock = s.clock ∧
    (s.loseGeneral e).link = s.link ∧ (s.loseGeneral e).identity = s.identity ∧ (s.loseGeneral e).free = s.free := by
  unfold State.loseGeneral
  (repeat' split) <;> simp

@[simp] theorem State.fallBack_frame (s : State) (e : Entry) :
    (s.fallBack e).pending = s.pending ∧ (s.fallBack e).power = s.power ∧ (s.fallBack e).scan = s.scan ∧
    (s.fallBack e).comps = s.comps ∧ (s.fallBack e).logInterval = s.logInterval ∧ (s.fallBack e).hatch = s.hatch ∧
    (s.fallBack e).handoverLimit = s.handoverLimit ∧ (s.fallBack e).claims = s.claims ∧
    (s.fallBack e).notices = s.notices ∧ (s.fallBack e).offsets = s.offsets ∧ (s.fallBack e).settings = s.settings ∧
    (s.fallBack e).label = s.label ∧ (s.fallBack e).clock = s.clock ∧ (s.fallBack e).link = s.link ∧
    (s.fallBack e).identity = s.identity ∧ (s.fallBack e).free = s.free := by
  unfold State.fallBack
  (repeat' split) <;> simp

@[simp] theorem State.handGeneral_frame (s : State) (e : Entry) :
    (s.handGeneral e).pending = s.pending ∧ (s.handGeneral e).power = s.power ∧ (s.handGeneral e).scan = s.scan ∧
    (s.handGeneral e).comps = s.comps ∧ (s.handGeneral e).logInterval = s.logInterval ∧ (s.handGeneral e).hatch = s.hatch ∧
    (s.handGeneral e).handoverLimit = s.handoverLimit ∧ (s.handGeneral e).claims = s.claims ∧
    (s.handGeneral e).offsets = s.offsets ∧ (s.handGeneral e).settings = s.settings ∧ (s.handGeneral e).label = s.label ∧
    (s.handGeneral e).clock = s.clock ∧ (s.handGeneral e).link = s.link ∧ (s.handGeneral e).identity = s.identity ∧
    (s.handGeneral e).free = s.free := by
  unfold State.handGeneral
  (repeat' split) <;> simp

@[simp] theorem State.afterCustody_frame (s : State) (e : Entry) (q : Nat) :
    (s.afterCustody e q).pending = s.pending ∧ (s.afterCustody e q).power = s.power ∧ (s.afterCustody e q).scan = s.scan ∧
    (s.afterCustody e q).comps = s.comps ∧ (s.afterCustody e q).logInterval = s.logInterval ∧
    (s.afterCustody e q).hatch = s.hatch ∧ (s.afterCustody e q).slots = s.slots ∧
    (s.afterCustody e q).handoverLimit = s.handoverLimit ∧ (s.afterCustody e q).claims = s.claims ∧
    (s.afterCustody e q).notices = s.notices ∧ (s.afterCustody e q).offsets = s.offsets ∧
    (s.afterCustody e q).settings = s.settings ∧ (s.afterCustody e q).label = s.label ∧
    (s.afterCustody e q).clock = s.clock ∧ (s.afterCustody e q).link = s.link ∧
    (s.afterCustody e q).identity = s.identity ∧ (s.afterCustody e q).free = s.free := by
  unfold State.afterCustody
  (repeat' split) <;> simp

@[simp] theorem State.handCustody_frame (s : State) (e : Entry) :
    (s.handCustody e).pending = s.pending ∧ (s.handCustody e).power = s.power ∧ (s.handCustody e).scan = s.scan ∧
    (s.handCustody e).comps = s.comps ∧ (s.handCustody e).logInterval = s.logInterval ∧ (s.handCustody e).hatch = s.hatch ∧
    (s.handCustody e).slots = s.slots ∧ (s.handCustody e).handoverLimit = s.handoverLimit ∧
    (s.handCustody e).claims = s.claims ∧ (s.handCustody e).offsets = s.offsets ∧ (s.handCustody e).settings = s.settings ∧
    (s.handCustody e).label = s.label ∧ (s.handCustody e).clock = s.clock ∧ (s.handCustody e).link = s.link ∧
    (s.handCustody e).identity = s.identity ∧ (s.handCustody e).free = s.free := by
  unfold State.handCustody
  dsimp only
  (repeat' split) <;> simp

@[simp] theorem State.recoverGap_frame (s : State) :
    (s.recoverGap).pending = s.pending ∧ (s.recoverGap).power = s.power ∧ (s.recoverGap).scan = s.scan ∧
    (s.recoverGap).comps = s.comps ∧ (s.recoverGap).logInterval = s.logInterval ∧ (s.recoverGap).hatch = s.hatch ∧
    (s.recoverGap).handoverLimit = s.handoverLimit ∧ (s.recoverGap).claims = s.claims ∧
    (s.recoverGap).offsets = s.offsets ∧ (s.recoverGap).settings = s.settings ∧ (s.recoverGap).label = s.label ∧
    (s.recoverGap).clock = s.clock ∧ (s.recoverGap).link = s.link ∧ (s.recoverGap).identity = s.identity ∧
    (s.recoverGap).free = s.free := by
  unfold State.recoverGap
  dsimp only
  (repeat' split) <;> simp

@[simp] theorem State.recover_frame (s : State) (l : List CompNo) :
    (s.recover l).pending = s.pending ∧ (s.recover l).power = s.power ∧ (s.recover l).scan = s.scan ∧
    (s.recover l).comps = s.comps ∧ (s.recover l).logInterval = s.logInterval ∧ (s.recover l).hatch = s.hatch ∧
    (s.recover l).handoverLimit = s.handoverLimit ∧ (s.recover l).claims = s.claims ∧ (s.recover l).offsets = s.offsets ∧
    (s.recover l).settings = s.settings ∧ (s.recover l).label = s.label ∧ (s.recover l).clock = s.clock ∧
    (s.recover l).link = s.link ∧ (s.recover l).identity = s.identity ∧ (s.recover l).free = s.free := by
  induction l generalizing s <;> simp only [State.recover, *] <;> (try (repeat' split)) <;> simp [*]

@[simp] theorem State.releaseHold_frame (s : State) (i : ClaimNo) :
    (s.releaseHold i).pending = s.pending ∧ (s.releaseHold i).power = s.power ∧ (s.releaseHold i).scan = s.scan ∧
    (s.releaseHold i).comps = s.comps ∧ (s.releaseHold i).logInterval = s.logInterval ∧ (s.releaseHold i).hatch = s.hatch ∧
    (s.releaseHold i).handoverLimit = s.handoverLimit ∧ (s.releaseHold i).claims = s.claims ∧
    (s.releaseHold i).offsets = s.offsets ∧ (s.releaseHold i).settings = s.settings ∧ (s.releaseHold i).label = s.label ∧
    (s.releaseHold i).clock = s.clock ∧ (s.releaseHold i).link = s.link ∧ (s.releaseHold i).identity = s.identity ∧
    (s.releaseHold i).free = s.free := by
  unfold State.releaseHold
  dsimp only
  (repeat' split) <;> simp

@[simp] theorem State.placeHold_frame (s : State) (i : ClaimNo) (h : Hold) :
    (s.placeHold i h).pending = s.pending ∧ (s.placeHold i h).power = s.power ∧ (s.placeHold i h).scan = s.scan ∧
    (s.placeHold i h).comps = s.comps ∧ (s.placeHold i h).logInterval = s.logInterval ∧ (s.placeHold i h).hatch = s.hatch ∧
    (s.placeHold i h).slots = s.slots ∧ (s.placeHold i h).handoverLimit = s.handoverLimit ∧
    (s.placeHold i h).claims = s.claims ∧ (s.placeHold i h).notices = s.notices ∧ (s.placeHold i h).offsets = s.offsets ∧
    (s.placeHold i h).settings = s.settings ∧ (s.placeHold i h).label = s.label ∧ (s.placeHold i h).clock = s.clock ∧
    (s.placeHold i h).link = s.link ∧ (s.placeHold i h).identity = s.identity ∧ (s.placeHold i h).free = s.free := by
  unfold State.placeHold
  simp

@[simp] theorem State.handConfig_frame (s : State) (c : Option CompNo) (change : ConfigChange) :
    (s.handConfig c change).pending = s.pending ∧ (s.handConfig c change).power = s.power ∧
    (s.handConfig c change).scan = s.scan ∧ (s.handConfig c change).comps = s.comps ∧
    (s.handConfig c change).logInterval = s.logInterval ∧ (s.handConfig c change).hatch = s.hatch ∧
    (s.handConfig c change).handoverLimit = s.handoverLimit ∧ (s.handConfig c change).claims = s.claims ∧
    (s.handConfig c change).offsets = s.offsets ∧ (s.handConfig c change).settings = s.settings ∧
    (s.handConfig c change).label = s.label ∧ (s.handConfig c change).clock = s.clock ∧
    (s.handConfig c change).link = s.link ∧ (s.handConfig c change).identity = s.identity ∧
    (s.handConfig c change).free = s.free := by
  unfold State.handConfig
  simp

@[simp] theorem State.evaluatePattern_frame (s : State) :
    (s.evaluatePattern).pending = s.pending ∧ (s.evaluatePattern).power = s.power ∧ (s.evaluatePattern).scan = s.scan ∧
    (s.evaluatePattern).comps = s.comps ∧ (s.evaluatePattern).logInterval = s.logInterval ∧
    (s.evaluatePattern).log = s.log ∧ (s.evaluatePattern).slots = s.slots ∧
    (s.evaluatePattern).handoverLimit = s.handoverLimit ∧ (s.evaluatePattern).claims = s.claims ∧
    (s.evaluatePattern).offsets = s.offsets ∧ (s.evaluatePattern).settings = s.settings ∧
    (s.evaluatePattern).label = s.label ∧ (s.evaluatePattern).clock = s.clock ∧ (s.evaluatePattern).link = s.link ∧
    (s.evaluatePattern).identity = s.identity ∧ (s.evaluatePattern).free = s.free := by
  unfold State.evaluatePattern
  simp

@[simp] theorem State.setBand_frame (s : State) (c : CompNo) (b : Band) :
    (s.setBand c b).pending = s.pending ∧ (s.setBand c b).power = s.power ∧ (s.setBand c b).scan = s.scan ∧
    (s.setBand c b).logInterval = s.logInterval ∧ (s.setBand c b).log = s.log ∧ (s.setBand c b).slots = s.slots ∧
    (s.setBand c b).handoverLimit = s.handoverLimit ∧ (s.setBand c b).claims = s.claims ∧
    (s.setBand c b).offsets = s.offsets ∧ (s.setBand c b).settings = s.settings ∧ (s.setBand c b).label = s.label ∧
    (s.setBand c b).clock = s.clock ∧ (s.setBand c b).link = s.link ∧ (s.setBand c b).identity = s.identity ∧
    (s.setBand c b).free = s.free := by
  unfold State.setBand
  dsimp only
  (repeat' split) <;> simp

@[simp] theorem State.creditCycle_frame (s : State) (c : CompNo) :
    (s.creditCycle c).pending = s.pending ∧ (s.creditCycle c).power = s.power ∧ (s.creditCycle c).scan = s.scan ∧
    (s.creditCycle c).comps = s.comps ∧ (s.creditCycle c).logInterval = s.logInterval ∧ (s.creditCycle c).hatch = s.hatch ∧
    (s.creditCycle c).log = s.log ∧ (s.creditCycle c).handoverLimit = s.handoverLimit ∧
    (s.creditCycle c).claims = s.claims ∧ (s.creditCycle c).notices = s.notices ∧ (s.creditCycle c).offsets = s.offsets ∧
    (s.creditCycle c).settings = s.settings ∧ (s.creditCycle c).label = s.label ∧ (s.creditCycle c).clock = s.clock ∧
    (s.creditCycle c).link = s.link ∧ (s.creditCycle c).identity = s.identity ∧ (s.creditCycle c).free = s.free := by
  unfold State.creditCycle
  (repeat' split) <;> simp

@[simp] theorem State.stepBand_frame (s : State) (c : CompNo) (k : StepKind) :
    (s.stepBand c k).pending = s.pending ∧ (s.stepBand c k).power = s.power ∧ (s.stepBand c k).scan = s.scan ∧
    (s.stepBand c k).logInterval = s.logInterval ∧ (s.stepBand c k).log = s.log ∧
    (s.stepBand c k).handoverLimit = s.handoverLimit ∧ (s.stepBand c k).claims = s.claims ∧
    (s.stepBand c k).offsets = s.offsets ∧ (s.stepBand c k).settings = s.settings ∧ (s.stepBand c k).label = s.label ∧
    (s.stepBand c k).clock = s.clock ∧ (s.stepBand c k).link = s.link ∧ (s.stepBand c k).identity = s.identity ∧
    (s.stepBand c k).free = s.free := by
  unfold State.stepBand
  dsimp only
  (repeat' split) <;> simp

@[simp] theorem State.shareStep_frame (s : State) (c : CompNo) (t tp : Nat) (rate : Option Nat) :
    (s.shareStep c t tp rate).pending = s.pending ∧ (s.shareStep c t tp rate).power = s.power ∧
    (s.shareStep c t tp rate).scan = s.scan ∧ (s.shareStep c t tp rate).comps = s.comps ∧
    (s.shareStep c t tp rate).logInterval = s.logInterval ∧ (s.shareStep c t tp rate).hatch = s.hatch ∧
    (s.shareStep c t tp rate).log = s.log ∧ (s.shareStep c t tp rate).handoverLimit = s.handoverLimit ∧
    (s.shareStep c t tp rate).claims = s.claims ∧ (s.shareStep c t tp rate).offsets = s.offsets ∧
    (s.shareStep c t tp rate).settings = s.settings ∧ (s.shareStep c t tp rate).label = s.label ∧
    (s.shareStep c t tp rate).clock = s.clock ∧ (s.shareStep c t tp rate).link = s.link ∧
    (s.shareStep c t tp rate).identity = s.identity ∧ (s.shareStep c t tp rate).free = s.free := by
  unfold State.shareStep
  dsimp only
  (repeat' split) <;> simp

@[simp] theorem State.closeInterval_frame (s : State) (c : CompNo) (reopen : Stamp) :
    (s.closeInterval c reopen).pending = s.pending ∧ (s.closeInterval c reopen).power = s.power ∧
    (s.closeInterval c reopen).scan = s.scan ∧ (s.closeInterval c reopen).logInterval = s.logInterval ∧
    (s.closeInterval c reopen).hatch = s.hatch ∧ (s.closeInterval c reopen).handoverLimit = s.handoverLimit ∧
    (s.closeInterval c reopen).claims = s.claims ∧ (s.closeInterval c reopen).offsets = s.offsets ∧
    (s.closeInterval c reopen).settings = s.settings ∧ (s.closeInterval c reopen).label = s.label ∧
    (s.closeInterval c reopen).clock = s.clock ∧ (s.closeInterval c reopen).link = s.link ∧
    (s.closeInterval c reopen).identity = s.identity ∧ (s.closeInterval c reopen).free = s.free := by
  unfold State.closeInterval
  simp

@[simp] theorem State.stepKnow_frame (s : State) (c : CompNo) (cause : StepCause) :
    (s.stepKnow c cause).pending = s.pending ∧ (s.stepKnow c cause).power = s.power ∧ (s.stepKnow c cause).scan = s.scan ∧
    (s.stepKnow c cause).logInterval = s.logInterval ∧ (s.stepKnow c cause).hatch = s.hatch ∧
    (s.stepKnow c cause).log = s.log ∧ (s.stepKnow c cause).slots = s.slots ∧
    (s.stepKnow c cause).handoverLimit = s.handoverLimit ∧ (s.stepKnow c cause).claims = s.claims ∧
    (s.stepKnow c cause).offsets = s.offsets ∧ (s.stepKnow c cause).settings = s.settings ∧
    (s.stepKnow c cause).label = s.label ∧ (s.stepKnow c cause).clock = s.clock ∧ (s.stepKnow c cause).link = s.link ∧
    (s.stepKnow c cause).identity = s.identity ∧ (s.stepKnow c cause).free = s.free := by
  unfold State.stepKnow
  simp

@[simp] theorem State.stepInterval_frame (s : State) (c : CompNo) (span : Nat) (k : StepKind) (watch : Option Int) :
    (s.stepInterval c span k watch).pending = s.pending ∧ (s.stepInterval c span k watch).power = s.power ∧
    (s.stepInterval c span k watch).scan = s.scan ∧ (s.stepInterval c span k watch).logInterval = s.logInterval ∧
    (s.stepInterval c span k watch).hatch = s.hatch ∧ (s.stepInterval c span k watch).log = s.log ∧
    (s.stepInterval c span k watch).slots = s.slots ∧ (s.stepInterval c span k watch).handoverLimit = s.handoverLimit ∧
    (s.stepInterval c span k watch).claims = s.claims ∧ (s.stepInterval c span k watch).notices = s.notices ∧
    (s.stepInterval c span k watch).offsets = s.offsets ∧ (s.stepInterval c span k watch).settings = s.settings ∧
    (s.stepInterval c span k watch).label = s.label ∧ (s.stepInterval c span k watch).clock = s.clock ∧
    (s.stepInterval c span k watch).link = s.link ∧ (s.stepInterval c span k watch).identity = s.identity ∧
    (s.stepInterval c span k watch).free = s.free := by
  unfold State.stepInterval
  simp

@[simp] theorem State.stepClose_frame (s : State) (c : CompNo) (cause : StepCause) :
    (s.stepClose c cause).pending = s.pending ∧ (s.stepClose c cause).power = s.power ∧
    (s.stepClose c cause).scan = s.scan ∧ (s.stepClose c cause).logInterval = s.logInterval ∧
    (s.stepClose c cause).hatch = s.hatch ∧ (s.stepClose c cause).handoverLimit = s.handoverLimit ∧
    (s.stepClose c cause).claims = s.claims ∧ (s.stepClose c cause).offsets = s.offsets ∧
    (s.stepClose c cause).settings = s.settings ∧ (s.stepClose c cause).label = s.label ∧
    (s.stepClose c cause).clock = s.clock ∧ (s.stepClose c cause).link = s.link ∧
    (s.stepClose c cause).identity = s.identity ∧ (s.stepClose c cause).free = s.free := by
  unfold State.stepClose
  (repeat' split) <;> simp

@[simp] theorem State.takeStep_frame (s : State) (c : CompNo) (cause : StepCause) :
    (s.takeStep c cause).pending = s.pending ∧ (s.takeStep c cause).power = s.power ∧ (s.takeStep c cause).scan = s.scan ∧
    (s.takeStep c cause).logInterval = s.logInterval ∧ (s.takeStep c cause).handoverLimit = s.handoverLimit ∧
    (s.takeStep c cause).claims = s.claims ∧ (s.takeStep c cause).offsets = s.offsets ∧
    (s.takeStep c cause).settings = s.settings ∧ (s.takeStep c cause).label = s.label ∧
    (s.takeStep c cause).clock = s.clock ∧ (s.takeStep c cause).link = s.link ∧
    (s.takeStep c cause).identity = s.identity ∧ (s.takeStep c cause).free = s.free := by
  unfold State.takeStep
  simp

@[simp] theorem State.stepComp_frame (s : State) (c : CompNo) (cause : StepCause) :
    (s.stepComp c cause).pending = s.pending ∧ (s.stepComp c cause).power = s.power ∧ (s.stepComp c cause).scan = s.scan ∧
    (s.stepComp c cause).logInterval = s.logInterval ∧ (s.stepComp c cause).handoverLimit = s.handoverLimit ∧
    (s.stepComp c cause).claims = s.claims ∧ (s.stepComp c cause).offsets = s.offsets ∧
    (s.stepComp c cause).settings = s.settings ∧ (s.stepComp c cause).label = s.label ∧
    (s.stepComp c cause).clock = s.clock ∧ (s.stepComp c cause).link = s.link ∧
    (s.stepComp c cause).identity = s.identity ∧ (s.stepComp c cause).free = s.free := by
  unfold State.stepComp
  (repeat' split) <;> simp

@[simp] theorem State.stepAll_frame (s : State) (causeOf : CompNo → StepCause) (l : List CompNo) :
    (s.stepAll causeOf l).pending = s.pending ∧ (s.stepAll causeOf l).power = s.power ∧
    (s.stepAll causeOf l).scan = s.scan ∧ (s.stepAll causeOf l).logInterval = s.logInterval ∧
    (s.stepAll causeOf l).handoverLimit = s.handoverLimit ∧ (s.stepAll causeOf l).claims = s.claims ∧
    (s.stepAll causeOf l).offsets = s.offsets ∧ (s.stepAll causeOf l).settings = s.settings ∧
    (s.stepAll causeOf l).label = s.label ∧ (s.stepAll causeOf l).clock = s.clock ∧ (s.stepAll causeOf l).link = s.link ∧
    (s.stepAll causeOf l).identity = s.identity ∧ (s.stepAll causeOf l).free = s.free := by
  induction l generalizing s <;> simp only [State.stepAll, *] <;> simp [*]

@[simp] theorem State.blindTick_frame (s : State) :
    (s.blindTick).pending = s.pending ∧ (s.blindTick).power = s.power ∧ (s.blindTick).scan = s.scan ∧
    (s.blindTick).logInterval = s.logInterval ∧ (s.blindTick).handoverLimit = s.handoverLimit ∧
    (s.blindTick).claims = s.claims ∧ (s.blindTick).offsets = s.offsets ∧ (s.blindTick).settings = s.settings ∧
    (s.blindTick).label = s.label ∧ (s.blindTick).clock = s.clock ∧ (s.blindTick).link = s.link ∧
    (s.blindTick).identity = s.identity ∧ (s.blindTick).free = s.free := by
  unfold State.blindTick
  simp

@[simp] theorem State.cycleStep_frame (s : State) (items : List CycleItem) :
    (s.cycleStep items).pending = s.pending ∧ (s.cycleStep items).power = s.power ∧ (s.cycleStep items).scan = s.scan ∧
    (s.cycleStep items).logInterval = s.logInterval ∧ (s.cycleStep items).handoverLimit = s.handoverLimit ∧
    (s.cycleStep items).claims = s.claims ∧ (s.cycleStep items).offsets = s.offsets ∧
    (s.cycleStep items).settings = s.settings ∧ (s.cycleStep items).label = s.label ∧ (s.cycleStep items).clock = s.clock ∧
    (s.cycleStep items).link = s.link ∧ (s.cycleStep items).identity = s.identity ∧ (s.cycleStep items).free = s.free := by
  unfold State.cycleStep
  simp

@[simp] theorem State.endCycle_frame (s : State) (ending : CycleEnding) (next : ScanState) :
    (s.endCycle ending next).pending = s.pending ∧ (s.endCycle ending next).power = s.power ∧
    (s.endCycle ending next).logInterval = s.logInterval ∧ (s.endCycle ending next).handoverLimit = s.handoverLimit ∧
    (s.endCycle ending next).claims = s.claims ∧ (s.endCycle ending next).offsets = s.offsets ∧
    (s.endCycle ending next).settings = s.settings ∧ (s.endCycle ending next).label = s.label ∧
    (s.endCycle ending next).clock = s.clock ∧ (s.endCycle ending next).link = s.link ∧
    (s.endCycle ending next).identity = s.identity ∧ (s.endCycle ending next).free = s.free := by
  unfold State.endCycle
  simp [State.updScan]

@[simp] theorem State.endNormally_frame (s : State) :
    (s.endNormally).pending = s.pending ∧ (s.endNormally).power = s.power ∧ (s.endNormally).logInterval = s.logInterval ∧
    (s.endNormally).handoverLimit = s.handoverLimit ∧ (s.endNormally).claims = s.claims ∧
    (s.endNormally).offsets = s.offsets ∧ (s.endNormally).settings = s.settings ∧ (s.endNormally).label = s.label ∧
    (s.endNormally).clock = s.clock ∧ (s.endNormally).link = s.link ∧ (s.endNormally).identity = s.identity ∧
    (s.endNormally).free = s.free := by
  unfold State.endNormally
  (repeat' split) <;> simp

@[simp] theorem State.passOver_frame (s : State) (i : EntryNo) :
    (s.passOver i).pending = s.pending ∧ (s.passOver i).power = s.power ∧ (s.passOver i).comps = s.comps ∧
    (s.passOver i).logInterval = s.logInterval ∧ (s.passOver i).hatch = s.hatch ∧ (s.passOver i).log = s.log ∧
    (s.passOver i).slots = s.slots ∧ (s.passOver i).handoverLimit = s.handoverLimit ∧ (s.passOver i).claims = s.claims ∧
    (s.passOver i).notices = s.notices ∧ (s.passOver i).offsets = s.offsets ∧ (s.passOver i).settings = s.settings ∧
    (s.passOver i).label = s.label ∧ (s.passOver i).clock = s.clock ∧ (s.passOver i).link = s.link ∧
    (s.passOver i).identity = s.identity ∧ (s.passOver i).free = s.free := by
  unfold State.passOver
  simp [State.updScan]

@[simp] theorem State.startRead_frame (s : State) (i : EntryNo) :
    (s.startRead i).pending = s.pending ∧ (s.startRead i).power = s.power ∧ (s.startRead i).comps = s.comps ∧
    (s.startRead i).logInterval = s.logInterval ∧ (s.startRead i).hatch = s.hatch ∧ (s.startRead i).log = s.log ∧
    (s.startRead i).slots = s.slots ∧ (s.startRead i).handoverLimit = s.handoverLimit ∧ (s.startRead i).claims = s.claims ∧
    (s.startRead i).notices = s.notices ∧ (s.startRead i).offsets = s.offsets ∧ (s.startRead i).settings = s.settings ∧
    (s.startRead i).label = s.label ∧ (s.startRead i).clock = s.clock ∧ (s.startRead i).link = s.link ∧
    (s.startRead i).identity = s.identity ∧ (s.startRead i).free = s.free := by
  unfold State.startRead
  dsimp only
  (repeat' split) <;> simp [State.updScan]

@[simp] theorem State.takeUp_frame (s : State) (l : List EntryNo) :
    (s.takeUp l).pending = s.pending ∧ (s.takeUp l).power = s.power ∧ (s.takeUp l).logInterval = s.logInterval ∧
    (s.takeUp l).handoverLimit = s.handoverLimit ∧ (s.takeUp l).claims = s.claims ∧ (s.takeUp l).offsets = s.offsets ∧
    (s.takeUp l).settings = s.settings ∧ (s.takeUp l).label = s.label ∧ (s.takeUp l).clock = s.clock ∧
    (s.takeUp l).link = s.link ∧ (s.takeUp l).identity = s.identity ∧ (s.takeUp l).free = s.free := by
  induction l generalizing s <;> simp only [State.takeUp, *] <;> (try (repeat' split)) <;> simp [*]

@[simp] theorem State.startCycle_frame (s : State) :
    (s.startCycle).pending = s.pending ∧ (s.startCycle).power = s.power ∧ (s.startCycle).logInterval = s.logInterval ∧
    (s.startCycle).handoverLimit = s.handoverLimit ∧ (s.startCycle).claims = s.claims ∧
    (s.startCycle).offsets = s.offsets ∧ (s.startCycle).settings = s.settings ∧ (s.startCycle).label = s.label ∧
    (s.startCycle).clock = s.clock ∧ (s.startCycle).link = s.link ∧ (s.startCycle).identity = s.identity ∧
    (s.startCycle).free = s.free := by
  unfold State.startCycle
  simp [State.updScan]

@[simp] theorem State.countFailure_frame (s : State) (i : EntryNo) :
    (s.countFailure i).pending = s.pending ∧ (s.countFailure i).power = s.power ∧ (s.countFailure i).comps = s.comps ∧
    (s.countFailure i).logInterval = s.logInterval ∧ (s.countFailure i).hatch = s.hatch ∧ (s.countFailure i).log = s.log ∧
    (s.countFailure i).slots = s.slots ∧ (s.countFailure i).handoverLimit = s.handoverLimit ∧
    (s.countFailure i).claims = s.claims ∧ (s.countFailure i).offsets = s.offsets ∧
    (s.countFailure i).settings = s.settings ∧ (s.countFailure i).label = s.label ∧ (s.countFailure i).clock = s.clock ∧
    (s.countFailure i).link = s.link ∧ (s.countFailure i).identity = s.identity ∧ (s.countFailure i).free = s.free := by
  unfold State.countFailure
  dsimp only
  (repeat' split) <;> simp [State.updScan]

@[simp] theorem State.clearFailure_frame (s : State) (i : EntryNo) :
    (s.clearFailure i).pending = s.pending ∧ (s.clearFailure i).power = s.power ∧ (s.clearFailure i).comps = s.comps ∧
    (s.clearFailure i).logInterval = s.logInterval ∧ (s.clearFailure i).hatch = s.hatch ∧ (s.clearFailure i).log = s.log ∧
    (s.clearFailure i).slots = s.slots ∧ (s.clearFailure i).handoverLimit = s.handoverLimit ∧
    (s.clearFailure i).claims = s.claims ∧ (s.clearFailure i).notices = s.notices ∧
    (s.clearFailure i).offsets = s.offsets ∧ (s.clearFailure i).settings = s.settings ∧
    (s.clearFailure i).label = s.label ∧ (s.clearFailure i).clock = s.clock ∧ (s.clearFailure i).link = s.link ∧
    (s.clearFailure i).identity = s.identity ∧ (s.clearFailure i).free = s.free := by
  unfold State.clearFailure
  simp [State.updScan]

@[simp] theorem State.moveOn_frame (s : State) (i : EntryNo) :
    (s.moveOn i).pending = s.pending ∧ (s.moveOn i).power = s.power ∧ (s.moveOn i).logInterval = s.logInterval ∧
    (s.moveOn i).handoverLimit = s.handoverLimit ∧ (s.moveOn i).claims = s.claims ∧ (s.moveOn i).offsets = s.offsets ∧
    (s.moveOn i).settings = s.settings ∧ (s.moveOn i).label = s.label ∧ (s.moveOn i).clock = s.clock ∧
    (s.moveOn i).link = s.link ∧ (s.moveOn i).identity = s.identity ∧ (s.moveOn i).free = s.free := by
  unfold State.moveOn
  (repeat' split) <;> simp

@[simp] theorem State.endReadFailed_frame (s : State) (r : ReadInFlight) (o : ReadOutcome) :
    (s.endReadFailed r o).pending = s.pending ∧ (s.endReadFailed r o).power = s.power ∧
    (s.endReadFailed r o).logInterval = s.logInterval ∧ (s.endReadFailed r o).handoverLimit = s.handoverLimit ∧
    (s.endReadFailed r o).claims = s.claims ∧ (s.endReadFailed r o).offsets = s.offsets ∧
    (s.endReadFailed r o).settings = s.settings ∧ (s.endReadFailed r o).label = s.label ∧
    (s.endReadFailed r o).clock = s.clock ∧ (s.endReadFailed r o).link = s.link ∧
    (s.endReadFailed r o).identity = s.identity ∧ (s.endReadFailed r o).free = s.free := by
  unfold State.endReadFailed
  simp [State.updScan]

@[simp] theorem State.endReadValid_frame (s : State) (r : ReadInFlight) (raw : Int) :
    (s.endReadValid r raw).pending = s.pending ∧ (s.endReadValid r raw).power = s.power ∧
    (s.endReadValid r raw).logInterval = s.logInterval ∧ (s.endReadValid r raw).handoverLimit = s.handoverLimit ∧
    (s.endReadValid r raw).claims = s.claims ∧ (s.endReadValid r raw).offsets = s.offsets ∧
    (s.endReadValid r raw).settings = s.settings ∧ (s.endReadValid r raw).label = s.label ∧
    (s.endReadValid r raw).clock = s.clock ∧ (s.endReadValid r raw).link = s.link ∧
    (s.endReadValid r raw).identity = s.identity ∧ (s.endReadValid r raw).free = s.free := by
  unfold State.endReadValid
  simp [State.updScan]

@[simp] theorem State.probeAnswer_frame (s : State) (raw : Int) (checkGood : Bool) :
    (s.probeAnswer raw checkGood).pending = s.pending ∧ (s.probeAnswer raw checkGood).power = s.power ∧
    (s.probeAnswer raw checkGood).logInterval = s.logInterval ∧
    (s.probeAnswer raw checkGood).handoverLimit = s.handoverLimit ∧ (s.probeAnswer raw checkGood).claims = s.claims ∧
    (s.probeAnswer raw checkGood).offsets = s.offsets ∧ (s.probeAnswer raw checkGood).settings = s.settings ∧
    (s.probeAnswer raw checkGood).label = s.label ∧ (s.probeAnswer raw checkGood).clock = s.clock ∧
    (s.probeAnswer raw checkGood).link = s.link ∧ (s.probeAnswer raw checkGood).identity = s.identity ∧
    (s.probeAnswer raw checkGood).free = s.free := by
  unfold State.probeAnswer
  (repeat' split) <;> simp

@[simp] theorem State.answerWindowExpiry_frame (s : State) :
    (s.answerWindowExpiry).pending = s.pending ∧ (s.answerWindowExpiry).power = s.power ∧
    (s.answerWindowExpiry).logInterval = s.logInterval ∧ (s.answerWindowExpiry).handoverLimit = s.handoverLimit ∧
    (s.answerWindowExpiry).claims = s.claims ∧ (s.answerWindowExpiry).offsets = s.offsets ∧
    (s.answerWindowExpiry).settings = s.settings ∧ (s.answerWindowExpiry).label = s.label ∧
    (s.answerWindowExpiry).clock = s.clock ∧ (s.answerWindowExpiry).link = s.link ∧
    (s.answerWindowExpiry).identity = s.identity ∧ (s.answerWindowExpiry).free = s.free := by
  unfold State.answerWindowExpiry
  (repeat' split) <;> simp

@[simp] theorem State.settleExpiry_frame (s : State) :
    (s.settleExpiry).pending = s.pending ∧ (s.settleExpiry).power = s.power ∧ (s.settleExpiry).comps = s.comps ∧
    (s.settleExpiry).logInterval = s.logInterval ∧ (s.settleExpiry).hatch = s.hatch ∧ (s.settleExpiry).log = s.log ∧
    (s.settleExpiry).slots = s.slots ∧ (s.settleExpiry).handoverLimit = s.handoverLimit ∧
    (s.settleExpiry).claims = s.claims ∧ (s.settleExpiry).notices = s.notices ∧ (s.settleExpiry).offsets = s.offsets ∧
    (s.settleExpiry).settings = s.settings ∧ (s.settleExpiry).label = s.label ∧ (s.settleExpiry).clock = s.clock ∧
    (s.settleExpiry).link = s.link ∧ (s.settleExpiry).identity = s.identity ∧ (s.settleExpiry).free = s.free := by
  unfold State.settleExpiry
  (repeat' split) <;> simp [State.updScan]

@[simp] theorem State.takeTick_frame (s : State) :
    (s.takeTick).pending = s.pending ∧ (s.takeTick).power = s.power ∧ (s.takeTick).logInterval = s.logInterval ∧
    (s.takeTick).handoverLimit = s.handoverLimit ∧ (s.takeTick).claims = s.claims ∧ (s.takeTick).offsets = s.offsets ∧
    (s.takeTick).settings = s.settings ∧ (s.takeTick).label = s.label ∧ (s.takeTick).clock = s.clock ∧
    (s.takeTick).link = s.link ∧ (s.takeTick).identity = s.identity ∧ (s.takeTick).free = s.free := by
  unfold State.takeTick
  (repeat' split) <;> simp [State.updScan]

@[simp] theorem State.fallTick_frame (s : State) :
    (s.fallTick).pending = s.pending ∧ (s.fallTick).power = s.power ∧ (s.fallTick).logInterval = s.logInterval ∧
    (s.fallTick).handoverLimit = s.handoverLimit ∧ (s.fallTick).claims = s.claims ∧ (s.fallTick).offsets = s.offsets ∧
    (s.fallTick).settings = s.settings ∧ (s.fallTick).label = s.label ∧ (s.fallTick).clock = s.clock ∧
    (s.fallTick).link = s.link ∧ (s.fallTick).identity = s.identity ∧ (s.fallTick).free = s.free := by
  unfold State.fallTick
  simp [State.updScan]

@[simp] theorem State.scanEntrySet_frame (s : State) (entry address compartment role settleSteps source offset : Byte) :
    (s.scanEntrySet entry address compartment role settleSteps source offset).2.pending = s.pending ∧
    (s.scanEntrySet entry address compartment role settleSteps source offset).2.power = s.power ∧
    (s.scanEntrySet entry address compartment role settleSteps source offset).2.comps = s.comps ∧
    (s.scanEntrySet entry address compartment role settleSteps source offset).2.logInterval = s.logInterval ∧
    (s.scanEntrySet entry address compartment role settleSteps source offset).2.hatch = s.hatch ∧
    (s.scanEntrySet entry address compartment role settleSteps source offset).2.log = s.log ∧
    (s.scanEntrySet entry address compartment role settleSteps source offset).2.slots = s.slots ∧
    (s.scanEntrySet entry address compartment role settleSteps source offset).2.handoverLimit = s.handoverLimit ∧
    (s.scanEntrySet entry address compartment role settleSteps source offset).2.claims = s.claims ∧
    (s.scanEntrySet entry address compartment role settleSteps source offset).2.notices = s.notices ∧
    (s.scanEntrySet entry address compartment role settleSteps source offset).2.offsets = s.offsets ∧
    (s.scanEntrySet entry address compartment role settleSteps source offset).2.settings = s.settings ∧
    (s.scanEntrySet entry address compartment role settleSteps source offset).2.label = s.label ∧
    (s.scanEntrySet entry address compartment role settleSteps source offset).2.clock = s.clock ∧
    (s.scanEntrySet entry address compartment role settleSteps source offset).2.link = s.link ∧
    (s.scanEntrySet entry address compartment role settleSteps source offset).2.identity = s.identity ∧
    (s.scanEntrySet entry address compartment role settleSteps source offset).2.free = s.free := by
  unfold State.scanEntrySet
  (repeat' split) <;> simp [State.refusing, State.updScan]

@[simp] theorem State.scanEntryGet_frame (s : State) (entry : Byte) :
    (s.scanEntryGet entry).2.pending = s.pending ∧ (s.scanEntryGet entry).2.power = s.power ∧
    (s.scanEntryGet entry).2.scan = s.scan ∧ (s.scanEntryGet entry).2.comps = s.comps ∧
    (s.scanEntryGet entry).2.logInterval = s.logInterval ∧ (s.scanEntryGet entry).2.hatch = s.hatch ∧
    (s.scanEntryGet entry).2.log = s.log ∧ (s.scanEntryGet entry).2.slots = s.slots ∧
    (s.scanEntryGet entry).2.handoverLimit = s.handoverLimit ∧ (s.scanEntryGet entry).2.claims = s.claims ∧
    (s.scanEntryGet entry).2.notices = s.notices ∧ (s.scanEntryGet entry).2.offsets = s.offsets ∧
    (s.scanEntryGet entry).2.settings = s.settings ∧ (s.scanEntryGet entry).2.label = s.label ∧
    (s.scanEntryGet entry).2.clock = s.clock ∧ (s.scanEntryGet entry).2.link = s.link ∧
    (s.scanEntryGet entry).2.identity = s.identity ∧ (s.scanEntryGet entry).2.free = s.free := by
  unfold State.scanEntryGet
  (repeat' split) <;> simp [State.refusing]

@[simp] theorem State.scanRangeSet_frame (s : State) (first last : Byte) :
    (s.scanRangeSet first last).2.pending = s.pending ∧ (s.scanRangeSet first last).2.power = s.power ∧
    (s.scanRangeSet first last).2.comps = s.comps ∧ (s.scanRangeSet first last).2.logInterval = s.logInterval ∧
    (s.scanRangeSet first last).2.hatch = s.hatch ∧ (s.scanRangeSet first last).2.log = s.log ∧
    (s.scanRangeSet first last).2.slots = s.slots ∧ (s.scanRangeSet first last).2.handoverLimit = s.handoverLimit ∧
    (s.scanRangeSet first last).2.claims = s.claims ∧ (s.scanRangeSet first last).2.notices = s.notices ∧
    (s.scanRangeSet first last).2.offsets = s.offsets ∧ (s.scanRangeSet first last).2.settings = s.settings ∧
    (s.scanRangeSet first last).2.label = s.label ∧ (s.scanRangeSet first last).2.clock = s.clock ∧
    (s.scanRangeSet first last).2.link = s.link ∧ (s.scanRangeSet first last).2.identity = s.identity ∧
    (s.scanRangeSet first last).2.free = s.free := by
  unfold State.scanRangeSet
  (repeat' split) <;> simp [State.refusing, State.updScan]

@[simp] theorem State.scanConfigSet_frame (s : State) (mode : Byte) (period : Half) (autoStart : Byte) :
    (s.scanConfigSet mode period autoStart).2.pending = s.pending ∧
    (s.scanConfigSet mode period autoStart).2.power = s.power ∧ (s.scanConfigSet mode period autoStart).2.comps = s.comps ∧
    (s.scanConfigSet mode period autoStart).2.logInterval = s.logInterval ∧
    (s.scanConfigSet mode period autoStart).2.hatch = s.hatch ∧ (s.scanConfigSet mode period autoStart).2.log = s.log ∧
    (s.scanConfigSet mode period autoStart).2.slots = s.slots ∧
    (s.scanConfigSet mode period autoStart).2.handoverLimit = s.handoverLimit ∧
    (s.scanConfigSet mode period autoStart).2.claims = s.claims ∧
    (s.scanConfigSet mode period autoStart).2.notices = s.notices ∧
    (s.scanConfigSet mode period autoStart).2.offsets = s.offsets ∧
    (s.scanConfigSet mode period autoStart).2.settings = s.settings ∧
    (s.scanConfigSet mode period autoStart).2.label = s.label ∧ (s.scanConfigSet mode period autoStart).2.clock = s.clock ∧
    (s.scanConfigSet mode period autoStart).2.link = s.link ∧
    (s.scanConfigSet mode period autoStart).2.identity = s.identity ∧
    (s.scanConfigSet mode period autoStart).2.free = s.free := by
  unfold State.scanConfigSet
  (repeat' split) <;> simp [State.refusing, State.updScan]

@[simp] theorem State.scanStart_frame (s : State) :
    (s.scanStart).2.pending = s.pending ∧ (s.scanStart).2.power = s.power ∧ (s.scanStart).2.comps = s.comps ∧
    (s.scanStart).2.logInterval = s.logInterval ∧ (s.scanStart).2.hatch = s.hatch ∧ (s.scanStart).2.log = s.log ∧
    (s.scanStart).2.slots = s.slots ∧ (s.scanStart).2.handoverLimit = s.handoverLimit ∧ (s.scanStart).2.claims = s.claims ∧
    (s.scanStart).2.notices = s.notices ∧ (s.scanStart).2.offsets = s.offsets ∧ (s.scanStart).2.settings = s.settings ∧
    (s.scanStart).2.label = s.label ∧ (s.scanStart).2.clock = s.clock ∧ (s.scanStart).2.link = s.link ∧
    (s.scanStart).2.identity = s.identity ∧ (s.scanStart).2.free = s.free := by
  unfold State.scanStart
  (repeat' split) <;> simp [State.refusing, State.updScan]

@[simp] theorem State.scanHalt_frame (s : State) :
    (s.scanHalt).2.pending = s.pending ∧ (s.scanHalt).2.power = s.power ∧ (s.scanHalt).2.comps = s.comps ∧
    (s.scanHalt).2.logInterval = s.logInterval ∧ (s.scanHalt).2.hatch = s.hatch ∧ (s.scanHalt).2.log = s.log ∧
    (s.scanHalt).2.slots = s.slots ∧ (s.scanHalt).2.handoverLimit = s.handoverLimit ∧ (s.scanHalt).2.claims = s.claims ∧
    (s.scanHalt).2.notices = s.notices ∧ (s.scanHalt).2.offsets = s.offsets ∧ (s.scanHalt).2.settings = s.settings ∧
    (s.scanHalt).2.label = s.label ∧ (s.scanHalt).2.clock = s.clock ∧ (s.scanHalt).2.link = s.link ∧
    (s.scanHalt).2.identity = s.identity ∧ (s.scanHalt).2.free = s.free := by
  unfold State.scanHalt
  (repeat' split) <;> simp [State.updScan]

@[simp] theorem State.scanStop_frame (s : State) :
    (s.scanStop).2.pending = s.pending ∧ (s.scanStop).2.power = s.power ∧ (s.scanStop).2.logInterval = s.logInterval ∧
    (s.scanStop).2.handoverLimit = s.handoverLimit ∧ (s.scanStop).2.claims = s.claims ∧
    (s.scanStop).2.offsets = s.offsets ∧ (s.scanStop).2.settings = s.settings ∧ (s.scanStop).2.label = s.label ∧
    (s.scanStop).2.clock = s.clock ∧ (s.scanStop).2.link = s.link ∧ (s.scanStop).2.identity = s.identity ∧
    (s.scanStop).2.free = s.free := by
  unfold State.scanStop
  (repeat' split) <;> simp [State.updScan]

@[simp] theorem State.scanStatus_frame (s : State) :
    (s.scanStatus).2.pending = s.pending ∧ (s.scanStatus).2.power = s.power ∧ (s.scanStatus).2.comps = s.comps ∧
    (s.scanStatus).2.logInterval = s.logInterval ∧ (s.scanStatus).2.hatch = s.hatch ∧ (s.scanStatus).2.log = s.log ∧
    (s.scanStatus).2.slots = s.slots ∧ (s.scanStatus).2.handoverLimit = s.handoverLimit ∧
    (s.scanStatus).2.claims = s.claims ∧ (s.scanStatus).2.notices = s.notices ∧ (s.scanStatus).2.offsets = s.offsets ∧
    (s.scanStatus).2.settings = s.settings ∧ (s.scanStatus).2.label = s.label ∧ (s.scanStatus).2.clock = s.clock ∧
    (s.scanStatus).2.link = s.link ∧ (s.scanStatus).2.identity = s.identity ∧ (s.scanStatus).2.free = s.free := by
  unfold State.scanStatus
  simp [State.updScan]

@[simp] theorem State.probeStatus_frame (s : State) :
    (s.probeStatus).2.pending = s.pending ∧ (s.probeStatus).2.power = s.power ∧ (s.probeStatus).2.comps = s.comps ∧
    (s.probeStatus).2.logInterval = s.logInterval ∧ (s.probeStatus).2.hatch = s.hatch ∧ (s.probeStatus).2.log = s.log ∧
    (s.probeStatus).2.slots = s.slots ∧ (s.probeStatus).2.handoverLimit = s.handoverLimit ∧
    (s.probeStatus).2.claims = s.claims ∧ (s.probeStatus).2.notices = s.notices ∧ (s.probeStatus).2.offsets = s.offsets ∧
    (s.probeStatus).2.settings = s.settings ∧ (s.probeStatus).2.label = s.label ∧ (s.probeStatus).2.clock = s.clock ∧
    (s.probeStatus).2.link = s.link ∧ (s.probeStatus).2.identity = s.identity ∧ (s.probeStatus).2.free = s.free := by
  unfold State.probeStatus
  simp [State.updScan]

@[simp] theorem State.startOpening_frame (s : State) (c : CompNo) :
    (s.startOpening c).pending = s.pending ∧ (s.startOpening c).power = s.power ∧ (s.startOpening c).scan = s.scan ∧
    (s.startOpening c).comps = s.comps ∧ (s.startOpening c).logInterval = s.logInterval ∧ (s.startOpening c).log = s.log ∧
    (s.startOpening c).handoverLimit = s.handoverLimit ∧ (s.startOpening c).claims = s.claims ∧
    (s.startOpening c).notices = s.notices ∧ (s.startOpening c).offsets = s.offsets ∧
    (s.startOpening c).settings = s.settings ∧ (s.startOpening c).label = s.label ∧ (s.startOpening c).clock = s.clock ∧
    (s.startOpening c).link = s.link ∧ (s.startOpening c).identity = s.identity ∧ (s.startOpening c).free = s.free := by
  unfold State.startOpening
  dsimp only
  (repeat' split) <;> simp

@[simp] theorem State.creditOpenings_frame (s : State) (c : CompNo) :
    (s.creditOpenings c).pending = s.pending ∧ (s.creditOpenings c).power = s.power ∧ (s.creditOpenings c).scan = s.scan ∧
    (s.creditOpenings c).comps = s.comps ∧ (s.creditOpenings c).logInterval = s.logInterval ∧
    (s.creditOpenings c).hatch = s.hatch ∧ (s.creditOpenings c).log = s.log ∧
    (s.creditOpenings c).handoverLimit = s.handoverLimit ∧ (s.creditOpenings c).claims = s.claims ∧
    (s.creditOpenings c).notices = s.notices ∧ (s.creditOpenings c).offsets = s.offsets ∧
    (s.creditOpenings c).settings = s.settings ∧ (s.creditOpenings c).label = s.label ∧
    (s.creditOpenings c).clock = s.clock ∧ (s.creditOpenings c).link = s.link ∧
    (s.creditOpenings c).identity = s.identity ∧ (s.creditOpenings c).free = s.free := by
  unfold State.creditOpenings
  (repeat' split) <;> simp

@[simp] theorem State.endOpening_frame (s : State) (c : CompNo) :
    (s.endOpening c).pending = s.pending ∧ (s.endOpening c).power = s.power ∧ (s.endOpening c).scan = s.scan ∧
    (s.endOpening c).comps = s.comps ∧ (s.endOpening c).logInterval = s.logInterval ∧ (s.endOpening c).log = s.log ∧
    (s.endOpening c).handoverLimit = s.handoverLimit ∧ (s.endOpening c).claims = s.claims ∧
    (s.endOpening c).notices = s.notices ∧ (s.endOpening c).offsets = s.offsets ∧ (s.endOpening c).settings = s.settings ∧
    (s.endOpening c).label = s.label ∧ (s.endOpening c).clock = s.clock ∧ (s.endOpening c).link = s.link ∧
    (s.endOpening c).identity = s.identity ∧ (s.endOpening c).free = s.free := by
  unfold State.endOpening
  simp

@[simp] theorem State.moveOpening_frame (s : State) (c : CompNo) (l : OpeningChange) :
    (s.moveOpening c l).pending = s.pending ∧ (s.moveOpening c l).power = s.power ∧ (s.moveOpening c l).scan = s.scan ∧
    (s.moveOpening c l).comps = s.comps ∧ (s.moveOpening c l).logInterval = s.logInterval ∧
    (s.moveOpening c l).log = s.log ∧ (s.moveOpening c l).handoverLimit = s.handoverLimit ∧
    (s.moveOpening c l).claims = s.claims ∧ (s.moveOpening c l).notices = s.notices ∧
    (s.moveOpening c l).offsets = s.offsets ∧ (s.moveOpening c l).settings = s.settings ∧
    (s.moveOpening c l).label = s.label ∧ (s.moveOpening c l).clock = s.clock ∧ (s.moveOpening c l).link = s.link ∧
    (s.moveOpening c l).identity = s.identity ∧ (s.moveOpening c l).free = s.free := by
  unfold State.moveOpening
  (repeat' split) <;> simp

@[simp] theorem State.raiseTaken_frame (s : State) (i : InputNo) (new : Settled) :
    (s.raiseTaken i new).pending = s.pending ∧ (s.raiseTaken i new).power = s.power ∧ (s.raiseTaken i new).scan = s.scan ∧
    (s.raiseTaken i new).comps = s.comps ∧ (s.raiseTaken i new).logInterval = s.logInterval ∧
    (s.raiseTaken i new).hatch = s.hatch ∧ (s.raiseTaken i new).log = s.log ∧ (s.raiseTaken i new).slots = s.slots ∧
    (s.raiseTaken i new).handoverLimit = s.handoverLimit ∧ (s.raiseTaken i new).claims = s.claims ∧
    (s.raiseTaken i new).offsets = s.offsets ∧ (s.raiseTaken i new).settings = s.settings ∧
    (s.raiseTaken i new).label = s.label ∧ (s.raiseTaken i new).clock = s.clock ∧ (s.raiseTaken i new).link = s.link ∧
    (s.raiseTaken i new).identity = s.identity ∧ (s.raiseTaken i new).free = s.free := by
  unfold State.raiseTaken
  (repeat' split) <;> simp

@[simp] theorem State.evaluateIfMember_frame (s : State) (i : InputNo) :
    (s.evaluateIfMember i).pending = s.pending ∧ (s.evaluateIfMember i).power = s.power ∧
    (s.evaluateIfMember i).scan = s.scan ∧ (s.evaluateIfMember i).comps = s.comps ∧
    (s.evaluateIfMember i).logInterval = s.logInterval ∧ (s.evaluateIfMember i).log = s.log ∧
    (s.evaluateIfMember i).slots = s.slots ∧ (s.evaluateIfMember i).handoverLimit = s.handoverLimit ∧
    (s.evaluateIfMember i).claims = s.claims ∧ (s.evaluateIfMember i).offsets = s.offsets ∧
    (s.evaluateIfMember i).settings = s.settings ∧ (s.evaluateIfMember i).label = s.label ∧
    (s.evaluateIfMember i).clock = s.clock ∧ (s.evaluateIfMember i).link = s.link ∧
    (s.evaluateIfMember i).identity = s.identity ∧ (s.evaluateIfMember i).free = s.free := by
  unfold State.evaluateIfMember
  (repeat' split) <;> simp

@[simp] theorem State.moveOpeningOf_frame (s : State) (i : InputNo) (change : OpeningChange) :
    (s.moveOpeningOf i change).pending = s.pending ∧ (s.moveOpeningOf i change).power = s.power ∧
    (s.moveOpeningOf i change).scan = s.scan ∧ (s.moveOpeningOf i change).comps = s.comps ∧
    (s.moveOpeningOf i change).logInterval = s.logInterval ∧ (s.moveOpeningOf i change).log = s.log ∧
    (s.moveOpeningOf i change).handoverLimit = s.handoverLimit ∧ (s.moveOpeningOf i change).claims = s.claims ∧
    (s.moveOpeningOf i change).notices = s.notices ∧ (s.moveOpeningOf i change).offsets = s.offsets ∧
    (s.moveOpeningOf i change).settings = s.settings ∧ (s.moveOpeningOf i change).label = s.label ∧
    (s.moveOpeningOf i change).clock = s.clock ∧ (s.moveOpeningOf i change).link = s.link ∧
    (s.moveOpeningOf i change).identity = s.identity ∧ (s.moveOpeningOf i change).free = s.free := by
  unfold State.moveOpeningOf
  (repeat' split) <;> simp

@[simp] theorem State.takeChange_frame (s : State) (i : InputNo) (new : Settled) :
    (s.takeChange i new).pending = s.pending ∧ (s.takeChange i new).power = s.power ∧ (s.takeChange i new).scan = s.scan ∧
    (s.takeChange i new).comps = s.comps ∧ (s.takeChange i new).logInterval = s.logInterval ∧
    (s.takeChange i new).handoverLimit = s.handoverLimit ∧ (s.takeChange i new).claims = s.claims ∧
    (s.takeChange i new).offsets = s.offsets ∧ (s.takeChange i new).settings = s.settings ∧
    (s.takeChange i new).label = s.label ∧ (s.takeChange i new).clock = s.clock ∧ (s.takeChange i new).link = s.link ∧
    (s.takeChange i new).identity = s.identity ∧ (s.takeChange i new).free = s.free := by
  unfold State.takeChange
  simp

@[simp] theorem State.openAtStart_frame (s : State) (c : Option CompNo) :
    (s.openAtStart c).pending = s.pending ∧ (s.openAtStart c).power = s.power ∧ (s.openAtStart c).scan = s.scan ∧
    (s.openAtStart c).comps = s.comps ∧ (s.openAtStart c).logInterval = s.logInterval ∧ (s.openAtStart c).log = s.log ∧
    (s.openAtStart c).slots = s.slots ∧ (s.openAtStart c).handoverLimit = s.handoverLimit ∧
    (s.openAtStart c).claims = s.claims ∧ (s.openAtStart c).notices = s.notices ∧ (s.openAtStart c).offsets = s.offsets ∧
    (s.openAtStart c).settings = s.settings ∧ (s.openAtStart c).label = s.label ∧ (s.openAtStart c).clock = s.clock ∧
    (s.openAtStart c).link = s.link ∧ (s.openAtStart c).identity = s.identity ∧ (s.openAtStart c).free = s.free := by
  unfold State.openAtStart
  (repeat' split) <;> simp

@[simp] theorem State.settleFirst_frame (s : State) (i : InputNo) :
    (s.settleFirst i).pending = s.pending ∧ (s.settleFirst i).power = s.power ∧ (s.settleFirst i).scan = s.scan ∧
    (s.settleFirst i).comps = s.comps ∧ (s.settleFirst i).logInterval = s.logInterval ∧ (s.settleFirst i).log = s.log ∧
    (s.settleFirst i).slots = s.slots ∧ (s.settleFirst i).handoverLimit = s.handoverLimit ∧
    (s.settleFirst i).claims = s.claims ∧ (s.settleFirst i).offsets = s.offsets ∧ (s.settleFirst i).settings = s.settings ∧
    (s.settleFirst i).label = s.label ∧ (s.settleFirst i).clock = s.clock ∧ (s.settleFirst i).link = s.link ∧
    (s.settleFirst i).identity = s.identity ∧ (s.settleFirst i).free = s.free := by
  unfold State.settleFirst
  dsimp only
  (repeat' split) <;> simp

@[simp] theorem State.debounceExpiry_frame (s : State) (i : InputNo) :
    (s.debounceExpiry i).pending = s.pending ∧ (s.debounceExpiry i).power = s.power ∧ (s.debounceExpiry i).scan = s.scan ∧
    (s.debounceExpiry i).comps = s.comps ∧ (s.debounceExpiry i).logInterval = s.logInterval ∧
    (s.debounceExpiry i).handoverLimit = s.handoverLimit ∧ (s.debounceExpiry i).claims = s.claims ∧
    (s.debounceExpiry i).offsets = s.offsets ∧ (s.debounceExpiry i).settings = s.settings ∧
    (s.debounceExpiry i).label = s.label ∧ (s.debounceExpiry i).clock = s.clock ∧ (s.debounceExpiry i).link = s.link ∧
    (s.debounceExpiry i).identity = s.identity ∧ (s.debounceExpiry i).free = s.free := by
  unfold State.debounceExpiry
  dsimp only
  (repeat' split) <;> simp

@[simp] theorem State.rawChange_frame (s : State) (i : InputNo) (made : Bool) :
    (s.rawChange i made).pending = s.pending ∧ (s.rawChange i made).power = s.power ∧ (s.rawChange i made).scan = s.scan ∧
    (s.rawChange i made).comps = s.comps ∧ (s.rawChange i made).logInterval = s.logInterval ∧
    (s.rawChange i made).log = s.log ∧ (s.rawChange i made).slots = s.slots ∧
    (s.rawChange i made).handoverLimit = s.handoverLimit ∧ (s.rawChange i made).claims = s.claims ∧
    (s.rawChange i made).notices = s.notices ∧ (s.rawChange i made).offsets = s.offsets ∧
    (s.rawChange i made).settings = s.settings ∧ (s.rawChange i made).label = s.label ∧
    (s.rawChange i made).clock = s.clock ∧ (s.rawChange i made).link = s.link ∧
    (s.rawChange i made).identity = s.identity ∧ (s.rawChange i made).free = s.free := by
  unfold State.rawChange
  simp

@[simp] theorem State.expireLongOpen_frame (s : State) (c : CompNo) :
    (s.expireLongOpen c).pending = s.pending ∧ (s.expireLongOpen c).power = s.power ∧ (s.expireLongOpen c).scan = s.scan ∧
    (s.expireLongOpen c).comps = s.comps ∧ (s.expireLongOpen c).logInterval = s.logInterval ∧
    (s.expireLongOpen c).log = s.log ∧ (s.expireLongOpen c).slots = s.slots ∧
    (s.expireLongOpen c).handoverLimit = s.handoverLimit ∧ (s.expireLongOpen c).claims = s.claims ∧
    (s.expireLongOpen c).offsets = s.offsets ∧ (s.expireLongOpen c).settings = s.settings ∧
    (s.expireLongOpen c).label = s.label ∧ (s.expireLongOpen c).clock = s.clock ∧ (s.expireLongOpen c).link = s.link ∧
    (s.expireLongOpen c).identity = s.identity ∧ (s.expireLongOpen c).free = s.free := by
  unfold State.expireLongOpen
  simp

@[simp] theorem State.applyLongOpenLimit_frame (s : State) (c : CompNo) :
    (s.applyLongOpenLimit c).pending = s.pending ∧ (s.applyLongOpenLimit c).power = s.power ∧
    (s.applyLongOpenLimit c).scan = s.scan ∧ (s.applyLongOpenLimit c).comps = s.comps ∧
    (s.applyLongOpenLimit c).logInterval = s.logInterval ∧ (s.applyLongOpenLimit c).log = s.log ∧
    (s.applyLongOpenLimit c).slots = s.slots ∧ (s.applyLongOpenLimit c).handoverLimit = s.handoverLimit ∧
    (s.applyLongOpenLimit c).claims = s.claims ∧ (s.applyLongOpenLimit c).offsets = s.offsets ∧
    (s.applyLongOpenLimit c).settings = s.settings ∧ (s.applyLongOpenLimit c).label = s.label ∧
    (s.applyLongOpenLimit c).clock = s.clock ∧ (s.applyLongOpenLimit c).link = s.link ∧
    (s.applyLongOpenLimit c).identity = s.identity ∧ (s.applyLongOpenLimit c).free = s.free := by
  unfold State.applyLongOpenLimit
  (repeat' split) <;> simp

@[simp] theorem State.applyInput_frame (s : State) (i : InputNo) (new : InputSettings) :
    (s.applyInput i new).pending = s.pending ∧ (s.applyInput i new).power = s.power ∧ (s.applyInput i new).scan = s.scan ∧
    (s.applyInput i new).comps = s.comps ∧ (s.applyInput i new).logInterval = s.logInterval ∧
    (s.applyInput i new).handoverLimit = s.handoverLimit ∧ (s.applyInput i new).claims = s.claims ∧
    (s.applyInput i new).offsets = s.offsets ∧ (s.applyInput i new).settings = s.settings ∧
    (s.applyInput i new).label = s.label ∧ (s.applyInput i new).clock = s.clock ∧ (s.applyInput i new).link = s.link ∧
    (s.applyInput i new).identity = s.identity ∧ (s.applyInput i new).free = s.free := by
  unfold State.applyInput
  dsimp only
  (repeat' split) <;> simp

@[simp] theorem State.hatchInputSet_frame (s : State) (input compartment sense watch member : Byte) :
    (s.hatchInputSet input compartment sense watch member).2.pending = s.pending ∧
    (s.hatchInputSet input compartment sense watch member).2.power = s.power ∧
    (s.hatchInputSet input compartment sense watch member).2.scan = s.scan ∧
    (s.hatchInputSet input compartment sense watch member).2.comps = s.comps ∧
    (s.hatchInputSet input compartment sense watch member).2.logInterval = s.logInterval ∧
    (s.hatchInputSet input compartment sense watch member).2.handoverLimit = s.handoverLimit ∧
    (s.hatchInputSet input compartment sense watch member).2.claims = s.claims ∧
    (s.hatchInputSet input compartment sense watch member).2.offsets = s.offsets ∧
    (s.hatchInputSet input compartment sense watch member).2.settings = s.settings ∧
    (s.hatchInputSet input compartment sense watch member).2.label = s.label ∧
    (s.hatchInputSet input compartment sense watch member).2.clock = s.clock ∧
    (s.hatchInputSet input compartment sense watch member).2.link = s.link ∧
    (s.hatchInputSet input compartment sense watch member).2.identity = s.identity ∧
    (s.hatchInputSet input compartment sense watch member).2.free = s.free := by
  unfold State.hatchInputSet
  dsimp only
  (repeat' split) <;> simp [State.refusing]

@[simp] theorem State.applyHatchConfig_frame (s : State) (steps : Nat) (band : Bool) :
    (s.applyHatchConfig steps band).pending = s.pending ∧ (s.applyHatchConfig steps band).power = s.power ∧
    (s.applyHatchConfig steps band).scan = s.scan ∧ (s.applyHatchConfig steps band).comps = s.comps ∧
    (s.applyHatchConfig steps band).logInterval = s.logInterval ∧
    (s.applyHatchConfig steps band).handoverLimit = s.handoverLimit ∧ (s.applyHatchConfig steps band).claims = s.claims ∧
    (s.applyHatchConfig steps band).offsets = s.offsets ∧ (s.applyHatchConfig steps band).settings = s.settings ∧
    (s.applyHatchConfig steps band).label = s.label ∧ (s.applyHatchConfig steps band).clock = s.clock ∧
    (s.applyHatchConfig steps band).link = s.link ∧ (s.applyHatchConfig steps band).identity = s.identity ∧
    (s.applyHatchConfig steps band).free = s.free := by
  unfold State.applyHatchConfig
  dsimp only
  (repeat' split) <;> simp

@[simp] theorem State.hatchConfigSet_frame (s : State) (steps bandRequired : Byte) :
    (s.hatchConfigSet steps bandRequired).2.pending = s.pending ∧ (s.hatchConfigSet steps bandRequired).2.power = s.power ∧
    (s.hatchConfigSet steps bandRequired).2.scan = s.scan ∧ (s.hatchConfigSet steps bandRequired).2.comps = s.comps ∧
    (s.hatchConfigSet steps bandRequired).2.logInterval = s.logInterval ∧
    (s.hatchConfigSet steps bandRequired).2.handoverLimit = s.handoverLimit ∧
    (s.hatchConfigSet steps bandRequired).2.claims = s.claims ∧
    (s.hatchConfigSet steps bandRequired).2.offsets = s.offsets ∧
    (s.hatchConfigSet steps bandRequired).2.settings = s.settings ∧
    (s.hatchConfigSet steps bandRequired).2.label = s.label ∧ (s.hatchConfigSet steps bandRequired).2.clock = s.clock ∧
    (s.hatchConfigSet steps bandRequired).2.link = s.link ∧ (s.hatchConfigSet steps bandRequired).2.identity = s.identity ∧
    (s.hatchConfigSet steps bandRequired).2.free = s.free := by
  unfold State.hatchConfigSet
  (repeat' split) <;> simp [State.refusing]

@[simp] theorem State.hatchStatus_frame (s : State) :
    (s.hatchStatus).2.pending = s.pending ∧ (s.hatchStatus).2.power = s.power ∧ (s.hatchStatus).2.scan = s.scan ∧
    (s.hatchStatus).2.comps = s.comps ∧ (s.hatchStatus).2.logInterval = s.logInterval ∧ (s.hatchStatus).2.log = s.log ∧
    (s.hatchStatus).2.slots = s.slots ∧ (s.hatchStatus).2.handoverLimit = s.handoverLimit ∧
    (s.hatchStatus).2.claims = s.claims ∧ (s.hatchStatus).2.notices = s.notices ∧ (s.hatchStatus).2.offsets = s.offsets ∧
    (s.hatchStatus).2.settings = s.settings ∧ (s.hatchStatus).2.label = s.label ∧ (s.hatchStatus).2.clock = s.clock ∧
    (s.hatchStatus).2.link = s.link ∧ (s.hatchStatus).2.identity = s.identity ∧ (s.hatchStatus).2.free = s.free := by
  unfold State.hatchStatus
  simp

end Sys2Proof.Machine
end

