-- ==== Sys2Proof/Laws/FramesCustody.lean ====
section
/-! SUPPORT. Frames: what each operation over custody, handover and claims leaves as it was, one lemma for each
operation. -/

namespace Sys2Proof.Machine

@[simp] theorem State.custodyLimit_frame (s : State) (i : SlotNo) :
    (s.custodyLimit i).pending = s.pending ∧ (s.custodyLimit i).power = s.power ∧ (s.custodyLimit i).scan = s.scan ∧
    (s.custodyLimit i).comps = s.comps ∧ (s.custodyLimit i).logInterval = s.logInterval ∧
    (s.custodyLimit i).hatch = s.hatch ∧ (s.custodyLimit i).log = s.log ∧
    (s.custodyLimit i).handoverLimit = s.handoverLimit ∧ (s.custodyLimit i).claims = s.claims ∧
    (s.custodyLimit i).offsets = s.offsets ∧ (s.custodyLimit i).settings = s.settings ∧
    (s.custodyLimit i).label = s.label ∧ (s.custodyLimit i).clock = s.clock ∧ (s.custodyLimit i).link = s.link ∧
    (s.custodyLimit i).identity = s.identity ∧ (s.custodyLimit i).free = s.free := by
  unfold State.custodyLimit
  (repeat' split) <;> simp

@[simp] theorem State.acceptCustody_frame (s : State) (i : SlotNo) (identifier : Word) (c : CompNo) (limit cycleLimit : Nat) (k : Carried) :
    (s.acceptCustody i identifier c limit cycleLimit k).pending = s.pending ∧
    (s.acceptCustody i identifier c limit cycleLimit k).power = s.power ∧
    (s.acceptCustody i identifier c limit cycleLimit k).scan = s.scan ∧
    (s.acceptCustody i identifier c limit cycleLimit k).logInterval = s.logInterval ∧
    (s.acceptCustody i identifier c limit cycleLimit k).handoverLimit = s.handoverLimit ∧
    (s.acceptCustody i identifier c limit cycleLimit k).claims = s.claims ∧
    (s.acceptCustody i identifier c limit cycleLimit k).offsets = s.offsets ∧
    (s.acceptCustody i identifier c limit cycleLimit k).settings = s.settings ∧
    (s.acceptCustody i identifier c limit cycleLimit k).label = s.label ∧
    (s.acceptCustody i identifier c limit cycleLimit k).clock = s.clock ∧
    (s.acceptCustody i identifier c limit cycleLimit k).link = s.link ∧
    (s.acceptCustody i identifier c limit cycleLimit k).identity = s.identity ∧
    (s.acceptCustody i identifier c limit cycleLimit k).free = s.free := by
  unfold State.acceptCustody
  simp

@[simp] theorem State.custodyIn_frame (s : State) (identifier : Word) (compartment : Byte) (limit : Word) (cycleLimit : Byte) (u : Upstream) :
    (s.custodyIn identifier compartment limit cycleLimit u).2.pending = s.pending ∧
    (s.custodyIn identifier compartment limit cycleLimit u).2.power = s.power ∧
    (s.custodyIn identifier compartment limit cycleLimit u).2.scan = s.scan ∧
    (s.custodyIn identifier compartment limit cycleLimit u).2.logInterval = s.logInterval ∧
    (s.custodyIn identifier compartment limit cycleLimit u).2.handoverLimit = s.handoverLimit ∧
    (s.custodyIn identifier compartment limit cycleLimit u).2.claims = s.claims ∧
    (s.custodyIn identifier compartment limit cycleLimit u).2.offsets = s.offsets ∧
    (s.custodyIn identifier compartment limit cycleLimit u).2.settings = s.settings ∧
    (s.custodyIn identifier compartment limit cycleLimit u).2.label = s.label ∧
    (s.custodyIn identifier compartment limit cycleLimit u).2.clock = s.clock ∧
    (s.custodyIn identifier compartment limit cycleLimit u).2.link = s.link ∧
    (s.custodyIn identifier compartment limit cycleLimit u).2.identity = s.identity ∧
    (s.custodyIn identifier compartment limit cycleLimit u).2.free = s.free := by
  unfold State.custodyIn
  dsimp only
  (repeat' split) <;> simp [State.refusing]

@[simp] theorem State.consignmentGet_frame (s : State) (identifier : Word) :
    (s.consignmentGet identifier).2.pending = s.pending ∧ (s.consignmentGet identifier).2.power = s.power ∧
    (s.consignmentGet identifier).2.scan = s.scan ∧ (s.consignmentGet identifier).2.comps = s.comps ∧
    (s.consignmentGet identifier).2.logInterval = s.logInterval ∧ (s.consignmentGet identifier).2.hatch = s.hatch ∧
    (s.consignmentGet identifier).2.log = s.log ∧ (s.consignmentGet identifier).2.slots = s.slots ∧
    (s.consignmentGet identifier).2.handoverLimit = s.handoverLimit ∧ (s.consignmentGet identifier).2.claims = s.claims ∧
    (s.consignmentGet identifier).2.notices = s.notices ∧ (s.consignmentGet identifier).2.offsets = s.offsets ∧
    (s.consignmentGet identifier).2.settings = s.settings ∧ (s.consignmentGet identifier).2.label = s.label ∧
    (s.consignmentGet identifier).2.clock = s.clock ∧ (s.consignmentGet identifier).2.link = s.link ∧
    (s.consignmentGet identifier).2.identity = s.identity ∧ (s.consignmentGet identifier).2.free = s.free := by
  unfold State.consignmentGet
  (repeat' split) <;> simp [State.refusing]

@[simp] theorem State.consignmentList_frame (s : State) (index : Word) :
    (s.consignmentList index).2.pending = s.pending ∧ (s.consignmentList index).2.power = s.power ∧
    (s.consignmentList index).2.scan = s.scan ∧ (s.consignmentList index).2.comps = s.comps ∧
    (s.consignmentList index).2.logInterval = s.logInterval ∧ (s.consignmentList index).2.hatch = s.hatch ∧
    (s.consignmentList index).2.log = s.log ∧ (s.consignmentList index).2.slots = s.slots ∧
    (s.consignmentList index).2.handoverLimit = s.handoverLimit ∧ (s.consignmentList index).2.claims = s.claims ∧
    (s.consignmentList index).2.notices = s.notices ∧ (s.consignmentList index).2.offsets = s.offsets ∧
    (s.consignmentList index).2.settings = s.settings ∧ (s.consignmentList index).2.label = s.label ∧
    (s.consignmentList index).2.clock = s.clock ∧ (s.consignmentList index).2.link = s.link ∧
    (s.consignmentList index).2.identity = s.identity ∧ (s.consignmentList index).2.free = s.free := by
  unfold State.consignmentList
  simp

@[simp] theorem State.release_frame (s : State) (identifier : Word) :
    (s.release identifier).2.pending = s.pending ∧ (s.release identifier).2.power = s.power ∧
    (s.release identifier).2.scan = s.scan ∧ (s.release identifier).2.comps = s.comps ∧
    (s.release identifier).2.logInterval = s.logInterval ∧ (s.release identifier).2.hatch = s.hatch ∧
    (s.release identifier).2.log = s.log ∧ (s.release identifier).2.handoverLimit = s.handoverLimit ∧
    (s.release identifier).2.claims = s.claims ∧ (s.release identifier).2.notices = s.notices ∧
    (s.release identifier).2.offsets = s.offsets ∧ (s.release identifier).2.settings = s.settings ∧
    (s.release identifier).2.label = s.label ∧ (s.release identifier).2.clock = s.clock ∧
    (s.release identifier).2.link = s.link ∧ (s.release identifier).2.identity = s.identity ∧
    (s.release identifier).2.free = s.free := by
  unfold State.release
  (repeat' split) <;> simp [State.refusing]

@[simp] theorem State.creditHeld_frame (s : State) (c : CompNo) :
    (s.creditHeld c).pending = s.pending ∧ (s.creditHeld c).power = s.power ∧ (s.creditHeld c).scan = s.scan ∧
    (s.creditHeld c).comps = s.comps ∧ (s.creditHeld c).logInterval = s.logInterval ∧ (s.creditHeld c).hatch = s.hatch ∧
    (s.creditHeld c).log = s.log ∧ (s.creditHeld c).handoverLimit = s.handoverLimit ∧ (s.creditHeld c).claims = s.claims ∧
    (s.creditHeld c).notices = s.notices ∧ (s.creditHeld c).offsets = s.offsets ∧ (s.creditHeld c).settings = s.settings ∧
    (s.creditHeld c).label = s.label ∧ (s.creditHeld c).clock = s.clock ∧ (s.creditHeld c).link = s.link ∧
    (s.creditHeld c).identity = s.identity ∧ (s.creditHeld c).free = s.free := by
  unfold State.creditHeld
  (repeat' split) <;> simp

@[simp] theorem State.enableComp_frame (s : State) (c : CompNo) :
    (s.enableComp c).pending = s.pending ∧ (s.enableComp c).power = s.power ∧ (s.enableComp c).scan = s.scan ∧
    (s.enableComp c).logInterval = s.logInterval ∧ (s.enableComp c).hatch = s.hatch ∧ (s.enableComp c).log = s.log ∧
    (s.enableComp c).handoverLimit = s.handoverLimit ∧ (s.enableComp c).claims = s.claims ∧
    (s.enableComp c).notices = s.notices ∧ (s.enableComp c).offsets = s.offsets ∧ (s.enableComp c).settings = s.settings ∧
    (s.enableComp c).label = s.label ∧ (s.enableComp c).clock = s.clock ∧ (s.enableComp c).link = s.link ∧
    (s.enableComp c).identity = s.identity ∧ (s.enableComp c).free = s.free := by
  unfold State.enableComp
  simp

@[simp] theorem State.disableComp_frame (s : State) (c : CompNo) :
    (s.disableComp c).pending = s.pending ∧ (s.disableComp c).power = s.power ∧ (s.disableComp c).scan = s.scan ∧
    (s.disableComp c).logInterval = s.logInterval ∧ (s.disableComp c).handoverLimit = s.handoverLimit ∧
    (s.disableComp c).claims = s.claims ∧ (s.disableComp c).offsets = s.offsets ∧ (s.disableComp c).settings = s.settings ∧
    (s.disableComp c).label = s.label ∧ (s.disableComp c).clock = s.clock ∧ (s.disableComp c).link = s.link ∧
    (s.disableComp c).identity = s.identity ∧ (s.disableComp c).free = s.free := by
  unfold State.disableComp
  dsimp only
  (repeat' split) <;> simp

@[simp] theorem State.applyComp_frame (s : State) (c : CompNo) (new : CompSettings) :
    (s.applyComp c new).pending = s.pending ∧ (s.applyComp c new).power = s.power ∧ (s.applyComp c new).scan = s.scan ∧
    (s.applyComp c new).logInterval = s.logInterval ∧ (s.applyComp c new).handoverLimit = s.handoverLimit ∧
    (s.applyComp c new).claims = s.claims ∧ (s.applyComp c new).offsets = s.offsets ∧
    (s.applyComp c new).settings = s.settings ∧ (s.applyComp c new).label = s.label ∧ (s.applyComp c new).clock = s.clock ∧
    (s.applyComp c new).link = s.link ∧ (s.applyComp c new).identity = s.identity ∧ (s.applyComp c new).free = s.free := by
  unfold State.applyComp
  dsimp only
  (repeat' split) <;> simp

@[simp] theorem State.compartmentSet_frame (s : State) (compartment enabled : Byte) (threshold softLine longOpenLimit : Half) :
    (s.compartmentSet compartment enabled threshold softLine longOpenLimit).2.pending = s.pending ∧
    (s.compartmentSet compartment enabled threshold softLine longOpenLimit).2.power = s.power ∧
    (s.compartmentSet compartment enabled threshold softLine longOpenLimit).2.scan = s.scan ∧
    (s.compartmentSet compartment enabled threshold softLine longOpenLimit).2.logInterval = s.logInterval ∧
    (s.compartmentSet compartment enabled threshold softLine longOpenLimit).2.handoverLimit = s.handoverLimit ∧
    (s.compartmentSet compartment enabled threshold softLine longOpenLimit).2.claims = s.claims ∧
    (s.compartmentSet compartment enabled threshold softLine longOpenLimit).2.offsets = s.offsets ∧
    (s.compartmentSet compartment enabled threshold softLine longOpenLimit).2.settings = s.settings ∧
    (s.compartmentSet compartment enabled threshold softLine longOpenLimit).2.label = s.label ∧
    (s.compartmentSet compartment enabled threshold softLine longOpenLimit).2.clock = s.clock ∧
    (s.compartmentSet compartment enabled threshold softLine longOpenLimit).2.link = s.link ∧
    (s.compartmentSet compartment enabled threshold softLine longOpenLimit).2.identity = s.identity ∧
    (s.compartmentSet compartment enabled threshold softLine longOpenLimit).2.free = s.free := by
  unfold State.compartmentSet
  dsimp only
  (repeat' split) <;> simp [State.refusing]

@[simp] theorem State.compartmentGet_frame (s : State) (compartment : Byte) :
    (s.compartmentGet compartment).2.pending = s.pending ∧ (s.compartmentGet compartment).2.power = s.power ∧
    (s.compartmentGet compartment).2.scan = s.scan ∧ (s.compartmentGet compartment).2.comps = s.comps ∧
    (s.compartmentGet compartment).2.logInterval = s.logInterval ∧ (s.compartmentGet compartment).2.hatch = s.hatch ∧
    (s.compartmentGet compartment).2.log = s.log ∧ (s.compartmentGet compartment).2.slots = s.slots ∧
    (s.compartmentGet compartment).2.handoverLimit = s.handoverLimit ∧ (s.compartmentGet compartment).2.claims = s.claims ∧
    (s.compartmentGet compartment).2.notices = s.notices ∧ (s.compartmentGet compartment).2.offsets = s.offsets ∧
    (s.compartmentGet compartment).2.settings = s.settings ∧ (s.compartmentGet compartment).2.label = s.label ∧
    (s.compartmentGet compartment).2.clock = s.clock ∧ (s.compartmentGet compartment).2.link = s.link ∧
    (s.compartmentGet compartment).2.identity = s.identity ∧ (s.compartmentGet compartment).2.free = s.free := by
  unfold State.compartmentGet
  (repeat' split) <;> simp [State.refusing]

@[simp] theorem State.logIntervalSet_frame (s : State) (interval : Byte) :
    (s.logIntervalSet interval).2.pending = s.pending ∧ (s.logIntervalSet interval).2.power = s.power ∧
    (s.logIntervalSet interval).2.scan = s.scan ∧ (s.logIntervalSet interval).2.comps = s.comps ∧
    (s.logIntervalSet interval).2.hatch = s.hatch ∧ (s.logIntervalSet interval).2.handoverLimit = s.handoverLimit ∧
    (s.logIntervalSet interval).2.claims = s.claims ∧ (s.logIntervalSet interval).2.offsets = s.offsets ∧
    (s.logIntervalSet interval).2.settings = s.settings ∧ (s.logIntervalSet interval).2.label = s.label ∧
    (s.logIntervalSet interval).2.clock = s.clock ∧ (s.logIntervalSet interval).2.link = s.link ∧
    (s.logIntervalSet interval).2.identity = s.identity ∧ (s.logIntervalSet interval).2.free = s.free := by
  unfold State.logIntervalSet
  dsimp only
  (repeat' split) <;> simp

@[simp] theorem State.abandon_frame (s : State) (i : SlotNo) (r : AbandonReason) (t : Stamp) :
    (s.abandon i r t).pending = s.pending ∧ (s.abandon i r t).power = s.power ∧ (s.abandon i r t).scan = s.scan ∧
    (s.abandon i r t).comps = s.comps ∧ (s.abandon i r t).logInterval = s.logInterval ∧ (s.abandon i r t).hatch = s.hatch ∧
    (s.abandon i r t).handoverLimit = s.handoverLimit ∧ (s.abandon i r t).claims = s.claims ∧
    (s.abandon i r t).offsets = s.offsets ∧ (s.abandon i r t).settings = s.settings ∧ (s.abandon i r t).label = s.label ∧
    (s.abandon i r t).clock = s.clock ∧ (s.abandon i r t).link = s.link ∧ (s.abandon i r t).identity = s.identity ∧
    (s.abandon i r t).free = s.free := by
  unfold State.abandon
  simp

@[simp] theorem State.lapse_frame (s : State) (i : SlotNo) :
    (s.lapse i).pending = s.pending ∧ (s.lapse i).power = s.power ∧ (s.lapse i).scan = s.scan ∧
    (s.lapse i).comps = s.comps ∧ (s.lapse i).logInterval = s.logInterval ∧ (s.lapse i).hatch = s.hatch ∧
    (s.lapse i).handoverLimit = s.handoverLimit ∧ (s.lapse i).claims = s.claims ∧ (s.lapse i).offsets = s.offsets ∧
    (s.lapse i).settings = s.settings ∧ (s.lapse i).label = s.label ∧ (s.lapse i).clock = s.clock ∧
    (s.lapse i).link = s.link ∧ (s.lapse i).identity = s.identity ∧ (s.lapse i).free = s.free := by
  unfold State.lapse
  simp

@[simp] theorem State.lapseAll_frame (s : State) (l : List SlotNo) :
    (s.lapseAll l).pending = s.pending ∧ (s.lapseAll l).power = s.power ∧ (s.lapseAll l).scan = s.scan ∧
    (s.lapseAll l).comps = s.comps ∧ (s.lapseAll l).logInterval = s.logInterval ∧ (s.lapseAll l).hatch = s.hatch ∧
    (s.lapseAll l).handoverLimit = s.handoverLimit ∧ (s.lapseAll l).claims = s.claims ∧
    (s.lapseAll l).offsets = s.offsets ∧ (s.lapseAll l).settings = s.settings ∧ (s.lapseAll l).label = s.label ∧
    (s.lapseAll l).clock = s.clock ∧ (s.lapseAll l).link = s.link ∧ (s.lapseAll l).identity = s.identity ∧
    (s.lapseAll l).free = s.free := by
  induction l generalizing s <;> simp only [State.lapseAll, *] <;> (try (repeat' split)) <;> simp [*]

@[simp] theorem State.handoverLimitSet_frame (s : State) (limit : Half) :
    (s.handoverLimitSet limit).2.pending = s.pending ∧ (s.handoverLimitSet limit).2.power = s.power ∧
    (s.handoverLimitSet limit).2.scan = s.scan ∧ (s.handoverLimitSet limit).2.comps = s.comps ∧
    (s.handoverLimitSet limit).2.logInterval = s.logInterval ∧ (s.handoverLimitSet limit).2.hatch = s.hatch ∧
    (s.handoverLimitSet limit).2.claims = s.claims ∧ (s.handoverLimitSet limit).2.offsets = s.offsets ∧
    (s.handoverLimitSet limit).2.settings = s.settings ∧ (s.handoverLimitSet limit).2.label = s.label ∧
    (s.handoverLimitSet limit).2.clock = s.clock ∧ (s.handoverLimitSet limit).2.link = s.link ∧
    (s.handoverLimitSet limit).2.identity = s.identity ∧ (s.handoverLimitSet limit).2.free = s.free := by
  unfold State.handoverLimitSet
  dsimp only
  (repeat' split) <;> simp

@[simp] theorem State.acceptBegin_frame (s : State) (i : SlotNo) :
    (s.acceptBegin i).pending = s.pending ∧ (s.acceptBegin i).power = s.power ∧ (s.acceptBegin i).scan = s.scan ∧
    (s.acceptBegin i).comps = s.comps ∧ (s.acceptBegin i).logInterval = s.logInterval ∧ (s.acceptBegin i).hatch = s.hatch ∧
    (s.acceptBegin i).handoverLimit = s.handoverLimit ∧ (s.acceptBegin i).claims = s.claims ∧
    (s.acceptBegin i).offsets = s.offsets ∧ (s.acceptBegin i).settings = s.settings ∧ (s.acceptBegin i).label = s.label ∧
    (s.acceptBegin i).clock = s.clock ∧ (s.acceptBegin i).link = s.link ∧ (s.acceptBegin i).identity = s.identity ∧
    (s.acceptBegin i).free = s.free := by
  unfold State.acceptBegin
  simp

@[simp] theorem State.handoverBegin_frame (s : State) (identifier : Word) :
    (s.handoverBegin identifier).2.pending = s.pending ∧ (s.handoverBegin identifier).2.power = s.power ∧
    (s.handoverBegin identifier).2.scan = s.scan ∧ (s.handoverBegin identifier).2.comps = s.comps ∧
    (s.handoverBegin identifier).2.logInterval = s.logInterval ∧ (s.handoverBegin identifier).2.hatch = s.hatch ∧
    (s.handoverBegin identifier).2.handoverLimit = s.handoverLimit ∧ (s.handoverBegin identifier).2.claims = s.claims ∧
    (s.handoverBegin identifier).2.offsets = s.offsets ∧ (s.handoverBegin identifier).2.settings = s.settings ∧
    (s.handoverBegin identifier).2.label = s.label ∧ (s.handoverBegin identifier).2.clock = s.clock ∧
    (s.handoverBegin identifier).2.link = s.link ∧ (s.handoverBegin identifier).2.identity = s.identity ∧
    (s.handoverBegin identifier).2.free = s.free := by
  unfold State.handoverBegin
  (repeat' split) <;> simp [State.refusing]

@[simp] theorem State.acceptRefused_frame (s : State) (i : SlotNo) :
    (s.acceptRefused i).pending = s.pending ∧ (s.acceptRefused i).power = s.power ∧ (s.acceptRefused i).scan = s.scan ∧
    (s.acceptRefused i).comps = s.comps ∧ (s.acceptRefused i).logInterval = s.logInterval ∧
    (s.acceptRefused i).hatch = s.hatch ∧ (s.acceptRefused i).handoverLimit = s.handoverLimit ∧
    (s.acceptRefused i).claims = s.claims ∧ (s.acceptRefused i).offsets = s.offsets ∧
    (s.acceptRefused i).settings = s.settings ∧ (s.acceptRefused i).label = s.label ∧ (s.acceptRefused i).clock = s.clock ∧
    (s.acceptRefused i).link = s.link ∧ (s.acceptRefused i).identity = s.identity ∧ (s.acceptRefused i).free = s.free := by
  unfold State.acceptRefused
  simp

@[simp] theorem State.creditEnding_frame (s : State) (i : SlotNo) :
    (s.creditEnding i).pending = s.pending ∧ (s.creditEnding i).power = s.power ∧ (s.creditEnding i).scan = s.scan ∧
    (s.creditEnding i).comps = s.comps ∧ (s.creditEnding i).logInterval = s.logInterval ∧
    (s.creditEnding i).hatch = s.hatch ∧ (s.creditEnding i).log = s.log ∧
    (s.creditEnding i).handoverLimit = s.handoverLimit ∧ (s.creditEnding i).claims = s.claims ∧
    (s.creditEnding i).notices = s.notices ∧ (s.creditEnding i).offsets = s.offsets ∧
    (s.creditEnding i).settings = s.settings ∧ (s.creditEnding i).label = s.label ∧ (s.creditEnding i).clock = s.clock ∧
    (s.creditEnding i).link = s.link ∧ (s.creditEnding i).identity = s.identity ∧ (s.creditEnding i).free = s.free := by
  unfold State.creditEnding
  dsimp only
  (repeat' split) <;> simp

@[simp] theorem State.setOut_frame (s : State) (i : SlotNo) (o : Outcome) (receipt : Word) :
    (s.setOut i o receipt).pending = s.pending ∧ (s.setOut i o receipt).power = s.power ∧
    (s.setOut i o receipt).scan = s.scan ∧ (s.setOut i o receipt).comps = s.comps ∧
    (s.setOut i o receipt).logInterval = s.logInterval ∧ (s.setOut i o receipt).hatch = s.hatch ∧
    (s.setOut i o receipt).log = s.log ∧ (s.setOut i o receipt).handoverLimit = s.handoverLimit ∧
    (s.setOut i o receipt).claims = s.claims ∧ (s.setOut i o receipt).notices = s.notices ∧
    (s.setOut i o receipt).offsets = s.offsets ∧ (s.setOut i o receipt).settings = s.settings ∧
    (s.setOut i o receipt).label = s.label ∧ (s.setOut i o receipt).clock = s.clock ∧
    (s.setOut i o receipt).link = s.link ∧ (s.setOut i o receipt).identity = s.identity ∧
    (s.setOut i o receipt).free = s.free := by
  unfold State.setOut
  simp

@[simp] theorem State.composeProof_frame (s : State) (i : SlotNo) :
    (s.composeProof i).pending = s.pending ∧ (s.composeProof i).power = s.power ∧ (s.composeProof i).scan = s.scan ∧
    (s.composeProof i).comps = s.comps ∧ (s.composeProof i).logInterval = s.logInterval ∧
    (s.composeProof i).hatch = s.hatch ∧ (s.composeProof i).log = s.log ∧
    (s.composeProof i).handoverLimit = s.handoverLimit ∧ (s.composeProof i).claims = s.claims ∧
    (s.composeProof i).notices = s.notices ∧ (s.composeProof i).offsets = s.offsets ∧
    (s.composeProof i).settings = s.settings ∧ (s.composeProof i).label = s.label ∧ (s.composeProof i).clock = s.clock ∧
    (s.composeProof i).link = s.link ∧ (s.composeProof i).identity = s.identity ∧ (s.composeProof i).free = s.free := by
  unfold State.composeProof
  (repeat' split) <;> simp

@[simp] theorem State.closeAccount_frame (s : State) (i : SlotNo) :
    (s.closeAccount i).pending = s.pending ∧ (s.closeAccount i).power = s.power ∧ (s.closeAccount i).scan = s.scan ∧
    (s.closeAccount i).logInterval = s.logInterval ∧ (s.closeAccount i).handoverLimit = s.handoverLimit ∧
    (s.closeAccount i).claims = s.claims ∧ (s.closeAccount i).offsets = s.offsets ∧
    (s.closeAccount i).settings = s.settings ∧ (s.closeAccount i).label = s.label ∧ (s.closeAccount i).clock = s.clock ∧
    (s.closeAccount i).link = s.link ∧ (s.closeAccount i).identity = s.identity ∧ (s.closeAccount i).free = s.free := by
  unfold State.closeAccount
  dsimp only
  (repeat' split) <;> simp

@[simp] theorem State.acceptEnd_frame (s : State) (i : SlotNo) (o : Outcome) (receipt : Word) :
    (s.acceptEnd i o receipt).pending = s.pending ∧ (s.acceptEnd i o receipt).power = s.power ∧
    (s.acceptEnd i o receipt).scan = s.scan ∧ (s.acceptEnd i o receipt).logInterval = s.logInterval ∧
    (s.acceptEnd i o receipt).handoverLimit = s.handoverLimit ∧ (s.acceptEnd i o receipt).claims = s.claims ∧
    (s.acceptEnd i o receipt).offsets = s.offsets ∧ (s.acceptEnd i o receipt).settings = s.settings ∧
    (s.acceptEnd i o receipt).label = s.label ∧ (s.acceptEnd i o receipt).clock = s.clock ∧
    (s.acceptEnd i o receipt).link = s.link ∧ (s.acceptEnd i o receipt).identity = s.identity ∧
    (s.acceptEnd i o receipt).free = s.free := by
  unfold State.acceptEnd
  simp

@[simp] theorem State.handoverEnd_frame (s : State) (identifier : Word) (outcome : Byte) (receipt : Word) :
    (s.handoverEnd identifier outcome receipt).2.pending = s.pending ∧
    (s.handoverEnd identifier outcome receipt).2.power = s.power ∧
    (s.handoverEnd identifier outcome receipt).2.scan = s.scan ∧
    (s.handoverEnd identifier outcome receipt).2.logInterval = s.logInterval ∧
    (s.handoverEnd identifier outcome receipt).2.handoverLimit = s.handoverLimit ∧
    (s.handoverEnd identifier outcome receipt).2.claims = s.claims ∧
    (s.handoverEnd identifier outcome receipt).2.offsets = s.offsets ∧
    (s.handoverEnd identifier outcome receipt).2.settings = s.settings ∧
    (s.handoverEnd identifier outcome receipt).2.label = s.label ∧
    (s.handoverEnd identifier outcome receipt).2.clock = s.clock ∧
    (s.handoverEnd identifier outcome receipt).2.link = s.link ∧
    (s.handoverEnd identifier outcome receipt).2.identity = s.identity ∧
    (s.handoverEnd identifier outcome receipt).2.free = s.free := by
  unfold State.handoverEnd
  dsimp only
  (repeat' split) <;> simp [State.refusing]

@[simp] theorem State.proofFetch_frame (s : State) (identifier : Word) :
    (s.proofFetch identifier).2.pending = s.pending ∧ (s.proofFetch identifier).2.power = s.power ∧
    (s.proofFetch identifier).2.scan = s.scan ∧ (s.proofFetch identifier).2.comps = s.comps ∧
    (s.proofFetch identifier).2.logInterval = s.logInterval ∧ (s.proofFetch identifier).2.hatch = s.hatch ∧
    (s.proofFetch identifier).2.log = s.log ∧ (s.proofFetch identifier).2.slots = s.slots ∧
    (s.proofFetch identifier).2.handoverLimit = s.handoverLimit ∧ (s.proofFetch identifier).2.claims = s.claims ∧
    (s.proofFetch identifier).2.notices = s.notices ∧ (s.proofFetch identifier).2.offsets = s.offsets ∧
    (s.proofFetch identifier).2.settings = s.settings ∧ (s.proofFetch identifier).2.label = s.label ∧
    (s.proofFetch identifier).2.clock = s.clock ∧ (s.proofFetch identifier).2.link = s.link ∧
    (s.proofFetch identifier).2.identity = s.identity ∧ (s.proofFetch identifier).2.free = s.free := by
  unfold State.proofFetch
  (repeat' split) <;> simp [State.refusing]

@[simp] theorem State.abandonAll_frame (s : State) (t : Stamp) (l : List SlotNo) :
    (s.abandonAll t l).pending = s.pending ∧ (s.abandonAll t l).power = s.power ∧ (s.abandonAll t l).scan = s.scan ∧
    (s.abandonAll t l).comps = s.comps ∧ (s.abandonAll t l).logInterval = s.logInterval ∧
    (s.abandonAll t l).hatch = s.hatch ∧ (s.abandonAll t l).handoverLimit = s.handoverLimit ∧
    (s.abandonAll t l).claims = s.claims ∧ (s.abandonAll t l).offsets = s.offsets ∧
    (s.abandonAll t l).settings = s.settings ∧ (s.abandonAll t l).label = s.label ∧ (s.abandonAll t l).clock = s.clock ∧
    (s.abandonAll t l).link = s.link ∧ (s.abandonAll t l).identity = s.identity ∧ (s.abandonAll t l).free = s.free := by
  induction l generalizing s <;> simp only [State.abandonAll, *] <;> (try (repeat' split)) <;> simp [*]

@[simp] theorem State.withQueue_frame (s : State) (q : List ClaimNo) :
    (s.withQueue q).pending = s.pending ∧ (s.withQueue q).power = s.power ∧ (s.withQueue q).scan = s.scan ∧
    (s.withQueue q).comps = s.comps ∧ (s.withQueue q).logInterval = s.logInterval ∧ (s.withQueue q).hatch = s.hatch ∧
    (s.withQueue q).log = s.log ∧ (s.withQueue q).slots = s.slots ∧ (s.withQueue q).handoverLimit = s.handoverLimit ∧
    (s.withQueue q).notices = s.notices ∧ (s.withQueue q).offsets = s.offsets ∧ (s.withQueue q).settings = s.settings ∧
    (s.withQueue q).label = s.label ∧ (s.withQueue q).clock = s.clock ∧ (s.withQueue q).link = s.link ∧
    (s.withQueue q).identity = s.identity ∧ (s.withQueue q).free = s.free := by
  unfold State.withQueue
  simp

@[simp] theorem State.countClaim_frame (s : State) (i : SlotNo) (f : Nat → Nat) :
    (s.countClaim i f).pending = s.pending ∧ (s.countClaim i f).power = s.power ∧ (s.countClaim i f).scan = s.scan ∧
    (s.countClaim i f).comps = s.comps ∧ (s.countClaim i f).logInterval = s.logInterval ∧
    (s.countClaim i f).hatch = s.hatch ∧ (s.countClaim i f).log = s.log ∧
    (s.countClaim i f).handoverLimit = s.handoverLimit ∧ (s.countClaim i f).claims = s.claims ∧
    (s.countClaim i f).notices = s.notices ∧ (s.countClaim i f).offsets = s.offsets ∧
    (s.countClaim i f).settings = s.settings ∧ (s.countClaim i f).label = s.label ∧ (s.countClaim i f).clock = s.clock ∧
    (s.countClaim i f).link = s.link ∧ (s.countClaim i f).identity = s.identity ∧ (s.countClaim i f).free = s.free := by
  unfold State.countClaim
  simp

@[simp] theorem State.acceptClaim_frame (s : State) (i : ClaimNo) (j : SlotNo) (reference : Word) :
    (s.acceptClaim i j reference).pending = s.pending ∧ (s.acceptClaim i j reference).power = s.power ∧
    (s.acceptClaim i j reference).scan = s.scan ∧ (s.acceptClaim i j reference).comps = s.comps ∧
    (s.acceptClaim i j reference).logInterval = s.logInterval ∧ (s.acceptClaim i j reference).hatch = s.hatch ∧
    (s.acceptClaim i j reference).handoverLimit = s.handoverLimit ∧ (s.acceptClaim i j reference).offsets = s.offsets ∧
    (s.acceptClaim i j reference).settings = s.settings ∧ (s.acceptClaim i j reference).label = s.label ∧
    (s.acceptClaim i j reference).clock = s.clock ∧ (s.acceptClaim i j reference).link = s.link ∧
    (s.acceptClaim i j reference).identity = s.identity ∧ (s.acceptClaim i j reference).free = s.free := by
  unfold State.acceptClaim
  simp

@[simp] theorem State.claimOpen_frame (s : State) (reference identifier : Word) :
    (s.claimOpen reference identifier).2.pending = s.pending ∧ (s.claimOpen reference identifier).2.power = s.power ∧
    (s.claimOpen reference identifier).2.scan = s.scan ∧ (s.claimOpen reference identifier).2.comps = s.comps ∧
    (s.claimOpen reference identifier).2.logInterval = s.logInterval ∧
    (s.claimOpen reference identifier).2.hatch = s.hatch ∧
    (s.claimOpen reference identifier).2.handoverLimit = s.handoverLimit ∧
    (s.claimOpen reference identifier).2.offsets = s.offsets ∧ (s.claimOpen reference identifier).2.settings = s.settings ∧
    (s.claimOpen reference identifier).2.label = s.label ∧ (s.claimOpen reference identifier).2.clock = s.clock ∧
    (s.claimOpen reference identifier).2.link = s.link ∧ (s.claimOpen reference identifier).2.identity = s.identity ∧
    (s.claimOpen reference identifier).2.free = s.free := by
  unfold State.claimOpen
  dsimp only
  (repeat' split) <;> simp [State.refusing]

@[simp] theorem State.claimGather_frame (s : State) (reference base : Word) (mask : Half) :
    (s.claimGather reference base mask).2.pending = s.pending ∧ (s.claimGather reference base mask).2.power = s.power ∧
    (s.claimGather reference base mask).2.scan = s.scan ∧ (s.claimGather reference base mask).2.comps = s.comps ∧
    (s.claimGather reference base mask).2.logInterval = s.logInterval ∧
    (s.claimGather reference base mask).2.hatch = s.hatch ∧ (s.claimGather reference base mask).2.log = s.log ∧
    (s.claimGather reference base mask).2.slots = s.slots ∧
    (s.claimGather reference base mask).2.handoverLimit = s.handoverLimit ∧
    (s.claimGather reference base mask).2.claims = s.claims ∧ (s.claimGather reference base mask).2.notices = s.notices ∧
    (s.claimGather reference base mask).2.offsets = s.offsets ∧
    (s.claimGather reference base mask).2.settings = s.settings ∧ (s.claimGather reference base mask).2.label = s.label ∧
    (s.claimGather reference base mask).2.clock = s.clock ∧ (s.claimGather reference base mask).2.link = s.link ∧
    (s.claimGather reference base mask).2.identity = s.identity ∧ (s.claimGather reference base mask).2.free = s.free := by
  unfold State.claimGather
  (repeat' split) <;> simp [State.refusing]

@[simp] theorem State.claimAssess_frame (s : State) (reference : Word) :
    (s.claimAssess reference).2.pending = s.pending ∧ (s.claimAssess reference).2.power = s.power ∧
    (s.claimAssess reference).2.scan = s.scan ∧ (s.claimAssess reference).2.comps = s.comps ∧
    (s.claimAssess reference).2.logInterval = s.logInterval ∧ (s.claimAssess reference).2.hatch = s.hatch ∧
    (s.claimAssess reference).2.log = s.log ∧ (s.claimAssess reference).2.slots = s.slots ∧
    (s.claimAssess reference).2.handoverLimit = s.handoverLimit ∧ (s.claimAssess reference).2.notices = s.notices ∧
    (s.claimAssess reference).2.offsets = s.offsets ∧ (s.claimAssess reference).2.settings = s.settings ∧
    (s.claimAssess reference).2.label = s.label ∧ (s.claimAssess reference).2.clock = s.clock ∧
    (s.claimAssess reference).2.link = s.link ∧ (s.claimAssess reference).2.identity = s.identity ∧
    (s.claimAssess reference).2.free = s.free := by
  unfold State.claimAssess
  dsimp only
  (repeat' split) <;> simp [State.refusing]

@[simp] theorem State.endWalk_frame (s : State) (i : ClaimNo) (k : Claim) (snap : Snapshot) (w : Walk) :
    (s.endWalk i k snap w).pending = s.pending ∧ (s.endWalk i k snap w).power = s.power ∧
    (s.endWalk i k snap w).scan = s.scan ∧ (s.endWalk i k snap w).comps = s.comps ∧
    (s.endWalk i k snap w).logInterval = s.logInterval ∧ (s.endWalk i k snap w).hatch = s.hatch ∧
    (s.endWalk i k snap w).handoverLimit = s.handoverLimit ∧ (s.endWalk i k snap w).offsets = s.offsets ∧
    (s.endWalk i k snap w).settings = s.settings ∧ (s.endWalk i k snap w).label = s.label ∧
    (s.endWalk i k snap w).clock = s.clock ∧ (s.endWalk i k snap w).link = s.link ∧
    (s.endWalk i k snap w).identity = s.identity ∧ (s.endWalk i k snap w).free = s.free := by
  unfold State.endWalk
  simp

@[simp] theorem State.examineNext_frame (s : State) :
    (s.examineNext).pending = s.pending ∧ (s.examineNext).power = s.power ∧ (s.examineNext).scan = s.scan ∧
    (s.examineNext).comps = s.comps ∧ (s.examineNext).logInterval = s.logInterval ∧ (s.examineNext).hatch = s.hatch ∧
    (s.examineNext).handoverLimit = s.handoverLimit ∧ (s.examineNext).offsets = s.offsets ∧
    (s.examineNext).settings = s.settings ∧ (s.examineNext).label = s.label ∧ (s.examineNext).clock = s.clock ∧
    (s.examineNext).link = s.link ∧ (s.examineNext).identity = s.identity ∧ (s.examineNext).free = s.free := by
  unfold State.examineNext
  dsimp only
  (repeat' split) <;> simp

@[simp] theorem State.claimGet_frame (s : State) (reference : Word) :
    (s.claimGet reference).2.pending = s.pending ∧ (s.claimGet reference).2.power = s.power ∧
    (s.claimGet reference).2.scan = s.scan ∧ (s.claimGet reference).2.comps = s.comps ∧
    (s.claimGet reference).2.logInterval = s.logInterval ∧ (s.claimGet reference).2.hatch = s.hatch ∧
    (s.claimGet reference).2.log = s.log ∧ (s.claimGet reference).2.slots = s.slots ∧
    (s.claimGet reference).2.handoverLimit = s.handoverLimit ∧ (s.claimGet reference).2.claims = s.claims ∧
    (s.claimGet reference).2.notices = s.notices ∧ (s.claimGet reference).2.offsets = s.offsets ∧
    (s.claimGet reference).2.settings = s.settings ∧ (s.claimGet reference).2.label = s.label ∧
    (s.claimGet reference).2.clock = s.clock ∧ (s.claimGet reference).2.link = s.link ∧
    (s.claimGet reference).2.identity = s.identity ∧ (s.claimGet reference).2.free = s.free := by
  unfold State.claimGet
  (repeat' split) <;> simp [State.refusing]

@[simp] theorem State.claimList_frame (s : State) :
    (s.claimList).2.pending = s.pending ∧ (s.claimList).2.power = s.power ∧ (s.claimList).2.scan = s.scan ∧
    (s.claimList).2.comps = s.comps ∧ (s.claimList).2.logInterval = s.logInterval ∧ (s.claimList).2.hatch = s.hatch ∧
    (s.claimList).2.log = s.log ∧ (s.claimList).2.slots = s.slots ∧ (s.claimList).2.handoverLimit = s.handoverLimit ∧
    (s.claimList).2.claims = s.claims ∧ (s.claimList).2.notices = s.notices ∧ (s.claimList).2.offsets = s.offsets ∧
    (s.claimList).2.settings = s.settings ∧ (s.claimList).2.label = s.label ∧ (s.claimList).2.clock = s.clock ∧
    (s.claimList).2.link = s.link ∧ (s.claimList).2.identity = s.identity ∧ (s.claimList).2.free = s.free := by
  unfold State.claimList
  simp

@[simp] theorem State.claimConfigSet_frame (s : State) (allowance : Word) :
    (s.claimConfigSet allowance).2.pending = s.pending ∧ (s.claimConfigSet allowance).2.power = s.power ∧
    (s.claimConfigSet allowance).2.scan = s.scan ∧ (s.claimConfigSet allowance).2.comps = s.comps ∧
    (s.claimConfigSet allowance).2.logInterval = s.logInterval ∧ (s.claimConfigSet allowance).2.hatch = s.hatch ∧
    (s.claimConfigSet allowance).2.handoverLimit = s.handoverLimit ∧ (s.claimConfigSet allowance).2.offsets = s.offsets ∧
    (s.claimConfigSet allowance).2.settings = s.settings ∧ (s.claimConfigSet allowance).2.label = s.label ∧
    (s.claimConfigSet allowance).2.clock = s.clock ∧ (s.claimConfigSet allowance).2.link = s.link ∧
    (s.claimConfigSet allowance).2.identity = s.identity ∧ (s.claimConfigSet allowance).2.free = s.free := by
  unfold State.claimConfigSet
  dsimp only
  (repeat' split) <;> simp

@[simp] theorem State.acceptClose_frame (s : State) (i : ClaimNo) (k : Claim) :
    (s.acceptClose i k).pending = s.pending ∧ (s.acceptClose i k).power = s.power ∧ (s.acceptClose i k).scan = s.scan ∧
    (s.acceptClose i k).comps = s.comps ∧ (s.acceptClose i k).logInterval = s.logInterval ∧
    (s.acceptClose i k).hatch = s.hatch ∧ (s.acceptClose i k).handoverLimit = s.handoverLimit ∧
    (s.acceptClose i k).offsets = s.offsets ∧ (s.acceptClose i k).settings = s.settings ∧
    (s.acceptClose i k).label = s.label ∧ (s.acceptClose i k).clock = s.clock ∧ (s.acceptClose i k).link = s.link ∧
    (s.acceptClose i k).identity = s.identity ∧ (s.acceptClose i k).free = s.free := by
  unfold State.acceptClose
  simp

@[simp] theorem State.claimClose_frame (s : State) (reference : Word) :
    (s.claimClose reference).2.pending = s.pending ∧ (s.claimClose reference).2.power = s.power ∧
    (s.claimClose reference).2.scan = s.scan ∧ (s.claimClose reference).2.comps = s.comps ∧
    (s.claimClose reference).2.logInterval = s.logInterval ∧ (s.claimClose reference).2.hatch = s.hatch ∧
    (s.claimClose reference).2.handoverLimit = s.handoverLimit ∧ (s.claimClose reference).2.offsets = s.offsets ∧
    (s.claimClose reference).2.settings = s.settings ∧ (s.claimClose reference).2.label = s.label ∧
    (s.claimClose reference).2.clock = s.clock ∧ (s.claimClose reference).2.link = s.link ∧
    (s.claimClose reference).2.identity = s.identity ∧ (s.claimClose reference).2.free = s.free := by
  unfold State.claimClose
  dsimp only
  (repeat' split) <;> simp [State.refusing]

/-- The first share of a consignment, blind or none, leaves the slot as R106 fills it. -/
@[simp] theorem newSlot_firstShare (id : Word) (c : CompNo) (limit cycles t q : Nat) (k : Carried) (b : Bool) :
    { newSlot id c limit cycles t k with inSeq := q }.firstShare b = { newSlot id c limit cycles t k with inSeq := q } := by
  cases b <;> simp [Slot.firstShare, Slot.share, newSlot, Slot.blank, sat32]

end Sys2Proof.Machine
end

