-- ==== Sys2Proof/Laws/FramesStores.lean ====
section
/-! SUPPORT. Frames: what each operation over the clock, the stores, start-up and the link leaves as it was, one lemma
for each operation. -/

namespace Sys2Proof.Machine

@[simp] theorem State.rebase_frame (s : State) (c : CompNo) :
    (s.rebase c).pending = s.pending ∧ (s.rebase c).power = s.power ∧ (s.rebase c).scan = s.scan ∧
    (s.rebase c).logInterval = s.logInterval ∧ (s.rebase c).hatch = s.hatch ∧
    (s.rebase c).handoverLimit = s.handoverLimit ∧ (s.rebase c).claims = s.claims ∧ (s.rebase c).offsets = s.offsets ∧
    (s.rebase c).settings = s.settings ∧ (s.rebase c).label = s.label ∧ (s.rebase c).clock = s.clock ∧
    (s.rebase c).link = s.link ∧ (s.rebase c).identity = s.identity ∧ (s.rebase c).free = s.free := by
  unfold State.rebase
  dsimp only
  (repeat' split) <;> simp

@[simp] theorem State.rebaseAll_frame (s : State) (l : List CompNo) :
    (s.rebaseAll l).pending = s.pending ∧ (s.rebaseAll l).power = s.power ∧ (s.rebaseAll l).scan = s.scan ∧
    (s.rebaseAll l).logInterval = s.logInterval ∧ (s.rebaseAll l).hatch = s.hatch ∧
    (s.rebaseAll l).handoverLimit = s.handoverLimit ∧ (s.rebaseAll l).claims = s.claims ∧
    (s.rebaseAll l).offsets = s.offsets ∧ (s.rebaseAll l).settings = s.settings ∧ (s.rebaseAll l).label = s.label ∧
    (s.rebaseAll l).clock = s.clock ∧ (s.rebaseAll l).link = s.link ∧ (s.rebaseAll l).identity = s.identity ∧
    (s.rebaseAll l).free = s.free := by
  induction l generalizing s <;> simp only [State.rebaseAll, *] <;> (try (repeat' split)) <;> simp [*]

@[simp] theorem State.creditGaps_frame (s : State) :
    (s.creditGaps).pending = s.pending ∧ (s.creditGaps).power = s.power ∧ (s.creditGaps).scan = s.scan ∧
    (s.creditGaps).comps = s.comps ∧ (s.creditGaps).logInterval = s.logInterval ∧ (s.creditGaps).hatch = s.hatch ∧
    (s.creditGaps).log = s.log ∧ (s.creditGaps).handoverLimit = s.handoverLimit ∧ (s.creditGaps).claims = s.claims ∧
    (s.creditGaps).notices = s.notices ∧ (s.creditGaps).offsets = s.offsets ∧ (s.creditGaps).settings = s.settings ∧
    (s.creditGaps).label = s.label ∧ (s.creditGaps).clock = s.clock ∧ (s.creditGaps).link = s.link ∧
    (s.creditGaps).identity = s.identity ∧ (s.creditGaps).free = s.free := by
  simp [State.creditGaps]

@[simp] theorem State.rebaseOpenings_frame (s : State) :
    (s.rebaseOpenings).pending = s.pending ∧ (s.rebaseOpenings).power = s.power ∧ (s.rebaseOpenings).scan = s.scan ∧
    (s.rebaseOpenings).comps = s.comps ∧ (s.rebaseOpenings).logInterval = s.logInterval ∧ (s.rebaseOpenings).log = s.log ∧
    (s.rebaseOpenings).slots = s.slots ∧ (s.rebaseOpenings).handoverLimit = s.handoverLimit ∧
    (s.rebaseOpenings).claims = s.claims ∧ (s.rebaseOpenings).notices = s.notices ∧
    (s.rebaseOpenings).offsets = s.offsets ∧ (s.rebaseOpenings).settings = s.settings ∧
    (s.rebaseOpenings).label = s.label ∧ (s.rebaseOpenings).clock = s.clock ∧ (s.rebaseOpenings).link = s.link ∧
    (s.rebaseOpenings).identity = s.identity ∧ (s.rebaseOpenings).free = s.free := by
  unfold State.rebaseOpenings
  simp

@[simp] theorem State.setFromUnset_frame (s : State) (t : Nat) :
    (s.setFromUnset t).pending = s.pending ∧ (s.setFromUnset t).power = s.power ∧ (s.setFromUnset t).scan = s.scan ∧
    (s.setFromUnset t).logInterval = s.logInterval ∧ (s.setFromUnset t).handoverLimit = s.handoverLimit ∧
    (s.setFromUnset t).claims = s.claims ∧ (s.setFromUnset t).offsets = s.offsets ∧
    (s.setFromUnset t).settings = s.settings ∧ (s.setFromUnset t).label = s.label ∧ (s.setFromUnset t).link = s.link ∧
    (s.setFromUnset t).identity = s.identity ∧ (s.setFromUnset t).free = s.free := by
  unfold State.setFromUnset
  simp

@[simp] theorem State.trim_frame (s : State) (t : Nat) :
    (s.trim t).pending = s.pending ∧ (s.trim t).power = s.power ∧ (s.trim t).scan = s.scan ∧ (s.trim t).comps = s.comps ∧
    (s.trim t).logInterval = s.logInterval ∧ (s.trim t).hatch = s.hatch ∧ (s.trim t).handoverLimit = s.handoverLimit ∧
    (s.trim t).claims = s.claims ∧ (s.trim t).offsets = s.offsets ∧ (s.trim t).settings = s.settings ∧
    (s.trim t).label = s.label ∧ (s.trim t).link = s.link ∧ (s.trim t).identity = s.identity ∧
    (s.trim t).free = s.free := by
  unfold State.trim
  simp

@[simp] theorem State.timeSet_frame (s : State) (time : Word) :
    (s.timeSet time).2.pending = s.pending ∧ (s.timeSet time).2.power = s.power ∧ (s.timeSet time).2.scan = s.scan ∧
    (s.timeSet time).2.logInterval = s.logInterval ∧ (s.timeSet time).2.handoverLimit = s.handoverLimit ∧
    (s.timeSet time).2.claims = s.claims ∧ (s.timeSet time).2.offsets = s.offsets ∧
    (s.timeSet time).2.settings = s.settings ∧ (s.timeSet time).2.label = s.label ∧ (s.timeSet time).2.link = s.link ∧
    (s.timeSet time).2.identity = s.identity ∧ (s.timeSet time).2.free = s.free := by
  unfold State.timeSet
  dsimp only
  (repeat' split) <;> simp [State.refusing]

@[simp] theorem State.timeGet_frame (s : State) :
    (s.timeGet).2.pending = s.pending ∧ (s.timeGet).2.power = s.power ∧ (s.timeGet).2.scan = s.scan ∧
    (s.timeGet).2.comps = s.comps ∧ (s.timeGet).2.logInterval = s.logInterval ∧ (s.timeGet).2.hatch = s.hatch ∧
    (s.timeGet).2.log = s.log ∧ (s.timeGet).2.slots = s.slots ∧ (s.timeGet).2.handoverLimit = s.handoverLimit ∧
    (s.timeGet).2.claims = s.claims ∧ (s.timeGet).2.notices = s.notices ∧ (s.timeGet).2.offsets = s.offsets ∧
    (s.timeGet).2.settings = s.settings ∧ (s.timeGet).2.label = s.label ∧ (s.timeGet).2.clock = s.clock ∧
    (s.timeGet).2.link = s.link ∧ (s.timeGet).2.identity = s.identity ∧ (s.timeGet).2.free = s.free := by
  unfold State.timeGet
  simp

@[simp] theorem State.wipe_frame (s : State) :
    (s.wipe).2.pending = s.pending ∧ (s.wipe).2.power = s.power ∧ (s.wipe).2.scan = s.scan ∧ (s.wipe).2.comps = s.comps ∧
    (s.wipe).2.logInterval = s.logInterval ∧ (s.wipe).2.hatch = s.hatch ∧ (s.wipe).2.slots = s.slots ∧
    (s.wipe).2.handoverLimit = s.handoverLimit ∧ (s.wipe).2.claims = s.claims ∧ (s.wipe).2.notices = s.notices ∧
    (s.wipe).2.offsets = s.offsets ∧ (s.wipe).2.settings = s.settings ∧ (s.wipe).2.label = s.label ∧
    (s.wipe).2.clock = s.clock ∧ (s.wipe).2.link = s.link ∧ (s.wipe).2.identity = s.identity ∧
    (s.wipe).2.free = s.free := by
  unfold State.wipe
  dsimp only
  (repeat' split) <;> simp [State.refusing]

@[simp] theorem State.offsetErase_frame (s : State) (slot : Byte) :
    (s.offsetErase slot).2.pending = s.pending ∧ (s.offsetErase slot).2.power = s.power ∧
    (s.offsetErase slot).2.scan = s.scan ∧ (s.offsetErase slot).2.comps = s.comps ∧
    (s.offsetErase slot).2.logInterval = s.logInterval ∧ (s.offsetErase slot).2.hatch = s.hatch ∧
    (s.offsetErase slot).2.log = s.log ∧ (s.offsetErase slot).2.slots = s.slots ∧
    (s.offsetErase slot).2.handoverLimit = s.handoverLimit ∧ (s.offsetErase slot).2.claims = s.claims ∧
    (s.offsetErase slot).2.notices = s.notices ∧ (s.offsetErase slot).2.settings = s.settings ∧
    (s.offsetErase slot).2.label = s.label ∧ (s.offsetErase slot).2.clock = s.clock ∧
    (s.offsetErase slot).2.link = s.link ∧ (s.offsetErase slot).2.identity = s.identity ∧
    (s.offsetErase slot).2.free = s.free := by
  unfold State.offsetErase
  (repeat' split) <;> simp [State.refusing]

@[simp] theorem State.offsetProgram_frame (s : State) (slot entry value : Byte) :
    (s.offsetProgram slot entry value).2.pending = s.pending ∧ (s.offsetProgram slot entry value).2.power = s.power ∧
    (s.offsetProgram slot entry value).2.scan = s.scan ∧ (s.offsetProgram slot entry value).2.comps = s.comps ∧
    (s.offsetProgram slot entry value).2.logInterval = s.logInterval ∧
    (s.offsetProgram slot entry value).2.hatch = s.hatch ∧ (s.offsetProgram slot entry value).2.log = s.log ∧
    (s.offsetProgram slot entry value).2.slots = s.slots ∧
    (s.offsetProgram slot entry value).2.handoverLimit = s.handoverLimit ∧
    (s.offsetProgram slot entry value).2.claims = s.claims ∧ (s.offsetProgram slot entry value).2.notices = s.notices ∧
    (s.offsetProgram slot entry value).2.settings = s.settings ∧ (s.offsetProgram slot entry value).2.label = s.label ∧
    (s.offsetProgram slot entry value).2.clock = s.clock ∧ (s.offsetProgram slot entry value).2.link = s.link ∧
    (s.offsetProgram slot entry value).2.identity = s.identity ∧ (s.offsetProgram slot entry value).2.free = s.free := by
  unfold State.offsetProgram
  (repeat' split) <;> simp [State.refusing]

@[simp] theorem State.reportStore_frame (s : State) (c : CalSlot) (i : Option EntryNo) (x : OffsetEntry) :
    (s.reportStore c i x).pending = s.pending ∧ (s.reportStore c i x).power = s.power ∧
    (s.reportStore c i x).scan = s.scan ∧ (s.reportStore c i x).comps = s.comps ∧
    (s.reportStore c i x).logInterval = s.logInterval ∧ (s.reportStore c i x).hatch = s.hatch ∧
    (s.reportStore c i x).handoverLimit = s.handoverLimit ∧ (s.reportStore c i x).claims = s.claims ∧
    (s.reportStore c i x).offsets = s.offsets ∧ (s.reportStore c i x).settings = s.settings ∧
    (s.reportStore c i x).label = s.label ∧ (s.reportStore c i x).clock = s.clock ∧ (s.reportStore c i x).link = s.link ∧
    (s.reportStore c i x).identity = s.identity ∧ (s.reportStore c i x).free = s.free := by
  unfold State.reportStore
  simp

@[simp] theorem State.eraseComplete_frame (s : State) :
    (s.eraseComplete).pending = s.pending ∧ (s.eraseComplete).power = s.power ∧ (s.eraseComplete).scan = s.scan ∧
    (s.eraseComplete).comps = s.comps ∧ (s.eraseComplete).logInterval = s.logInterval ∧ (s.eraseComplete).hatch = s.hatch ∧
    (s.eraseComplete).handoverLimit = s.handoverLimit ∧ (s.eraseComplete).claims = s.claims ∧
    (s.eraseComplete).settings = s.settings ∧ (s.eraseComplete).label = s.label ∧ (s.eraseComplete).clock = s.clock ∧
    (s.eraseComplete).link = s.link ∧ (s.eraseComplete).identity = s.identity ∧ (s.eraseComplete).free = s.free := by
  unfold State.eraseComplete
  (repeat' split) <;> simp

@[simp] theorem State.programComplete_frame (s : State) :
    (s.programComplete).pending = s.pending ∧ (s.programComplete).power = s.power ∧ (s.programComplete).scan = s.scan ∧
    (s.programComplete).comps = s.comps ∧ (s.programComplete).logInterval = s.logInterval ∧
    (s.programComplete).hatch = s.hatch ∧ (s.programComplete).handoverLimit = s.handoverLimit ∧
    (s.programComplete).claims = s.claims ∧ (s.programComplete).settings = s.settings ∧
    (s.programComplete).label = s.label ∧ (s.programComplete).clock = s.clock ∧ (s.programComplete).link = s.link ∧
    (s.programComplete).identity = s.identity ∧ (s.programComplete).free = s.free := by
  unfold State.programComplete
  (repeat' split) <;> simp

@[simp] theorem State.offsetRead_frame (s : State) (slot : Byte) :
    (s.offsetRead slot).2.pending = s.pending ∧ (s.offsetRead slot).2.power = s.power ∧
    (s.offsetRead slot).2.scan = s.scan ∧ (s.offsetRead slot).2.comps = s.comps ∧
    (s.offsetRead slot).2.logInterval = s.logInterval ∧ (s.offsetRead slot).2.hatch = s.hatch ∧
    (s.offsetRead slot).2.log = s.log ∧ (s.offsetRead slot).2.slots = s.slots ∧
    (s.offsetRead slot).2.handoverLimit = s.handoverLimit ∧ (s.offsetRead slot).2.claims = s.claims ∧
    (s.offsetRead slot).2.notices = s.notices ∧ (s.offsetRead slot).2.offsets = s.offsets ∧
    (s.offsetRead slot).2.settings = s.settings ∧ (s.offsetRead slot).2.label = s.label ∧
    (s.offsetRead slot).2.clock = s.clock ∧ (s.offsetRead slot).2.link = s.link ∧
    (s.offsetRead slot).2.identity = s.identity ∧ (s.offsetRead slot).2.free = s.free := by
  unfold State.offsetRead
  (repeat' split) <;> simp [State.refusing]

@[simp] theorem State.settingsSave_frame (s : State) :
    (s.settingsSave).2.pending = s.pending ∧ (s.settingsSave).2.power = s.power ∧ (s.settingsSave).2.scan = s.scan ∧
    (s.settingsSave).2.comps = s.comps ∧ (s.settingsSave).2.logInterval = s.logInterval ∧
    (s.settingsSave).2.hatch = s.hatch ∧ (s.settingsSave).2.log = s.log ∧ (s.settingsSave).2.slots = s.slots ∧
    (s.settingsSave).2.handoverLimit = s.handoverLimit ∧ (s.settingsSave).2.claims = s.claims ∧
    (s.settingsSave).2.notices = s.notices ∧ (s.settingsSave).2.offsets = s.offsets ∧ (s.settingsSave).2.label = s.label ∧
    (s.settingsSave).2.clock = s.clock ∧ (s.settingsSave).2.link = s.link ∧ (s.settingsSave).2.identity = s.identity ∧
    (s.settingsSave).2.free = s.free := by
  unfold State.settingsSave
  (repeat' split) <;> simp [State.refusing]

@[simp] theorem State.saveWriteEnd_frame (s : State) (matched : Bool) :
    (s.saveWriteEnd matched).pending = s.pending ∧ (s.saveWriteEnd matched).power = s.power ∧
    (s.saveWriteEnd matched).scan = s.scan ∧ (s.saveWriteEnd matched).comps = s.comps ∧
    (s.saveWriteEnd matched).logInterval = s.logInterval ∧ (s.saveWriteEnd matched).hatch = s.hatch ∧
    (s.saveWriteEnd matched).handoverLimit = s.handoverLimit ∧ (s.saveWriteEnd matched).claims = s.claims ∧
    (s.saveWriteEnd matched).offsets = s.offsets ∧ (s.saveWriteEnd matched).label = s.label ∧
    (s.saveWriteEnd matched).clock = s.clock ∧ (s.saveWriteEnd matched).link = s.link ∧
    (s.saveWriteEnd matched).identity = s.identity ∧ (s.saveWriteEnd matched).free = s.free := by
  unfold State.saveWriteEnd
  dsimp only
  (repeat' split) <;> simp

@[simp] theorem State.settingsStatus_frame (s : State) :
    (s.settingsStatus).2.pending = s.pending ∧ (s.settingsStatus).2.power = s.power ∧ (s.settingsStatus).2.scan = s.scan ∧
    (s.settingsStatus).2.comps = s.comps ∧ (s.settingsStatus).2.logInterval = s.logInterval ∧
    (s.settingsStatus).2.hatch = s.hatch ∧ (s.settingsStatus).2.log = s.log ∧ (s.settingsStatus).2.slots = s.slots ∧
    (s.settingsStatus).2.handoverLimit = s.handoverLimit ∧ (s.settingsStatus).2.claims = s.claims ∧
    (s.settingsStatus).2.notices = s.notices ∧ (s.settingsStatus).2.offsets = s.offsets ∧
    (s.settingsStatus).2.settings = s.settings ∧ (s.settingsStatus).2.label = s.label ∧
    (s.settingsStatus).2.clock = s.clock ∧ (s.settingsStatus).2.link = s.link ∧
    (s.settingsStatus).2.identity = s.identity ∧ (s.settingsStatus).2.free = s.free := by
  unfold State.settingsStatus
  simp

@[simp] theorem State.labelSet_frame (s : State) (label : Wide) :
    (s.labelSet label).2.pending = s.pending ∧ (s.labelSet label).2.power = s.power ∧ (s.labelSet label).2.scan = s.scan ∧
    (s.labelSet label).2.comps = s.comps ∧ (s.labelSet label).2.logInterval = s.logInterval ∧
    (s.labelSet label).2.hatch = s.hatch ∧ (s.labelSet label).2.handoverLimit = s.handoverLimit ∧
    (s.labelSet label).2.claims = s.claims ∧ (s.labelSet label).2.offsets = s.offsets ∧
    (s.labelSet label).2.settings = s.settings ∧ (s.labelSet label).2.clock = s.clock ∧
    (s.labelSet label).2.link = s.link ∧ (s.labelSet label).2.identity = s.identity ∧
    (s.labelSet label).2.free = s.free := by
  unfold State.labelSet
  (repeat' split) <;> simp

@[simp] theorem State.identify_frame (s : State) :
    (s.identify).2.pending = s.pending ∧ (s.identify).2.power = s.power ∧ (s.identify).2.scan = s.scan ∧
    (s.identify).2.comps = s.comps ∧ (s.identify).2.logInterval = s.logInterval ∧ (s.identify).2.hatch = s.hatch ∧
    (s.identify).2.log = s.log ∧ (s.identify).2.slots = s.slots ∧ (s.identify).2.handoverLimit = s.handoverLimit ∧
    (s.identify).2.claims = s.claims ∧ (s.identify).2.notices = s.notices ∧ (s.identify).2.offsets = s.offsets ∧
    (s.identify).2.settings = s.settings ∧ (s.identify).2.label = s.label ∧ (s.identify).2.clock = s.clock ∧
    (s.identify).2.link = s.link ∧ (s.identify).2.identity = s.identity ∧ (s.identify).2.free = s.free := by
  unfold State.identify
  simp

@[simp] theorem State.writeEnables_frame (s : State) (mask : Word) (l : List Condition) :
    (s.writeEnables mask l).pending = s.pending ∧ (s.writeEnables mask l).power = s.power ∧
    (s.writeEnables mask l).scan = s.scan ∧ (s.writeEnables mask l).comps = s.comps ∧
    (s.writeEnables mask l).logInterval = s.logInterval ∧ (s.writeEnables mask l).hatch = s.hatch ∧
    (s.writeEnables mask l).log = s.log ∧ (s.writeEnables mask l).slots = s.slots ∧
    (s.writeEnables mask l).handoverLimit = s.handoverLimit ∧ (s.writeEnables mask l).claims = s.claims ∧
    (s.writeEnables mask l).offsets = s.offsets ∧ (s.writeEnables mask l).settings = s.settings ∧
    (s.writeEnables mask l).label = s.label ∧ (s.writeEnables mask l).clock = s.clock ∧
    (s.writeEnables mask l).link = s.link ∧ (s.writeEnables mask l).identity = s.identity ∧
    (s.writeEnables mask l).free = s.free := by
  induction l generalizing s <;> simp only [State.writeEnables, *] <;> (try (repeat' split)) <;> simp [*]

@[simp] theorem State.raiseTrue_frame (s : State) (l : List Condition) :
    (s.raiseTrue l).pending = s.pending ∧ (s.raiseTrue l).power = s.power ∧ (s.raiseTrue l).scan = s.scan ∧
    (s.raiseTrue l).comps = s.comps ∧ (s.raiseTrue l).logInterval = s.logInterval ∧ (s.raiseTrue l).hatch = s.hatch ∧
    (s.raiseTrue l).log = s.log ∧ (s.raiseTrue l).slots = s.slots ∧ (s.raiseTrue l).handoverLimit = s.handoverLimit ∧
    (s.raiseTrue l).claims = s.claims ∧ (s.raiseTrue l).offsets = s.offsets ∧ (s.raiseTrue l).settings = s.settings ∧
    (s.raiseTrue l).label = s.label ∧ (s.raiseTrue l).clock = s.clock ∧ (s.raiseTrue l).link = s.link ∧
    (s.raiseTrue l).identity = s.identity ∧ (s.raiseTrue l).free = s.free := by
  induction l generalizing s <;> simp only [State.raiseTrue, *] <;> simp [*]

@[simp] theorem State.applyEnables_frame (s : State) (mask : Word) :
    (s.applyEnables mask).pending = s.pending ∧ (s.applyEnables mask).power = s.power ∧
    (s.applyEnables mask).scan = s.scan ∧ (s.applyEnables mask).comps = s.comps ∧
    (s.applyEnables mask).logInterval = s.logInterval ∧ (s.applyEnables mask).hatch = s.hatch ∧
    (s.applyEnables mask).handoverLimit = s.handoverLimit ∧ (s.applyEnables mask).claims = s.claims ∧
    (s.applyEnables mask).offsets = s.offsets ∧ (s.applyEnables mask).settings = s.settings ∧
    (s.applyEnables mask).label = s.label ∧ (s.applyEnables mask).clock = s.clock ∧ (s.applyEnables mask).link = s.link ∧
    (s.applyEnables mask).identity = s.identity ∧ (s.applyEnables mask).free = s.free := by
  unfold State.applyEnables
  dsimp only
  (repeat' split) <;> simp

@[simp] theorem State.noticeEnable_frame (s : State) (mask : Word) :
    (s.noticeEnable mask).2.pending = s.pending ∧ (s.noticeEnable mask).2.power = s.power ∧
    (s.noticeEnable mask).2.scan = s.scan ∧ (s.noticeEnable mask).2.comps = s.comps ∧
    (s.noticeEnable mask).2.logInterval = s.logInterval ∧ (s.noticeEnable mask).2.hatch = s.hatch ∧
    (s.noticeEnable mask).2.handoverLimit = s.handoverLimit ∧ (s.noticeEnable mask).2.claims = s.claims ∧
    (s.noticeEnable mask).2.offsets = s.offsets ∧ (s.noticeEnable mask).2.settings = s.settings ∧
    (s.noticeEnable mask).2.label = s.label ∧ (s.noticeEnable mask).2.clock = s.clock ∧
    (s.noticeEnable mask).2.link = s.link ∧ (s.noticeEnable mask).2.identity = s.identity ∧
    (s.noticeEnable mask).2.free = s.free := by
  unfold State.noticeEnable
  dsimp only
  (repeat' split) <;> simp [State.refusing]

@[simp] theorem State.dropNamed_frame (s : State) (mask : Word) (l : List Condition) :
    (s.dropNamed mask l).pending = s.pending ∧ (s.dropNamed mask l).power = s.power ∧ (s.dropNamed mask l).scan = s.scan ∧
    (s.dropNamed mask l).comps = s.comps ∧ (s.dropNamed mask l).logInterval = s.logInterval ∧
    (s.dropNamed mask l).hatch = s.hatch ∧ (s.dropNamed mask l).log = s.log ∧ (s.dropNamed mask l).slots = s.slots ∧
    (s.dropNamed mask l).handoverLimit = s.handoverLimit ∧ (s.dropNamed mask l).claims = s.claims ∧
    (s.dropNamed mask l).offsets = s.offsets ∧ (s.dropNamed mask l).settings = s.settings ∧
    (s.dropNamed mask l).label = s.label ∧ (s.dropNamed mask l).clock = s.clock ∧ (s.dropNamed mask l).link = s.link ∧
    (s.dropNamed mask l).identity = s.identity ∧ (s.dropNamed mask l).free = s.free := by
  induction l generalizing s <;> simp only [State.dropNamed, *] <;> (try (repeat' split)) <;> simp [*]

@[simp] theorem State.applyClear_frame (s : State) (mask : Word) :
    (s.applyClear mask).pending = s.pending ∧ (s.applyClear mask).power = s.power ∧ (s.applyClear mask).scan = s.scan ∧
    (s.applyClear mask).comps = s.comps ∧ (s.applyClear mask).logInterval = s.logInterval ∧
    (s.applyClear mask).hatch = s.hatch ∧ (s.applyClear mask).log = s.log ∧ (s.applyClear mask).slots = s.slots ∧
    (s.applyClear mask).handoverLimit = s.handoverLimit ∧ (s.applyClear mask).claims = s.claims ∧
    (s.applyClear mask).offsets = s.offsets ∧ (s.applyClear mask).settings = s.settings ∧
    (s.applyClear mask).label = s.label ∧ (s.applyClear mask).clock = s.clock ∧ (s.applyClear mask).link = s.link ∧
    (s.applyClear mask).identity = s.identity ∧ (s.applyClear mask).free = s.free := by
  unfold State.applyClear
  simp

@[simp] theorem State.noticeClear_frame (s : State) (mask : Word) :
    (s.noticeClear mask).2.pending = s.pending ∧ (s.noticeClear mask).2.power = s.power ∧
    (s.noticeClear mask).2.scan = s.scan ∧ (s.noticeClear mask).2.comps = s.comps ∧
    (s.noticeClear mask).2.logInterval = s.logInterval ∧ (s.noticeClear mask).2.hatch = s.hatch ∧
    (s.noticeClear mask).2.log = s.log ∧ (s.noticeClear mask).2.slots = s.slots ∧
    (s.noticeClear mask).2.handoverLimit = s.handoverLimit ∧ (s.noticeClear mask).2.claims = s.claims ∧
    (s.noticeClear mask).2.offsets = s.offsets ∧ (s.noticeClear mask).2.settings = s.settings ∧
    (s.noticeClear mask).2.label = s.label ∧ (s.noticeClear mask).2.clock = s.clock ∧
    (s.noticeClear mask).2.link = s.link ∧ (s.noticeClear mask).2.identity = s.identity ∧
    (s.noticeClear mask).2.free = s.free := by
  unfold State.noticeClear
  dsimp only
  (repeat' split) <;> simp [State.refusing]

@[simp] theorem State.noticeStatus_frame (s : State) :
    (s.noticeStatus).2.pending = s.pending ∧ (s.noticeStatus).2.power = s.power ∧ (s.noticeStatus).2.scan = s.scan ∧
    (s.noticeStatus).2.comps = s.comps ∧ (s.noticeStatus).2.logInterval = s.logInterval ∧
    (s.noticeStatus).2.hatch = s.hatch ∧ (s.noticeStatus).2.log = s.log ∧ (s.noticeStatus).2.slots = s.slots ∧
    (s.noticeStatus).2.handoverLimit = s.handoverLimit ∧ (s.noticeStatus).2.claims = s.claims ∧
    (s.noticeStatus).2.notices = s.notices ∧ (s.noticeStatus).2.offsets = s.offsets ∧
    (s.noticeStatus).2.settings = s.settings ∧ (s.noticeStatus).2.label = s.label ∧ (s.noticeStatus).2.clock = s.clock ∧
    (s.noticeStatus).2.link = s.link ∧ (s.noticeStatus).2.identity = s.identity ∧ (s.noticeStatus).2.free = s.free := by
  unfold State.noticeStatus
  simp

@[simp] theorem State.logRead_frame (s : State) (start : Word) (count : Byte) :
    (s.logRead start count).2.pending = s.pending ∧ (s.logRead start count).2.power = s.power ∧
    (s.logRead start count).2.scan = s.scan ∧ (s.logRead start count).2.comps = s.comps ∧
    (s.logRead start count).2.logInterval = s.logInterval ∧ (s.logRead start count).2.hatch = s.hatch ∧
    (s.logRead start count).2.log = s.log ∧ (s.logRead start count).2.slots = s.slots ∧
    (s.logRead start count).2.handoverLimit = s.handoverLimit ∧ (s.logRead start count).2.claims = s.claims ∧
    (s.logRead start count).2.notices = s.notices ∧ (s.logRead start count).2.offsets = s.offsets ∧
    (s.logRead start count).2.settings = s.settings ∧ (s.logRead start count).2.label = s.label ∧
    (s.logRead start count).2.clock = s.clock ∧ (s.logRead start count).2.link = s.link ∧
    (s.logRead start count).2.identity = s.identity ∧ (s.logRead start count).2.free = s.free := by
  unfold State.logRead
  (repeat' split) <;> simp [State.refusing]

@[simp] theorem State.logStatus_frame (s : State) :
    (s.logStatus).2.pending = s.pending ∧ (s.logStatus).2.power = s.power ∧ (s.logStatus).2.scan = s.scan ∧
    (s.logStatus).2.comps = s.comps ∧ (s.logStatus).2.logInterval = s.logInterval ∧ (s.logStatus).2.hatch = s.hatch ∧
    (s.logStatus).2.log = s.log ∧ (s.logStatus).2.slots = s.slots ∧ (s.logStatus).2.handoverLimit = s.handoverLimit ∧
    (s.logStatus).2.claims = s.claims ∧ (s.logStatus).2.notices = s.notices ∧ (s.logStatus).2.offsets = s.offsets ∧
    (s.logStatus).2.settings = s.settings ∧ (s.logStatus).2.label = s.label ∧ (s.logStatus).2.clock = s.clock ∧
    (s.logStatus).2.link = s.link ∧ (s.logStatus).2.identity = s.identity ∧ (s.logStatus).2.free = s.free := by
  unfold State.logStatus
  simp

@[simp] theorem State.startBlocks_frame (s : State) :
    (s.startBlocks).pending = s.pending ∧ (s.startBlocks).power = s.power ∧ (s.startBlocks).log = s.log ∧
    (s.startBlocks).slots = s.slots ∧ (s.startBlocks).identity = s.identity ∧ (s.startBlocks).free = s.free := by
  unfold State.startBlocks
  simp

@[simp] theorem State.closeRetained_frame (s : State) (l : List CompNo) :
    (s.closeRetained l).pending = s.pending ∧ (s.closeRetained l).power = s.power ∧ (s.closeRetained l).scan = s.scan ∧
    (s.closeRetained l).logInterval = s.logInterval ∧ (s.closeRetained l).hatch = s.hatch ∧
    (s.closeRetained l).handoverLimit = s.handoverLimit ∧ (s.closeRetained l).claims = s.claims ∧
    (s.closeRetained l).offsets = s.offsets ∧ (s.closeRetained l).settings = s.settings ∧
    (s.closeRetained l).label = s.label ∧ (s.closeRetained l).clock = s.clock ∧ (s.closeRetained l).link = s.link ∧
    (s.closeRetained l).identity = s.identity ∧ (s.closeRetained l).free = s.free := by
  induction l generalizing s <;> simp only [State.closeRetained, *] <;> (try (repeat' split)) <;> simp [*]

@[simp] theorem State.creditStart_frame (s : State) :
    (s.creditStart).pending = s.pending ∧ (s.creditStart).power = s.power ∧ (s.creditStart).scan = s.scan ∧
    (s.creditStart).comps = s.comps ∧ (s.creditStart).logInterval = s.logInterval ∧ (s.creditStart).hatch = s.hatch ∧
    (s.creditStart).log = s.log ∧ (s.creditStart).handoverLimit = s.handoverLimit ∧ (s.creditStart).claims = s.claims ∧
    (s.creditStart).notices = s.notices ∧ (s.creditStart).offsets = s.offsets ∧ (s.creditStart).settings = s.settings ∧
    (s.creditStart).label = s.label ∧ (s.creditStart).clock = s.clock ∧ (s.creditStart).link = s.link ∧
    (s.creditStart).identity = s.identity ∧ (s.creditStart).free = s.free := by
  unfold State.creditStart
  (repeat' split) <;> simp

@[simp] theorem State.recordDefaulted_frame (s : State) :
    (s.recordDefaulted).pending = s.pending ∧ (s.recordDefaulted).power = s.power ∧ (s.recordDefaulted).scan = s.scan ∧
    (s.recordDefaulted).comps = s.comps ∧ (s.recordDefaulted).logInterval = s.logInterval ∧
    (s.recordDefaulted).hatch = s.hatch ∧ (s.recordDefaulted).handoverLimit = s.handoverLimit ∧
    (s.recordDefaulted).claims = s.claims ∧ (s.recordDefaulted).offsets = s.offsets ∧
    (s.recordDefaulted).settings = s.settings ∧ (s.recordDefaulted).label = s.label ∧ (s.recordDefaulted).clock = s.clock ∧
    (s.recordDefaulted).link = s.link ∧ (s.recordDefaulted).identity = s.identity ∧ (s.recordDefaulted).free = s.free := by
  unfold State.recordDefaulted
  (repeat' split) <;> simp

@[simp] theorem State.startRecords_frame (s : State) (r : StartReason) (since : Nat) :
    (s.startRecords r since).pending = s.pending ∧ (s.startRecords r since).power = s.power ∧
    (s.startRecords r since).scan = s.scan ∧ (s.startRecords r since).logInterval = s.logInterval ∧
    (s.startRecords r since).hatch = s.hatch ∧ (s.startRecords r since).handoverLimit = s.handoverLimit ∧
    (s.startRecords r since).claims = s.claims ∧ (s.startRecords r since).offsets = s.offsets ∧
    (s.startRecords r since).settings = s.settings ∧ (s.startRecords r since).label = s.label ∧
    (s.startRecords r since).clock = s.clock ∧ (s.startRecords r since).link = s.link ∧
    (s.startRecords r since).identity = s.identity ∧ (s.startRecords r since).free = s.free := by
  unfold State.startRecords
  simp

@[simp] theorem State.endStart_frame (s : State) :
    (s.endStart).pending = s.pending ∧ (s.endStart).power = s.power ∧ (s.endStart).scan = s.scan ∧
    (s.endStart).logInterval = s.logInterval ∧ (s.endStart).hatch = s.hatch ∧ (s.endStart).log = s.log ∧
    (s.endStart).slots = s.slots ∧ (s.endStart).handoverLimit = s.handoverLimit ∧ (s.endStart).claims = s.claims ∧
    (s.endStart).offsets = s.offsets ∧ (s.endStart).settings = s.settings ∧ (s.endStart).label = s.label ∧
    (s.endStart).clock = s.clock ∧ (s.endStart).link = s.link ∧ (s.endStart).identity = s.identity ∧
    (s.endStart).free = s.free := by
  unfold State.endStart
  simp

@[simp] theorem State.startUp_frame (s : State) (r : StartReason) (since : Nat) :
    (s.startUp r since).pending = s.pending ∧ (s.startUp r since).power = s.power ∧
    (s.startUp r since).identity = s.identity := by
  unfold State.startUp
  simp

@[simp] theorem State.creditOpen_frame (s : State) (c : CompNo) :
    (s.creditOpen c).pending = s.pending ∧ (s.creditOpen c).power = s.power ∧ (s.creditOpen c).scan = s.scan ∧
    (s.creditOpen c).comps = s.comps ∧ (s.creditOpen c).logInterval = s.logInterval ∧ (s.creditOpen c).hatch = s.hatch ∧
    (s.creditOpen c).log = s.log ∧ (s.creditOpen c).handoverLimit = s.handoverLimit ∧ (s.creditOpen c).claims = s.claims ∧
    (s.creditOpen c).notices = s.notices ∧ (s.creditOpen c).offsets = s.offsets ∧ (s.creditOpen c).settings = s.settings ∧
    (s.creditOpen c).label = s.label ∧ (s.creditOpen c).clock = s.clock ∧ (s.creditOpen c).link = s.link ∧
    (s.creditOpen c).identity = s.identity ∧ (s.creditOpen c).free = s.free := by
  unfold State.creditOpen
  (repeat' split) <;> simp

@[simp] theorem State.creditOpenAll_frame (s : State) (l : List CompNo) :
    (s.creditOpenAll l).pending = s.pending ∧ (s.creditOpenAll l).power = s.power ∧ (s.creditOpenAll l).scan = s.scan ∧
    (s.creditOpenAll l).comps = s.comps ∧ (s.creditOpenAll l).logInterval = s.logInterval ∧
    (s.creditOpenAll l).hatch = s.hatch ∧ (s.creditOpenAll l).log = s.log ∧
    (s.creditOpenAll l).handoverLimit = s.handoverLimit ∧ (s.creditOpenAll l).claims = s.claims ∧
    (s.creditOpenAll l).notices = s.notices ∧ (s.creditOpenAll l).offsets = s.offsets ∧
    (s.creditOpenAll l).settings = s.settings ∧ (s.creditOpenAll l).label = s.label ∧ (s.creditOpenAll l).clock = s.clock ∧
    (s.creditOpenAll l).link = s.link ∧ (s.creditOpenAll l).identity = s.identity ∧ (s.creditOpenAll l).free = s.free := by
  induction l generalizing s <;> simp only [State.creditOpenAll, *] <;> simp [*]

@[simp] theorem State.restartAs_frame (s : State) (r : StartReason) (n : Nat) :
    (s.restartAs r n).pending = s.pending ∧ (s.restartAs r n).power = s.power ∧
    (s.restartAs r n).identity = s.identity := by
  unfold State.restartAs
  simp

@[simp] theorem State.powerUp_frame (s : State) (absence : Nat) (held : Bool) :
    (s.powerUp absence held).pending = s.pending ∧ (s.powerUp absence held).identity = s.identity := by
  unfold State.powerUp
  simp

@[simp] theorem State.failSupply_frame (s : State) (cellGood : Bool) :
    (s.failSupply cellGood).pending = s.pending ∧ (s.failSupply cellGood).scan = s.scan ∧
    (s.failSupply cellGood).comps = s.comps ∧ (s.failSupply cellGood).logInterval = s.logInterval ∧
    (s.failSupply cellGood).hatch = s.hatch ∧ (s.failSupply cellGood).log = s.log ∧
    (s.failSupply cellGood).slots = s.slots ∧ (s.failSupply cellGood).handoverLimit = s.handoverLimit ∧
    (s.failSupply cellGood).claims = s.claims ∧ (s.failSupply cellGood).offsets = s.offsets ∧
    (s.failSupply cellGood).settings = s.settings ∧ (s.failSupply cellGood).label = s.label ∧
    (s.failSupply cellGood).identity = s.identity ∧ (s.failSupply cellGood).free = s.free := by
  unfold State.failSupply
  (repeat' split) <;> simp

@[simp] theorem State.count_frame (s : State) (f : LinkCounts → LinkCounts) :
    (s.count f).pending = s.pending ∧ (s.count f).power = s.power ∧ (s.count f).scan = s.scan ∧
    (s.count f).comps = s.comps ∧ (s.count f).logInterval = s.logInterval ∧ (s.count f).hatch = s.hatch ∧
    (s.count f).log = s.log ∧ (s.count f).slots = s.slots ∧ (s.count f).handoverLimit = s.handoverLimit ∧
    (s.count f).claims = s.claims ∧ (s.count f).notices = s.notices ∧ (s.count f).offsets = s.offsets ∧
    (s.count f).settings = s.settings ∧ (s.count f).label = s.label ∧ (s.count f).clock = s.clock ∧
    (s.count f).identity = s.identity ∧ (s.count f).free = s.free := by
  simp [State.count, State.updLink]

@[simp] theorem State.sendReply_frame (s : State) (f : Frame) :
    (s.sendReply f).pending = s.pending ∧ (s.sendReply f).power = s.power ∧ (s.sendReply f).scan = s.scan ∧
    (s.sendReply f).comps = s.comps ∧ (s.sendReply f).logInterval = s.logInterval ∧ (s.sendReply f).hatch = s.hatch ∧
    (s.sendReply f).log = s.log ∧ (s.sendReply f).slots = s.slots ∧ (s.sendReply f).handoverLimit = s.handoverLimit ∧
    (s.sendReply f).claims = s.claims ∧ (s.sendReply f).notices = s.notices ∧ (s.sendReply f).offsets = s.offsets ∧
    (s.sendReply f).settings = s.settings ∧ (s.sendReply f).label = s.label ∧ (s.sendReply f).clock = s.clock ∧
    (s.sendReply f).identity = s.identity ∧ (s.sendReply f).free = s.free := by
  unfold State.sendReply
  simp [State.updLink]

@[simp] theorem State.sendNotice_frame (s : State) :
    (s.sendNotice).pending = s.pending ∧ (s.sendNotice).power = s.power ∧ (s.sendNotice).scan = s.scan ∧
    (s.sendNotice).comps = s.comps ∧ (s.sendNotice).logInterval = s.logInterval ∧ (s.sendNotice).hatch = s.hatch ∧
    (s.sendNotice).log = s.log ∧ (s.sendNotice).slots = s.slots ∧ (s.sendNotice).handoverLimit = s.handoverLimit ∧
    (s.sendNotice).claims = s.claims ∧ (s.sendNotice).offsets = s.offsets ∧ (s.sendNotice).settings = s.settings ∧
    (s.sendNotice).label = s.label ∧ (s.sendNotice).clock = s.clock ∧ (s.sendNotice).identity = s.identity ∧
    (s.sendNotice).free = s.free := by
  unfold State.sendNotice
  (repeat' split) <;> simp [State.updLink]

@[simp] theorem State.offer_frame (s : State) :
    (s.offer).pending = s.pending ∧ (s.offer).power = s.power ∧ (s.offer).scan = s.scan ∧ (s.offer).comps = s.comps ∧
    (s.offer).logInterval = s.logInterval ∧ (s.offer).hatch = s.hatch ∧ (s.offer).log = s.log ∧ (s.offer).slots = s.slots ∧
    (s.offer).handoverLimit = s.handoverLimit ∧ (s.offer).claims = s.claims ∧ (s.offer).offsets = s.offsets ∧
    (s.offer).settings = s.settings ∧ (s.offer).label = s.label ∧ (s.offer).clock = s.clock ∧
    (s.offer).identity = s.identity ∧ (s.offer).free = s.free := by
  unfold State.offer
  (repeat' split) <;> simp

@[simp] theorem State.formReply_frame (s : State) (f : Frame) :
    (s.formReply f).pending = s.pending ∧ (s.formReply f).power = s.power ∧ (s.formReply f).scan = s.scan ∧
    (s.formReply f).comps = s.comps ∧ (s.formReply f).logInterval = s.logInterval ∧ (s.formReply f).hatch = s.hatch ∧
    (s.formReply f).log = s.log ∧ (s.formReply f).slots = s.slots ∧ (s.formReply f).handoverLimit = s.handoverLimit ∧
    (s.formReply f).claims = s.claims ∧ (s.formReply f).notices = s.notices ∧ (s.formReply f).offsets = s.offsets ∧
    (s.formReply f).settings = s.settings ∧ (s.formReply f).label = s.label ∧ (s.formReply f).clock = s.clock ∧
    (s.formReply f).identity = s.identity ∧ (s.formReply f).free = s.free := by
  unfold State.formReply
  simp [State.updLink]

@[simp] theorem State.takeRestart_frame (s : State) (tag : Byte) :
    (s.takeRestart tag).pending = s.pending ∧ (s.takeRestart tag).power = s.power ∧
    (s.takeRestart tag).identity = s.identity := by
  unfold State.takeRestart
  simp [State.updLink]

@[simp] theorem State.perform_frame (s : State) (r : Request) :
    (s.perform r).2.pending = s.pending ∧ (s.perform r).2.power = s.power ∧ (s.perform r).2.link = s.link ∧
    (s.perform r).2.identity = s.identity ∧ (s.perform r).2.free = s.free := by
  cases r <;> simp [State.perform]

@[simp] theorem State.take_frame (s : State) (tag : Byte) (r : Request) :
    (s.take tag r).pending = s.pending ∧ (s.take tag r).power = s.power ∧ (s.take tag r).identity = s.identity := by
  unfold State.take
  (repeat' split) <;> simp

@[simp] theorem State.takeFrame_frame (s : State) (f : Frame) :
    (s.takeFrame f).pending = s.pending ∧ (s.takeFrame f).power = s.power ∧ (s.takeFrame f).identity = s.identity := by
  unfold State.takeFrame
  (repeat' split) <;> simp

@[simp] theorem State.takeHead_frame (s : State) :
    (s.takeHead).pending = s.pending ∧ (s.takeHead).power = s.power ∧ (s.takeHead).identity = s.identity := by
  unfold State.takeHead
  (repeat' split) <;> simp [State.updLink]

@[simp] theorem State.pump_frame (s : State) :
    (s.pump).pending = s.pending ∧ (s.pump).power = s.power ∧ (s.pump).identity = s.identity := by
  unfold State.pump
  simp

@[simp] theorem State.finishFrame_frame (s : State) :
    (s.finishFrame).pending = s.pending ∧ (s.finishFrame).power = s.power ∧ (s.finishFrame).scan = s.scan ∧
    (s.finishFrame).comps = s.comps ∧ (s.finishFrame).logInterval = s.logInterval ∧ (s.finishFrame).hatch = s.hatch ∧
    (s.finishFrame).log = s.log ∧ (s.finishFrame).slots = s.slots ∧ (s.finishFrame).handoverLimit = s.handoverLimit ∧
    (s.finishFrame).claims = s.claims ∧ (s.finishFrame).offsets = s.offsets ∧ (s.finishFrame).settings = s.settings ∧
    (s.finishFrame).label = s.label ∧ (s.finishFrame).clock = s.clock ∧ (s.finishFrame).identity = s.identity ∧
    (s.finishFrame).free = s.free := by
  unfold State.finishFrame
  dsimp only
  (repeat' split) <;> simp [State.updLink]

@[simp] theorem State.enqueue_frame (s : State) (f : Frame) :
    (s.enqueue f).pending = s.pending ∧ (s.enqueue f).power = s.power ∧ (s.enqueue f).scan = s.scan ∧
    (s.enqueue f).comps = s.comps ∧ (s.enqueue f).logInterval = s.logInterval ∧ (s.enqueue f).hatch = s.hatch ∧
    (s.enqueue f).log = s.log ∧ (s.enqueue f).slots = s.slots ∧ (s.enqueue f).handoverLimit = s.handoverLimit ∧
    (s.enqueue f).claims = s.claims ∧ (s.enqueue f).notices = s.notices ∧ (s.enqueue f).offsets = s.offsets ∧
    (s.enqueue f).settings = s.settings ∧ (s.enqueue f).label = s.label ∧ (s.enqueue f).clock = s.clock ∧
    (s.enqueue f).identity = s.identity ∧ (s.enqueue f).free = s.free := by
  unfold State.enqueue
  (repeat' split) <;> simp [State.updLink]

@[simp] theorem State.accept_frame (s : State) (f : Frame) :
    (s.accept f).pending = s.pending ∧ (s.accept f).power = s.power ∧ (s.accept f).identity = s.identity := by
  unfold State.accept
  (repeat' split) <;> simp

@[simp] theorem State.hunt_frame (s : State) :
    (s.hunt).pending = s.pending ∧ (s.hunt).power = s.power ∧ (s.hunt).scan = s.scan ∧ (s.hunt).comps = s.comps ∧
    (s.hunt).logInterval = s.logInterval ∧ (s.hunt).hatch = s.hatch ∧ (s.hunt).log = s.log ∧ (s.hunt).slots = s.slots ∧
    (s.hunt).handoverLimit = s.handoverLimit ∧ (s.hunt).claims = s.claims ∧ (s.hunt).notices = s.notices ∧
    (s.hunt).offsets = s.offsets ∧ (s.hunt).settings = s.settings ∧ (s.hunt).label = s.label ∧ (s.hunt).clock = s.clock ∧
    (s.hunt).identity = s.identity ∧ (s.hunt).free = s.free := by
  unfold State.hunt
  simp [State.updLink]

@[simp] theorem State.assemble_frame (s : State) (bytes : List Byte) :
    (s.assemble bytes).pending = s.pending ∧ (s.assemble bytes).power = s.power ∧
    (s.assemble bytes).identity = s.identity := by
  unfold State.assemble
  (repeat' split) <;> simp [State.updLink]

@[simp] theorem State.receive_frame (s : State) (b : LineByte) :
    (s.receive b).pending = s.pending ∧ (s.receive b).power = s.power ∧ (s.receive b).identity = s.identity := by
  unfold State.receive
  (repeat' split) <;> simp [State.updLink]

@[simp] theorem State.receiveAll_frame (s : State) (l : List LineByte) :
    (s.receiveAll l).pending = s.pending ∧ (s.receiveAll l).power = s.power ∧ (s.receiveAll l).identity = s.identity := by
  induction l generalizing s <;> simp only [State.receiveAll, *] <;> (try (repeat' split)) <;> simp [*]

@[simp] theorem State.silence_frame (s : State) :
    (s.silence).pending = s.pending ∧ (s.silence).power = s.power ∧ (s.silence).scan = s.scan ∧
    (s.silence).comps = s.comps ∧ (s.silence).logInterval = s.logInterval ∧ (s.silence).hatch = s.hatch ∧
    (s.silence).log = s.log ∧ (s.silence).slots = s.slots ∧ (s.silence).handoverLimit = s.handoverLimit ∧
    (s.silence).claims = s.claims ∧ (s.silence).notices = s.notices ∧ (s.silence).offsets = s.offsets ∧
    (s.silence).settings = s.settings ∧ (s.silence).label = s.label ∧ (s.silence).clock = s.clock ∧
    (s.silence).identity = s.identity ∧ (s.silence).free = s.free := by
  unfold State.silence
  split <;> simp

end Sys2Proof.Machine
end

