-- ==== Sys2Proof/Laws/Settings.lean ====
section
/-! SUPPORT. When a place of the saved image is valid, for each way in which a place is written, and that none is in the
Settings Store a part leaves manufacture with. -/

namespace Sys2Proof.Machine

theorem wrongCheck_ne (right : Word) : wrongCheck right ≠ right := by
  intro h
  have h0 : (if Config.writeDamage right = 0 then (1 : Word) else Config.writeDamage right) = 0 := by
    have := congrArg (right ^^^ ·) h
    simpa [wrongCheck, ← BitVec.xor_assoc] using this
  split at h0
  · exact absurd h0 (by decide)
  · contradiction

@[simp] theorem Place.valid_sound (image : WorkingConfig) (count : Word) : (Place.sound image count).valid = true := by
  simp [Place.valid, Place.sound]

@[simp] theorem Place.valid_broken (image : WorkingConfig) (count : Word) : (Place.broken image count).valid = false := by
  simp [Place.valid, Place.broken, wrongCheck_ne]

@[simp] theorem Place.valid_written (image : WorkingConfig) (count : Word) (matched : Bool) :
    (Place.written image count matched).valid = matched := by
  cases matched <;> simp [Place.written]

@[simp] theorem Place.written_contents (image : WorkingConfig) (count : Word) (matched : Bool) :
    (Place.written image count matched).image = image ∧ (Place.written image count matched).count = count := by
  cases matched <;> exact ⟨rfl, rfl⟩

/-- The image check of the default configuration under count 0 is not 0. Its 187 bytes are taken in four runs. -/
theorem imageCheck_default : imageCheck .default 0 ≠ 0 := by
  have e : WorkingConfig.default.bytes ++ le32 (0 : Word).toNat
      = WorkingConfig.default.bytes.take 48 ++ ((WorkingConfig.default.bytes.drop 48).take 48
        ++ ((WorkingConfig.default.bytes.drop 96).take 48 ++ (WorkingConfig.default.bytes.drop 144 ++ le32 0))) := by
    decide +kernel
  have h1 : (WorkingConfig.default.bytes.take 48).foldl crc32Byte 0xFFFFFFFF#32 = BitVec.ofNat 32 531092388 := by decide +kernel
  have h2 : ((WorkingConfig.default.bytes.drop 48).take 48).foldl crc32Byte (BitVec.ofNat 32 531092388)
      = BitVec.ofNat 32 1321096323 := by decide +kernel
  have h3 : ((WorkingConfig.default.bytes.drop 96).take 48).foldl crc32Byte (BitVec.ofNat 32 1321096323)
      = BitVec.ofNat 32 3990533451 := by decide +kernel
  have h4 : (WorkingConfig.default.bytes.drop 144 ++ le32 0).foldl crc32Byte (BitVec.ofNat 32 3990533451)
      = BitVec.ofNat 32 3141651678 := by decide +kernel
  rw [imageCheck, crc32, e, List.foldl_append, h1, List.foldl_append, h2, List.foldl_append, h3, h4]
  decide

/-- A part that has saved nothing has no current place (R183, R185). Log entry 5. -/
@[simp] theorem reset_current : State.reset.settings.current = none := by
  have h : Place.valid ⟨.default, 0, 0⟩ = false := by
    simpa [Place.valid] using (Ne.symm imageCheck_default)
  have h0 : State.reset.settings.place0 = ⟨.default, 0, 0⟩ := rfl
  have h1 : State.reset.settings.place1 = ⟨.default, 0, 0⟩ := rfl
  rw [SettingsStore.current, h0, h1, h]

/-- Such a part restores the defaults (R185 step 3). -/
@[simp] theorem reset_image : State.reset.settings.image = .default := by rw [SettingsStore.image, reset_current]

/-- The first save of a part goes to place 0 with count 1 (R183). -/
theorem SettingsStore.startSave_first {x : SettingsStore} (h : x.current = none) (image : WorkingConfig) :
    (x.startSave image).saving = some ⟨image, 1, true⟩ := by
  simp [SettingsStore.startSave, SettingsStore.target, SettingsStore.nextCount, SettingsStore.count, h]

/-- Start-up finds nothing to settle in its Settings Store (R185). -/
@[simp] theorem reset_started (landed : Bool) : State.reset.settings.started landed = State.reset.settings := by
  have h : State.reset.settings.settle landed = State.reset.settings := rfl
  rw [SettingsStore.started, h, SettingsStore.sourceNow, reset_current]
  rfl

end Sys2Proof.Machine
end

