-- ==== Sys2Proof/Laws/Timers.lean ====
section
/-! SUPPORT. The passing of seconds: what each operation over the timers of whole seconds leaves as it was, and how
spans of seconds follow one another. -/

namespace Sys2Proof.Machine

@[simp] theorem State.fire_frame (s : State) (e : TimerEvent) :
    (s.fire e).pending = s.pending ∧ (s.fire e).power = s.power ∧ (s.fire e).identity = s.identity := by
  unfold State.fire
  split <;> simp

@[simp] theorem State.fireAll_frame (s : State) (l : List TimerEvent) :
    (s.fireAll l).pending = s.pending ∧ (s.fireAll l).power = s.power ∧ (s.fireAll l).identity = s.identity := by
  induction l generalizing s <;> simp [State.fireAll, *]

@[simp] theorem State.passTo_frame (s : State) (n : Nat) :
    (s.passTo n).pending = s.pending ∧ (s.passTo n).power = s.power ∧ (s.passTo n).identity = s.identity := by
  induction n generalizing s <;> simp [State.passTo, *]

@[simp] theorem State.nextTick_frame (s : State) :
    (s.nextTick).pending = s.pending ∧ (s.nextTick).power = s.power ∧ (s.nextTick).identity = s.identity := by
  simp [State.nextTick]

@[simp] theorem State.longOpenExpiry_frame (s : State) (c : CompNo) :
    (s.longOpenExpiry c).pending = s.pending ∧ (s.longOpenExpiry c).power = s.power ∧
    (s.longOpenExpiry c).identity = s.identity := by
  unfold State.longOpenExpiry
  split <;> simp

@[simp] theorem State.handoverLapse_frame (s : State) (i : SlotNo) :
    (s.handoverLapse i).pending = s.pending ∧ (s.handoverLapse i).power = s.power ∧
    (s.handoverLapse i).identity = s.identity := by
  unfold State.handoverLapse
  split <;> simp

/-- A span of seconds is passed in two parts. -/
theorem State.passTo_add (s : State) (a b : Nat) : s.passTo (a + b) = (s.passTo a).passTo b := by
  induction a generalizing s with
  | zero => simp [State.passTo]
  | succ a ih => rw [Nat.add_right_comm, State.passTo, State.passTo, ih]

theorem satTime_add (a b c : Nat) : satTime (satTime (a + b) + c) = satTime (a + (b + c)) := by
  simp only [satTime]; omega

theorem sat32_add (a b c : Nat) : sat32 (sat32 (a + b) + c) = sat32 (a + (b + c)) := by
  simp only [sat32]; omega

theorem DeviceClock.elapse_elapse (k : DeviceClock) (a b : Nat) :
    (k.elapse a).elapse b = k.elapse (a + b) := by
  simp only [DeviceClock.elapse, satTime_add]
  split <;> rfl

theorem Opening.elapse_elapse (o : Opening) (a b : Nat) : (o.elapse a).elapse b = o.elapse (a + b) := by
  simp only [Opening.elapse]
  split <;> simp_all [sat32_add]

/-- Two spans of seconds in which nothing else happens are one. -/
theorem State.elapse_elapse (s : State) (a b : Nat) : (s.elapse a).elapse b = s.elapse (a + b) := by
  have h : mapAll (Opening.elapse b) (mapAll (Opening.elapse a) s.hatch.openings)
      = mapAll (Opening.elapse (a + b)) s.hatch.openings :=
    table_ext fun i => by simp only [getElem_mapAll, Opening.elapse_elapse]
  simp only [State.elapse, DeviceClock.elapse_elapse, h, Nat.sub_sub]

theorem State.after_succ (s : State) (n : Nat) : (s.elapse 1).after n = s.after (n + 1) := by
  cases n with
  | zero => rfl
  | succ n => simp only [State.after, State.elapse_elapse, Nat.add_comm 1]

/-- Where no timer event falls, passing seconds is nothing but their passing. -/
theorem State.passTo_calm {s : State} {n : Nat} (h : s.calmFor n) : s.passTo n = s.after n := by
  induction n generalizing s with
  | zero => rfl
  | succ n ih =>
    have h0 : s.due = [] := h 0 (Nat.succ_pos n)
    have h1 : (s.elapse 1).calmFor n := fun k hk => by
      rw [State.after_succ]; exact h (k + 1) (Nat.succ_lt_succ hk)
    rw [State.passTo, h0, State.fireAll, ih h1, State.after_succ]

end Sys2Proof.Machine
end

