-- ==== Sys2Proof/Tests/Slice0.lean ====
section
/-! SUPPORT. Tests: ill-formed commands refused, worked examples of spec/ with the figures spec/ prints, the part's
first start-up, and for each obligation with hypotheses a theorem `witness_<Name>` that meets them. -/

namespace Sys2Proof.Tests

open Sys2Proof.Machine

set_option Elab.async false

/-! ### Well-formedness refuses -/

/-- A RECORD of 71 bytes (R99). -/
theorem test_wf_record_of_71_bytes_refused :
    (Instr.custodyIn 0 1 0 1 0 (.record (List.replicate 71 0))).wellFormed = false := by decide

/-- A mode byte 1 is no unnamed mode, and an unnamed mode stands in 11, 21 or 83 bytes (R200). -/
theorem test_wf_unnamed_mode_refused :
    (Instr.custodyIn 0 1 0 1 0 (.unnamed 2 [])).wellFormed = false ∧
    (Instr.custodyIn 0 1 0 1 0 (.unnamed 3 [0])).wellFormed = false ∧
    (Instr.custodyIn 0 1 0 1 0 (.unnamed 3 [])).wellFormed = true := by decide

/-- Kind 0x01 is in Table 11-3, and a payload has at most 1024 bytes (R197, R200). -/
theorem test_wf_unknown_kind_refused :
    (Instr.unknownKind 0x01 0 []).wellFormed = false ∧ (Instr.unknownKind 0x81 0 []).wellFormed = true := by decide

theorem test_wf_long_payload_refused :
    (Instr.unknownKind 0x0A 0 (List.replicate 1025 0)).wellFormed = false := by decide +kernel

/-! ### Checks -/

/-- The bytes "123456789". -/
def digits : List Byte := [0x31, 0x32, 0x33, 0x34, 0x35, 0x36, 0x37, 0x38, 0x39]

/-- The check value of R72. -/
theorem test_crc32_check_value : crc32 digits = 0xE3069283 := by decide +kernel

/-- The check value of R197. -/
theorem test_crc16_check_value : crc16 digits = 0x29B1 := by decide +kernel

/-! ### Scanner arithmetic -/

/-- The extremes of R13 and the conversions of its worked table. -/
theorem test_convert_worked : convert 1360 = 8500 ∧ convert (-880) = -5500 ∧ convert (-298) = -1863 ∧ convert 2 = 13 ∧
    convert (-2) = -13 ∧ convert 1 = 6 ∧ convert (-150) = -938 ∧ convert 0 = 0 := by decide

/-- The worked conversion of spec/01 section 1.4: raw −298 with offset +4 gives −1843. -/
theorem test_calibrate_worked : calibrate (-298) 4 = -1843 ∧ calibrate 1360 127 = 8500 ∧ calibrate (-880) (-1) = -5500 := by
  decide

/-- Table 1-3. -/
theorem test_range_wraps : (ScanRange.mk 14 1).entries = [14, 15, 0, 1] ∧ (ScanRange.mk 3 3).entries = [3] ∧
    (ScanRange.mk 0 15).entries.length = 16 ∧ (ScanRange.mk 9 8).entries.length = 16 := by decide

/-! ### States -/

/-- The part after its first start-up, its clock set. -/
def timed : State := State.reset.withClock ⟨.valid, 1000, 1000, 500⟩

/-- The transmitter has finished its notice. -/
def idle : State := timed.withLink { timed.link with transmitter := .idle }

/-- A reply waits behind the notice being sent. -/
def waiting : State := timed.withLink { timed.link with reply := some ⟨0x81, 1, [0]⟩ }

/-- Four frames wait. -/
def crowded : State :=
  waiting.withLink { waiting.link with queue := List.replicate 4 (requestFrame 2 .logStatus) }

/-- VDD is absent. -/
def dark : State := timed.withPower .off

/-- The entry of the worked cycle of spec/01 section 1.8 with the shortest settle time. -/
def probe : ScanEntry := ⟨21, some 0, .exposure, 10, .slotB, 0⟩

/-- A scanner in READING, with entry 3's exchange open and two failures counted. -/
def reading : State :=
  timed.withScan
    { timed.scan with
      entries := setAt timed.scan.entries 3 probe, state := .reading, read := some ⟨3, probe, .exchanging⟩,
      failures := setAt timed.scan.failures 3 2 }

/-- The same in HALTING. -/
def halting : State := reading.withScan { reading.scan with state := .halting }

/-- A scanner in STOPPED. -/
def stopped : State := timed.withScan { timed.scan with state := .stopped }

/-- The same scan list with entry 5 used too, WAITING over a range; and in READING over it, entry 3's exchange open. -/
def cycling (r : ScanRange) : State :=
  timed.withScan { timed.scan with entries := setAt (setAt timed.scan.entries 3 probe) 5 probe, range := r }
def readingOf (r : ScanRange) : State :=
  (cycling r).withScan { (cycling r).scan with state := .reading, read := some ⟨3, probe, .exchanging⟩ }

/-- Compartment 0 at a held value of −1500, one miss behind it, WARM. -/
def holding : State :=
  timed.setComp 0 { timed.comps[0] with
    knowledge := .holding, band := .warm, held := some (-1500), misses := 1, lastStep := ⟨990, false⟩,
    interval := .opening ⟨990, false⟩ }

/-- Consignment 7 in custody in compartment 0. -/
def inSlot : Slot :=
  { Slot.blank with identifier := 7, state := .inCustody, inTime := 900, inSeq := 1, limit := 5000, lastAccounted := 990 }

/-- A part with that consignment. -/
def laden : State := holding.setSlot 0 inSlot

/-- The same in HANDING_OVER, due at 1005. -/
def handing : State := laden.setSlot 0 { inSlot with state := .handingOver, handover := some ⟨995, 1005⟩ }

/-- The same with another deadline. -/
def handingUntil (deadline : Nat) : State :=
  laden.setSlot 0 { inSlot with state := .handingOver, handover := some ⟨995, deadline⟩ }

/-- The same consignment in custody in a compartment that is disabled. -/
def disabled : State :=
  laden.setComp 0 { laden.comps[0] with settings := { laden.comps[0].settings with enabled := false } }

/-- The same HANDED_OVER. -/
def handed : State :=
  laden.setSlot 0
    { inSlot with
      state := .handedOver, out := some ⟨1000, 2, 9, .accepted⟩, proof := some (List.replicate 72 0) }

/-- An open claim 5 on consignment 7. -/
def claim : Claim := ⟨5, 7, 0, 1, 1, ⟨1000, false⟩, .opened⟩

/-- A part with that claim and its hold. -/
def claimed : State :=
  ((laden.setClaim 0 (some claim)).withLog { laden.log with holds := setAt laden.log.holds 0 (some ⟨1, none⟩) }).setSlot 0
    { inSlot with openClaims := 1 }

/-- The same with the claim ASSESSING, its walk at record 1 of 2. -/
def walking : State :=
  (claimed.setClaim 0
    (some { claim with phase := .assessing (claimed.snapshot 0 inSlot) (startWalk claim (claimed.snapshot 0 inSlot)) })).withQueue
    [0]

/-- The same with the walk at its last record. -/
def walkingLast : State :=
  walking.setClaim 0 (some
    { claim with
      phase := .assessing (claimed.snapshot 0 inSlot)
        { startWalk claim (claimed.snapshot 0 inSlot) with position := 2 } })

/-- The log HELD_FULL over the held record 1, nothing merged. -/
def heldFull : State :=
  claimed.withLog { claimed.log with heldFull := true, heldSince := some ⟨950, false⟩, hatchLost := 3 }

/-- An input with its debounce timer running, settled SHUT, its contact now broken, naming compartment 0. -/
def opening : State := timed.setInput 2 ⟨⟨some 0, .openOnBreak, .openLevel, false⟩, false, .shut, some 5, 0⟩

/-- Compartment 0 open since 980, its long-open timer running. -/
def opened : State :=
  (laden.setOpening 0 ⟨.opening, some ⟨980, false⟩, 20, .running⟩).setInput 2
    ⟨⟨some 0, .openOnBreak, .off, true⟩, false, .opened, none, 0⟩

/-- The same input about to settle SHUT again. -/
def closing : State := opened.setInput 2 ⟨⟨some 0, .openOnBreak, .off, true⟩, true, .opened, some 5, 0⟩

/-- Compartment 0 open for a number of seconds, of the 120 of its long-open limit. -/
def openFor (seconds : Nat) : State := opened.setOpening 0 ⟨.opening, some ⟨980, false⟩, seconds, .running⟩

/-- A log of one record. -/
def soleLog (b : Body) (c : Option CompNo) (relative : Bool) : Log :=
  { Log.first with records := [⟨1, ⟨950, relative⟩, c, b, 0⟩] }

/-- An erase of slot A, and a program of entry 14 of slot B, in flight. -/
def erasing : State := timed.withOffsets (timed.offsets.begin (.erase .slotA))
def programming : State :=
  timed.withOffsets ((timed.offsets.begin (.program .slotB 14 6)).setEntry .slotB 14 .programming)

/-- A save in flight. -/
def saving : State := timed.withSettings (timed.settings.startSave timed.config)

theorem ready_reset : State.reset.ready := ⟨rfl, rfl, rfl⟩
theorem ready_timed : timed.ready := ⟨rfl, rfl, rfl⟩
theorem ready_idle : idle.ready := ⟨rfl, rfl, rfl⟩
theorem ready_reading : reading.ready := ⟨rfl, rfl, rfl⟩
theorem ready_halting : halting.ready := ⟨rfl, rfl, rfl⟩
theorem ready_stopped : stopped.ready := ⟨rfl, rfl, rfl⟩
theorem ready_laden : laden.ready := ⟨rfl, rfl, rfl⟩
theorem ready_handing : handing.ready := ⟨rfl, rfl, rfl⟩
theorem ready_disabled : disabled.ready := ⟨rfl, rfl, rfl⟩
theorem ready_handed : handed.ready := ⟨rfl, rfl, rfl⟩
theorem ready_claimed : claimed.ready := ⟨rfl, rfl, rfl⟩
theorem ready_walking : walking.ready := ⟨rfl, rfl, rfl⟩
theorem ready_opened : opened.ready := ⟨rfl, rfl, rfl⟩
theorem ready_erasing : erasing.ready := ⟨rfl, rfl, rfl⟩
theorem ready_programming : programming.ready := ⟨rfl, rfl, rfl⟩
theorem ready_saving : saving.ready := ⟨rfl, rfl, rfl⟩

/-- A ready state whose transmitter has no reply waiting is quiet. -/
theorem quiet_of_ready {s : State} (h : s.ready) : s.quiet := ⟨h.1, fun _ => h.2.1, fun _ => h.2.2⟩

theorem quiet_opening : opening.quiet := quiet_of_ready ⟨rfl, rfl, rfl⟩
theorem quiet_closing : closing.quiet := quiet_of_ready ⟨rfl, rfl, rfl⟩
theorem quiet_walkingLast : walkingLast.quiet := quiet_of_ready ⟨rfl, rfl, rfl⟩
theorem quiet_waiting : waiting.quiet := by unfold State.quiet; decide +kernel

/-! ### The first start-up -/

/-- A part as it leaves manufacture, VDD absent: log empty, clock UNSET, nothing saved (R70, R97, R137, R174, R188). -/
def manufactured : State :=
  { State.reset with
    power := .off
    log := { Log.first with records := [], nextSeq := 1, chain := 0xFFFFFFFF }
    notices := State.reset.notices.emptied
    link := State.reset.link.started
    free := 0 }

/-- Its first POWER_ON leaves State.reset, but for the counter, whose value means nothing (R188, R193). Log entries 5
and 7. -/
theorem test_reset_is_the_first_power_on :
    (manufactured.powerUp 0 false).pump.withClock State.reset.clock = State.reset := by
  have h : ∀ k : DeviceClock, (((manufactured.withPower .on).withClock k).startBlocks).settings = State.reset.settings ∧
      ((manufactured.withPower .on).withClock k).startBlocks
        = { ((manufactured.withPower .on).withClock k) with
            scan := .started .default
            comps := ((manufactured.withPower .on).withClock k).startedComps .default
            logInterval := 6
            hatch := State.reset.hatch.started .default
            handoverLimit := 300
            claims := State.reset.claims.restarted 0
            notices := { State.reset.notices.emptied with enables := Vector.replicate 18 true }
            offsets := State.reset.offsets.settle
            link := State.reset.link.started
            clock := { k with uptime := 0 } } := fun k => by
    have e : ((manufactured.withPower .on).withClock k).settings = State.reset.settings := rfl
    constructor
    · simp only [State.startBlocks, e, reset_started]
    · simp only [State.startBlocks, e, reset_started, reset_image]; rfl
  simp only [State.powerUp, State.startUp, h]
  decide +kernel

/-! ### Witnesses -/

/-- A command at the front of the queue, another behind it. -/
theorem witness_StepRunsTheFrontCommand :
    (timed.withPending [.scanStart 1, .transmitEnd]).pending = .scanStart 1 :: [.transmitEnd] := rfl

/-- VDD absent; an event due now; and one second before each kind of event. -/
theorem witness_EmptyQueuePassesOneSecond : (dark.pending = [] ∧ dark.power = .off) ∧
    ((timed.withScan { timed.scan with tickIn := 0 }).pending = [] ∧
      (timed.withScan { timed.scan with tickIn := 0 }).due = [.tick]) ∧
    ((timed.withScan { timed.scan with tickIn := 1 }).due = [] ∧
      ((timed.withScan { timed.scan with tickIn := 1 }).elapse 1).due = [.tick]) ∧
    ((openFor 119).pending = [] ∧ (openFor 119).due = [] ∧ ((openFor 119).elapse 1).due = [.longOpen 0]) ∧
    ((handingUntil 1001).pending = [] ∧ (handingUntil 1001).due = [] ∧ ((handingUntil 1001).elapse 1).due = [.lapse 0]) := by
  decide +kernel

theorem witness_SupplyFailureStopsThePart : timed.power = .on ∧ dark.power = .off ∧
    (∀ n b, Instr.scanStart 1 ≠ .powerOn n b) ∧ (∀ i b, Instr.scanStart 1 ≠ .rawChange i b) :=
  ⟨rfl, rfl, (by intro _ _ h; cases h), (by intro _ _ h; cases h)⟩

/-- A row and the bytes of a frame, at an empty queue, at three frames and at four. -/
theorem witness_RequestsWaitTheirTurn :
    (waiting.power = .on ∧ waiting.link.transmitter ≠ .idle ∧ waiting.link.reply.isSome = true ∧
      waiting.link.receiver = .hunting ∧ waiting.link.queue.length < 4) ∧
    (Instr.logStatus 2).frame? = some (requestFrame 2 .logStatus) ∧ (requestFrame 2 .logStatus).payload.length ≤ 1024 ∧
    (waiting.withLink { waiting.link with queue := List.replicate 3 (requestFrame 2 .logStatus) }).link.queue.length < 4 ∧
    (crowded.power = .on ∧ crowded.link.transmitter ≠ .idle ∧ crowded.link.reply.isSome = true ∧
      4 ≤ crowded.link.queue.length) := by decide +kernel

theorem witness_RowIsItsFrame : (Instr.labelSet 3 0x41).wellFormed = true ∧
    (Instr.labelSet 3 0x41).frame? = some (requestFrame 3 (.labelSet 0x41)) ∧ timed.power = .on ∧
    timed.link.receiver = .hunting := by decide +kernel

theorem witness_PayloadRoundTrip :
    (Request.custodyIn 7 0 5000 1 (.declared 0xFFFFFFFF 0xFFFF 1)).wellFormed = true ∧
    (Request.custodyIn 7 0 5000 1 (.record (List.replicate 72 0x5A))).wellFormed = true ∧
    (Request.custodyIn 7 0 5000 1 (.unnamed 3 (List.replicate 10 0))).wellFormed = true := by decide

/-- Kinds around the table, and a CUSTODY_IN of 10 bytes and of each mode at a length it has not. -/
theorem witness_FramesThatNameNoRequest : timed.ready ∧
    (0 : Byte).toNat ∉ requestKinds ∧ (0x0A : Byte).toNat ∉ requestKinds ∧ (0xFE : Byte).toNat ∉ requestKinds ∧
    (Request.scanStart.kind ≠ 0x28 ∧ [(0 : Byte)].length ≠ Request.scanStart.payload.length) ∧
    (List.replicate 10 (0 : Byte)).length < 11 ∧
    (byteAt (List.replicate 21 0) 10 = 0 ∧ (List.replicate 21 (0 : Byte)).length ≠ 11) ∧
    (byteAt (List.replicate 11 1) 10 = 1 ∧ (List.replicate 11 (1 : Byte)).length ≠ 83) ∧
    (byteAt (List.replicate 83 2) 10 = 2 ∧ (List.replicate 83 (2 : Byte)).length ≠ 21) ∧
    (2 < (byteAt (List.replicate 12 3) 10).toNat ∧ (List.replicate 12 (3 : Byte)).length ≠ 11 ∧
      (List.replicate 12 (3 : Byte)).length ≠ 21 ∧ (List.replicate 12 (3 : Byte)).length ≠ 83) :=
  ⟨ready_timed, by decide +kernel⟩

/-- An IDLE and a busy transmitter, an owed notice behind a reply and behind a notice, a waiting reply with and without
a queue, and nothing waiting. -/
theorem witness_TransmitterChoosesTheNextFrame :
    idle.link.transmitter = .idle ∧ timed.link.transmitter ≠ .idle ∧
    ((timed.withNotices { timed.notices with owed := true }).quiet ∧
      (timed.withNotices { timed.notices with owed := true }).link.transmitter = .sendingNotice .firstNotice ∧
      timed.link.reply = none ∧ timed.notices.anyPending = true) ∧
    (waiting.quiet ∧ waiting.link.reply = some ⟨0x81, 1, [0]⟩ ∧ waiting.link.queue = [] ∧
      waiting.link.transmitter = .sendingNotice .firstNotice) ∧
    (crowded.quiet ∧ crowded.link.reply = some ⟨0x81, 1, [0]⟩ ∧
      crowded.link.queue = requestFrame 2 .logStatus :: List.replicate 3 (requestFrame 2 .logStatus) ∧
      parse (requestFrame 2 .logStatus).kind (requestFrame 2 .logStatus).payload = .ok .logStatus) ∧
    (timed.quiet ∧ timed.link.reply = none ∧ timed.notices.owed = false) := by
  unfold State.quiet; decide +kernel

/-- An owed notice with nothing pending behind a reply, with a reply waiting, with a RESTART at the head of the queue and
with neither. -/
theorem witness_TransmitterChoosesTheNextFrame_withdrawn (q : List Frame) (h : q = [] ∨ q = [requestFrame 2 .restart]) :
    let s := (waiting.withLink
      { waiting.link with transmitter := .sendingReply ⟨0x81, 0, [0]⟩, queue := q }).withNotices
        { timed.notices.emptied with owed := true }
    (s.quiet ∧ s.link.reply = some ⟨0x81, 1, [0]⟩ ∧ s.notices.owed = true ∧ s.notices.anyPending = false) ∧
    (s.withLink { s.link with reply := none, queue := [] }).quiet ∧
    parse (requestFrame 2 .restart).kind (requestFrame 2 .restart).payload = .ok .restart := by
  unfold State.quiet; rcases h with rfl | rfl <;> decide +kernel

/-- An IDLE transmitter with a reply waiting, with nothing owed, and with a notice owed that is pending or not; a member
of the pending set without one above it. -/
theorem witness_TransmitterChoosesTheNextFrame_idle :
    (idle.withLink { idle.link with reply := some ⟨0x81, 1, [0]⟩ }).link.transmitter = .idle ∧
    (idle.link.transmitter = .idle ∧ idle.link.reply = none ∧ idle.notices.owed = false) ∧
    ((idle.withNotices { idle.notices with owed := true }).notices.owed = true ∧ idle.notices.anyPending = true ∧
      idle.notices.emptied.anyPending = false) ∧
    (idle.notices.lastNumber ≤ 255 ∧ idle.notices.members[(7 : Fin 18)] = true ∧
      ∀ j : Fin 18, j < 7 → idle.notices.members[j] = false) := by decide +kernel

/-- The notice of a first start-up with the clock UNSET, byte by byte from R168: number 1, CLOCK_LOST alone pending, its
place in Table 8-1 counted from 0, new, raised once, relative second 0. -/
theorem test_first_notice :
    (State.reset.withNotices { State.reset.notices with lastNumber := 0, fresh := State.reset.notices.members }).noticeFrame
      = ⟨0xFE, 0, [1, 0x80, 0, 0, 0, 7, 0x80, 0, 0, 0, 1, 1, 0, 0, 0, 0, 1]⟩ := by decide +kernel

/-- A hunting receiver, one that takes the second length byte 0x04 of a stated length of 1025, and one that takes the
last byte of an empty frame with a wrong check. -/
theorem witness_ReceiverDiscardsAndCounts :
    (timed.power = .on ∧ timed.link.receiver = .hunting) ∧
    ([(1 : Byte)].length = 1 ∧ 1024 < fieldAt ([(1 : Byte)] ++ [4]) 0 2) ∧
    (fieldAt ([0, 0, 5, 1, 0] ++ [0]) 0 2 = 0 ∧ ([0, 0, 5, 1, 0] : List Byte).length + 1 = 0 + 6 ∧
      halfAt ([0, 0, 5, 1, 0] ++ [0]) 4 ≠ crc16 (([0, 0, 5, 1, 0] ++ [0] : List Byte).take 4)) := by decide +kernel

theorem witness_ReceiverDiscardsAndCounts_linkOk : timed.linkOk ∧
    (timed.withLink { timed.link with receiver := .inFrame [1] }).linkOk ∧
    (timed.withLink { timed.link with receiver := .inFrame [0, 0, 5, 1, 0] }).linkOk := by
  unfold State.linkOk State.quiet; decide +kernel

/-- Each range at its boundary, the current entry 3, and another. -/
theorem witness_ScanEntriesAreWrittenAndRead : reading.ready ∧
    (15 < (16 : Byte).toNat ∧ 126 < (127 : Byte).toNat ∧ 3 < (4 : Byte).toNat ∧ (4 : Byte) ≠ 0xFF ∧
      1 < (2 : Byte).toNat) ∧
    ((15 : EntryNo).val = (15 : Byte).toNat ∧ (126 : Byte).toNat ≤ 126 ∧ numField (none : Option CompNo) = [0xFF] ∧
      numField (some (3 : CompNo)) = [3] ∧ Role.watch.code = (1 : Byte).toNat ∧
      OffsetSource.message.code = (3 : Byte).toNat ∧ (0x81 : Byte) ≠ 0x80) ∧
    reading.scan.isCurrent 3 = true ∧ reading.scan.isCurrent 15 = false := by
  exact ⟨ready_reading, by decide +kernel⟩

theorem witness_ScanRangeAndConfig : reading.ready ∧ stopped.ready ∧ timed.ready ∧ halting.ready ∧
    (15 < (16 : Byte).toNat ∧ (15 : EntryNo).val = (15 : Byte).toNat ∧ timed.scan.state = .waiting ∧
      stopped.scan.state = .stopped ∧ reading.scan.state = .reading ∧ halting.scan.state = .halting ∧
      1 < (2 : Byte).toNat ∧ ScanMode.single.code = (1 : Byte).toNat ∧ yesNo false = [0]) :=
  ⟨ready_reading, ready_stopped, ready_timed, ready_halting, by decide +kernel⟩

theorem witness_ScanStartHaltStop : (stopped.ready ∧ stopped.scan.state = .stopped) ∧ (timed.ready ∧ timed.scan.state = .waiting) ∧
    (reading.ready ∧ reading.scan.state = .reading) ∧ (halting.ready ∧ halting.scan.state = .halting) :=
  ⟨⟨ready_stopped, rfl⟩, ⟨ready_timed, rfl⟩, ⟨ready_reading, rfl⟩, ⟨ready_halting, rfl⟩⟩

/-- A scanner with counts to clear; consignments with and without a proof record, and one that is unknown; claims
likewise. -/
theorem witness_ReportsThatClearAndLookUp : reading.ready ∧
    (handed.ready ∧ handed.slotOf 7 = some 0 ∧ handed.slots[0].state = .handedOver ∧
      handed.slots[0].proof = some (List.replicate 72 0)) ∧
    (laden.ready ∧ laden.slotOf 7 = some 0 ∧ laden.slots[0].state ≠ .handedOver ∧ laden.slotOf 8 = none) ∧
    (claimed.ready ∧ claimed.claimOf 5 = some 0 ∧ claimed.claims.slots[0] = some claim ∧ claimed.claimOf 6 = none) :=
  ⟨ready_reading, ⟨ready_handed, by decide +kernel⟩, ⟨ready_laden, by decide +kernel⟩, ⟨ready_claimed, by decide +kernel⟩⟩

/-- Numbers at the ends of their ranges. -/
theorem witness_ReportsChangeNothing : laden.ready ∧ (3 : CompNo).val = (3 : Byte).toNat ∧ 3 < (4 : Byte).toNat ∧
    1 ≤ (1 : Byte).toNat ∧ (16 : Byte).toNat ≤ 16 ∧ 16 < (17 : Byte).toNat ∧ CalSlot.slotB.code = (1 : Byte).toNat ∧
    1 < (2 : Byte).toNat := ⟨ready_laden, by decide⟩

/-- A tick in each scanner state after a calm span; the cycle starts at a used first entry, and at a used entry behind
unused ones. -/
theorem witness_TickByScannerState :
    (stopped.quiet ∧ reading.quiet ∧ halting.quiet ∧ (cycling ⟨3, 5⟩).quiet) ∧ timed.calmFor timed.scan.tickIn ∧
    ((cycling ⟨3, 5⟩).scan.state = .waiting ∧ (cycling ⟨3, 5⟩).scan.writtenRange.first = 3 ∧
      (cycling ⟨3, 5⟩).scan.entries[(3 : EntryNo)] = probe ∧ probe.address ≠ 0) ∧
    ((cycling ⟨1, 5⟩).scan.state = .waiting ∧ (cycling ⟨1, 5⟩).scan.writtenRange.entries = [1, 2] ++ 3 :: [4, 5] ∧
      (∀ j ∈ ([1, 2] : List EntryNo), (cycling ⟨1, 5⟩).scan.entries[j].address = 0) ∧
      (cycling ⟨1, 5⟩).scan.entries[(3 : EntryNo)].address ≠ 0) :=
  ⟨⟨quiet_of_ready ready_stopped, quiet_of_ready ready_reading, quiet_of_ready ready_halting,
    quiet_of_ready ⟨rfl, rfl, rfl⟩⟩, by unfold State.calmFor; decide +kernel, by decide +kernel, by decide +kernel⟩

/-- The default scan list holds unused entries only (Table 1-4). -/
theorem witness_UnusedEntriesArePassedOver : timed.quiet ∧ timed.scan.state = .waiting ∧
    ∀ i ∈ timed.scan.writtenRange.entries, timed.scan.entries[i].address = 0 :=
  ⟨quiet_of_ready ready_timed, by decide +kernel⟩

/-- Answers at both ends of the accepted range, with slot B entry 3 blank; in HALTING; a read with an unused and a used
entry behind it, and the read of the last entry. -/
theorem witness_ValidReadEndsTheExchange : reading.quiet ∧ reading.scan.read = some ⟨3, probe, .exchanging⟩ ∧
    (-880 : Int) ≤ -880 ∧ (1360 : Int) ≤ 1360 ∧ probe.source = .slotB ∧
    reading.offsets.slotB[(3 : EntryNo)] = .blank ∧ halting.scan.state = .halting ∧
    ((readingOf ⟨3, 5⟩).scan.state = .reading ∧ (readingOf ⟨3, 5⟩).scan.range.entries = [] ++ 3 :: ([4] ++ 5 :: []) ∧
      (readingOf ⟨3, 5⟩).scan.entries[(4 : EntryNo)].address = 0 ∧
      (readingOf ⟨3, 5⟩).scan.entries[(5 : EntryNo)].address ≠ 0) ∧
    (readingOf ⟨2, 3⟩).scan.range.entries = [2] ++ 3 :: [] :=
  ⟨quiet_of_ready ready_reading, by decide +kernel, by decide, by decide, rfl, by decide +kernel, rfl, by decide +kernel,
    by decide +kernel⟩

/-- Two VALID readings of compartment 0 as EXPOSURE and one as WATCH, beside one that failed and one that names no
compartment. -/
def readings : List CycleItem :=
  [⟨0, .valid, some (-1500), some 0, .exposure⟩, ⟨1, .valid, some (-1200), some 0, .exposure⟩, ⟨2, .valid, some 5, some 0, .watch⟩,
    ⟨3, .noAnswer, none, some 1, .exposure⟩, ⟨4, .valid, some 9, none, .exposure⟩]

theorem witness_EveryCompartmentTakesItsStep :
    (∀ (c : CompNo) (x : Int), (if c = 0 then some (-1200) else none) = some x ↔
      (∃ i ∈ readings, i.outcome = .valid ∧ i.role = .exposure ∧ i.compartment = some c ∧ i.value = some x) ∧
      ∀ i ∈ readings, i.outcome = .valid → i.role = .exposure → i.compartment = some c → ∀ y, i.value = some y → y ≤ x) ∧
    (∀ (c : CompNo) (x : Int), (if c = 0 then some 5 else none) = some x ↔
      (∃ i ∈ readings, i.outcome = .valid ∧ i.role = .watch ∧ i.compartment = some c ∧ i.value = some x) ∧
      ∀ i ∈ readings, i.outcome = .valid → i.role = .watch → i.compartment = some c → ∀ y, i.value = some y → y ≤ x) := by
  constructor <;> intro c x <;> by_cases h : c = 0
  all_goals simp [readings, h, @eq_comm _ _ c]
  all_goals omega

/-- The third failure in a row of entry 3, outside the accepted range by one. -/
theorem witness_FailedReadCounts : reading.quiet ∧ reading.scan.read = some ⟨3, probe, .exchanging⟩ ∧ (-881 : Int) < -880 ∧
    (1360 : Int) < 1361 ∧ reading.scan.faults[(3 : EntryNo)] = false ∧ 2 ≤ reading.scan.failures[(3 : EntryNo)] ∧
    reading.notices.enables[Condition.probeFault.place] = true :=
  ⟨quiet_of_ready ready_reading, by decide +kernel⟩

/-- Both sides of each clamp of R15, and the means of spec/02. -/
theorem witness_ReadingArithmetic : convert (-880) + 5 * (-1) < -5500 ∧ 8500 < convert 1360 + 5 * 1 ∧
    -5500 ≤ convert (-880) + 5 * 0 ∧ convert 1360 + 5 * 0 ≤ 8500 ∧ 1 ≤ 1 := by decide

/-- The settings in force and others, at the ends of the clamps. -/
theorem witness_SettingsRecordTheirChange : timed.ready ∧ timed.logInterval = max 1 (min (6 : Byte).toNat 60) ∧
    timed.logInterval ≠ max 1 (min (0 : Byte).toNat 60) ∧ timed.handoverLimit = max 30 (min (300 : Half).toNat 1800) ∧
    timed.handoverLimit ≠ max 30 (min (1801 : Half).toNat 1800) ∧ timed.claims.allowance = min (0 : Word).toNat 86400 ∧
    timed.claims.allowance ≠ min (86401 : Word).toNat 86400 ∧ timed.label = 0 ∧ timed.label ≠ 1 :=
  ⟨ready_timed, by decide +kernel⟩

/-- Values at the ends of their ranges, a compartment named by a slot, one enabled afresh, one disabled, and one enabled
again over a consignment. -/
theorem witness_CompartmentSetWritesSettings : laden.ready ∧
    (3 < (4 : Byte).toNat ∧ (BitVec.ofInt 16 (-4001)).toInt < -4000 ∧ 0 < (1 : Half).toInt ∧
      (BitVec.ofInt 16 (-1701)).toInt < (BitVec.ofInt 16 (-1800)).toInt + 100 ∧ 1000 < (1001 : Half).toInt) ∧
    (-4000 ≤ (BitVec.ofInt 16 (-4000)).toInt ∧ (0 : Half).toInt ≤ 0 ∧ (1000 : Half).toInt ≤ 1000 ∧
      (BitVec.ofInt 16 (-1800)).toInt + 100 ≤ (BitVec.ofInt 16 (-1700)).toInt) ∧
    (yesNo false = [0] ∧ laden.comps[0].settings.enabled = true ∧ laden.slots[0].state ≠ .empty ∧
      laden.slots[0].compartment = 0) ∧
    (yesNo true = [1] ∧ laden.comps[3].settings.enabled = false) ∧
    (∀ i : SlotNo, timed.slots[i].state ≠ .empty → timed.slots[i].compartment ≠ 0) ∧
    (disabled.ready ∧ disabled.comps[0].settings.enabled = false ∧ disabled.clock.state = .valid ∧
      disabled.slots[0].heldIn 0 = true) :=
  ⟨ready_laden, by decide +kernel, by decide +kernel, by decide +kernel, by decide +kernel, by decide +kernel, ready_disabled,
    by decide +kernel⟩

/-- Compartment 0 without consignments, WARM, open for 20 seconds, one step in its interval, with an open member of the
pattern that names it: a limit of 10 overtakes its timer, and disabling it closes its interval and its band. -/
def emptied : State :=
  (opened.setComp 0 { opened.comps[0] with interval := { opened.comps[0].interval with steps := 1 } }).setSlot 0 .blank

theorem witness_CompartmentSetWritesSettings_disabling : emptied.ready ∧
    (∀ i : SlotNo, emptied.slots[i].state ≠ .empty → emptied.slots[i].compartment ≠ 0) ∧
    emptied.comps[0].settings.enabled = true ∧ 0 < emptied.comps[0].interval.steps ∧ emptied.comps[0].band ≠ .unset ∧
    (emptied.hatch.inputs[2].settings.member = true ∧ emptied.hatch.inputs[2].settings.compartment = some 0) ∧
    (emptied.hatch.openings[0].state = .opening ∧ emptied.hatch.openings[0].timer = .running ∧
      max 10 (min (0 : Half).toNat 3600) ≠ emptied.comps[0].settings.longOpenLimit ∧
      max 10 (min (0 : Half).toNat 3600) ≤ emptied.hatch.openings[0].elapsed) ∧
    (∀ j : InputNo, timed.hatch.inputs[j].settings.member = true → timed.hatch.inputs[j].settings.compartment ≠ some 0) :=
  ⟨⟨rfl, rfl, rfl⟩, by decide +kernel⟩

/-- A disabled compartment, an enabled UNKNOWN one, and one in HOLDING with five and with six misses; a step that enters
BLIND and one of a compartment that is BLIND, BLIND pending and not. -/
theorem witness_StepMovesKnowledge : timed.comps[1].settings.enabled = false ∧
    (timed.comps[0].settings.enabled = true ∧ timed.comps[0].knowledge = .unknown) ∧
    (holding.comps[0].settings.enabled = true ∧ holding.comps[0].knowledge = .holding ∧
      holding.comps[0].held = some (-1500)) ∧
    ((holding.setComp 0 { holding.comps[0] with misses := 5 }).comps[0].misses ≤ 5 ∧
      6 ≤ (holding.setComp 0 { holding.comps[0] with misses := 6 }).comps[0].misses) ∧
    (holding.comps[0].knowledge ≠ .blind ∧ (holding.stepComp 0 .blindTick).comps[0].knowledge = .blind ∧
      holding.notices.enables[Condition.blind.place] = true ∧ holding.notices.members[Condition.blind.place] = false ∧
      (holding.raise .blind).notices.members[Condition.blind.place] = true) ∧
    ((holding.stepComp 0 .blindTick).comps[0].knowledge = .blind ∧ (holding.stepComp 0 .boundary).comps[0].knowledge ≠ .blind)
    := by decide +kernel

/-- WARM, a live step at the threshold and one at the soft line, and a step that is not live. -/
theorem witness_BandMovesAtLiveSteps : holding.comps[0].settings.enabled = true ∧ holding.comps[0].band = .warm ∧
    holding.comps[0].stepKind (.cycle (some (-1800)) none) = .live (-1800) ∧
    holding.comps[0].stepKind (.cycle (some (-1200)) none) = .live (-1200) ∧
    ∀ v, holding.comps[0].stepKind .boundary ≠ .live v :=
  ⟨by decide +kernel, by decide +kernel, by decide +kernel, by decide +kernel, by
      have e : holding.comps[0].stepKind .boundary = .held (-1500) := by decide +kernel
      intro _ h; rw [e] at h; cases h⟩

/-- A consignment in custody, at a held and at a blind step, with the clock VALID; a clock that is UNSET; an empty slot;
a share of 3000 centi-degree seconds under a limit of 5000 and over one of 2999. -/
theorem witness_StepSharesAndBlindCredits : laden.comps[0].settings.enabled = true ∧ laden.slots[0] = inSlot ∧
    inSlot.heldIn 0 = true ∧ laden.clock.state = .valid ∧ laden.comps[0].stepKind .boundary = .held (-1500) ∧
    laden.comps[0].stepKind .blindTick = .blind ∧ State.reset.clock.state = .unset ∧
    State.reset.comps[0].settings.enabled = true ∧ laden.slots[63].heldIn 0 = false ∧
    (places 64).countP (fun i => !laden.slots[i].limitCrossed && (laden.stepComp 0 .boundary).slots[i].limitCrossed) = 0 ∧
    (places 64).countP (fun i =>
      !(laden.setSlot 0 { inSlot with limit := 2999 }).slots[i].limitCrossed &&
        ((laden.setSlot 0 { inSlot with limit := 2999 }).stepComp 0 .boundary).slots[i].limitCrossed) = 1 ∧
    laden.notices.enables[Condition.exposureLimit.place] = true := by decide +kernel

/-- A live step, and one that enters LIVE from UNKNOWN. -/
theorem witness_StepSharesAndBlindCredits_live : laden.comps[0].stepKind (.cycle (some (-1200)) none) = .live (-1200) ∧
    (timed.comps[0].knowledge = .unknown ∧ timed.comps[0].stepKind (.cycle (some (-1200)) none) = .live (-1200)) := by
  decide +kernel

/-- The sixth step of an interval and the fifth, with the log appending. -/
theorem witness_StepFeedsTheSampleInterval : holding.comps[0].settings.enabled = true ∧ StepCause.blindTick ≠ .boundary ∧
    holding.comps[0].interval.steps + 1 < holding.logInterval ∧
    holding.logInterval ≤ (holding.setComp 0
      { holding.comps[0] with interval := { holding.comps[0].interval with steps := 5 } }).comps[0].interval.steps + 1 ∧
    holding.log.generalFate = .appended := by decide +kernel

/-- The level a contact has, an UNSETTLED input, and settled ones with and without a running timer. -/
theorem witness_RawChangeDebounces : timed.quiet ∧ timed.hatch.inputs[0].made = true ∧
    (timed.hatch.inputs[0].made ≠ false ∧ timed.hatch.inputs[0].settled = .unsettled) ∧
    (opening.quiet ∧ opening.hatch.inputs[2].made ≠ true ∧ opening.hatch.inputs[2].settled ≠ .unsettled ∧
      opening.hatch.inputs[2].timer.isSome = true ∧ levelOf .openOnBreak true = .shut) ∧
    (opened.quiet ∧ opened.hatch.inputs[2].made ≠ true ∧ opened.hatch.inputs[2].timer = none ∧
      levelOf .openOnBreak true ≠ opened.hatch.inputs[2].settled) :=
  ⟨quiet_of_ready ready_timed, by decide +kernel, by decide +kernel, ⟨quiet_opening, by decide +kernel⟩,
    ⟨quiet_of_ready ready_opened, by decide +kernel⟩⟩

/-- A change that opens compartment 0, one that shuts it again, one that shuts it after an opening found at start-up,
and a pattern member with the band required. -/
theorem witness_DebounceExpiryTakesTheChange :
    (opening.quiet ∧ opening.hatch.inputs[2].timer.isSome = true ∧ opening.hatch.inputs[2].settled ≠ .unsettled ∧
      opening.hatch.inputs[2].settings.compartment = some 0 ∧ opening.hatch.openings[0].state = .shut ∧
      opening.hatch.inputs[2].level = .opened ∧ opening.log.generalFate = .appended ∧
      opening.hatch.inputs[2].settings.member = false) ∧
    (closing.quiet ∧ closing.hatch.inputs[2].timer.isSome = true ∧ closing.hatch.inputs[2].settled = .opened ∧
      closing.hatch.openings[0].state = .opening ∧ closing.hatch.openings[0].start = some ⟨980, false⟩ ∧
      closing.hatch.inputs[2].level = .shut ∧
      ∀ j : InputNo, j ≠ 2 → closing.hatch.inputs[j].settings.compartment = some 0 →
        closing.hatch.inputs[j].settled ≠ .opened) ∧
    (closing.setOpening 0 ⟨.openAtStart, none, 0, .stopped⟩).hatch.openings[0].state = .openAtStart ∧
    (closing.withHatch { closing.hatch with bandRequired := true }).hatch.bandRequired = true ∧
    closing.hatch.inputs[2].settings.member = true :=
  ⟨⟨quiet_opening, by decide +kernel⟩, ⟨quiet_closing, by decide +kernel⟩, by decide +kernel, rfl, by decide +kernel⟩

theorem witness_FirstSettlingIsNoTakenChange : opened.quiet ∧ opened.hatch.inputs[2].timer = none ∧
    ∃ s : State, s.quiet ∧ s.hatch.inputs[(2 : InputNo)].timer.isSome = true ∧
      s.hatch.inputs[(2 : InputNo)].settled = .unsettled ∧ s.hatch.inputs[(2 : InputNo)].level = .opened ∧
      s.hatch.inputs[(2 : InputNo)].settings.watch = .openLevel ∧
      s.notices.enables[(Condition.hatch 2).place] = true :=
  ⟨quiet_of_ready ready_opened, by decide +kernel,
    opening.setInput 2 { opening.hatch.inputs[2] with settled := .unsettled }, quiet_of_ready ⟨rfl, rfl, rfl⟩,
    by decide +kernel⟩

/-- A timer that does not run; ones with 5 seconds left, calmly, with 15, among which the tick falls at the tenth, and
with none. -/
theorem witness_LongOpenExpiresOnce : opened.quiet ∧ opened.hatch.openings[3].state ≠ .opening ∧
    ((openFor 115).quiet ∧ (openFor 115).hatch.openings[0].state = .opening ∧
      (openFor 115).hatch.openings[0].timer = .running ∧ 5 = (openFor 115).longOpenLeft 0 ∧ 0 = (openFor 120).longOpenLeft 0) ∧
    (openFor 115).calmFor 5 ∧
    (15 = (openFor 105).longOpenLeft 0 ∧ (openFor 105).scan.tickIn < 15 ∧
      15 ≤ (openFor 105).scan.tickIn + (openFor 105).scan.period) ∧
    opened.notices.enables[Condition.longOpen.place] = true :=
  ⟨quiet_of_ready ready_opened, by decide +kernel, ⟨quiet_of_ready ⟨rfl, rfl, rfl⟩, by decide +kernel⟩,
    by unfold State.calmFor; decide +kernel, by decide +kernel, by decide +kernel⟩

/-- Values at the ends of their ranges; an OPEN input moved, and one kept where it is. -/
theorem witness_HatchSettings : opened.ready ∧ (7 < (8 : Byte).toNat ∧ 2 < (3 : Byte).toNat) ∧
    ((2 : InputNo).val = (2 : Byte).toNat ∧ opened.hatch.inputs[2].settled = .opened ∧
      opened.hatch.inputs[2].settings.compartment ≠ some 1 ∧ numField (some (1 : CompNo)) = [1] ∧
      Sense.openOnBreak.code = (0 : Byte).toNat ∧ Watch.openLevel.code = (2 : Byte).toNat ∧ yesNo true = [1]) ∧
    opened.hatch.inputs[7].settled ≠ .opened ∧ (1 < (2 : Byte).toNat ∧ yesNo false = [0]) :=
  ⟨ready_opened, by decide +kernel⟩

/-- A change of sense over a settled and an UNSETTLED input that are not OPEN, the level then another and the same; a
watch set over an OPEN input; membership and the band required, each changed and kept. -/
theorem witness_HatchSettings_changes :
    (opening.ready ∧ opening.hatch.inputs[2].settled = .shut ∧ opening.hatch.inputs[2].settings.sense = .openOnBreak ∧
      levelOf .openOnMake opening.hatch.inputs[2].made = opening.hatch.inputs[2].settled) ∧
    (timed.hatch.inputs[0].settled = .unsettled ∧ timed.hatch.inputs[0].settings.sense ≠ .openOnMake) ∧
    (opened.hatch.inputs[2].settled = .opened ∧ opened.hatch.inputs[2].settings.watch ≠ .openLevel ∧
      opened.notices.enables[(Condition.hatch 2).place] = true) ∧
    opened.hatch.inputs[2].settings.member = true ∧ opening.hatch.inputs[2].settings.member = false ∧
    opened.hatch.bandRequired = false ∧ opened.comps[0].band = .warm :=
  ⟨⟨⟨rfl, rfl, rfl⟩, by decide +kernel⟩, by decide +kernel⟩

/-- A log with room, one before its last sequence, one in HELD_FULL and one ENDED. -/
theorem witness_GeneralRecordsByTheLog :
    (timed.log.ended = false ∧ timed.log.nextSeq ≤ 4294967295 ∧ timed.log.heldFull = false ∧
      timed.log.records.length < 4032) ∧
    { timed.log with nextSeq := 4294967295 }.nextSeq = 4294967295 ∧ (Body.config .defaulted).isCustody = false ∧
    (heldFull.log.ended = false ∧ heldFull.log.nextSeq ≤ 4294967295 ∧ heldFull.log.heldFull = true) ∧
    (laden.slots[0].heldIn 0 = true ∧ { laden.log with ended := true }.ended = true) := by decide +kernel

/-- A record, and logs of many of it. -/
def aRecord : LogRecord := { sequence := 1, stamp := ⟨0, true⟩, compartment := none, body := .config .defaulted, chain := 0 }

/-- A log of n records whose oldest is held by claim 0 exactly when `held`. -/
def logOf (n : Nat) (held : Bool) : Log :=
  { Log.first with
    records := List.replicate n aRecord
    holds := setAt Log.first.holds 0 (if held then some ⟨1, none⟩ else none) }

theorem witness_GeneralRecordsByTheLog_full :
    (logOf 4031 true).records.length < 4032 ∧ (logOf 4032 false).oldestHeld = false ∧
    4032 ≤ (logOf 4032 true).records.length ∧ (logOf 4032 true).oldestHeld = true := by decide +kernel

/-- Logs that a step of StepFeedsTheSampleInterval meets: one that enters HELD_FULL with its SAMPLE, one that evicts, one
that merges it and one, ENDED, that loses it. -/
theorem witness_StepFeedsTheSampleInterval_fates :
    (logOf 4032 true).generalFate = .entering ∧ (logOf 4032 false).generalFate = .evicting ∧
    heldFull.log.generalFate = .fallback ∧ { laden.log with ended := true }.generalFate = .lost := by decide +kernel

/-- A custody record at 4095 records, at 4096 over a record that is not held, and over one that is; an OPEN hold of the
consignment that leaves; the end of HELD_FULL. -/
theorem witness_CustodyRecordsAndTheEndOfHeldFull :
    (Body.handoverBegin 7 0 1005).isCustody = true ∧ (logOf 4095 true).records.length < 4096 ∧
    (logOf 4096 false).oldestHeld = false ∧ 4096 ≤ (logOf 4096 true).records.length ∧ (logOf 4096 true).oldestHeld = true ∧
    (logOf 4096 true).ended = false ∧ { logOf 1 false with ended := true }.ended = true ∧
    ((Body.custodyOut 7 0 .accepted 9 0 0 false false false).isCustody = true ∧ claimed.log.ended = false ∧
      claimed.log.records.length < 4096 ∧ claimed.log.holds[0] = some ⟨1, none⟩ ∧
      claimed.claims.slots[0] = some claim ∧ claim.identifier = 7) ∧
    (heldFull.log.heldFull = true ∧ heldFull.log.ended = false ∧
      { heldFull.log with holds := setAt heldFull.log.holds 0 none }.oldestHeld = false ∧
      ∀ c : CompNo, heldFull.log.coarse[c] = none) := by decide +kernel

/-- Each way in which a custody record fits after a SAMPLE, and the two in which it does not. -/
theorem witness_CustodyRecordsAndTheEndOfHeldFull_fits :
    ({ logOf 4095 true with heldFull := true }.custodyFits true = true ∧ (logOf 4031 true).custodyFits true = true ∧
      (logOf 4095 true).custodyFits true = true ∧ (logOf 4096 false).custodyFits true = true) ∧
    ({ logOf 4096 true with heldFull := true }.custodyFits true = false ∧
      { logOf 1 false with nextSeq := 4294967295 }.custodyFits true = false ∧ (logOf 4096 true).custodyFits false = false) := by
  decide +kernel

/-- A log that leaves HELD_FULL with compartment 1's accumulator filled, at 4031 records, and at 4032 over a held
record. -/
def owing (n : Nat) (held : Bool) : State :=
  timed.withLog { logOf n held with coarse := setAt Log.first.coarse 1 (some ⟨3, 9, none, none, 0, 0, 4, 5, 6, false⟩) }

theorem witness_RecoveryRecordByRecord :
    (claimed.log.heldFull = false ∧ heldFull.log.heldFull = true ∧
      (heldFull.withLog { heldFull.log with holds := setAt heldFull.log.holds 0 none }).log.oldestHeld = false) ∧
    { timed.log with ended := true }.ended = true ∧
    ((owing 4031 true).log.coarse[0] = none ∧
      (owing 4031 true).log.coarse[1] = some ⟨3, 9, none, none, 0, 0, 4, 5, 6, false⟩ ∧ (owing 4031 true).log.ended = false ∧
      (owing 4031 true).log.heldFull = false ∧ (owing 4031 true).log.records.length < 4032) ∧
    ((owing 4032 false).log.oldestHeld = false ∧ 4032 ≤ (owing 4032 true).log.records.length ∧
      (owing 4032 true).log.oldestHeld = true ∧ (owing 4032 true).notices.enables[Condition.logHeld.place] = true) := by
  decide +kernel

/-- A record of 72 bytes under its own check, with its kind, its identifier and its custody-out time. -/
def carried (kind : Byte) (id time : Nat) : List Byte :=
  let b := kind :: List.replicate 19 0 ++ le32 id ++ List.replicate 4 0 ++ le32 time ++ List.replicate 36 0
  b ++ le32 (crc32 b).toNat

/-- Compartment 0 is the one enabled; identifier 7 is taken, 8 is not; a record that fails each of its checks and one
that passes at the present second; a log where the custody record does not fit. -/
theorem witness_CustodyInChecksInOrder : State.reset.ready ∧ State.reset.clock.state = .unset ∧ laden.ready ∧
    (laden.clock.state = .valid ∧ laden.comps[1].settings.enabled = false ∧ laden.comps[0].settings.enabled = true ∧
      3 < (4 : Byte).toNat) ∧
    (laden.slots[0].state ≠ .empty ∧ laden.slots[0].identifier = 7) ∧
    (∀ i : SlotNo, laden.slots[i].state ≠ .empty → laden.slots[i].identifier ≠ 8) ∧
    (Upstream.record (carried 0x5A 8 1000)).wellFormed = true ∧
    fieldAt (List.replicate 72 0) 68 4 ≠ (crc32 ((List.replicate 72 0).take 68)).toNat ∧
    (fieldAt (carried 0 8 0) 68 4 = (crc32 ((carried 0 8 0).take 68)).toNat ∧ fieldAt (carried 0 8 0) 0 1 ≠ 0x5A) ∧
    (fieldAt (carried 0x5A 9 0) 68 4 = (crc32 ((carried 0x5A 9 0).take 68)).toNat ∧
      fieldAt (carried 0x5A 9 0) 0 1 = 0x5A ∧ fieldAt (carried 0x5A 9 0) 20 4 ≠ (8 : Word).toNat) ∧
    (∀ time : Fin 2, fieldAt (carried 0x5A 8 (1000 + time)) 68 4 = (crc32 ((carried 0x5A 8 (1000 + time)).take 68)).toNat ∧
      fieldAt (carried 0x5A 8 (1000 + time)) 0 1 = 0x5A ∧ fieldAt (carried 0x5A 8 (1000 + time)) 20 4 = (8 : Word).toNat ∧
      (laden.clock.counter < fieldAt (carried 0x5A 8 (1000 + time)) 28 4 ↔ time = 1)) ∧
    ((∀ i : SlotNo, (laden.withSlots (Vector.replicate 64 inSlot)).slots[i].state ≠ .empty) ∧ laden.slots[63].state = .empty ∧
      { laden.log with ended := true }.custodyFits true = false) :=
  ⟨ready_reset, rfl, ready_laden, by decide +kernel, by decide +kernel, by decide +kernel, by decide +kernel, by decide +kernel,
    by decide +kernel, by decide +kernel, by decide +kernel, by decide +kernel⟩

/-- A DECLARED consignment whose carried-in exposure is above its limit of 1. -/
theorem witness_CustodyInFillsTheSlot : laden.ready ∧ (Upstream.declared 2 0 0).wellFormed = true ∧ laden.clock.state = .valid ∧
    (8 : Word) ≠ 0 ∧ (1 : Word) ≠ 0 ∧ (1 : Word).toNat ≠ 4294967295 ∧
    (∀ m rest, Upstream.declared 2 0 0 ≠ .unnamed m rest) ∧
    laden.enabledComp 0 = some 0 ∧ laden.slotOf 8 = none ∧ upstreamFailure (.declared 2 0 0) 8 1000 = none ∧
    laden.emptySlot = some 1 ∧ laden.log.custodyFits true = true ∧ (1 : Word).toNat < (carriedOf (.declared 2 0 0)).exposure :=
  ⟨ready_laden, by decide, rfl, by decide, by decide, by decide, (by intro _ _ h; cases h), by decide +kernel, by decide +kernel,
    by decide +kernel, by decide +kernel, by decide +kernel, by decide⟩

/-- A RECORD consignment into compartment 0 while it is UNKNOWN. -/
theorem witness_CustodyInFillsTheSlot_record : timed.ready ∧ timed.enabledComp 0 = some 0 ∧ timed.slotOf 8 = none ∧
    (Upstream.record (carried 0x5A 8 1000)).wellFormed = true ∧
    upstreamFailure (.record (carried 0x5A 8 1000)) 8 1000 = none ∧ timed.emptySlot = some 0 ∧
    timed.log.custodyFits true = true ∧ timed.comps[0].knowledge = .unknown :=
  ⟨ready_timed, by decide +kernel⟩

theorem witness_HandoverBegins : (State.reset.ready ∧ State.reset.clock.state = .unset) ∧
    (laden.ready ∧ laden.clock.state = .valid ∧ laden.slotOf 8 = none ∧ laden.slotOf 7 = some 0 ∧
      laden.slots[0].state = .inCustody ∧ laden.log.custodyFits false = true) ∧
    (handing.ready ∧ handing.slotOf 7 = some 0 ∧ handing.slots[0].state ≠ .inCustody) ∧
    { laden.log with ended := true }.custodyFits false = false :=
  ⟨⟨ready_reset, rfl⟩, ⟨ready_laden, by decide +kernel⟩, ⟨ready_handing, by decide +kernel⟩, by decide +kernel⟩

/-- Each state of a slot; a log that takes no custody record; an outcome out of range in a frame. -/
theorem witness_HandoverEndRefusals : (State.reset.ready ∧ State.reset.clock.state = .unset) ∧
    (laden.ready ∧ laden.clock.state = .valid ∧ laden.slotOf 8 = none ∧ laden.slotOf 7 = some 0 ∧
      laden.slots[0].state = .inCustody ∧ laden.link.receiver = .hunting ∧ 2 < (3 : Byte).toNat) ∧
    (handed.ready ∧ handed.slotOf 7 = some 0 ∧ handed.slots[0].state = .handedOver) ∧
    (handing.ready ∧ handing.clock.state = .valid ∧ handing.slotOf 7 = some 0 ∧ handing.slots[0].state = .handingOver ∧
      handing.log.custodyFits false = true) ∧
    ((handing.withLog { handing.log with ended := true }).ready ∧
      { handing.log with ended := true }.custodyFits false = false ∧
      { handing.log with ended := true }.custodyFits handing.comps[handing.slots[0].compartment].settings.enabled = false ∧
      Instr.handoverEndAccepted 1 7 9 ≠ .handoverEndRefused 1 7 9) :=
  ⟨⟨ready_reset, rfl⟩, ⟨ready_laden, by decide +kernel⟩, ⟨ready_handed, by decide +kernel⟩,
    ⟨ready_handing, by decide +kernel⟩, ⟨⟨rfl, rfl, rfl⟩, by decide +kernel⟩⟩

/-- The same handover with its compartment open since 980, and with its compartment disabled. -/
def handingOpen : State := handing.setOpening 0 ⟨.opening, some ⟨980, false⟩, 20, .running⟩
def handingDisabled : State :=
  handing.setComp 0 { handing.comps[0] with settings := { handing.comps[0].settings with enabled := false } }

theorem witness_HandoverEndComposesTheProof :
    (handingOpen.ready ∧ handingOpen.clock.state = .valid ∧ (7 : Word) ≠ 0 ∧ handingOpen.slotOf 7 = some 0 ∧
      handingOpen.slots[0].state = .handingOver ∧
      handingOpen.log.custodyFits handingOpen.comps[handingOpen.slots[0].compartment].settings.enabled = true ∧
      handingOpen.comps[handingOpen.slots[0].compartment].settings.enabled = true ∧
      handingOpen.hatch.openings[0].state = .opening) ∧
    (handingDisabled.ready ∧ handingDisabled.slotOf 7 = some 0 ∧
      handingDisabled.log.custodyFits handingDisabled.comps[handingDisabled.slots[0].compartment].settings.enabled = true ∧
      handingDisabled.comps[handingDisabled.slots[0].compartment].settings.enabled = false) :=
  ⟨⟨⟨rfl, rfl, rfl⟩, by decide +kernel⟩, ⟨rfl, rfl, rfl⟩, by decide +kernel⟩

/-- A slot without a handover; deadlines 5 seconds away, calmly, and 15, among which the tick falls at the tenth. -/
theorem witness_HandoverLapses : (laden.quiet ∧ laden.slots[0].state ≠ .handingOver) ∧
    (handing.quiet ∧ handing.slots[0].state = .handingOver ∧ handing.slots[0].handover = some ⟨995, 1005⟩ ∧
      5 = 1005 - handing.now ∧ handing.clock.state = .valid ∧ 1005 ≤ 4294967294 ∧ handing.log.custodyFits false = true ∧
      handing.notices.enables[Condition.handoverLapsed.place] = true) ∧ handing.calmFor 5 ∧
    ((handingUntil 1015).slots[0].handover = some ⟨995, 1015⟩ ∧ 15 = 1015 - (handingUntil 1015).now ∧
      (handingUntil 1015).scan.tickIn < 15 ∧ 15 ≤ (handingUntil 1015).scan.tickIn + (handingUntil 1015).scan.period) :=
  ⟨⟨quiet_of_ready ready_laden, by decide +kernel⟩, ⟨quiet_of_ready ready_handing, by decide +kernel⟩,
    by unfold State.calmFor; decide +kernel, by decide +kernel⟩

/-- Reference 5 is open and 6 free; every claim slot taken; a window that has been evicted. -/
theorem witness_ClaimOpens : claimed.ready ∧ (claimed.claimOf 5).isSome = true ∧ claimed.claimOf 6 = none ∧
    claimed.slotOf 8 = none ∧ claimed.slotOf 7 = some 0 ∧ claimed.freeClaim = some 1 ∧
    claimed.log.evicted claimed.slots[0].windowEnd = false ∧ claimed.log.generalFate = .appended ∧
    (claimed.withClaims { claimed.claims with slots := Vector.replicate 8 (some claim) }).freeClaim = none ∧
    (logOf 1 false).evicted (some 0) = true :=
  ⟨ready_claimed, by decide +kernel⟩

/-- A claim OPEN and one ASSESSING, whose walk stands at its first of two records and at its last. -/
theorem witness_ClaimIsAssessedByTheWalk :
    (claimed.ready ∧ claimed.claimOf 6 = none ∧ claimed.claimOf 5 = some 0 ∧ claimed.claims.slots[0] = some claim ∧ claim.assessing = false) ∧
    (walking.ready ∧ walking.claimOf 5 = some 0 ∧ (walking.claims.slots[0].map Claim.assessing) = some true) ∧
    (timed.quiet ∧ timed.claims.queue = []) ∧ walking.quiet ∧ walkingLast.quiet ∧ walking.claims.queue = 0 :: [] ∧
    ((startWalk claim (claimed.snapshot 0 inSlot)).position + 1 ≤ (claimed.snapshot 0 inSlot).stop ∧
      (claimed.snapshot 0 inSlot).stop < 2 + 1 ∧ walkingLast.log.generalFate = .appended) :=
  ⟨⟨ready_claimed, by decide +kernel⟩, ⟨ready_walking, by decide +kernel⟩, ⟨quiet_of_ready ready_timed, rfl⟩,
    quiet_of_ready ready_walking, quiet_walkingLast, by decide +kernel, by decide +kernel⟩

/-- A walk at the one record of a log, for a record of each kind that Table 7-5 weighs, of the compartment and of none. -/
theorem witness_WalkWeighsTheRecords :
    (∀ b ∈ ([.sample ⟨10, none, none, none, 5, 0, 1, 0, none⟩, .coarse ⟨0, none, none, none, 5, 0, 1⟩, .hatch 0 .opened .opened,
        .gap none 0 0 0 0, .config .defaulted] : List Body), ∀ c ∈ ([some 0, none] : List (Option CompNo)),
      ∀ relative ∈ [true, false],
        (soleLog b c relative).recordAt (startWalk claim (claimed.snapshot 0 inSlot)).position
          = some ⟨1, ⟨950, relative⟩, c, b, 0⟩) ∧
    (claimed.snapshot 0 inSlot).compartment = 0 ∧
    ((claimed.snapshot 0 inSlot).openIncrement = some ⟨0, false⟩ ∧
      ∀ n, { claimed.snapshot 0 inSlot with openIncrement := none }.openIncrement ≠ some ⟨n, false⟩) :=
  ⟨by decide +kernel, by decide +kernel, by decide +kernel, by intro n h; cases h⟩

/-- Bits at the first absent sequence and at a present one; a claim whose window is open and one whose window has ended.
-/
theorem witness_GatherStopsAtTheFirstAbsent :
    (([(0, 1), (2, 3)] : List (Nat × Nat)).drop 1).head? = some (2, 3) ∧ timed.log.recordAt 1 ≠ none ∧
    timed.log.recordAt 3 = none ∧ (0, 1) ∈ cutBits 1 0x8001 1 16 ∧ (15, 16) ∈ cutBits 1 0x8001 1 16 ∧
    (claimed.ready ∧ claimed.claimOf 5 = some 0 ∧ claimed.claims.slots[0] = some claim ∧ claimed.windowEnd 0 = none ∧
      claimed.log.newest.getD 0 = 2) ∧
    (claimed.withLog { claimed.log with holds := setAt claimed.log.holds 0 (some ⟨1, some 2⟩) }).windowEnd 0 = some 2 :=
  ⟨by decide, by decide +kernel, by decide +kernel, by decide +kernel, by decide +kernel,
    ⟨ready_claimed, by decide +kernel⟩, by decide +kernel⟩

theorem witness_ClaimCloses : claimed.ready ∧ claimed.claimOf 6 = none ∧ claimed.claimOf 5 = some 0 ∧
    claimed.claims.slots[0] = some claim ∧ claimed.log.heldFull = false ∧ claimed.log.generalFate = .appended :=
  ⟨ready_claimed, by decide +kernel⟩

/-- A log whose HELD_FULL ends with the hold of the claim that closes. -/
theorem witness_ClaimCloses_recovery : heldFull.ready ∧ heldFull.claimOf 5 = some 0 ∧ heldFull.claims.slots[0] = some claim ∧
    heldFull.log.heldFull = true ∧ (heldFull.releaseHold 0).log.heldFull = false :=
  ⟨⟨rfl, rfl, rfl⟩, by decide +kernel⟩

/-- A condition not enabled, one enabled and not pending, one pending. -/
theorem witness_RaiseByEnableAndPending :
    { timed.notices with enables := setAt timed.notices.enables 0 false }.enables[(0 : Fin 18)] = false ∧
    (timed.notices.enables[(17 : Fin 18)] = true ∧ timed.notices.members[(17 : Fin 18)] = false) ∧
    (timed.notices.enables[(7 : Fin 18)] = true ∧ timed.notices.members[(7 : Fin 18)] = true) := by decide +kernel

/-- Masks on both sides of bit 18. -/
theorem witness_EnableAndClear : timed.ready ∧ 2 ^ 18 ≤ (0x40000 : Word).toNat ∧ (0x3FFFF : Word).toNat < 2 ^ 18 ∧
    timed.notices.enables = enablesOf 0x3FFFF ∧
    timed.notices.enables ≠ enablesOf 0 ∧ timed.log.generalFate = .appended ∧
    (0x80 : Word).getLsbD Condition.clockLost.place.val = true ∧
    (0x80 : Word).getLsbD Condition.pattern.place.val = false := ⟨ready_timed, by decide +kernel⟩

theorem witness_EnableAndClear_ok : timed.notices.ok := by unfold NoticeUnit.ok; decide +kernel

/-- An enable write whose record makes the log enter HELD_FULL. -/
theorem witness_EnableAndClear_entering : (owing 4032 true).ready ∧ (owing 4032 true).notices.ok ∧
    (owing 4032 true).notices.enables ≠ enablesOf 0 ∧ (owing 4032 true).log.generalFate = .entering :=
  ⟨ready_timed, witness_EnableAndClear_ok, by decide +kernel⟩

/-- Slots, entries and values at the ends of their ranges; an operation in flight of each kind, and none. -/
theorem witness_OffsetOperations : timed.ready ∧ erasing.ready ∧ programming.ready ∧
    (1 < (2 : Byte).toNat ∧ CalSlot.slotB.code = (1 : Byte).toNat ∧ erasing.offsets.running.isSome = true ∧
      timed.offsets.running = none ∧ 15 < (16 : Byte).toNat ∧ (15 : EntryNo).val = (15 : Byte).toNat ∧
      (0x81 : Byte) ≠ 0x80 ∧ (timed.offsets.entriesOf .slotB)[15] = .blank ∧
      ((timed.offsets.setEntry .slotB 15 (.programmed (-127))).entriesOf .slotB)[15] ≠ .blank ∧
      erasing.offsets.running = some (.erase .slotA) ∧ programming.offsets.running = some (.program .slotB 14 6)) :=
  ⟨ready_timed, ready_erasing, ready_programming, by decide +kernel⟩

theorem timed_settings : timed.settings = State.reset.settings := rfl

/-- A part that has saved nothing, and one whose first save is in flight. -/
theorem witness_SavedImages : (timed.ready ∧ timed.settings.saving = none) ∧
    (saving.ready ∧ saving.settings.saving = some ⟨timed.config, 1, true⟩) ∧
    (timed.settings.startSave .default).saving = some ⟨.default, 1, true⟩ := by
  have h : ∀ w, (timed.settings.startSave w).saving = some ⟨w, 1, true⟩ :=
    SettingsStore.startSave_first (timed_settings ▸ reset_current)
  refine ⟨⟨ready_timed, rfl⟩, ⟨ready_saving, ?_⟩, h _⟩
  rw [show saving.settings = timed.settings.startSave timed.config from rfl]
  exact h _

/-- The time that is none, both sides of the last valid time and of the trim, from UNSET and VALID. -/
theorem witness_TimeIsSet : State.reset.ready ∧ State.reset.clock.state = .unset ∧ timed.ready ∧ timed.clock.state = .valid ∧
    (4294967295 : Word).toNat = 4294967295 ∧ State.reset.clock.lastValid ≤ (0 : Word).toNat ∧
    (0 : Word).toNat < (State.reset.withClock ⟨.unset, 0, 1, 0⟩).clock.lastValid ∧ (999 : Word).toNat < timed.clock.counter ∧
    timed.clock.counter + 120 < (1121 : Word).toNat ∧ timed.clock.counter ≤ (1000 : Word).toNat ∧
    (1120 : Word).toNat ≤ timed.clock.counter + 120 ∧
    (handing.slots[0].state = .handingOver ∧ handing.slots[0].handover = some ⟨995, 1005⟩) ∧
    (timed.log.ended = false ∧ timed.log.heldFull = false ∧ timed.log.records.length ≤ 3900 ∧
      timed.log.nextSeq ≤ 4294967000 ∧ State.reset.log.records.length ≤ 4000) :=
  ⟨ready_reset, rfl, ready_timed, rfl, by decide +kernel⟩

/-- A relative interval that holds a step, with the clock UNSET. -/
theorem witness_TimeIsSet_interval :
    let s := State.reset.setComp 0 { State.reset.comps[0] with interval := { State.reset.comps[0].interval with steps := 1 } }
    s.ready ∧ s.clock.state = .unset ∧ s.comps[0].settings.enabled = true ∧ 0 < s.comps[0].interval.steps :=
  ⟨⟨rfl, rfl, rfl⟩, by decide +kernel⟩

theorem witness_ReleaseAndWipeRemoveWhatIsDone : (laden.ready ∧ laden.slotOf 8 = none ∧ laden.slotOf 7 = some 0 ∧
      laden.slots[0].state ≠ .handedOver ∧ laden.slots[0].state ≠ .empty) ∧
    (handed.ready ∧ handed.slotOf 7 = some 0 ∧ handed.slots[0].state = .handedOver ∧ handed.slots[0].openClaims = 0) ∧
    0 < (handed.setSlot 0 { handed.slots[0] with openClaims := 1 }).slots[0].openClaims ∧
    claimed.claims.slots[0].isSome = true ∧
    (timed.ready ∧ (∀ i : SlotNo, timed.slots[i].state = .empty) ∧ ∀ i : ClaimNo, timed.claims.slots[i] = none) :=
  ⟨⟨ready_laden, by decide +kernel⟩, ⟨ready_handed, by decide +kernel⟩, by decide +kernel, by decide +kernel,
    ⟨ready_timed, by decide +kernel⟩⟩

/-- Each of the three events: a power-on that keeps the clock and one that does not, the reset line, and RESTART. -/
theorem witness_StartUpLeavesTheBlocks : timed.power = .on ∧ timed.ready ∧ dark.clock.state = .valid ∧
    (timed.settings.started (Config.cutOffWriteValid timed.free)).image = .default :=
  ⟨rfl, ready_timed, rfl, by simp [timed_settings]⟩

/-- What start-up meets: a handover, an opening that is credited, an erase, a program and a save in flight, HELD_FULL. -/
theorem witness_StartUpLeavesTheBlocks_met : (handing.ready ∧ handing.slots[0].state = .handingOver) ∧
    (opened.ready ∧ opened.clock.state = .valid ∧ opened.slots[0].inCustody = true ∧
      opened.hatch.openings[opened.slots[0].compartment].state = .opening) ∧
    (erasing.ready ∧ erasing.offsets.running = some (.erase .slotA)) ∧
    (programming.ready ∧ programming.offsets.running = some (.program .slotB 14 6)) ∧
    (saving.ready ∧ saving.settings.saving.isSome = true) ∧ (heldFull.power = .on ∧ heldFull.log.heldFull = true) :=
  ⟨⟨ready_handing, by decide +kernel⟩, ⟨ready_opened, by decide +kernel⟩, ⟨ready_erasing, by decide +kernel⟩,
    ⟨ready_programming, by decide +kernel⟩, ⟨ready_saving, by rfl⟩, by decide +kernel⟩

theorem witness_StartUpCreditsTheGap : laden.ready ∧ laden.power = .on ∧ laden.log.ended = false ∧ laden.log.heldFull = false ∧
    laden.log.records.length ≤ 3900 ∧ laden.log.nextSeq ≤ 4294967000 ∧ laden.clock.state = .valid ∧
    laden.slots[0].inCustody = true ∧ State.reset.clock.state = .unset ∧ handing.slots[0].state = .handingOver ∧
    (laden.setComp 0 { laden.comps[0] with interval := { laden.comps[0].interval with steps := 1 } }).comps[0].interval.steps = 1
    := ⟨ready_laden, by decide +kernel⟩

theorem witness_StepKeepsTheLink : timed.linkOk ∧ ∃ t, step timed = .next t :=
  ⟨by unfold State.linkOk State.quiet; decide +kernel, _, rfl⟩

theorem witness_StepKeepsTheNotices : timed.notices.ok ∧ ∃ t, step timed = .next t :=
  ⟨by unfold NoticeUnit.ok; decide +kernel, _, rfl⟩

/-- A compartment as start-up leaves it is in order. -/
theorem comps_ok_timed (c : CompNo) : timed.comps[c].ok := by
  have h : ∀ c : CompNo, timed.comps[c].knowledge = .unknown ∧ timed.comps[c].held = none ∧ timed.comps[c].misses = 0 ∧
      timed.comps[c].band = .unset := by decide +kernel
  replace h := h c
  generalize timed.comps[c] = x at h
  obtain ⟨h1, h2, h3, h4⟩ := h
  simp [Compartment.ok, h1, h2, h3, h4]

theorem witness_StepKeepsTheMonitors : timed.monitorsOk ∧ ∃ t, step timed = .next t :=
  ⟨⟨rfl, comps_ok_timed, by decide +kernel⟩, _, rfl⟩

theorem witness_StepKeepsTheCustodyTable : laden.tableOk ∧ ∃ t, step laden = .next t :=
  ⟨by unfold State.tableOk Slot.ok; decide +kernel, _, rfl⟩

/-- The two records of the first start-up are linked. -/
theorem log_ok_timed : timed.log.ok := by
  show (linkedFrom _ _ = true ∧ _ ∧ _ ∧ _ ∧ _) ∧ _
  decide +kernel

theorem claimsOk_timed : timed.claimsOk := by
  have h : ∀ i : ClaimNo, timed.claims.slots[i] = none := by decide +kernel
  refine ⟨by decide +kernel, by decide +kernel, by decide +kernel, ?_, ?_, by decide +kernel⟩
  · intro i k e; simp [h] at e
  · intro i j k l e; simp [h] at e

theorem witness_StepKeepsTheEvidence : timed.evidenceOk ∧ ∃ t, step timed = .next t :=
  ⟨⟨log_ok_timed, claimsOk_timed, by unfold State.heldOk; decide +kernel, by unfold State.tableOk Slot.ok; decide +kernel⟩, _,
    rfl⟩

end Sys2Proof.Tests
end

