-- ==== Sys2Proof/Proofs/LinkAtRest.lean ====
section
/-! PROOFS. The link after an event or a request that meets nothing in its way (R199, R202): what a command comes to when
its own operation leaves the link as it was. -/

namespace Sys2Proof.Machine

/-! ### The transmitter offers once -/

/-- A transmitter that has chosen has nothing left to choose. -/
@[simp] theorem State.offer_offer (s : State) : s.offer.offer = s.offer := by
  cases ht : s.link.transmitter with
  | idle =>
    cases hr : s.link.reply with
    | some f => simp [State.offer, ht, hr, State.sendReply, State.updLink]
    | none =>
      cases ho : s.notices.owed with
      | false => simp [State.offer, ht, hr, ho]
      | true => cases hp : s.notices.anyPending <;> simp [State.offer, ht, hr, ho, State.sendNotice, hp, State.updLink]
  | sendingReply f => simp [State.offer, ht]
  | sendingNotice f => simp [State.offer, ht]

@[simp] theorem State.offer_queue (s : State) : s.offer.link.queue = s.link.queue := by
  unfold State.offer State.sendReply State.sendNotice State.updLink
  (repeat' split) <;> simp

theorem State.takeHead_of_empty {s : State} (h : s.link.queue = []) : s.takeHead = s := by
  simp [State.takeHead, h]

theorem State.takeHead_of_reply {s : State} {f : Frame} (h : s.link.reply = some f) : s.takeHead = s := by
  simp [State.takeHead, h]

theorem State.offer_busy {s : State} (h : s.link.transmitter ≠ .idle) : s.offer = s := by
  unfold State.offer
  split
  · contradiction
  · rfl

/-- After an event the link's work is one offer, where no frame waits for an IDLE transmitter or for its taking. -/
theorem State.pump_eq_offer {s : State} (hidle : s.link.transmitter = .idle → s.link.queue = [])
    (hreply : s.link.reply = none → s.link.queue = []) : s.pump = s.offer := by
  have htake : s.offer.takeHead = s.offer := by
    by_cases hq : s.link.queue = []
    · exact State.takeHead_of_empty (by simpa using hq)
    · rw [State.offer_busy (mt hidle hq)]
      obtain ⟨f, hf⟩ := Option.ne_none_iff_exists'.mp (mt hreply hq)
      exact State.takeHead_of_reply hf
  simp only [State.pump, htake, State.offer_offer]

/-- The pump on a state whose link is that of a quiet one. -/
theorem State.pump_of_quiet {s t : State} (h : s.quiet) (hl : t.link = s.link) : t.pump = t.offer := by
  obtain ⟨-, hidle, hreply⟩ := h
  exact State.pump_eq_offer (fun ht => hl ▸ hreply (hidle (hl ▸ ht))) (fun hr => hl ▸ hreply (hl ▸ hr))

/-- An event at a quiet link has its effect, and the transmitter chooses. -/
theorem State.happen_of_quiet {s : State} {f : State → State} (h : s.quiet) (hl : (f s).link = s.link) :
    s.happen f = (f s).offer := by
  simp only [State.happen, h.1, State.pump_of_quiet h hl]

theorem State.quiet_of_link {s t : State} (h : s.quiet) (hp : t.power = s.power) (hl : t.link = s.link) : t.quiet := by
  simpa only [State.quiet, hp, hl] using h

/-- The offer keeps a quiet link quiet. -/
theorem State.quiet_offer {s : State} (h : s.quiet) : s.offer.quiet := by
  obtain ⟨hp, hidle, hreply⟩ := h
  refine ⟨by simpa using hp, ?_⟩
  by_cases ht : s.link.transmitter = .idle
  · have hq := hreply (hidle ht)
    refine ⟨?_, fun _ => by simpa using hq⟩
    cases ho : s.notices.owed with
    | false => simp [State.offer, ht, hidle ht, ho]
    | true =>
      cases hn : s.notices.anyPending <;> simp [State.offer, ht, hidle ht, ho, State.sendNotice, hn, State.updLink]
  · rw [State.offer_busy ht]
    exact ⟨hidle, hreply⟩

/-- After an event at a quiet link the link is quiet again. -/
theorem State.quiet_pump {s t : State} (h : s.quiet) (hp : t.power = s.power) (hl : t.link = s.link) : t.pump.quiet := by
  rw [State.pump_of_quiet h hl]
  exact State.quiet_offer (State.quiet_of_link h hp hl)

/-! ### Requests taken at once -/

/-- A request that carries on to `t` with the answer `a` is answered, where the link is ready and the request's own rule
leaves the link alone (R199, R200). -/
theorem State.submit_of_ready (r : Request) {s t : State} {tag : Byte} {a : Answer} (h : s.ready)
    (hp : s.perform r = (a, t)) (hl : t.link = s.link) (hr : r ≠ .restart := by exact nofun) :
    (.next (s.submit tag r) : Host.Outcome State Fault Refusal) = .next (t.replies r.kind tag a) := by
  obtain ⟨hon, hnone, hq⟩ := h
  have hpump : (t.formReply (replyFrame r.kind tag a)).pump = (t.formReply (replyFrame r.kind tag a)).offer :=
    State.pump_eq_offer (fun _ => by simp [State.formReply, State.updLink, hl, hq])
      (fun hc => by simp [State.formReply, State.updLink] at hc)
  simp only [State.submit, State.happen, hon, hnone, hq, State.take, hr, hp, and_self, if_true, if_false, hpump,
    State.replies, State.answered]

/-- A request whose rule only answers leaves the part as it was but for the reply. -/
theorem State.submit_report (r : Request) {s : State} {tag : Byte} {a : Answer} (h : s.ready)
    (hp : s.perform r = (a, s)) (hr : r ≠ .restart := by exact nofun) :
    (.next (s.submit tag r) : Host.Outcome State Fault Refusal) = .next (s.replies r.kind tag a) :=
  State.submit_of_ready r h hp rfl hr

end Sys2Proof.Machine
end

