-- ==== Sys2Proof/Proofs/OperandCodes.lean ====
section
/-! PROOFS. Operands: reading a coded field of a request gives back the value that was written into it, and a value out of
range gives none (R200, R201). -/

namespace Sys2Proof.Machine

theorem byte_of_toNat {b : Byte} {n : Nat} (h : n = b.toNat) : b = BitVec.ofNat 8 n := by
  rw [h, BitVec.ofNat_toNat, BitVec.setWidth_eq]

theorem numOf_of_val {n : Nat} {b : Byte} {i : Fin n} (h : i.val = b.toNat) : numOf n b = some i := by
  simp only [numOf, ← h, i.isLt, dite_true]

theorem numOf_eq_none {n : Nat} {b : Byte} (h : n ≤ b.toNat) : numOf n b = none := dif_neg (Nat.not_lt.mpr h)

theorem compOf_of_numField {b : Byte} {c : Option CompNo} (h : numField c = [b]) : compOf b = some c := by
  obtain rfl := (List.cons.inj h).1
  cases c with
  | none => rfl
  | some k => revert k; decide

theorem compOf_eq_none {b : Byte} (h : 3 < b.toNat) (hb : b ≠ 0xFF) : compOf b = none := by
  rw [compOf, if_neg hb, numOf_eq_none h, Option.map_none]

theorem yesNoOf_of_yesNo {b : Byte} {a : Bool} (h : yesNo a = [b]) : yesNoOf b = some a := by
  obtain rfl := (List.cons.inj h).1
  cases a <;> rfl

theorem roleOf_of_code {b : Byte} {r : Role} (h : r.code = b.toNat) : roleOf b = some r := by
  rw [byte_of_toNat h]
  cases r <;> rfl

theorem sourceOf_of_code {b : Byte} {o : OffsetSource} (h : o.code = b.toNat) : sourceOf b = some o := by
  rw [byte_of_toNat h]
  cases o <;> rfl

theorem modeOf_of_code {b : Byte} {m : ScanMode} (h : m.code = b.toNat) : modeOf b = some m := by
  rw [byte_of_toNat h]
  cases m <;> rfl

/-- A byte above `n` is none of the codes up to `n`. -/
theorem byte_ne_of_lt {b : Byte} {n k : Nat} (h : n < b.toNat) (hk : k ≤ n) : b ≠ BitVec.ofNat 8 k := by
  rintro rfl
  have := Nat.mod_le k (2 ^ 8)
  rw [BitVec.toNat_ofNat] at h
  omega

theorem yesNoOf_eq_none {b : Byte} (h : 1 < b.toNat) : yesNoOf b = none :=
  (if_neg (byte_ne_of_lt h (Nat.zero_le 1))).trans (if_neg (byte_ne_of_lt h le_rfl))

theorem roleOf_eq_none {b : Byte} (h : 1 < b.toNat) : roleOf b = none :=
  (if_neg (byte_ne_of_lt h (Nat.zero_le 1))).trans (if_neg (byte_ne_of_lt h le_rfl))

theorem modeOf_eq_none {b : Byte} (h : 1 < b.toNat) : modeOf b = none :=
  (if_neg (byte_ne_of_lt h (Nat.zero_le 1))).trans (if_neg (byte_ne_of_lt h le_rfl))

theorem sourceOf_eq_none {b : Byte} (h : 3 < b.toNat) : sourceOf b = none :=
  (if_neg (byte_ne_of_lt h (by decide))).trans ((if_neg (byte_ne_of_lt h (by decide))).trans
    ((if_neg (byte_ne_of_lt h (by decide))).trans (if_neg (byte_ne_of_lt h le_rfl))))

theorem offsetOf_of_ne {b : Byte} (h : b ≠ 0x80) : offsetOf b = some b.toInt :=
  if_pos (by revert h; revert b; decide)

theorem offsetOf_0x80 : offsetOf 0x80 = none := rfl

end Sys2Proof.Machine
end

