-- ==== Sys2Proof/Proofs/ScanRequests.lean ====
section
/-! PROOFS. The requests of the Probe Scanner: entries, range and configuration, start, halt and stop (spec/01 sections 1.1,
1.2 and 1.5). -/

namespace Sys2Proof.Machine

/-! ### Entries -/

theorem State.scanEntrySet_badValue (s : State) {entry address compartment role source offset : Byte} (settle : Byte)
    (h : 15 < entry.toNat ∨ 126 < address.toNat ∨ (3 < compartment.toNat ∧ compartment ≠ 0xFF) ∨ 1 < role.toNat ∨
      3 < source.toNat ∨ offset = 0x80) :
    s.scanEntrySet entry address compartment role settle source offset = (refuse .badValue, s) := by
  unfold State.scanEntrySet
  split
  next i c r o m hi hc hr ho hm =>
    have haddress : 126 < address.toNat := by
      rcases h with h | h | ⟨h, hne⟩ | h | h | h
      · simp [numOf_eq_none h] at hi
      · exact h
      · simp [compOf_eq_none h hne] at hc
      · simp [roleOf_eq_none h] at hr
      · simp [sourceOf_eq_none h] at ho
      · rw [h, offsetOf_0x80] at hm; cases hm
    exact if_pos haddress
  next => rfl

/-- A request whose six fields are in range comes down to the test of the current entry (R2). -/
theorem State.scanEntrySet_inRange (s : State) {entry address compartment role source offset : Byte} (settle : Byte)
    {i : EntryNo} {c : Option CompNo} {r : Role} {o : OffsetSource} (hi : i.val = entry.toNat) (ha : address.toNat ≤ 126)
    (hc : numField c = [compartment]) (hr : r.code = role.toNat) (ho : o.code = source.toNat) (hm : offset ≠ 0x80) :
    s.scanEntrySet entry address compartment role settle source offset
      = if s.scan.isCurrent i then (refuse .collision, s)
        else (okay [], s.withScan { s.scan with
          entries := setAt s.scan.entries i ⟨address.toNat, c, r, min settle.toNat 25, o, offset.toInt⟩ }) := by
  simp only [State.scanEntrySet, numOf_of_val hi, compOf_of_numField hc, roleOf_of_code hr, sourceOf_of_code ho,
    offsetOf_of_ne hm, if_neg (Nat.not_lt.mpr ha), State.refusing, State.updScan]

theorem State.scanEntryGet_of_val (s : State) {entry : Byte} {i : EntryNo} (h : i.val = entry.toNat) :
    s.scanEntryGet entry = (okay s.scan.entries[i].bytes, s) := by
  simp only [State.scanEntryGet, numOf_of_val h]

/-- Settles O11, by whether every field reads as a value in range. -/
theorem scanEntriesAreWrittenAndRead : Obligations.ScanEntriesAreWrittenAndRead := by
  refine ⟨fun s tag entry address compartment role settle source offset hs => ⟨fun hbad => ?_, ?_⟩,
    fun s tag entry hs => ⟨fun hbig => ?_, fun i hi => ?_⟩⟩
  · exact State.submit_report (.scanEntrySet ..) hs (s.scanEntrySet_badValue settle hbad)
  · intro i c r o hi ha hc hr ho hm
    have hset := s.scanEntrySet_inRange settle hi ha hc hr ho hm
    constructor <;> intro hcur
    · exact State.submit_report (.scanEntrySet ..) hs (hset.trans (if_pos hcur))
    · exact State.submit_of_ready (.scanEntrySet ..) hs (hset.trans (if_neg (by simp [hcur]))) rfl
  · have hnone : s.scanEntryGet entry = (refuse .badValue, s) := by
      simp only [State.scanEntryGet, numOf_eq_none hbig, State.refusing]
    exact State.submit_report (.scanEntryGet entry) hs hnone
  · exact State.submit_report (.scanEntryGet entry) hs (s.scanEntryGet_of_val hi)

/-! ### Range and configuration -/

theorem State.scanRangeSet_badValue (s : State) {first last : Byte} (h : 15 < first.toNat ∨ 15 < last.toNat) :
    s.scanRangeSet first last = (refuse .badValue, s) := by
  unfold State.scanRangeSet
  split
  next a b ha hb =>
    rcases h with h | h
    · simp [numOf_eq_none h] at ha
    · simp [numOf_eq_none h] at hb
  next => rfl

/-- Between cycles a range in bounds is installed at once (R5). -/
theorem State.scanRangeSet_installs {s : State} {first last : Byte} {a b : EntryNo} (ha : a.val = first.toNat)
    (hb : b.val = last.toNat) (h : s.scan.state = .stopped ∨ s.scan.state = .waiting) :
    s.scanRangeSet first last = (okay [], s.withScan { s.scan with range := ⟨a, b⟩, pendingRange := none }) := by
  rcases h with h | h <;> simp only [State.scanRangeSet, numOf_of_val ha, numOf_of_val hb, State.updScan, h]

/-- In a cycle it is held pending (R5). -/
theorem State.scanRangeSet_pends {s : State} {first last : Byte} {a b : EntryNo} (ha : a.val = first.toNat)
    (hb : b.val = last.toNat) (h : s.scan.state = .reading ∨ s.scan.state = .halting) :
    s.scanRangeSet first last = (okay [], s.withScan { s.scan with pendingRange := some ⟨a, b⟩ }) := by
  rcases h with h | h <;> simp only [State.scanRangeSet, numOf_of_val ha, numOf_of_val hb, State.updScan, h]

theorem State.scanConfigSet_badValue (s : State) {mode auto : Byte} (period : Half)
    (h : 1 < mode.toNat ∨ 1 < auto.toNat) : s.scanConfigSet mode period auto = (refuse .badValue, s) := by
  unfold State.scanConfigSet
  split
  next m a hm ha =>
    rcases h with h | h
    · simp [modeOf_eq_none h] at hm
    · simp [yesNoOf_eq_none h] at ha
  next => rfl

theorem State.scanConfigSet_inRange (s : State) {mode auto : Byte} (period : Half) {m : ScanMode} {a : Bool}
    (hm : m.code = mode.toNat) (ha : yesNo a = [auto]) :
    s.scanConfigSet mode period auto = (okay [], s.withScan
      { s.scan with mode := m, period := max 5 (min period.toNat 300), autoStart := a }) := by
  simp only [State.scanConfigSet, modeOf_of_code hm, yesNoOf_of_yesNo ha, State.updScan, clamp]

/-- Settles O12, by whether every field reads as a value in range, and by the scanner state. -/
theorem scanRangeAndConfig : Obligations.ScanRangeAndConfig := by
  refine fun s tag hs => ⟨fun first last hbad => ?_, fun first last a b ha hb => ?_, fun mode auto period hbad => ?_,
    fun mode auto period m a hm ha => ?_⟩
  · exact State.submit_report (.scanRangeSet first last) hs (s.scanRangeSet_badValue hbad)
  · exact ⟨fun h => State.submit_of_ready (.scanRangeSet first last) hs (State.scanRangeSet_installs ha hb h) rfl,
      fun h => State.submit_of_ready (.scanRangeSet first last) hs (State.scanRangeSet_pends ha hb h) rfl⟩
  · exact State.submit_report (.scanConfigSet mode period auto) hs (s.scanConfigSet_badValue period hbad)
  · exact State.submit_of_ready (.scanConfigSet mode period auto) hs (s.scanConfigSet_inRange period hm ha) rfl

/-! ### Start, halt and stop -/

/-- How a cycle ends: the compartments take its step, and the scanner's record of it is written (R12, R20, R21). -/
theorem State.endCycle_eq (s : State) (ending : CycleEnding) (next : ScanState) :
    s.endCycle ending next = (s.cycleStep s.scan.cycleSet).withScan
      { s.scan with lastEnding := ending, state := next, read := none } := by
  simp [State.endCycle, State.updScan]

/-- Outside a cycle the three requests change the scanner state at most, and no step is handed (R19 to R21). -/
theorem State.scanStart_stopped {s : State} (h : s.scan.state = .stopped) :
    s.scanStart = (okay [], s.withScan { s.scan with state := .waiting }) := if_pos h

theorem State.scanHalt_waiting {s : State} (h : s.scan.state = .waiting) :
    s.scanHalt = (okay [], s.withScan { s.scan with state := .stopped }) := by
  simp only [State.scanHalt, h, State.updScan]

theorem State.scanHalt_reading {s : State} (h : s.scan.state = .reading) :
    s.scanHalt = (okay [], s.withScan { s.scan with state := .halting }) := by
  simp only [State.scanHalt, h, State.updScan]

theorem State.scanHalt_of_halted {s : State} (h : s.scan.state = .stopped ∨ s.scan.state = .halting) :
    s.scanHalt = (okay [], s) := by
  rcases h with h | h <;> simp only [State.scanHalt, h]

theorem State.scanStop_stopped {s : State} (h : s.scan.state = .stopped) : s.scanStop = (okay [], s) := by
  simp only [State.scanStop, h]

theorem State.scanStop_waiting {s : State} (h : s.scan.state = .waiting) :
    s.scanStop = (okay [], s.withScan { s.scan with state := .stopped }) := by
  simp only [State.scanStop, h, State.updScan]

/-- SCAN_STOP in a cycle ends it ABORTED (R21). -/
theorem State.scanStop_inCycle {s : State} (h : s.scan.state = .reading ∨ s.scan.state = .halting) :
    s.scanStop = (okay [], (s.cycleStep s.scan.cycleSet).withScan
      { s.scan with lastEnding := .aborted, state := .stopped, read := none }) := by
  rcases h with h | h <;> simp only [State.scanStop, h, State.endCycle_eq]

/-- Settles O13, by the scanner state. -/
theorem scanStartHaltStop : Obligations.ScanStartHaltStop := by
  intro s tag hs
  refine ⟨fun h => ⟨?_, ?_, ?_⟩, fun h => ?_, fun h => ⟨?_, ?_⟩, fun h => ?_, fun h => ?_, fun h => ?_⟩
  · exact State.submit_of_ready .scanStart hs (State.scanStart_stopped h) rfl
  · exact State.submit_report .scanHalt hs (State.scanHalt_of_halted (.inl h))
  · exact State.submit_report .scanStop hs (State.scanStop_stopped h)
  · exact State.submit_report .scanStart hs (if_neg h)
  · exact State.submit_of_ready .scanHalt hs (State.scanHalt_waiting h) rfl
  · exact State.submit_of_ready .scanStop hs (State.scanStop_waiting h) rfl
  · exact State.submit_of_ready .scanHalt hs (State.scanHalt_reading h) rfl
  · exact State.submit_report .scanHalt hs (State.scanHalt_of_halted (.inr h))
  · exact State.submit_of_ready .scanStop hs (State.scanStop_inCycle h) (by simp)

end Sys2Proof.Machine
end

