-- ==== Sys2Proof/Proofs/ClearingReports.lean ====
section
/-! PROOFS. The reports that clear counts, and those that look a consignment or a claim up (R18, R22, R67, R110, R131, R143,
R159). -/

namespace Sys2Proof.Machine

section
variable {s : State} {id : Word}

theorem State.consignmentGet_found {i : SlotNo} (h0 : id ≠ 0) (h : s.slotOf id = some i) :
    s.consignmentGet id = (okay (s.slotBytes i), s) := by
  simp only [State.consignmentGet, if_neg h0, h]

theorem State.consignmentGet_unknown (h0 : id ≠ 0) (h : s.slotOf id = none) :
    s.consignmentGet id = (refuse .unknown, s) := by
  simp only [State.consignmentGet, if_neg h0, h, State.refusing]

theorem State.proofFetch_handedOver {i : SlotNo} {p : List Byte} (h0 : id ≠ 0) (h : s.slotOf id = some i)
    (hs : s.slots[i].state = .handedOver) (hp : s.slots[i].proof = some p) :
    s.proofFetch id = (okay (le8 i.val ++ p), s) := by
  simp only [State.proofFetch, if_neg h0, h, hs, hp]

theorem State.proofFetch_wrongState {i : SlotNo} (h0 : id ≠ 0) (h : s.slotOf id = some i)
    (hs : s.slots[i].state ≠ .handedOver) : s.proofFetch id = (refuse .wrongState, s) := by
  simp only [State.proofFetch, if_neg h0, h]
  split
  next hstate _ => exact absurd hstate hs
  next => rfl

theorem State.proofFetch_unknown (h0 : id ≠ 0) (h : s.slotOf id = none) : s.proofFetch id = (refuse .unknown, s) := by
  simp only [State.proofFetch, if_neg h0, h, State.refusing]

theorem State.claimGet_found {i : ClaimNo} {k : Claim} (h0 : id ≠ 0) (h : s.claimOf id = some i)
    (hk : s.claims.slots[i] = some k) : s.claimGet id = (okay (s.claimBytes i k), s) := by
  simp only [State.claimGet, if_neg h0, h, hk]

theorem State.claimGet_unknown (h0 : id ≠ 0) (h : s.claimOf id = none) : s.claimGet id = (refuse .unknown, s) := by
  simp only [State.claimGet, if_neg h0, h, State.refusing]

theorem State.claimGather_found (base : Word) (mask : Half) {i : ClaimNo} {k : Claim} (h0 : id ≠ 0)
    (h : s.claimOf id = some i) (hk : s.claims.slots[i] = some k) :
    s.claimGather id base mask = (s.gatherReply i k base mask, s) := by
  simp only [State.claimGather, if_neg h0, h, hk]

theorem State.claimGather_unknown (base : Word) (mask : Half) (h0 : id ≠ 0) (h : s.claimOf id = none) :
    s.claimGather id base mask = (refuse .unknown, s) := by
  simp only [State.claimGather, if_neg h0, h, State.refusing]

/-- Identifier 0 and reference 0 name nothing (R110, R131, R143, R159). -/
theorem State.consignmentGet_zero : s.consignmentGet 0 = (refuse .badValue, s) := if_pos rfl

theorem State.proofFetch_zero : s.proofFetch 0 = (refuse .badValue, s) := if_pos rfl

theorem State.claimGet_zero : s.claimGet 0 = (refuse .badValue, s) := if_pos rfl

theorem State.claimGather_zero (base : Word) (mask : Half) : s.claimGather 0 base mask = (refuse .badValue, s) := if_pos rfl

end

/-- Settles O15, each report by its own rule; the link is left to `State.submit_of_ready`. -/
theorem reportsThatClearAndLookUp : Obligations.ReportsThatClearAndLookUp := by
  refine ⟨fun s tag hs => ⟨?_, ?_, ?_⟩, fun s tag hs => ⟨fun id i h0 h => ⟨?_, fun p hst hp => ?_, fun hst => ?_⟩,
    fun id h0 h => ⟨?_, ?_⟩, fun ref base mask i k h0 h hk => ⟨?_, ?_⟩, fun ref base mask h0 h => ⟨?_, ?_⟩,
    fun base mask => ⟨?_, ?_, ?_, ?_⟩⟩⟩
  · exact State.submit_of_ready .scanStatus hs rfl rfl
  · exact State.submit_of_ready .probeStatus hs rfl rfl
  · exact State.submit_of_ready .hatchStatus hs rfl rfl
  · exact State.submit_report (.consignmentGet id) hs (State.consignmentGet_found h0 h)
  · exact State.submit_report (.proofFetch id) hs (State.proofFetch_handedOver h0 h hst hp)
  · exact State.submit_report (.proofFetch id) hs (State.proofFetch_wrongState h0 h hst)
  · exact State.submit_report (.consignmentGet id) hs (State.consignmentGet_unknown h0 h)
  · exact State.submit_report (.proofFetch id) hs (State.proofFetch_unknown h0 h)
  · exact State.submit_report (.claimGet ref) hs (State.claimGet_found h0 h hk)
  · exact State.submit_report (.claimGather ref base mask) hs (State.claimGather_found base mask h0 h hk)
  · exact State.submit_report (.claimGet ref) hs (State.claimGet_unknown h0 h)
  · exact State.submit_report (.claimGather ref base mask) hs (State.claimGather_unknown base mask h0 h)
  · exact State.submit_report (.consignmentGet 0) hs State.consignmentGet_zero
  · exact State.submit_report (.proofFetch 0) hs State.proofFetch_zero
  · exact State.submit_report (.claimGet 0) hs State.claimGet_zero
  · exact State.submit_report (.claimGather 0 base mask) hs (State.claimGather_zero base mask)

end Sys2Proof.Machine
end

