-- ==== Sys2Proof/Proofs/SecondsPass.lean ====
section
/-! PROOFS. What an empty queue of commands brings (log entry 2). -/

namespace Sys2Proof.Machine

/-! ### Which timer events are due -/

theorem State.tick_mem_due_iff (s : State) : TimerEvent.tick ∈ s.due ↔ s.scan.tickIn = 0 := by
  simp [State.due]

theorem State.longOpen_mem_due_iff (s : State) (c : CompNo) :
    .longOpen c ∈ s.due ↔ s.hatch.openings[c].state = .opening ∧ s.hatch.openings[c].timer = .running ∧
      s.comps[c].settings.longOpenLimit ≤ s.hatch.openings[c].elapsed := by
  simp [State.due, State.longOpenDue, State.longOpenRuns, places, and_assoc]

theorem State.lapseDue_iff (s : State) (i : SlotNo) :
    s.lapseDue i = true ↔ s.slots[i].state = .handingOver ∧ ∃ h, s.slots[i].handover = some h ∧ h.deadline ≤ s.now := by
  unfold State.lapseDue
  split
  next h hstate hhand => simp [hstate, hhand, -Fin.getElem_fin]
  next hnot =>
    simp only [Bool.false_eq_true, false_iff, not_and, not_exists]
    exact fun hstate h hhand => (hnot h hstate hhand).elim

theorem State.lapse_mem_due_iff (s : State) (i : SlotNo) :
    .lapse i ∈ s.due ↔ s.slots[i].state = .handingOver ∧ ∃ h, s.slots[i].handover = some h ∧ h.deadline ≤ s.now := by
  rw [← State.lapseDue_iff]
  simp [State.due, places]

theorem TimerEvent.command_injective : Function.Injective TimerEvent.command := by
  intro a b h
  cases a <;> cases b <;> cases h <;> rfl

/-- A timer event's command waits in a queue of due events exactly when the event is due. -/
theorem State.command_mem_iff (s : State) (e : TimerEvent) : e.command ∈ s.due.map TimerEvent.command ↔ e ∈ s.due :=
  List.mem_map_of_injective TimerEvent.command_injective

/-! ### One second -/

/-- An opening in progress grows by a second, another stays (R63). -/
theorem Opening.elapse_one (o : Opening) :
    o.elapse 1 = if o.state = .opening then { o with elapsed := min (o.elapsed + 1) 4294967295 } else o := rfl

theorem step_of_empty {s : State} (h : s.pending = []) : step s = .next s.passSecond := by
  simp only [step, h]

/-- Settles O2, from which timer events are due after one second. -/
theorem emptyQueuePassesOneSecond : Obligations.EmptyQueuePassesOneSecond := by
  intro s hempty
  rw [step_of_empty hempty]
  refine ⟨fun hoff => ?_, fun hon hdue => ?_, fun hon hdue => ?_⟩
  · simp only [State.passSecond, hoff]
  · simp only [State.passSecond, hon, if_neg hdue]
  · have hpass : s.passSecond = (s.elapse 1).withPending ((s.elapse 1).due.map TimerEvent.command) := by
      simp only [State.passSecond, hon, if_pos hdue]
    refine ⟨_, congrArg _ hpass, rfl, rfl, rfl, rfl, rfl, rfl, fun c => ?_, ?_, fun c => ?_, fun i => ?_,
      rfl, rfl, rfl, rfl, rfl, rfl, rfl, rfl⟩
    · exact (getElem_mapAll _ _ c).trans (Opening.elapse_one _)
    · exact ((s.elapse 1).command_mem_iff .tick).trans (State.tick_mem_due_iff _)
    · exact ((s.elapse 1).command_mem_iff (.longOpen c)).trans (State.longOpen_mem_due_iff _ c)
    · exact ((s.elapse 1).command_mem_iff (.lapse i)).trans (State.lapse_mem_due_iff _ i)

end Sys2Proof.Machine
end

