-- ==== Sys2Proof/Proofs/Readings.lean ====
section
/-! PROOFS. The arithmetic of readings and means (R13, R15, R44). -/

namespace Sys2Proof.Machine

/-- The magnitude of a conversion (R13). -/
theorem natAbs_convert (r : Int) : (convert r).natAbs = (r.natAbs * 25 + 2) / 4 := by
  unfold convert
  split <;> simp only [Int.natAbs_neg, Int.natAbs_natCast]

/-- A conversion keeps the sign: a magnitude of at least 1 converts to one of at least 6 (R13). -/
theorem convert_sign (r : Int) : (r < 0 → convert r < 0) ∧ (0 < r → 0 < convert r) ∧ (r = 0 → convert r = 0) := by
  unfold convert
  refine ⟨fun h => ?_, fun h => ?_, fun h => by subst h; rfl⟩
  · rw [if_pos h]; omega
  · rw [if_neg (by omega)]; omega

/-- The clamp of a calibrated value (R15). -/
theorem calibrate_clamps (r off : Int) :
    (convert r + 5 * off < -5500 → calibrate r off = -5500) ∧ (8500 < convert r + 5 * off → calibrate r off = 8500) ∧
    (-5500 ≤ convert r + 5 * off → convert r + 5 * off ≤ 8500 → calibrate r off = convert r + 5 * off) := by
  unfold calibrate
  omega

/-- A mean m of n values is the nearest to sum / n, half-way toward the warmer: 2nm ≤ 2 sum + n < 2n(m + 1) (R44). -/
theorem meanOf_nearest (sum : Int) {n : Nat} (hn : 1 ≤ n) :
    ∃ m, meanOf sum n = some m ∧ 2 * n * m ≤ 2 * sum + n ∧ 2 * sum + n < 2 * n * (m + 1) := by
  have hpos : (0 : Int) < 2 * n := by omega
  refine ⟨_, if_neg (by omega), ?_, ?_⟩
  · exact Int.mul_fdiv_self_le hpos
  · rw [mul_add, mul_one]
    exact Int.lt_mul_fdiv_self_add hpos

/-- Settles O20, each rule by its own lemma. -/
theorem readingArithmetic : Obligations.ReadingArithmetic :=
  ⟨fun r => ⟨natAbs_convert r, convert_sign r⟩, calibrate_clamps, fun sum _ hn => meanOf_nearest sum hn⟩

end Sys2Proof.Machine
end

