-- ==== Sys2Proof/Proofs/CompartmentSteps.lean ====
section
/-! PROOFS. The steps a cycle end and a blind tick hand to the compartments (R12, R27, R29, R31, R45). -/

namespace Sys2Proof.Machine

/-! ### The warmest reading (R29) -/

/-- A bound of the higher of two optional temperatures is a bound of both. -/
theorem maxOpt_bounded_iff {a b : Option Int} {x : Int} :
    (∀ y, maxOpt a b = some y → y ≤ x) ↔ (∀ y, a = some y → y ≤ x) ∧ ∀ y, b = some y → y ≤ x := by
  cases a <;> cases b <;> simp [maxOpt]

theorem maxOpt_eq_some_iff {a b : Option Int} {x : Int} :
    maxOpt a b = some x ↔ (a = some x ∨ b = some x) ∧ (∀ y, a = some y → y ≤ x) ∧ ∀ y, b = some y → y ≤ x := by
  cases a <;> cases b <;> simp [maxOpt] <;> omega

/-- The warmest value of a fold is a value met, with none met above it. -/
theorem foldl_maxOpt_eq_some_iff (l : List CycleItem) (a : Option Int) (x : Int) :
    l.foldl (fun m i => maxOpt m i.value) a = some x ↔
      (a = some x ∨ ∃ i ∈ l, i.value = some x) ∧ (∀ y, a = some y → y ≤ x) ∧ ∀ i ∈ l, ∀ y, i.value = some y → y ≤ x := by
  induction l generalizing a with
  | nil =>
    refine ⟨fun h => ⟨.inl h, fun y hy => ?_, nofun⟩, fun h => h.1.resolve_right nofun⟩
    exact (Option.some.inj (hy.symm.trans h)).le
  | cons i l ih =>
    rw [List.foldl_cons, ih, maxOpt_bounded_iff, maxOpt_eq_some_iff, List.exists_mem_cons_iff, List.forall_mem_cons,
      and_assoc]
    constructor
    · rintro ⟨hfound, ha, hi, hl⟩
      exact ⟨hfound.elim (fun h => h.1.imp id .inl) (fun h => .inr (.inr h)), ha, hi, hl⟩
    · rintro ⟨hfound, ha, hi, hl⟩
      exact ⟨(or_assoc.mpr hfound).imp (fun h => ⟨h, ha, hi⟩) id, ha, hi, hl⟩

/-- The warmest VALID value of a role under a compartment (R29). -/
theorem warmest_eq_some_iff (items : List CycleItem) (c : CompNo) (r : Role) (x : Int) :
    warmest items c r = some x ↔
      (∃ i ∈ items, i.outcome = .valid ∧ i.role = r ∧ i.compartment = some c ∧ i.value = some x) ∧
      ∀ i ∈ items, i.outcome = .valid → i.role = r → i.compartment = some c → ∀ y, i.value = some y → y ≤ x := by
  simp only [warmest, foldl_maxOpt_eq_some_iff, List.mem_filter, Bool.and_eq_true, beq_iff_eq, reduceCtorEq, false_or,
    false_implies, implies_true, true_and, and_assoc, and_imp]

/-! ### The steps, compartment by compartment (R27, R45) -/

theorem State.stepAll_places (s : State) (causeOf : CompNo → StepCause) :
    s.stepAll causeOf (places 4) = (((s.stepComp 0 (causeOf 0)).stepComp 1 (causeOf 1)).stepComp 2
      (causeOf 2)).stepComp 3 (causeOf 3) := rfl

/-- Settles O21, from the characterisation of the warmest value (`warmest_eq_some_iff`). -/
theorem everyCompartmentTakesItsStep : Obligations.EveryCompartmentTakesItsStep := by
  refine ⟨fun s items v w hv hw => ?_, fun s => s.stepAll_places _⟩
  have hcause : cycleCause items = fun c => .cycle (v c) (w c) := by
    funext c
    have hexposure : warmest items c .exposure = v c :=
      Option.ext fun x => (warmest_eq_some_iff items c .exposure x).trans (hv c x).symm
    have hwatch : warmest items c .watch = w c :=
      Option.ext fun x => (warmest_eq_some_iff items c .watch x).trans (hw c x).symm
    rw [cycleCause, hexposure, hwatch]
  rw [State.cycleStep, hcause, State.stepAll_places]

end Sys2Proof.Machine
end

