-- ==== Sys2Proof/Proofs/ScanCycles.lean ====
section
/-! PROOFS. Cycles: the entries of a range, the passing over of unused entries, and the tick by scanner state (R4, R7 to
R12). -/

namespace Sys2Proof.Machine

/-! ### The range (R4) -/

theorem ScanRange.entries_val (r : ScanRange) :
    r.entries.map Fin.val
      = (List.range ((r.last.val + 16 - r.first.val) % 16 + 1)).map fun k => (r.first.val + k) % 16 := by
  obtain ⟨a, b⟩ := r
  revert a b
  decide +kernel

/-- A range meets no entry twice. -/
theorem ScanRange.entries_nodup (r : ScanRange) : r.entries.Nodup := by
  have hval : (r.entries.map Fin.val).Nodup := by
    rw [r.entries_val]
    refine List.nodup_range.map_on fun x hx y hy h => ?_
    rw [List.mem_range] at hx hy
    omega
  exact hval.of_map

theorem ScanRange.entries_head (r : ScanRange) : ∃ rest, r.entries = r.first :: rest := by
  have hval := r.entries_val
  rw [List.range_succ_eq_map, List.map_cons, Nat.add_zero, Nat.mod_eq_of_lt r.first.isLt] at hval
  obtain ⟨a, rest, hentries, ha, -⟩ := List.map_eq_cons_iff.mp hval
  exact ⟨rest, by rw [hentries, Fin.ext ha]⟩

/-- The entries after one of a range are those that follow it. -/
theorem ScanRange.after_eq {r : ScanRange} {i : EntryNo} {before after : List EntryNo}
    (h : r.entries = before ++ i :: after) : r.after i = after := by
  have hnot : i ∉ before := fun hi =>
    List.disjoint_of_nodup_append (h ▸ r.entries_nodup) hi List.mem_cons_self
  have hbefore : ∀ j ∈ before, (j != i) = true := fun j hj =>
    bne_iff_ne.mpr fun e => hnot (e ▸ hj)
  rw [ScanRange.after, h, List.dropWhile_append_of_pos hbefore]
  simp

theorem ScanRange.not_mem_after (r : ScanRange) (i : EntryNo) : i ∉ r.after i := by
  by_cases hi : i ∈ r.entries
  · obtain ⟨before, after, h⟩ := List.append_of_mem hi
    rw [ScanRange.after_eq h]
    have hnodup := h ▸ r.entries_nodup
    exact (List.nodup_cons.mp (List.nodup_append.mp hnodup).2.1).1
  · exact fun hmem => hi ((List.dropWhile_sublist _).mem (List.mem_of_mem_tail hmem))

/-! ### Unused entries (R10, R11) -/

theorem getElem_ofFn_place {α : Type} {n : Nat} (f : Fin n → α) (i : Fin n) : (Vector.ofFn f)[i] = f i := by simp

@[simp] theorem Scanner.skipped_nil (x : Scanner) (t : Stamp) : x.skipped t [] = x := by
  have hrows : (Vector.ofFn fun j => if j ∈ ([] : List EntryNo) then ⟨.skipped, none, some t, none, false⟩ else x.rows[j])
      = x.rows := table_ext fun j => by simp
  simp only [Scanner.skipped, hrows, List.map_nil, List.append_nil, List.getLast?_nil, Option.none_or]

theorem Scanner.skipped_rows (x : Scanner) (t : Stamp) (l : List EntryNo) (i : EntryNo) :
    (x.skipped t l).rows[i] = if i ∈ l then ⟨.skipped, none, some t, none, false⟩ else x.rows[i] := getElem_ofFn_place _ i

/-- The entries passed over join the cycle set in their order. -/
theorem Scanner.skipped_entries (x : Scanner) (t : Stamp) (l : List EntryNo) :
    (x.skipped t l).cycleSet.map (·.entry) = x.cycleSet.map (·.entry) ++ l := by
  simp [Scanner.skipped, Function.comp_def]

/-- Passing over one list of entries and then another is passing over both. -/
theorem Scanner.skipped_skipped (x : Scanner) (t : Stamp) (a b : List EntryNo) :
    (x.skipped t a).skipped t b = x.skipped t (a ++ b) := by
  have hrows : ((x.skipped t a).skipped t b).rows = (x.skipped t (a ++ b)).rows := table_ext fun j => by
    simp only [Scanner.skipped_rows, List.mem_append]
    by_cases hb : j ∈ b <;> simp only [hb, if_true, if_false, or_true, or_false]
  simp only [Scanner.skipped, List.map_append, List.append_assoc, List.getLast?_append, Option.or_assoc] at hrows ⊢
  rw [hrows]

theorem State.passOver_eq {s : State} (i : EntryNo) (h : s.scan.read = none) :
    s.passOver i = s.withScan (s.scan.skipped s.stampNow [i]) := by
  have hrows : setAt s.scan.rows i ⟨.skipped, none, some s.stampNow, none, false⟩
      = Vector.ofFn fun j => if j ∈ [i] then ⟨.skipped, none, some s.stampNow, none, false⟩ else s.scan.rows[j] :=
    table_ext fun j => by rw [getElem_setAt, getElem_ofFn_place]; simp only [List.mem_singleton, eq_comm]
  simp only [State.passOver, State.updScan, Scanner.complete, Scanner.skipped, hrows, h]
  rfl

/-- Leading unused entries are passed over, one after another, at one instant (R10). -/
theorem State.takeUp_unused {s : State} (pre rest : List EntryNo) (hread : s.scan.read = none)
    (h : ∀ j ∈ pre, s.scan.entries[j].address = 0) :
    s.takeUp (pre ++ rest) = (s.withScan (s.scan.skipped s.stampNow pre)).takeUp rest := by
  induction pre generalizing s with
  | nil => rw [Scanner.skipped_nil]; rfl
  | cons i pre ih =>
    obtain ⟨hi, hpre⟩ := List.forall_mem_cons.mp h
    rw [List.cons_append, State.takeUp, if_pos hi, State.passOver_eq i hread,
      ih (s := s.withScan (s.scan.skipped s.stampNow [i])) hread hpre]
    exact congrArg (fun x => (s.withScan x).takeUp rest) (Scanner.skipped_skipped s.scan s.stampNow [i] pre)

/-- How a cycle with no read in flight goes on over the entries that remain (R10, R11 step 4, R12). -/
theorem State.takeUp_goesOn {s : State} (l : List EntryNo) (hread : s.scan.read = none) : s.goesOn l (s.takeUp l) := by
  refine ⟨fun pre i post hl hpre hused => ?_, fun hunused => ?_⟩
  · rw [hl, State.takeUp_unused pre _ hread hpre, State.takeUp]
    exact if_neg hused
  · have hall := State.takeUp_unused l [] hread hunused
    rw [List.append_nil] at hall
    rw [hall, State.takeUp, State.endNormally, State.endCycle_eq]
    rfl

/-- Taking up entries touches neither failure counts nor fault marks (R17). -/
theorem State.takeUp_marks (s : State) (l : List EntryNo) :
    (s.takeUp l).scan.failures = s.scan.failures ∧ (s.takeUp l).scan.faults = s.scan.faults := by
  induction l generalizing s with
  | nil => simp [State.takeUp, State.endNormally, State.endCycle_eq]
  | cons i l ih =>
    rw [State.takeUp]
    split
    · exact ih _
    · exact ⟨rfl, rfl⟩

/-- Taking up entries writes no other entry's row (R16). -/
theorem State.takeUp_rows {s : State} {l : List EntryNo} {j : EntryNo} (h : j ∉ l) :
    (s.takeUp l).scan.rows[j] = s.scan.rows[j] := by
  induction l generalizing s with
  | nil => simp [State.takeUp, State.endNormally, State.endCycle_eq]
  | cons i l ih =>
    obtain ⟨hi, hl⟩ := List.ne_and_not_mem_of_not_mem_cons h
    rw [State.takeUp]
    split
    · rw [ih hl]
      exact (getElem_setAt _ _ _ _).trans (if_neg (Ne.symm hi))
    · rfl

/-! ### The seconds up to a tick (R7) -/

theorem State.fire_quiet {s : State} (h : s.quiet) (e : TimerEvent) : (s.fire e).quiet := by
  cases e with
  | tick => exact State.quiet_pump (t := s.fallTick) h (by simp) (by simp)
  | longOpen c => exact State.quiet_pump (t := s.expireLongOpen c) h (by simp) (by simp)
  | lapse i => exact State.quiet_pump (t := s.lapse i) h (by simp) (by simp)

/-- A timer event other than a tick leaves the scanner as it was. -/
theorem State.fire_scan {s : State} (h : s.quiet) {e : TimerEvent} (he : e ≠ .tick) : (s.fire e).scan = s.scan := by
  cases e with
  | tick => contradiction
  | longOpen c => simp [State.fire, State.pump_of_quiet (t := s.expireLongOpen c) h (by simp)]
  | lapse i => simp [State.fire, State.pump_of_quiet (t := s.lapse i) h (by simp)]

theorem State.fireAll_quiet {s : State} (h : s.quiet) (l : List TimerEvent) : (s.fireAll l).quiet := by
  induction l generalizing s with
  | nil => exact h
  | cons e l ih => exact ih (State.fire_quiet h e)

theorem State.fireAll_scan {s : State} (h : s.quiet) {l : List TimerEvent} (hl : .tick ∉ l) :
    (s.fireAll l).scan = s.scan := by
  induction l generalizing s with
  | nil => rfl
  | cons e l ih =>
    obtain ⟨he, hrest⟩ := List.ne_and_not_mem_of_not_mem_cons hl
    rw [State.fireAll, ih (State.fire_quiet h e) hrest, State.fire_scan h (Ne.symm he)]

theorem State.passTo_quiet {s : State} (h : s.quiet) (n : Nat) : (s.passTo n).quiet := by
  induction n generalizing s with
  | zero => exact h
  | succ n ih =>
    exact ih (State.quiet_of_link (State.fireAll_quiet h s.due) (by simp) (by simp))

/-- Up to the next tick no tick falls, and the cycle timer alone moves in the scanner (R7). -/
theorem State.passTo_scan {s : State} (h : s.quiet) {n : Nat} (hn : n ≤ s.scan.tickIn) :
    (s.passTo n).scan = { s.scan with tickIn := s.scan.tickIn - n } := by
  induction n generalizing s with
  | zero => rfl
  | succ n ih =>
    have hfire : (s.fireAll s.due).scan = s.scan :=
      State.fireAll_scan h fun htick => by rw [State.tick_mem_due_iff] at htick; omega
    have hsecond : ((s.fireAll s.due).elapse 1).scan = { s.scan with tickIn := s.scan.tickIn - 1 } := by
      rw [State.elapse, hfire]
    have hquiet : ((s.fireAll s.due).elapse 1).quiet :=
      State.quiet_of_link (State.fireAll_quiet h s.due) (by simp) (by simp)
    rw [State.passTo, ih hquiet (by rw [hsecond]; exact Nat.le_sub_one_of_lt hn), hsecond]
    simp only [Nat.sub_sub, Nat.add_comm 1]

/-! ### The tick by scanner state (R8, R9) -/

/-- The scanner a cycle starts with, over the range most recently written and an interval of the period in force (R7,
R9). -/
def Scanner.atCycleStart (x : Scanner) : Scanner :=
  { x with
    tickIn := x.period, range := x.writtenRange, pendingRange := none, cycleSet := [], state := .reading, read := none }

/-- CYCLE_TIMER_TICK at a quiet link: the seconds left pass, the tick falls, and the transmitter chooses. -/
theorem exec_cycleTimerTick {s : State} (h : s.quiet) :
    exec .cycleTimerTick s = .next (s.passTo s.scan.tickIn).fallTick.offer := by
  have hpump := State.pump_of_quiet (t := (s.passTo s.scan.tickIn).fallTick) (State.passTo_quiet h s.scan.tickIn) (by simp)
  rw [← hpump]
  simp only [exec, execCycleTimerTick, State.happen, h.1, State.nextTick]

/-- The tick that falls once the seconds left have passed is taken with the next interval running (R7). -/
theorem State.passTo_fallTick {s : State} (h : s.quiet) :
    (s.passTo s.scan.tickIn).fallTick
      = ((s.passTo s.scan.tickIn).withScan { s.scan with tickIn := s.scan.period }).takeTick := by
  rw [State.fallTick, State.updScan, State.passTo_scan h le_rfl]

/-- In STOPPED the tick is a blind tick (R8). -/
theorem State.passTo_fallTick_stopped {s : State} (h : s.quiet) (hstate : s.scan.state = .stopped) :
    (s.passTo s.scan.tickIn).fallTick
      = ((s.passTo s.scan.tickIn).withScan { s.scan with tickIn := s.scan.period }).blindTick := by
  rw [State.passTo_fallTick h]
  simp only [State.takeTick, State.withScan_scan, hstate]

/-- In a cycle the tick is an overrun (R8). -/
theorem State.passTo_fallTick_inCycle {s : State} (h : s.quiet)
    (hstate : s.scan.state = .reading ∨ s.scan.state = .halting) :
    (s.passTo s.scan.tickIn).fallTick = (s.passTo s.scan.tickIn).withScan
      { s.scan with tickIn := s.scan.period, overruns := min (s.scan.overruns + 1) 255 } := by
  rw [State.passTo_fallTick h]
  rcases hstate with hstate | hstate <;> simp only [State.takeTick, State.withScan_scan, hstate] <;> rfl

/-- In WAITING it starts a cycle (R9). -/
theorem State.passTo_fallTick_waiting {s : State} (h : s.quiet) (hstate : s.scan.state = .waiting) :
    (s.passTo s.scan.tickIn).fallTick
      = ((s.passTo s.scan.tickIn).withScan s.scan.atCycleStart).takeUp s.scan.writtenRange.entries := by
  rw [State.passTo_fallTick h]
  simp only [State.takeTick, State.withScan_scan, hstate]
  rfl

/-- The cycle of a tick in WAITING goes on over the entries of the range most recently written (R9). -/
theorem State.passTo_fallTick_goesOn {s : State} (h : s.quiet) (hstate : s.scan.state = .waiting) :
    ((s.passTo s.scan.tickIn).withScan s.scan.atCycleStart).goesOn s.scan.writtenRange.entries
      (s.passTo s.scan.tickIn).fallTick := by
  rw [State.passTo_fallTick_waiting h hstate]
  exact State.takeUp_goesOn _ rfl

/-- Settles O16, from how the seconds pass up to a tick (`State.passTo_scan`) and how a cycle goes on
(`State.takeUp_goesOn`). -/
theorem tickByScannerState : Obligations.TickByScannerState := by
  rintro s p hs rfl
  rw [exec_cycleTimerTick hs]
  refine ⟨?_, State.passTo_calm, fun hstopped => ?_, fun hcycle => ?_, fun x hwaiting hx => ?_⟩
  · rw [State.passTo_scan hs le_rfl, Nat.sub_self]
  · rw [State.passTo_fallTick_stopped hs hstopped]
  · rw [State.passTo_fallTick_inCycle hs hcycle]
  · obtain rfl : x = s.scan.atCycleStart := hx
    have hgoes := State.passTo_fallTick_goesOn hs hwaiting
    refine ⟨⟨_, rfl, hgoes⟩, ?_⟩
    rintro i e rfl rfl hused
    obtain ⟨rest, hrest⟩ := s.scan.writtenRange.entries_head
    rw [hgoes.1 [] _ rest hrest nofun hused, Scanner.skipped_nil]
    rfl

/-- The scanner once a cycle has ended. -/
theorem State.cycleEnds_scan (s : State) (x : Scanner) (ending : CycleEnding) (next : ScanState) :
    (s.cycleEnds x ending next).scan = { x with lastEnding := ending, state := next, read := none } := rfl

/-- Settles O17, from the end of a cycle in which every entry is passed over. -/
theorem unusedEntriesArePassedOver : Obligations.UnusedEntriesArePassedOver := by
  refine ⟨fun s hs hwaiting hunused => ⟨_, exec_cycleTimerTick hs, ?_⟩, ScanRange.entries_val⟩
  have hscan : (s.passTo s.scan.tickIn).fallTick.offer.scan
      = { s.scan.atCycleStart.skipped (s.passTo s.scan.tickIn).stampNow s.scan.writtenRange.entries with
          lastEnding := .complete, state := match s.scan.mode with | .continuous => .waiting | .single => .stopped,
          read := none } := by
    rw [(State.offer_frame _).2.2.1, (State.passTo_fallTick_goesOn hs hwaiting).2 hunused, State.cycleEnds_scan]
    rfl
  have hrow := s.scan.atCycleStart.skipped_rows (s.passTo s.scan.tickIn).stampNow s.scan.writtenRange.entries
  have hentries := s.scan.atCycleStart.skipped_entries (s.passTo s.scan.tickIn).stampNow s.scan.writtenRange.entries
  refine ⟨congrArg Scanner.lastEnding hscan, congrArg Scanner.read hscan, congrArg Scanner.state hscan, ?_⟩
  simp only [hscan, hrow]
  refine ⟨hentries, ?_, fun i hi => ?_, fun i hi => ?_, rfl, rfl⟩
  · simp [Scanner.skipped, Scanner.atCycleStart]
  · rw [if_pos hi]
  · rw [if_neg hi]
    rfl

end Sys2Proof.Machine
end

