-- ==== Sys2Proof/Proofs/ProbeReads.lean ====
section
/-! PROOFS. The end of a probe read: VALID or failed, with what follows it (R10 to R17, R20). -/

namespace Sys2Proof.Machine

/-! ### What follows a completed read (R11 step 4, R20) -/

theorem State.moveOn_halting {s : State} (i : EntryNo) (h : s.scan.state = .halting) :
    s.moveOn i = s.cycleEnds s.scan .halted .stopped := by
  rw [State.moveOn, if_pos h, State.endCycle_eq]
  rfl

theorem State.moveOn_goesOn {s : State} {i : EntryNo} {before after : List EntryNo} (hread : s.scan.read = none)
    (h : s.scan.state ≠ .halting) (hrange : s.scan.range.entries = before ++ i :: after) : s.goesOn after (s.moveOn i) := by
  rw [State.moveOn, if_neg h, ScanRange.after_eq hrange]
  exact State.takeUp_goesOn after hread

/-- The row just written stays while the cycle moves on (R16). -/
theorem State.moveOn_row (s : State) (i : EntryNo) : (s.moveOn i).scan.rows[i] = s.scan.rows[i] := by
  by_cases h : s.scan.state = .halting
  · rw [State.moveOn_halting i h]
    rfl
  · rw [State.moveOn, if_neg h, State.takeUp_rows (s.scan.range.not_mem_after i)]

/-- So do failure counts and fault marks (R17). -/
theorem State.moveOn_marks (s : State) (i : EntryNo) :
    (s.moveOn i).scan.failures = s.scan.failures ∧ (s.moveOn i).scan.faults = s.scan.faults := by
  by_cases h : s.scan.state = .halting
  · rw [State.moveOn_halting i h]
    exact ⟨rfl, rfl⟩
  · rw [State.moveOn, if_neg h]
    exact s.takeUp_marks _

/-! ### A VALID read (R13 to R15) -/

theorem OffsetEntry.given_of_not_programmed {x : OffsetEntry} (h : ∀ v, x ≠ .programmed v) : x.given = (0, true) := by
  cases x with
  | blank => rfl
  | programming => rfl
  | programmed v => exact absurd rfl (h v)

/-- The offset a read uses, by its source (R14). -/
theorem State.offsetFor_eq {s : State} {i : EntryNo} {e : ScanEntry} {off : Int} {blank : Bool}
    (h : (e.source = .none ∧ off = 0 ∧ blank = false) ∨ (e.source = .message ∧ off = e.message ∧ blank = false) ∨
      (e.source = .slotA ∧ s.offsets.slotA[i] = .programmed off ∧ blank = false) ∨
      (e.source = .slotB ∧ s.offsets.slotB[i] = .programmed off ∧ blank = false) ∨
      (e.source = .slotA ∧ (∀ v, s.offsets.slotA[i] ≠ .programmed v) ∧ off = 0 ∧ blank = true) ∨
      (e.source = .slotB ∧ (∀ v, s.offsets.slotB[i] ≠ .programmed v) ∧ off = 0 ∧ blank = true)) :
    s.offsetFor i e = (off, blank) := by
  rcases h with ⟨hsrc, rfl, rfl⟩ | ⟨hsrc, rfl, rfl⟩ | ⟨hsrc, hp, rfl⟩ | ⟨hsrc, hp, rfl⟩ | ⟨hsrc, hn, rfl, rfl⟩ |
    ⟨hsrc, hn, rfl, rfl⟩
  · simp only [State.offsetFor, hsrc]
  · simp only [State.offsetFor, hsrc]
  · simp only [State.offsetFor, hsrc, hp, OffsetEntry.given]
  · simp only [State.offsetFor, hsrc, hp, OffsetEntry.given]
  · simp only [State.offsetFor, hsrc, OffsetEntry.given_of_not_programmed hn]
  · simp only [State.offsetFor, hsrc, OffsetEntry.given_of_not_programmed hn]

/-- What a VALID read writes before the cycle moves on (R11, R16, R17). -/
theorem State.endReadValid_eq {s : State} {r : ReadInFlight} {off : Int} {blank : Bool} (raw : Int)
    (h : s.offsetFor r.entry r.fields = (off, blank)) :
    s.endReadValid r raw = (s.withScan { s.scan with
      rows := setAt s.scan.rows r.entry ⟨.valid, some (calibrate raw off), some s.stampNow, some r.fields.source, blank⟩
      failures := setAt s.scan.failures r.entry 0
      faults := setAt s.scan.faults r.entry false
      completed := some r.entry
      cycleSet := s.scan.cycleSet ++ [⟨r.entry, .valid, some (calibrate raw off), r.fields.compartment, r.fields.role⟩]
      read := none }).moveOn r.entry := by
  simp only [State.endReadValid, h]
  rfl

theorem answerOutcome_valid {raw : Int} (hlo : -880 ≤ raw) (hhi : raw ≤ 1360) : answerOutcome raw true = .valid := by
  simp [answerOutcome, hlo, hhi]

/-- An answer that is good and in range ends the exchange VALID (R10). -/
theorem State.probeAnswer_valid {s : State} {r : ReadInFlight} {raw : Int} (hread : s.scan.read = some r)
    (hphase : r.phase = .exchanging) (hlo : -880 ≤ raw) (hhi : raw ≤ 1360) :
    s.probeAnswer raw true = s.endReadValid r raw := by
  simp only [State.probeAnswer, hread, hphase, answerOutcome_valid hlo hhi, if_true]

theorem State.settleExpiry_of_read {s : State} {r : ReadInFlight} (hread : s.scan.read = some r) :
    s.settleExpiry = s.withScan { s.scan with read := some { r with phase := .exchanging } } := by
  simp only [State.settleExpiry, hread, State.updScan]

/-- Settles O18, from what the read writes (`State.endReadValid_eq`) and how the cycle moves on. -/
theorem validReadEndsTheExchange : Obligations.ValidReadEndsTheExchange := by
  refine ⟨fun s r hs hread => ?_, fun s v r raw off blank hs hread hphase hlo hhi hoff hv => ?_⟩
  · rw [← State.settleExpiry_of_read hread]
    exact congrArg _ (State.happen_of_quiet (f := State.settleExpiry) hs (by rw [State.settleExpiry_of_read hread]; rfl))
  · have hanswer : s.probeAnswer raw true = v.moveOn r.entry := by
      rw [State.probeAnswer_valid hread hphase hlo hhi, State.endReadValid_eq raw (State.offsetFor_eq hoff), hv]
    have hnone : v.scan.read = none := hv ▸ rfl
    have hrange : v.scan.range = s.scan.range := hv ▸ rfl
    have hstate : v.scan.state = s.scan.state := hv ▸ rfl
    have hrow : v.scan.rows[r.entry] = ⟨.valid, some (calibrate raw off), some s.stampNow, some r.fields.source, blank⟩ := by
      rw [hv]
      exact (getElem_setAt _ _ _ _).trans (if_pos rfl)
    have hmarks := v.moveOn_marks r.entry
    refine ⟨v.moveOn r.entry, ?_, (v.moveOn_row r.entry).trans hrow, hmarks.1, hmarks.2,
      fun h => State.moveOn_halting _ (hstate.trans h), fun before after h hentries =>
        State.moveOn_goesOn hnone (hstate ▸ h) (hrange ▸ hentries)⟩
    rw [← hanswer]
    exact congrArg _ (State.happen_of_quiet (f := fun s => s.probeAnswer raw true) hs (by simp))

end Sys2Proof.Machine
end

