-- ==== Sys2Proof/Proofs/FailedReads.lean ====
section
/-! PROOFS. A failed read: its count, its fault mark and PROBE_FAULT, which stays pending while the cycle goes on (R10, R16,
R17, R165). -/

namespace Sys2Proof.Machine

/-! ### What a cycle's steps keep pending (R165) -/

/-- Every condition pending in `s` is pending in `t`. -/
def State.keepsPending (s t : State) : Prop := ∀ k : Fin 18, s.notices.members[k] = true → t.notices.members[k] = true

theorem State.keepsPending_of_notices {s t : State} (h : t.notices = s.notices) : s.keepsPending t := fun k hk => by
  rwa [h]

theorem State.keepsPending.trans {s t u : State} (h : s.keepsPending t) (g : t.keepsPending u) : s.keepsPending u :=
  fun k hk => g k (h k hk)

theorem NoticeUnit.raise_member (u : NoticeUnit) {k : Fin 18} (h : u.enables[k] = true) : (u.raise k).members[k] = true := by
  rw [NoticeUnit.raise, if_pos h]
  split
  · assumption
  · exact (getElem_setAt _ _ _ _).trans (if_pos rfl)

theorem State.raise_keepsPending (s : State) (c : Condition) : s.keepsPending (s.raise c) := by
  intro k hk
  rw [State.raise, State.withNotices_notices, NoticeUnit.raise]
  split
  · split
    · exact hk
    · rw [getElem_setAt, hk, ite_self]
  · exact hk

theorem State.raiseIf_keepsPending (s : State) (b : Bool) (c : Condition) : s.keepsPending (s.raiseIf b c) := by
  cases b with
  | false => exact State.keepsPending_of_notices rfl
  | true => exact s.raise_keepsPending c

theorem State.raiseTimes_keepsPending (s : State) (c : Condition) (n : Nat) : s.keepsPending (s.raiseTimes c n) := by
  induction n generalizing s with
  | zero => exact State.keepsPending_of_notices rfl
  | succ n ih => exact (s.raise_keepsPending c).trans (ih _)

/-- What leaves the notices alone before it keeps the pending set as well. -/
theorem State.keepsPending.of_notices {s t u : State} (h : t.keepsPending u) (hn : t.notices = s.notices) :
    s.keepsPending u := (State.keepsPending_of_notices hn).trans h

theorem State.enterHeldFull_keepsPending (s : State) (t : Stamp) : s.keepsPending (s.enterHeldFull t) :=
  (State.raise_keepsPending _ _).of_notices rfl

theorem State.handGeneral_keepsPending (s : State) (e : Entry) : s.keepsPending (s.handGeneral e) := by
  unfold State.handGeneral
  split
  next => exact State.keepsPending_of_notices (by simp)
  next => exact State.keepsPending_of_notices (by simp)
  next => exact State.keepsPending_of_notices rfl
  next => exact State.keepsPending_of_notices rfl
  next => exact (s.enterHeldFull_keepsPending e.stamp).trans (State.keepsPending_of_notices (by simp))

theorem State.evaluatePattern_keepsPending (s : State) : s.keepsPending s.evaluatePattern :=
  (State.raiseIf_keepsPending _ _ _).of_notices rfl

theorem State.setBand_keepsPending (s : State) (c : CompNo) (b : Band) : s.keepsPending (s.setBand c b) := by
  simp only [State.setBand]
  split
  · exact (State.evaluatePattern_keepsPending _).of_notices rfl
  · exact State.keepsPending_of_notices rfl

theorem State.creditCycle_notices (s : State) (c : CompNo) : (s.creditCycle c).notices = s.notices := by simp

theorem State.stepBand_keepsPending (s : State) (c : CompNo) (k : StepKind) : s.keepsPending (s.stepBand c k) := by
  cases k with
  | live t =>
    simp only [State.stepBand]
    split
    · exact (s.setBand_keepsPending c _).trans (State.keepsPending_of_notices (State.creditCycle_notices _ c))
    · exact s.setBand_keepsPending c _
  | held t => exact State.keepsPending_of_notices rfl
  | blind => exact State.keepsPending_of_notices rfl

theorem State.shareStep_keepsPending (s : State) (c : CompNo) (t tp : Nat) (rate : Option Nat) :
    s.keepsPending (s.shareStep c t tp rate) := by
  simp only [State.shareStep]
  split
  · exact (State.raiseTimes_keepsPending _ _ _).of_notices (State.updHeldIn_notices s c _)
  · exact State.keepsPending_of_notices rfl

theorem State.closeInterval_keepsPending (s : State) (c : CompNo) (reopen : Stamp) :
    s.keepsPending (s.closeInterval c reopen) :=
  (s.handGeneral_keepsPending _).trans (State.keepsPending_of_notices rfl)

theorem State.stepKnow_keepsPending (s : State) (c : CompNo) (cause : StepCause) : s.keepsPending (s.stepKnow c cause) :=
  (State.raiseIf_keepsPending _ _ _).of_notices rfl

theorem State.stepClose_keepsPending (s : State) (c : CompNo) (cause : StepCause) :
    s.keepsPending (s.stepClose c cause) := by
  unfold State.stepClose
  split
  · exact s.closeInterval_keepsPending c _
  · exact State.keepsPending_of_notices rfl

/-- A step raises conditions and removes none (R28). -/
theorem State.takeStep_keepsPending (s : State) (c : CompNo) (cause : StepCause) : s.keepsPending (s.takeStep c cause) := by
  have hband := (s.stepKnow_keepsPending c cause).trans (State.stepBand_keepsPending _ c (s.comps[c].stepKind cause))
  have hinterval := fun span k w => hband.trans (State.keepsPending_of_notices
    (t := State.stepInterval _ c span k w) rfl)
  exact ((hinterval _ _ _).trans (State.shareStep_keepsPending _ c _ _ _)).trans (State.stepClose_keepsPending _ c cause)

theorem State.stepAll_keepsPending (s : State) (causeOf : CompNo → StepCause) (l : List CompNo) :
    s.keepsPending (s.stepAll causeOf l) := by
  induction l generalizing s with
  | nil => exact State.keepsPending_of_notices rfl
  | cons c l ih =>
    refine State.keepsPending.trans ?_ (ih _)
    rw [State.stepComp]
    split
    · exact s.takeStep_keepsPending c _
    · exact State.keepsPending_of_notices rfl

theorem State.endCycle_keepsPending (s : State) (ending : CycleEnding) (next : ScanState) :
    s.keepsPending (s.endCycle ending next) :=
  (s.stepAll_keepsPending (cycleCause s.scan.cycleSet) (places 4)).trans (State.keepsPending_of_notices rfl)

theorem State.takeUp_keepsPending (s : State) (l : List EntryNo) : s.keepsPending (s.takeUp l) := by
  induction l generalizing s with
  | nil => exact s.endCycle_keepsPending _ _
  | cons i l ih =>
    rw [State.takeUp]
    split
    · exact State.keepsPending.trans (State.keepsPending_of_notices rfl) (ih (s.passOver i))
    · exact State.keepsPending_of_notices rfl

theorem State.moveOn_keepsPending (s : State) (i : EntryNo) : s.keepsPending (s.moveOn i) := by
  rw [State.moveOn]
  split
  · exact s.endCycle_keepsPending _ _
  · exact s.takeUp_keepsPending _

/-! ### A failed read (R10, R16, R17) -/

theorem setAt_self {α : Type} {n : Nat} {v : Vector α n} {i : Fin n} {x : α} (h : v[i] = x) : setAt v i x = v :=
  table_ext fun j => by
    rw [getElem_setAt]
    split
    next hij => rw [← h, hij]
    next => rfl

/-- The failure count rises, and the mark is set at the third failure, which raises PROBE_FAULT where it was not set
(R17). -/
theorem State.countFailure_eq (s : State) (i : EntryNo) {n : Nat} (hn : n = min (s.scan.failures[i] + 1) 255) :
    s.countFailure i = (s.withScan { s.scan with
      failures := setAt s.scan.failures i n
      faults := setAt s.scan.faults i (s.scan.faults[i] || decide (3 ≤ n)) }).raiseIf
        (!s.scan.faults[i] && decide (3 ≤ n)) .probeFault := by
  have hcount : sat8 (s.scan.failures[i] + 1) = n := hn.symm
  simp only [State.countFailure, hcount]
  by_cases h : 3 ≤ n ∧ s.scan.faults[i] = false
  · obtain ⟨hthree, hfault⟩ := h
    rw [if_pos ⟨hthree, hfault⟩, hfault, decide_eq_true hthree]
    rfl
  · rw [if_neg h]
    rcases not_and_or.mp h with hless | hset
    · have hkeep : setAt s.scan.faults i (s.scan.faults[i] || decide (3 ≤ n)) = s.scan.faults :=
        setAt_self (by rw [decide_eq_false hless, Bool.or_false])
      rw [hkeep, decide_eq_false hless, Bool.and_false]
      rfl
    · have hfault : s.scan.faults[i] = true := by simpa using hset
      rw [hfault, Bool.true_or, setAt_self hfault]
      rfl

theorem State.updScan_raiseIf (s : State) (f : Scanner → Scanner) (b : Bool) (c : Condition) :
    (s.raiseIf b c).updScan f = (s.updScan f).raiseIf b c := by
  cases b <;> rfl

/-- What a failed read writes before the cycle moves on (R11, R16, R17). -/
theorem State.endReadFailed_eq {s : State} {r : ReadInFlight} {n : Nat} (o : ReadOutcome)
    (hn : n = min (s.scan.failures[r.entry] + 1) 255) :
    s.endReadFailed r o = ((s.withScan { s.scan with
      rows := setAt s.scan.rows r.entry ⟨o, none, some s.stampNow, none, false⟩
      failures := setAt s.scan.failures r.entry n
      faults := setAt s.scan.faults r.entry (s.scan.faults[r.entry] || decide (3 ≤ n))
      completed := some r.entry
      cycleSet := s.scan.cycleSet ++ [⟨r.entry, o, none, r.fields.compartment, r.fields.role⟩]
      read := none }).raiseIf (!s.scan.faults[r.entry] && decide (3 ≤ n)) .probeFault).moveOn r.entry := by
  have hcount := State.countFailure_eq
    (s.updScan fun x => { x with rows := setAt x.rows r.entry ⟨o, none, some s.stampNow, none, false⟩ }) r.entry hn
  rw [State.endReadFailed, hcount, State.updScan_raiseIf]
  rfl

theorem answerOutcome_badCheck (raw : Int) : answerOutcome raw false = .badCheck := rfl

theorem answerOutcome_outOfRange {raw : Int} (h : raw < -880 ∨ 1360 < raw) : answerOutcome raw true = .outOfRange := by
  have hnot : ¬ (-880 ≤ raw ∧ raw ≤ 1360) := by omega
  simp [answerOutcome, hnot]

theorem State.probeAnswer_failed {s : State} {r : ReadInFlight} {raw : Int} {good : Bool} {o : ReadOutcome}
    (hread : s.scan.read = some r) (hphase : r.phase = .exchanging) (ho : answerOutcome raw good = o) (hne : o ≠ .valid) :
    s.probeAnswer raw good = s.endReadFailed r o := by
  simp only [State.probeAnswer, hread, hphase, ho, if_neg hne]

theorem State.answerWindowExpiry_failed {s : State} {r : ReadInFlight} (hread : s.scan.read = some r)
    (hphase : r.phase = .exchanging) : s.answerWindowExpiry = s.endReadFailed r .noAnswer := by
  simp only [State.answerWindowExpiry, hread, hphase]

/-- The three ways in which an open exchange fails all end the read in one way (R10, R11). -/
theorem exec_failedRead {s : State} {r : ReadInFlight} {c : Instr} {o : ReadOutcome} (hs : s.quiet)
    (hread : s.scan.read = some r) (hphase : r.phase = .exchanging)
    (h : (∃ raw, c = .probeAnswer raw false ∧ o = .badCheck) ∨
      (∃ raw, c = .probeAnswer raw true ∧ (raw < -880 ∨ 1360 < raw) ∧ o = .outOfRange) ∨
      (c = .answerWindowExpiry ∧ o = .noAnswer)) :
    exec c s = .next (s.endReadFailed r o).offer := by
  rcases h with ⟨raw, rfl, rfl⟩ | ⟨raw, rfl, hraw, rfl⟩ | ⟨rfl, rfl⟩
  · rw [← State.probeAnswer_failed hread hphase (answerOutcome_badCheck raw) nofun]
    exact congrArg _ (State.happen_of_quiet (f := fun s => s.probeAnswer raw false) hs (by simp))
  · rw [← State.probeAnswer_failed hread hphase (answerOutcome_outOfRange hraw) nofun]
    exact congrArg _ (State.happen_of_quiet (f := fun s => s.probeAnswer raw true) hs (by simp))
  · rw [← State.answerWindowExpiry_failed hread hphase]
    exact congrArg _ (State.happen_of_quiet (f := State.answerWindowExpiry) hs (by simp))

/-- Settles O19, from what the read writes (`State.endReadFailed_eq`); PROBE_FAULT stays since no step
removes a condition. -/
theorem failedReadCounts : Obligations.FailedReadCounts := by
  intro s v r c o n hs hread hphase hn hc hv
  have hend : s.endReadFailed r o = v.moveOn r.entry := hv ▸ State.endReadFailed_eq o hn
  have hscan := congrArg State.scan hv
  rw [(State.raiseIf_frame _ _ _).2.2.1] at hscan
  have hrow : v.scan.rows[r.entry] = ⟨o, none, some s.stampNow, none, false⟩ := by
    rw [hscan]
    exact (getElem_setAt _ _ _ _).trans (if_pos rfl)
  have hnone : v.scan.read = none := hscan ▸ rfl
  have hrange : v.scan.range = s.scan.range := hscan ▸ rfl
  have hstate : v.scan.state = s.scan.state := hscan ▸ rfl
  obtain ⟨hfailures, hfaults⟩ := v.moveOn_marks r.entry
  refine ⟨v.moveOn r.entry, hend ▸ exec_failedRead hs hread hphase hc, (v.moveOn_row r.entry).trans hrow, hfailures,
    hfaults, fun hunset htwo henabled => v.moveOn_keepsPending r.entry _ ?_,
    fun h => State.moveOn_halting _ (hstate.trans h), fun before after h hentries => State.moveOn_goesOn hnone (hstate ▸ h) (hrange ▸ hentries)⟩
  have hthree : 3 ≤ n := by omega
  rw [hv, hunset, decide_eq_true hthree]
  exact NoticeUnit.raise_member _ henabled

end Sys2Proof.Machine
end

