-- ==== Sys2Proof/Proofs/ResetPart.lean ====
section
/-! PROOFS. The part right after reset (log entry 5). -/

namespace Sys2Proof.Machine

theorem reset_linkOk : State.reset.linkOk :=
  ⟨fun _ => ⟨⟨rfl, fun _ => rfl, fun _ => rfl⟩, fun _ => rfl⟩, by decide⟩

theorem reset_notices_ok : State.reset.notices.ok := by
  unfold NoticeUnit.ok
  decide +kernel

theorem reset_monitorsOk : State.reset.monitorsOk := by
  refine ⟨rfl, fun c => ?_, by decide +kernel⟩
  have hknow : State.reset.comps[c].knowledge = .unknown ∧ State.reset.comps[c].held = none ∧ State.reset.comps[c].misses = 0
      ∧ State.reset.comps[c].band = .unset := by revert c; decide +kernel
  obtain ⟨hk, hh, hm, hb⟩ := hknow
  simp only [Compartment.ok, hk, hh, hm, hb, and_self, implies_true]

theorem reset_slots (i : SlotNo) : State.reset.slots[i] = .blank := by
  simp [State.reset]

theorem reset_tableOk : State.reset.tableOk := by
  refine ⟨fun i => ?_, fun i j hi => ?_⟩
  · rw [reset_slots]
    exact ⟨fun _ => rfl, fun h => absurd rfl h, rfl, rfl, rfl, rfl⟩
  · rw [reset_slots] at hi
    exact absurd rfl hi

theorem reset_log_ok : State.reset.log.ok := by
  have hlinked : linkedFrom State.reset.log.records[0] [State.reset.log.records[1]] = true := by decide +kernel
  have hfirst : State.reset.log.records[0].chain = chainOver 0xFFFFFFFF (image28 1 ⟨0, true⟩ none (.config .defaulted)) := by
    decide +kernel
  exact ⟨⟨hlinked, by decide, fun _ => hfirst, rfl, by decide⟩, by decide⟩

theorem reset_claims_free (i : ClaimNo) : State.reset.claims.slots[i] = none := by
  simp [State.reset]

/-- No claim is open, so no hold stands, nothing is walked and no slot counts one. -/
theorem reset_claimsOk : State.reset.claimsOk := by
  refine ⟨by decide, fun i => ?_, List.nodup_nil, fun i k h => ?_, fun i j k l h => ?_, by decide +kernel⟩
  · rw [reset_claims_free]
    exact ⟨nofun, nofun⟩
  · rw [reset_claims_free] at h
    cases h
  · rw [reset_claims_free] at h
    cases h

theorem reset_evidenceOk : State.reset.evidenceOk := ⟨reset_log_ok, reset_claimsOk, nofun, reset_tableOk⟩

/-- The defaults of Table 9-2 stand in the blocks (R185). -/
theorem reset_config : State.reset.config = .default := by decide +kernel

/-- Settles O60, block by block. -/
theorem resetValues : Obligations.ResetValues :=
  ⟨reset_linkOk, reset_notices_ok, reset_monitorsOk, reset_tableOk, reset_evidenceOk, reset_config, rfl, rfl, rfl, rfl, rfl,
    rfl, by decide +kernel, by decide, reset_slots, reset_claims_free, by decide, rfl, by decide +kernel, rfl, rfl⟩

end Sys2Proof.Machine
end

