-- ==== Sys2Proof/Proofs/StepInvariants.lean ====
section
/-! PROOFS. One induction for every invariant of the part: a property that each block operation keeps is kept by every
step, whatever the link, the queue of commands and the passing of seconds make of the operations. -/

namespace Sys2Proof.Machine

/-- What a property must survive to survive every step: the operations of the blocks, one by one, and what the link, the
queue of commands and the clock write beside them. -/
structure Preserved (P : State → Prop) : Prop where
  pending : ∀ (s : State) (l : List Instr), P s → P (s.withPending l)
  link : ∀ (s : State) (l : Link), P s → P (s.withLink l)
  notice : ∀ s : State, P s → P s.sendNotice
  elapse : ∀ (s : State) (n : Nat), P s → P (s.elapse n)
  perform : ∀ (s : State) (r : Request), P s → P (s.perform r).2
  restartAs : ∀ (s : State) (r : StartReason) (n : Nat), P s → P (s.restartAs r n)
  powerUp : ∀ (s : State) (absence : Nat) (held : Bool), P s → P (s.powerUp absence held)
  failSupply : ∀ (s : State) (cellGood : Bool), P s → P (s.failSupply cellGood)
  contact : ∀ (s : State) (i : InputNo) (made : Bool), P s → P (s.setInput i { s.hatch.inputs[i] with made := made })
  fallTick : ∀ s : State, P s → P s.fallTick
  expireLongOpen : ∀ (s : State) (c : CompNo), P s → P (s.expireLongOpen c)
  lapse : ∀ (s : State) (i : SlotNo), P s → P (s.lapse i)
  settleExpiry : ∀ s : State, P s → P s.settleExpiry
  probeAnswer : ∀ (s : State) (raw : Int) (good : Bool), P s → P (s.probeAnswer raw good)
  answerWindowExpiry : ∀ s : State, P s → P s.answerWindowExpiry
  rawChange : ∀ (s : State) (i : InputNo) (made : Bool), P s → P (s.rawChange i made)
  debounceExpiry : ∀ (s : State) (i : InputNo), P s → P (s.debounceExpiry i)
  examineNext : ∀ s : State, P s → P s.examineNext
  eraseComplete : ∀ s : State, P s → P s.eraseComplete
  programComplete : ∀ s : State, P s → P s.programComplete
  saveWriteEnd : ∀ (s : State) (matched : Bool), P s → P (s.saveWriteEnd matched)

namespace Preserved

variable {P : State → Prop} (hP : Preserved P)
include hP

/-! ### The link (R198 to R203) -/

theorem offer {s : State} (h : P s) : P s.offer := by
  unfold State.offer
  split
  · split
    · exact hP.link _ _ h
    · split
      · exact hP.notice _ h
      · exact h
  · exact h

theorem take {s : State} (tag : Byte) (r : Request) (h : P s) : P (s.take tag r) := by
  rw [State.take]
  split
  · exact hP.restartAs _ _ _ (hP.link _ _ h)
  · exact hP.link _ _ (hP.perform _ _ h)

theorem takeFrame {s : State} (f : Frame) (h : P s) : P (s.takeFrame f) := by
  unfold State.takeFrame
  split
  · exact hP.link _ _ h
  · exact hP.take _ _ h

theorem takeHead {s : State} (h : P s) : P s.takeHead := by
  unfold State.takeHead
  split
  · exact hP.takeFrame _ (hP.link _ _ h)
  · exact h

theorem pump {s : State} (h : P s) : P s.pump := hP.offer (hP.takeHead (hP.offer (hP.takeHead (hP.offer h))))

theorem finishFrame {s : State} (h : P s) : P s.finishFrame := by
  unfold State.finishFrame
  split
  · exact h
  · dsimp only
    split
    · exact hP.notice _ (hP.link _ _ h)
    · exact hP.link _ _ h
  · exact hP.link _ _ h

theorem enqueue {s : State} (f : Frame) (h : P s) : P (s.enqueue f) := by
  unfold State.enqueue
  split <;> exact hP.link _ _ h

theorem accept {s : State} (f : Frame) (h : P s) : P (s.accept f) := by
  unfold State.accept
  split
  · exact hP.takeFrame f h
  · exact hP.enqueue f h

theorem assemble {s : State} (bytes : List Byte) (h : P s) : P (s.assemble bytes) := by
  unfold State.assemble
  split
  · exact hP.link _ _ h
  split
  · exact hP.link _ _ (hP.link _ _ h)
  split
  · exact hP.link _ _ h
  split
  · exact hP.pump (hP.accept _ (hP.link _ _ h))
  · exact hP.link _ _ (hP.link _ _ h)

theorem receive {s : State} (b : LineByte) (h : P s) : P (s.receive b) := by
  unfold State.receive
  split
  · split
    · exact hP.link _ _ h
    · exact h
  · exact h
  · exact hP.assemble _ h
  · exact hP.link _ _ (hP.link _ _ h)

theorem receiveAll {s : State} (l : List LineByte) (h : P s) : P (s.receiveAll l) := by
  induction l generalizing s with
  | nil => exact h
  | cons b l ih =>
    rw [State.receiveAll]
    split
    · exact ih (hP.receive b h)
    · exact hP.receive b h

theorem silence {s : State} (h : P s) : P s.silence := by
  unfold State.silence
  split
  · exact h
  · exact hP.link _ _ (hP.link _ _ h)

theorem happen {s : State} {f : State → State} (hf : P (f s)) (h : P s) : P (s.happen f) := by
  unfold State.happen
  split
  · exact hP.pump hf
  · exact h

theorem submit {s : State} (tag : Byte) (r : Request) (h : P s) : P (s.submit tag r) := by
  refine hP.happen ?_ h
  split
  · exact hP.take tag r h
  · exact hP.enqueue _ h

/-! ### The timers of whole seconds -/

theorem fire {s : State} (e : TimerEvent) (h : P s) : P (s.fire e) := by
  cases e with
  | tick => exact hP.pump (hP.fallTick _ h)
  | longOpen c => exact hP.pump (hP.expireLongOpen _ c h)
  | lapse i => exact hP.pump (hP.lapse _ i h)

theorem fireAll {s : State} (l : List TimerEvent) (h : P s) : P (s.fireAll l) := by
  induction l generalizing s with
  | nil => exact h
  | cons e l ih => exact ih (hP.fire e h)

theorem passTo {s : State} (n : Nat) (h : P s) : P (s.passTo n) := by
  induction n generalizing s with
  | zero => exact h
  | succ n ih => exact ih (hP.elapse _ 1 (hP.fireAll _ h))

theorem nextTick {s : State} (h : P s) : P s.nextTick := hP.fallTick _ (hP.passTo _ h)

theorem longOpenExpiry {s : State} (c : CompNo) (h : P s) : P (s.longOpenExpiry c) := by
  unfold State.longOpenExpiry
  split
  · exact hP.expireLongOpen _ c (hP.passTo _ h)
  · exact h

theorem handoverLapse {s : State} (i : SlotNo) (h : P s) : P (s.handoverLapse i) := by
  unfold State.handoverLapse
  split
  · exact hP.lapse _ i (hP.passTo _ h)
  · exact h

theorem passSecond {s : State} (h : P s) : P s.passSecond := by
  unfold State.passSecond
  split
  · split
    · exact hP.pending _ _ (hP.elapse _ 1 h)
    · exact hP.pending _ _ h
  · exact h

/-! ### Commands and steps -/

/-- Every command keeps the property; the rows that are not named are those of requests. -/
theorem exec (c : Instr) {s : State} (h : P s) : ∃ t, exec c s = .next t ∧ P t := by
  cases c
  case unknownKind => exact ⟨_, rfl, hP.happen (hP.accept _ h) h⟩
  case cycleTimerTick => exact ⟨_, rfl, hP.happen (hP.nextTick h) h⟩
  case settleExpiry => exact ⟨_, rfl, hP.happen (hP.settleExpiry _ h) h⟩
  case probeAnswer => exact ⟨_, rfl, hP.happen (hP.probeAnswer _ _ _ h) h⟩
  case answerWindowExpiry => exact ⟨_, rfl, hP.happen (hP.answerWindowExpiry _ h) h⟩
  case rawChange i made =>
    refine ⟨_, rfl, ?_⟩
    split
    · exact hP.pump (hP.rawChange _ i made h)
    · exact hP.contact _ i made h
  case debounceExpiry => exact ⟨_, rfl, hP.happen (hP.debounceExpiry _ _ h) h⟩
  case longOpenExpiry => exact ⟨_, rfl, hP.happen (hP.longOpenExpiry _ h) h⟩
  case handoverLapse => exact ⟨_, rfl, hP.happen (hP.handoverLapse _ h) h⟩
  case walkExamination => exact ⟨_, rfl, hP.happen (hP.examineNext _ h) h⟩
  case offsetEraseComplete => exact ⟨_, rfl, hP.happen (hP.eraseComplete _ h) h⟩
  case offsetProgramComplete => exact ⟨_, rfl, hP.happen (hP.programComplete _ h) h⟩
  case saveWriteEnd => exact ⟨_, rfl, hP.happen (hP.saveWriteEnd _ _ h) h⟩
  case powerOn => exact ⟨_, rfl, hP.pump (hP.powerUp _ _ _ h)⟩
  case resetLine => exact ⟨_, rfl, hP.happen (hP.restartAs _ _ _ h) h⟩
  case frameReceived => exact ⟨_, rfl, hP.happen (hP.receiveAll _ h) h⟩
  case linkSilenceTimeout => exact ⟨_, rfl, hP.happen (hP.silence h) h⟩
  case transmitEnd => exact ⟨_, rfl, hP.happen (hP.finishFrame h) h⟩
  case syncByte => exact ⟨_, rfl, hP.happen (hP.receive _ h) h⟩
  case supplyFailure =>
    refine ⟨_, rfl, ?_⟩
    split
    · exact hP.failSupply _ _ h
    · exact h
  all_goals exact ⟨_, rfl, hP.submit _ _ h⟩

/-- A step keeps what every operation keeps. -/
theorem step {s t : State} (h : P s) (hstep : step s = .next t) : P t := by
  unfold Machine.step at hstep
  split at hstep
  · obtain ⟨u, hu, hPu⟩ := hP.exec _ (hP.pending s _ h)
    rw [hu] at hstep
    cases hstep
    exact hPu
  · cases hstep
    exact hP.passSecond h

end Preserved

end Sys2Proof.Machine
end

