-- ==== Sys2Proof/Proofs/RaiseRules.lean ====
section
/-! PROOFS. What raises do to the pending set, place by place (R165), and what a general record handed to the log does
outside it (R75, R79 to R82). -/

namespace Sys2Proof.Machine

/-! ### Raises (R165) -/

/-- The Notice Unit after the condition at place k has been raised n times. -/
def NoticeUnit.raiseMany (u : NoticeUnit) (k : Fin 18) : Nat → NoticeUnit
  | 0 => u
  | n + 1 => (u.raise k).raiseMany k n

theorem State.raiseTimes_notices (s : State) (c : Condition) (n : Nat) :
    (s.raiseTimes c n).notices = s.notices.raiseMany c.place n := by
  induction n generalizing s with
  | zero => rfl
  | succ n ih => exact ih (s.raise c)

theorem State.raiseIf_notices (s : State) (b : Bool) (c : Condition) :
    (s.raiseIf b c).notices = s.notices.raiseMany c.place b.toNat := by
  cases b <;> rfl

theorem NoticeUnit.raise_enables (u : NoticeUnit) (k : Fin 18) : (u.raise k).enables = u.enables := by
  unfold NoticeUnit.raise
  split
  · split <;> rfl
  · rfl

theorem NoticeUnit.raise_members (u : NoticeUnit) (k j : Fin 18) :
    (u.raise k).members[j] = (u.members[j] || (decide (j = k) && u.enables[k])) := by
  unfold NoticeUnit.raise
  by_cases he : u.enables[k] = true
  · by_cases hm : u.members[k] = true <;> by_cases hj : k = j
    · subst hj; simp [he, hm, -Fin.getElem_fin]
    · simp [he, hm, Ne.symm hj, -Fin.getElem_fin]
    · subst hj; simp [he, hm, -Fin.getElem_fin]
    · simp [he, hm, hj, Ne.symm hj, -Fin.getElem_fin]
  · simp [he, -Fin.getElem_fin]

theorem NoticeUnit.raise_counts (u : NoticeUnit) (k j : Fin 18) :
    (u.raise k).counts[j] = if j = k ∧ u.enables[k] = true then
      (if u.members[k] = true then min (u.counts[k] + 1) 255 else 1) else u.counts[j] := by
  unfold NoticeUnit.raise
  by_cases he : u.enables[k] = true
  · by_cases hm : u.members[k] = true <;> by_cases hj : k = j
    · subst hj; simp [he, hm, sat8, -Fin.getElem_fin]
    · simp [he, hm, hj, Ne.symm hj, -Fin.getElem_fin]
    · subst hj; simp [he, hm, -Fin.getElem_fin]
    · simp [he, hm, hj, Ne.symm hj, -Fin.getElem_fin]
  · simp [he, -Fin.getElem_fin]

@[simp] theorem NoticeUnit.raiseMany_enables (u : NoticeUnit) (k : Fin 18) (n : Nat) :
    (u.raiseMany k n).enables = u.enables := by
  induction n generalizing u with
  | zero => rfl
  | succ n ih => exact (ih _).trans (u.raise_enables k)

theorem NoticeUnit.raiseMany_members (u : NoticeUnit) (k j : Fin 18) (n : Nat) :
    (u.raiseMany k n).members[j] = (u.members[j] || (decide (j = k ∧ 0 < n) && u.enables[k])) := by
  induction n generalizing u with
  | zero => simp [NoticeUnit.raiseMany]
  | succ n ih =>
    rw [NoticeUnit.raiseMany, ih, NoticeUnit.raise_members, NoticeUnit.raise_enables]
    by_cases hj : j = k
    · cases u.enables[k] <;> simp [hj]
    · simp [hj]

theorem NoticeUnit.raiseMany_counts (u : NoticeUnit) (k j : Fin 18) (n : Nat) :
    (u.raiseMany k n).counts[j] = if j = k ∧ 0 < n ∧ u.enables[k] = true then
      (if u.members[k] = true then min (u.counts[k] + n) 255 else min n 255) else u.counts[j] := by
  induction n generalizing u with
  | zero => simp [NoticeUnit.raiseMany]
  | succ n ih =>
    rw [NoticeUnit.raiseMany, ih, NoticeUnit.raise_counts, NoticeUnit.raise_counts, NoticeUnit.raise_members,
      NoticeUnit.raise_enables]
    by_cases hj : j = k
    · subst hj
      by_cases he : u.enables[j] = true
      · by_cases hm : u.members[j] = true
        · simp only [he, hm, decide_true, Bool.and_true, Bool.or_true, and_true, true_and, if_true,
            Nat.succ_pos]
          split <;> omega
        · simp only [he, hm, decide_true, Bool.and_true, Bool.or_true, and_true, true_and, if_true, if_false,
            Nat.succ_pos, Bool.false_eq_true]
          split <;> omega
      · simp only [he, and_false, Bool.false_eq_true, if_false]
    · simp only [hj, false_and, if_false]

/-- Raises of another condition leave a condition's membership and count as they were. -/
theorem NoticeUnit.raiseMany_other (u : NoticeUnit) {k j : Fin 18} (n : Nat) (h : j ≠ k) :
    (u.raiseMany k n).members[j] = u.members[j] ∧ (u.raiseMany k n).counts[j] = u.counts[j] := by
  rw [NoticeUnit.raiseMany_members, NoticeUnit.raiseMany_counts]
  simp [h]

/-! ### General records (R75) -/

/-- The compartment whose consignments a general record handed to the log flags LOG_DEFERRED: that of a SAMPLE that is
merged, or lost in ENDED (R81, R87). -/
def Log.defers (l : Log) (e : Entry) : Option CompNo :=
  match l.generalFate, e.body with
  | .appended, _ => none
  | .evicting, _ => none
  | _, .sample _ => e.compartment
  | _, _ => none

/-- The flags depend on the table alone. -/
theorem State.flagDeferred_slots {s t : State} (h : t.slots = s.slots) (c : Option CompNo) :
    (t.flagDeferred c).slots = (s.flagDeferred c).slots := by
  cases c with
  | none => exact h
  | some k => simp only [State.flagDeferred, State.updHeldIn_slots, h]

theorem State.mergeSample_slots (s : State) (e : Entry) (b : SampleBody) :
    (s.mergeSample e b).slots = (s.flagDeferred e.compartment).slots := by
  unfold State.mergeSample
  split
  next c h => rw [h]; rfl
  next h => rw [h]; rfl

/-- A SAMPLE that is lost or merged flags its compartment's consignments; another record none. -/
theorem State.loseGeneral_slots (s : State) (e : Entry) :
    (s.loseGeneral e).slots = (match e.body with | .sample _ => s.flagDeferred e.compartment | _ => s).slots := by
  cases hb : e.body <;> simp only [State.loseGeneral, hb, State.withLog_slots]
  exact State.flagDeferred_slots (State.withLog_slots s _) _

theorem State.fallBack_slots (s : State) (e : Entry) :
    (s.fallBack e).slots = (match e.body with | .sample _ => s.flagDeferred e.compartment | _ => s).slots := by
  cases hb : e.body <;> simp only [State.fallBack, hb, State.mergeSample_slots, State.loseGeneral_slots]

theorem State.handGeneral_slots (s : State) (e : Entry) :
    (s.handGeneral e).slots = (s.flagDeferred (s.log.defers e)).slots := by
  have hflag : ∀ t : State, t.slots = s.slots →
      (match e.body with | .sample _ => t.flagDeferred e.compartment | _ => t).slots
        = (s.flagDeferred (match e.body with | .sample _ => e.compartment | _ => none)).slots := by
    intro t ht
    cases e.body <;> first | exact State.flagDeferred_slots ht _ | exact ht
  have hdefers : s.log.defers e = match s.log.generalFate with
      | .appended => none
      | .evicting => none
      | _ => (match e.body with | .sample _ => e.compartment | _ => none) := by
    unfold Log.defers
    cases s.log.generalFate <;> cases e.body <;> rfl
  cases hf : s.log.generalFate <;>
    simp only [State.handGeneral, hdefers, hf, State.loseGeneral_slots, State.fallBack_slots, State.withLog_slots]
  · exact hflag s rfl
  · exact hflag s rfl
  · rfl
  · rfl
  · exact hflag _ (by simp)

theorem State.loseGeneral_log {s t : State} (h : t.log = s.log) (e : Entry) :
    (t.loseGeneral e).log = (s.loseGeneral e).log := by
  cases hb : e.body <;> simp [State.loseGeneral, hb, h]

theorem State.fallBack_log {s t : State} (h : t.log = s.log) (e : Entry) : (t.fallBack e).log = (s.fallBack e).log := by
  cases hb : e.body with
  | sample b => cases hc : e.compartment <;> simp [State.fallBack, State.mergeSample, hb, hc, h]
  | _ => simp only [State.fallBack, hb, State.loseGeneral_log h]

/-- What the log makes of a record depends on the log alone. -/
theorem State.handGeneral_log {s t : State} (h : t.log = s.log) (e : Entry) :
    (t.handGeneral e).log = (s.handGeneral e).log := by
  cases hf : s.log.generalFate <;> simp only [State.handGeneral, h, hf, State.withLog_log]
  · exact State.loseGeneral_log h e
  · exact State.fallBack_log h e
  · exact State.fallBack_log (by simp [State.enterHeldFull, h]) e

theorem State.handGeneral_appended {s : State} {e : Entry} (h : s.log.generalFate = .appended) :
    (s.handGeneral e).log = s.log.append e := by
  simp only [State.handGeneral, h, State.withLog_log]

/-- The one condition that a record can raise is LOG_HELD, where the log enters HELD_FULL (R79). -/
theorem State.handGeneral_notices (s : State) (e : Entry) :
    (s.handGeneral e).notices = s.notices.raiseMany Condition.logHeld.place
      (decide (s.log.generalFate = .entering)).toNat := by
  cases hf : s.log.generalFate <;> simp [State.handGeneral, hf]
  all_goals rfl

end Sys2Proof.Machine
end

