-- ==== Sys2Proof/Proofs/PatternWatch.lean ====
section
/-! PROOFS. The pattern watch: its truth as its inputs stand, and its evaluation afresh by a band that changes (R64). -/

namespace Sys2Proof.Machine

theorem State.memberWarm_iff (s : State) (x : ContactInput) :
    s.memberWarm x = true ↔ ∃ c, x.settings.compartment = some c ∧ s.comps[c].band = .warm := by
  unfold State.memberWarm
  split
  next c h => simp [h, -Fin.getElem_fin]
  next h => simp [h]

/-- The truth of the pattern watch: there is a member, every member is OPEN, and where the band is required some member's
compartment is WARM. -/
theorem State.patternNow_iff (s : State) :
    s.patternNow = true ↔ (∃ i : InputNo, s.hatch.inputs[i].settings.member = true) ∧
      (∀ i : InputNo, s.hatch.inputs[i].settings.member = true → s.hatch.inputs[i].settled = .opened) ∧
      (s.hatch.bandRequired = true → ∃ (i : InputNo) (c : CompNo), s.hatch.inputs[i].settings.member = true ∧
        s.hatch.inputs[i].settings.compartment = some c ∧ s.comps[c].band = .warm) := by
  simp only [State.patternNow, Bool.and_eq_true, Bool.or_eq_true, Bool.not_eq_true', ← Bool.not_eq_true, anyAt_iff,
    State.memberWarm_iff, not_exists, not_and, bne_iff_ne, ne_eq, not_not, and_assoc, exists_and_left, imp_iff_not_or]

/-- The truth depends on the members, their debounced states and compartments, and whose bands are WARM. -/
theorem State.patternNow_congr {s t : State} (hrequired : t.hatch.bandRequired = s.hatch.bandRequired)
    (hmember : ∀ i : InputNo, t.hatch.inputs[i].settings.member = s.hatch.inputs[i].settings.member)
    (hinput : ∀ i : InputNo, s.hatch.inputs[i].settings.member = true → t.hatch.inputs[i].settled = s.hatch.inputs[i].settled ∧
      t.hatch.inputs[i].settings.compartment = s.hatch.inputs[i].settings.compartment)
    (hband : ∀ (i : InputNo) (c : CompNo), s.hatch.inputs[i].settings.member = true →
      s.hatch.inputs[i].settings.compartment = some c → t.comps[c].band = s.comps[c].band) :
    t.patternNow = s.patternNow := by
  rw [Bool.eq_iff_iff, State.patternNow_iff, State.patternNow_iff, hrequired]
  simp only [hmember]
  refine and_congr_right fun _ => and_congr (forall₂_congr fun i hi => by rw [(hinput i hi).1])
    (imp_congr_right fun _ => exists₂_congr fun i c => and_congr_right fun hi => ?_)
  rw [(hinput i hi).2]
  exact and_congr_right fun hc => by rw [hband i c hi hc]

/-- A member that is not OPEN makes the pattern watch false. -/
theorem State.patternNow_of_notOpen {s : State} {i : InputNo} (hmember : s.hatch.inputs[i].settings.member = true)
    (hsettled : s.hatch.inputs[i].settled ≠ .opened) : s.patternNow = false := by
  rw [Bool.eq_false_iff]
  exact fun h => hsettled (((s.patternNow_iff.mp h).2.1) i hmember)

/-- The pattern watch and the bands of the compartments alone decide it, where the contact inputs are left alone. -/
theorem State.patternNow_of_bands {s t : State} (hhatch : t.hatch.inputs = s.hatch.inputs)
    (hrequired : t.hatch.bandRequired = s.hatch.bandRequired) (hband : ∀ c : CompNo, t.comps[c].band = s.comps[c].band) :
    t.patternNow = s.patternNow :=
  State.patternNow_congr hrequired (fun i => by rw [hhatch]) (fun i _ => by rw [hhatch]; exact ⟨rfl, rfl⟩)
    fun _ c _ _ => hband c

/-! ### Evaluation afresh -/

@[simp] theorem State.evaluatePattern_hatch (s : State) :
    s.evaluatePattern.hatch = { s.hatch with patternTruth := s.patternNow } := by
  simp [State.evaluatePattern]

/-- PATTERN is raised exactly when the truth passes from false to true. -/
theorem State.evaluatePattern_notices (s : State) :
    s.evaluatePattern.notices = s.notices.raiseMany Condition.pattern.place
      (!s.hatch.patternTruth && s.evaluatePattern.hatch.patternTruth).toNat := by
  rw [State.evaluatePattern_hatch]
  exact State.raiseIf_notices _ _ _

theorem State.evaluatePattern_patternNow (s : State) : s.evaluatePattern.patternNow = s.patternNow :=
  State.patternNow_of_bands (by simp) (by simp) (by simp)

/-- The watch has just been evaluated. -/
theorem State.evaluatePattern_fresh (s : State) : s.evaluatePattern.hatch.patternTruth = s.evaluatePattern.patternNow := by
  rw [State.evaluatePattern_patternNow, State.evaluatePattern_hatch]

/-! ### A band is written (R32, R64) -/

section
variable (s : State) (c : CompNo) (b : Band)

theorem State.setBand_comps : (s.setBand c b).comps = setAt s.comps c { s.comps[c] with band := b } := by
  simp only [State.setBand]
  split <;> simp

theorem State.setBand_hatch :
    (s.setBand c b).hatch = { s.hatch with
      patternTruth := if (s.comps[c].band != b && s.memberNames c) = true then (s.setBand c b).patternNow
        else s.hatch.patternTruth } := by
  simp only [State.setBand]
  split
  · rw [State.evaluatePattern_patternNow]
    simp
  · rfl

theorem State.setBand_notices :
    (s.setBand c b).notices = s.notices.raiseMany Condition.pattern.place
      (!s.hatch.patternTruth && (s.setBand c b).hatch.patternTruth).toNat := by
  simp only [State.setBand]
  split
  · exact State.evaluatePattern_notices _
  · simp [NoticeUnit.raiseMany]

theorem State.setBand_inputs :
    (s.setBand c b).hatch.inputs = s.hatch.inputs ∧ (s.setBand c b).hatch.bandRequired = s.hatch.bandRequired ∧
      (s.setBand c b).hatch.openings = s.hatch.openings := by
  rw [State.setBand_hatch]
  exact ⟨rfl, rfl, rfl⟩

variable {s c b}

theorem State.memberNames_iff : s.memberNames c = true ↔
    ∃ i : InputNo, s.hatch.inputs[i].settings.member = true ∧ s.hatch.inputs[i].settings.compartment = some c := by
  simp only [State.memberNames, anyAt_iff, Bool.and_eq_true, beq_iff_eq]

/-- A band that stays, or of which no member's compartment is, leaves the truth kept for the watch alone. -/
theorem State.setBand_truth_kept (h : s.comps[c].band = b ∨ s.memberNames c = false) :
    (s.setBand c b).hatch = s.hatch := by
  rw [State.setBand_hatch, if_neg]
  rcases h with h | h <;> simp [h, -Fin.getElem_fin]

theorem State.setBand_truth_fresh (hband : s.comps[c].band ≠ b) (hname : s.memberNames c = true) :
    (s.setBand c b).hatch.patternTruth = (s.setBand c b).patternNow := by
  conv_lhs => rw [State.setBand_hatch, if_pos (by simp [hband, hname, -Fin.getElem_fin])]

/-- Writing a band keeps the watch fresh. -/
theorem State.setBand_fresh (h : s.hatch.patternTruth = s.patternNow) :
    (s.setBand c b).hatch.patternTruth = (s.setBand c b).patternNow := by
  by_cases hkept : s.comps[c].band = b ∨ s.memberNames c = false
  · rw [State.setBand_truth_kept hkept, h]
    refine (State.patternNow_congr (by rw [State.setBand_truth_kept hkept])
      (fun i => by rw [State.setBand_truth_kept hkept])
      (fun i _ => by rw [State.setBand_truth_kept hkept]; exact ⟨rfl, rfl⟩) fun i d hi hd => ?_).symm
    rw [State.setBand_comps, getElem_setAt]
    split
    next hcd =>
      subst hcd
      refine (hkept.resolve_right fun hname => ?_).symm
      exact absurd (State.memberNames_iff.mpr ⟨i, hi, hd⟩) (by simp [hname])
    next => rfl
  · obtain ⟨hband, hname⟩ := not_or.mp hkept
    exact State.setBand_truth_fresh hband (by simpa using hname)

end

end Sys2Proof.Machine
end

