-- ==== Sys2Proof/Proofs/StepRules.lean ====
section
/-! PROOFS. The step of an enabled compartment, block by block: its record, the pattern watch, the consignments in custody
in it, the notices and the log (R28 to R44). -/

namespace Sys2Proof.Machine

/-! ### The compartment's record -/

/-- A cause moves knowledge, held value and miss count alone. -/
@[simp] theorem Compartment.learn_frame (x : Compartment) (k : StepCause) :
    (x.learn k).settings = x.settings ∧ (x.learn k).band = x.band ∧ (x.learn k).lastStep = x.lastStep ∧
      (x.learn k).interval = x.interval := by
  have hmissed : x.missed.settings = x.settings ∧ x.missed.band = x.band ∧ x.missed.lastStep = x.lastStep ∧
      x.missed.interval = x.interval := by
    unfold Compartment.missed
    split <;> exact ⟨rfl, rfl, rfl, rfl⟩
  cases k with
  | cycle value watch =>
    cases value with
    | some t => exact ⟨rfl, rfl, rfl, rfl⟩
    | none => cases hk : x.knowledge <;> simp only [Compartment.learn, hk, hmissed, and_self]
  | blindTick => exact ⟨rfl, rfl, rfl, rfl⟩
  | boundary => exact ⟨rfl, rfl, rfl, rfl⟩

/-- The band after a step of a kind: a live step alone moves it (R32). -/
def Compartment.bandAfter (x : Compartment) : StepKind → Band
  | .live t => nextBand x.band x.settings.threshold x.settings.softLine t
  | .held _ => x.band
  | .blind => x.band

/-- The open interval with the contributions of a step at time t (R42). -/
def Compartment.fed (x : Compartment) (t : Nat) (cause : StepCause) : Interval :=
  x.interval.add t (t - x.lastStep.time) ((x.rate (x.stepKind cause)).getD 0 * (t - x.lastStep.time)) (x.stepKind cause)
    cause.watch

/-- Whether a step closes the interval (R43). -/
def State.closes (s : State) (c : CompNo) (cause : StepCause) : Bool :=
  decide (cause = .boundary ∨ s.logInterval ≤ s.comps[c].interval.steps + 1)

/-- The compartment after a step. -/
def State.compAfter (s : State) (c : CompNo) (cause : StepCause) : Compartment :=
  { s.comps[c].learn cause with
    band := s.comps[c].bandAfter (s.comps[c].stepKind cause)
    lastStep := s.stampNow
    interval := if s.closes c cause then .opening s.stampNow else s.comps[c].fed s.now cause }

theorem setAt_setAt {α : Type} {n : Nat} (v : Vector α n) (i : Fin n) (x y : α) : setAt (setAt v i x) i y = setAt v i y :=
  table_ext fun j => by simp only [getElem_setAt]; split <;> rfl

theorem getElem_setAt_self {α : Type} {n : Nat} (v : Vector α n) (i : Fin n) (x : α) : (setAt v i x)[i] = x := by
  rw [getElem_setAt, if_pos rfl]

theorem getElem_setAt_ne {α : Type} {n : Nat} (v : Vector α n) {i j : Fin n} (x : α) (h : i ≠ j) : (setAt v i x)[j] = v[j] := by
  rw [getElem_setAt, if_neg h]

section
variable (s : State) (c : CompNo) (cause : StepCause)

theorem State.stepKnow_comps :
    (s.stepKnow c cause).comps = setAt s.comps c { s.comps[c].learn cause with lastStep := s.stampNow } := by
  simp [State.stepKnow, -Fin.getElem_fin]

theorem State.stepBand_comps (k : StepKind) :
    (s.stepBand c k).comps = setAt s.comps c { s.comps[c] with band := s.comps[c].bandAfter k } := by
  cases k with
  | live t =>
    simp only [State.stepBand, Compartment.bandAfter]
    split
    · simp only [State.creditCycle_frame, State.setBand_comps]
    · exact State.setBand_comps s c _
  | held t => exact (setAt_self rfl).symm
  | blind => exact (setAt_self rfl).symm

theorem State.closeInterval_comps (t : Stamp) :
    (s.closeInterval c t).comps = setAt s.comps c { s.comps[c] with interval := .opening t } := by
  simp [State.closeInterval, -Fin.getElem_fin]

/-- The part just before the interval of a step may close: step 5 of R28 is done. -/
def State.stepShared (s : State) (c : CompNo) (cause : StepCause) : State :=
  let x := s.comps[c]
  let k := x.stepKind cause
  ((((s.stepKnow c cause).stepBand c k).stepInterval c (s.now - x.lastStep.time) k cause.watch).shareStep c s.now
    x.lastStep.time (x.rate k))

theorem State.takeStep_eq : s.takeStep c cause = (s.stepShared c cause).stepClose c cause := rfl

/-- The present time is that of the clock, which a step leaves alone. -/
theorem State.stampNow_of_clock {s t : State} (h : t.clock = s.clock) :
    t.stampNow = s.stampNow ∧ t.now = s.now ∧ t.timed = s.timed := by
  simp [State.stampNow, State.now, State.timed, h]

theorem State.stepShared_frame :
    (s.stepShared c cause).log = s.log ∧ (s.stepShared c cause).clock = s.clock ∧
      (s.stepShared c cause).logInterval = s.logInterval := by
  simp [State.stepShared]

theorem State.stepShared_comps : (s.stepShared c cause).comps = setAt s.comps c
    { s.comps[c].learn cause with
      band := s.comps[c].bandAfter (s.comps[c].stepKind cause), lastStep := s.stampNow,
      interval := s.comps[c].fed s.now cause } := by
  obtain ⟨hsettings, hband, -, hinterval⟩ := s.comps[c].learn_frame cause
  have hnow : ((s.stepKnow c cause).stepBand c (s.comps[c].stepKind cause)).now = s.now :=
    (State.stampNow_of_clock (by simp)).2.1
  simp only [State.stepShared, State.shareStep_frame, State.stepInterval, State.setComp_comps, State.stepBand_comps,
    State.stepKnow_comps, setAt_setAt, getElem_setAt_self, hnow, Compartment.fed, Compartment.rate, hsettings, hinterval]
  cases s.comps[c].stepKind cause <;> simp only [Compartment.bandAfter, hband]

theorem State.stepClose_eq : (s.stepShared c cause).stepClose c cause =
    if s.closes c cause then (s.stepShared c cause).closeInterval c s.stampNow else s.stepShared c cause := by
  obtain ⟨-, hclock, hl⟩ := s.stepShared_frame c cause
  obtain ⟨hstamp, -, -⟩ := State.stampNow_of_clock hclock
  have hsteps : (s.stepShared c cause).comps[c].interval.steps = s.comps[c].interval.steps + 1 := by
    rw [State.stepShared_comps, getElem_setAt_self]
    rfl
  simp only [State.stepClose, State.closes, hl, hsteps, hstamp, decide_eq_true_eq]

theorem State.takeStep_comps : (s.takeStep c cause).comps = setAt s.comps c (s.compAfter c cause) := by
  rw [State.takeStep_eq, State.stepClose_eq, State.compAfter]
  by_cases h : s.closes c cause = true
  · simp only [h, if_true, State.closeInterval_comps, State.stepShared_comps, setAt_setAt, getElem_setAt_self]
  · simp only [h, Bool.false_eq_true, if_false, State.stepShared_comps]

/-! ### The pattern watch -/

theorem State.stepBand_hatch (k : StepKind) : (s.stepBand c k).hatch = (s.setBand c (s.comps[c].bandAfter k)).hatch := by
  cases k with
  | live t =>
    simp only [State.stepBand, Compartment.bandAfter]
    split
    · simp only [State.creditCycle_frame]
    · rfl
  | held t => exact (State.setBand_truth_kept (.inl rfl)).symm
  | blind => exact (State.setBand_truth_kept (.inl rfl)).symm

theorem State.takeStep_hatch : (s.takeStep c cause).hatch
    = ((s.stepKnow c cause).setBand c (s.comps[c].bandAfter (s.comps[c].stepKind cause))).hatch := by
  obtain ⟨hsettings, hband, -, -⟩ := s.comps[c].learn_frame cause
  have hbandAfter : ∀ k, ((s.stepKnow c cause).comps[c]).bandAfter k = s.comps[c].bandAfter k := fun k => by
    rw [State.stepKnow_comps, getElem_setAt_self]
    cases k <;> simp only [Compartment.bandAfter, hsettings, hband]
  simp only [State.takeStep_eq, State.stepClose_frame, State.stepShared, State.shareStep_frame, State.stepInterval_frame,
    State.stepBand_hatch, hbandAfter]

end

end Sys2Proof.Machine
end

