-- ==== Sys2Proof/Proofs/WatchInOrder.lean ====
section
/-! PROOFS. What keeps the compartments and the pattern watch in order: steps, and COMPARTMENT_SET (R25, R26, R30, R31, R64,
Table 2-1). -/

namespace Sys2Proof.Machine

/-- Compartments and pattern watch: what is in order of the monitors beside the scanner. -/
def State.watchOk (s : State) : Prop := (∀ c : CompNo, s.comps[c].ok) ∧ s.hatch.patternTruth = s.patternNow

/-! ### What of the state the order depends on -/

section
variable {s t : State} (h : s.watchOk)
include h

/-- What leaves compartments and contacts alone keeps their order. -/
theorem State.watchOk.of_frame (hcomps : t.comps = s.comps := by simp) (hhatch : t.hatch = s.hatch := by simp) :
    t.watchOk := by
  obtain ⟨hok, hfresh⟩ := h
  refine ⟨fun c => by rw [hcomps]; exact hok c, ?_⟩
  rw [hhatch, hfresh]
  exact (State.patternNow_of_bands (by rw [hhatch]) (by rw [hhatch]) fun c => by rw [hcomps]).symm

/-- Openings are none of the order. -/
theorem State.watchOk.of_openings (hcomps : t.comps = s.comps)
    (hhatch : t.hatch = { s.hatch with openings := t.hatch.openings }) : t.watchOk := by
  obtain ⟨hok, hfresh⟩ := h
  refine ⟨fun c => by rw [hcomps]; exact hok c, ?_⟩
  have hnow : t.patternNow = s.patternNow :=
    State.patternNow_of_bands (by rw [hhatch]) (by rw [hhatch]) fun c => by rw [hcomps]
  rw [hnow, ← hfresh, hhatch]

theorem State.watchOk.of_fresh (hcomps : t.comps = s.comps) (hfresh : t.hatch.patternTruth = t.patternNow) : t.watchOk :=
  ⟨fun c => by rw [hcomps]; exact h.1 c, hfresh⟩

end

/-! ### Compartments (R26, R30, R31) -/

/-- An enabled compartment is in order when its held value and miss count go with its knowledge. -/
theorem Compartment.ok.of_know {x y : Compartment} (h : x.ok) (he : y.settings.enabled = true)
    (hk : y.knowledge = x.knowledge) (hh : y.held = x.held) (hm : y.misses = x.misses) : y.ok := by
  unfold Compartment.ok at *
  rw [hk, hh, hm]
  exact ⟨h.1, fun hoff => absurd (he.symm.trans hoff) (by decide)⟩

/-- A miss where a value is held (R30). -/
theorem Compartment.ok_missed {x : Compartment} (he : x.settings.enabled = true) (hh : x.held.isSome = true) :
    x.missed.ok := by
  unfold Compartment.missed
  by_cases hle : x.misses + 1 ≤ 6
  · rw [if_pos hle]
    exact ⟨⟨hh, Nat.le_add_left 1 _, hle⟩, fun hoff => absurd (he.symm.trans hoff) (by decide)⟩
  · rw [if_neg hle]
    exact ⟨⟨rfl, rfl⟩, fun hoff => absurd (he.symm.trans hoff) (by decide)⟩

/-- Every cause leaves held value and miss count with the knowledge (Table 2-3). -/
theorem Compartment.ok_learn {x : Compartment} (h : x.ok) (he : x.settings.enabled = true) (k : StepCause) :
    (x.learn k).ok := by
  obtain ⟨hknow, hoff⟩ := h
  cases k with
  | cycle value watch =>
    cases value with
    | some t => exact ⟨⟨rfl, rfl⟩, fun h => absurd (he.symm.trans h) (by decide)⟩
    | none =>
      cases hk : x.knowledge <;> rw [hk] at hknow <;> simp only [Compartment.learn, hk]
      · exact ⟨by rw [hk]; exact hknow, hoff⟩
      · exact Compartment.ok_missed he hknow.1
      · exact Compartment.ok_missed he hknow.1
      · exact ⟨by rw [hk]; exact hknow, hoff⟩
  | blindTick => exact ⟨⟨rfl, rfl⟩, fun h => absurd (he.symm.trans h) (by decide)⟩
  | boundary => exact ⟨hknow, hoff⟩

/-! ### While the record of one compartment is being written -/

/-- What stays in order while the record of one compartment is being changed: the other compartments and the watch. -/
def State.othersOk (s : State) (c : CompNo) : Prop :=
  (∀ d : CompNo, d ≠ c → s.comps[d].ok) ∧ s.hatch.patternTruth = s.patternNow

section
variable {s : State} {c : CompNo}

theorem State.watchOk.others (h : s.watchOk) (c : CompNo) : s.othersOk c := ⟨fun d _ => h.1 d, h.2⟩

theorem State.othersOk.all (h : s.othersOk c) (hc : s.comps[c].ok) : s.watchOk := by
  obtain ⟨hok, hfresh⟩ := h
  refine ⟨fun d => ?_, hfresh⟩
  by_cases hd : d = c
  · rw [hd]
    exact hc
  · exact hok d hd

/-- A record that keeps the band keeps the watch fresh. -/
theorem State.othersOk.setComp (h : s.othersOk c) {x : Compartment} (hband : x.band = s.comps[c].band) :
    (s.setComp c x).othersOk c := by
  obtain ⟨hok, hfresh⟩ := h
  refine ⟨fun d hd => ?_, ?_⟩
  · rw [State.setComp_comps, getElem_setAt_ne _ _ hd.symm]
    exact hok d hd
  · refine hfresh.trans (State.patternNow_of_bands (s := s) (t := s.setComp c x) rfl rfl fun d => ?_).symm
    rw [State.setComp_comps, getElem_setAt]
    split
    next hcd => rw [← hcd, hband]
    next => rfl

theorem State.watchOk.setComp (h : s.watchOk) {x : Compartment} (hx : x.ok) (hband : x.band = s.comps[c].band) :
    (s.setComp c x).watchOk :=
  ((h.others c).setComp hband).all (by rw [State.setComp_comps, getElem_setAt_self]; exact hx)

/-- Writing the band completes the order where the record with it is in order. -/
theorem State.othersOk.setBand (h : s.othersOk c) {b : Band} (hc : ({ s.comps[c] with band := b } : Compartment).ok) :
    (s.setBand c b).watchOk := by
  obtain ⟨hok, hfresh⟩ := h
  refine ⟨fun d => ?_, State.setBand_fresh hfresh⟩
  rw [State.setBand_comps, getElem_setAt]
  split
  · exact hc
  next hd => exact hok d (Ne.symm hd)

theorem State.othersOk.closeInterval (h : s.othersOk c) (t : Stamp) : (s.closeInterval c t).othersOk c := by
  have hset : (s.setComp c { s.comps[c] with interval := .opening t }).othersOk c := h.setComp rfl
  obtain ⟨hok, hfresh⟩ := hset
  refine ⟨fun d hd => ?_, ?_⟩
  · rw [State.closeInterval_comps]
    exact hok d hd
  · have hhatch : (s.closeInterval c t).hatch = s.hatch := by simp
    rw [hhatch]
    exact hfresh.trans (State.patternNow_of_bands (by simp) (by simp) fun d => by
      rw [State.closeInterval_comps, State.setComp_comps]).symm

theorem State.watchOk.closeInterval (h : s.watchOk) (c : CompNo) (t : Stamp) : (s.closeInterval c t).watchOk :=
  ((h.others c).closeInterval t).all (by rw [State.closeInterval_comps, getElem_setAt_self]; exact h.1 c)

/-! ### Steps (R28) -/

theorem State.watchOk.takeStep (h : s.watchOk) (he : s.comps[c].settings.enabled = true) (cause : StepCause) :
    (s.takeStep c cause).watchOk := by
  obtain ⟨hsettings, hband, -, -⟩ := s.comps[c].learn_frame cause
  have hlearn := Compartment.ok_learn (h.1 c) he cause
  have hset : (s.setComp c { s.comps[c].learn cause with lastStep := s.stampNow }).watchOk := h.setComp hlearn hband
  have hknow : (s.stepKnow c cause).watchOk :=
    hset.of_frame (by simp [State.stepKnow]) (by simp [State.stepKnow])
  refine ⟨fun d => ?_, ?_⟩
  · rw [State.takeStep_comps, getElem_setAt]
    split
    · exact hlearn.of_know (hsettings ▸ he) rfl rfl rfl
    · exact h.1 d
  · rw [State.takeStep_hatch, State.setBand_fresh hknow.2]
    refine (State.patternNow_of_bands (by rw [State.takeStep_hatch]) (by rw [State.takeStep_hatch]) fun d => ?_).symm
    rw [State.takeStep_comps, State.setBand_comps, State.stepKnow_comps, setAt_setAt, getElem_setAt, getElem_setAt]
    split <;> rfl

theorem State.watchOk.stepComp (h : s.watchOk) (c : CompNo) (cause : StepCause) : (s.stepComp c cause).watchOk := by
  rw [State.stepComp]
  split
  next he => exact h.takeStep he cause
  next => exact h

theorem State.watchOk.stepAll (h : s.watchOk) (causeOf : CompNo → StepCause) (l : List CompNo) :
    (s.stepAll causeOf l).watchOk := by
  induction l generalizing s with
  | nil => exact h
  | cons c l ih => exact ih (h.stepComp c _)

/-! ### COMPARTMENT_SET (R25, R26, R63) -/

/-- Disabling forgets the compartment and unsets its band (R26). -/
theorem State.othersOk.disableComp (h : s.othersOk c) : (s.disableComp c).watchOk := by
  have hclosed : (if 0 < s.comps[c].interval.steps then s.closeInterval c s.stampNow else s).othersOk c := by
    split
    · exact h.closeInterval _
    · exact h
  unfold State.disableComp
  dsimp only
  generalize (if 0 < s.comps[c].interval.steps then s.closeInterval c s.stampNow else s) = t at hclosed ⊢
  refine (hclosed.setComp (x := t.comps[c].forget) rfl).setBand ?_
  rw [State.setComp_comps, getElem_setAt_self]
  exact ⟨⟨rfl, rfl⟩, fun _ => ⟨rfl, rfl⟩⟩

/-- Enabling starts the compartment afresh; its band was UNSET (R26). -/
theorem State.othersOk.enableComp (h : s.othersOk c) (hband : s.comps[c].band = .unset) : (s.enableComp c).watchOk := by
  have hset : (s.setComp c { s.comps[c].forget with
      band := .unset, lastStep := s.stampNow, interval := .opening s.stampNow }).watchOk := by
    refine (h.setComp hband.symm).all ?_
    rw [State.setComp_comps, getElem_setAt_self]
    exact ⟨⟨rfl, rfl⟩, fun _ => ⟨rfl, rfl⟩⟩
  exact hset.of_frame (by simp [State.enableComp]) (by simp [State.enableComp])

theorem State.watchOk.expireLongOpen (h : s.watchOk) (c : CompNo) : (s.expireLongOpen c).watchOk := h.of_openings rfl rfl

theorem State.watchOk.applyLongOpenLimit (h : s.watchOk) (c : CompNo) : (s.applyLongOpenLimit c).watchOk := by
  rw [State.applyLongOpenLimit]
  split
  · exact h.expireLongOpen c
  · exact h

theorem State.watchOk.applyComp (h : s.watchOk) (c : CompNo) (new : CompSettings) : (s.applyComp c new).watchOk := by
  have hset : (s.setComp c { s.comps[c] with settings := new }).othersOk c := (h.others c).setComp rfl
  have hsettings : (s.setComp c { s.comps[c] with settings := new }).comps[c] = { s.comps[c] with settings := new } := by
    rw [State.setComp_comps, getElem_setAt_self]
  have henable : (if s.comps[c].settings.enabled = new.enabled then s.setComp c { s.comps[c] with settings := new }
      else if new.enabled then (s.setComp c { s.comps[c] with settings := new }).enableComp c
      else (s.setComp c { s.comps[c] with settings := new }).disableComp c).watchOk := by
    split
    next hsame =>
      refine hset.all ?_
      rw [hsettings]
      exact ⟨(h.1 c).1, fun hoff => (h.1 c).2 (hsame.trans hoff)⟩
    next hchange =>
      split
      next hnew =>
        refine hset.enableComp ?_
        rw [hsettings]
        exact ((h.1 c).2 (by simpa [hnew] using hchange)).2
      next => exact hset.disableComp
  have hlimit : ∀ t : State, t.watchOk →
      (if s.comps[c].settings.longOpenLimit = new.longOpenLimit then t else t.applyLongOpenLimit c).watchOk := by
    intro t ht
    split
    · exact ht
    · exact ht.applyLongOpenLimit c
  unfold State.applyComp
  dsimp only
  split
  · exact hlimit _ henable
  · exact (hlimit _ henable).of_frame

end

end Sys2Proof.Machine
end

