-- ==== Sys2Proof/Proofs/StartUpBlocks.lean ====
section
/-! PROOFS. The blocks that start-up rebuilds from the restored configuration (R23, R48, R66, R185, R193). -/

namespace Sys2Proof.Machine

/-- The configuration that a start-up restores: that of the current place once a save cut off has been settled, or the
defaults (R185). -/
def State.restored (s : State) : WorkingConfig := (s.settings.started (Config.cutOffWriteValid s.free)).image

section
variable (s : State) (r : StartReason) (since : Nat)

/-- The blocks that records and credits leave as `startBlocks` built them. -/
theorem State.startUp_blocks :
    (s.startUp r since).scan = .started s.restored ∧ (s.startUp r since).hatch = s.hatch.started s.restored := by
  refine ⟨?_, ?_⟩ <;> simp only [State.startUp, State.withFree_scan, State.withFree_hatch, State.endStart_frame,
    State.startRecords_frame] <;> rfl

theorem State.closeIfFed_comp (d c : CompNo) : ∃ a : Interval,
    (if 0 < s.comps[d].interval.steps then s.closeInterval d s.stampNow else s).comps[c] = { s.comps[c] with interval := a } := by
  by_cases hsteps : 0 < s.comps[d].interval.steps
  · rw [if_pos hsteps, State.closeInterval_comps, getElem_setAt]
    split
    next h => exact ⟨_, by rw [h]⟩
    next => exact ⟨_, rfl⟩
  · rw [if_neg hsteps]
    exact ⟨_, rfl⟩

/-- Closing the retained intervals changes nothing else of a compartment. -/
theorem State.closeRetained_comp (l : List CompNo) (c : CompNo) :
    ∃ a : Interval, (s.closeRetained l).comps[c] = { s.comps[c] with interval := a } := by
  induction l generalizing s with
  | nil => exact ⟨_, rfl⟩
  | cons d l ih =>
    obtain ⟨a, ha⟩ := ih (if 0 < s.comps[d].interval.steps then s.closeInterval d s.stampNow else s)
    obtain ⟨b, hb⟩ := s.closeIfFed_comp d c
    exact ⟨a, by simp only [State.closeRetained, ha, hb]⟩

theorem State.startRecords_comp (c : CompNo) :
    ∃ a : Interval, (s.startRecords r since).comps[c] = { s.comps[c] with interval := a } := by
  obtain ⟨a, ha⟩ := s.closeRetained_comp (places 4) c
  refine ⟨a, ?_⟩
  rw [← ha]
  simp [State.startRecords]

theorem State.startBlocks_comp (c : CompNo) : s.startBlocks.comps[c] = s.comps[c].started s.restored.comps[c] :=
  getElem_ofFn_place _ c

theorem State.endStart_comp (c : CompNo) : s.endStart.comps[c] = s.comps[c].opened s.stampNow := by
  simp [State.endStart, -Fin.getElem_fin]

theorem State.startUp_stampNow : (s.startUp r since).stampNow = s.startBlocks.stampNow :=
  (State.stampNow_of_clock (by simp [State.startUp])).1

/-- Every compartment after start-up: its settings restored, nothing known of it, an empty interval opened at the start-up
time (R48). -/
theorem State.startUp_comp (c : CompNo) : (s.startUp r since).comps[c] =
    ⟨s.restored.comps[c], .unknown, .unset, none, 0, (s.startUp r since).stampNow, .opening (s.startUp r since).stampNow⟩ := by
  obtain ⟨a, ha⟩ := s.startBlocks.startRecords_comp r since c
  have hstamp : (s.startBlocks.startRecords r since).stampNow = s.startBlocks.stampNow :=
    (State.stampNow_of_clock (by simp)).1
  rw [State.startUp_stampNow, State.startUp, State.withFree_comps, State.endStart_comp, ha, hstamp, State.startBlocks_comp]
  rfl

/-- No input is settled after start-up, so no member is OPEN and the pattern watch is false (R66). -/
theorem State.startUp_patternNow : (s.startUp r since).patternNow = false := by
  rw [Bool.eq_false_iff]
  intro h
  obtain ⟨⟨i, hi⟩, hopen, -⟩ := (State.patternNow_iff _).mp h
  have hsettled : (s.startUp r since).hatch.inputs[i].settled = .unsettled := by
    rw [(s.startUp_blocks r since).2, HatchMonitor.started, getElem_ofFn_place]
    rfl
  exact absurd (hsettled.symm.trans (hopen i hi)) (by decide)

end

end Sys2Proof.Machine
end

