-- ==== Sys2Proof/Proofs/MonitorsInOrder.lean ====
section
/-! PROOFS. Every step keeps the scanner, the compartments and the pattern watch in order: each block operation does, and
`Preserved.step` carries that to steps (R8 to R12, R26, R30, R31, R50 to R58, R64, R66). -/

namespace Sys2Proof.Machine

section
variable {s : State}

theorem State.monitorsOk.of_frame {t : State} (h : s.monitorsOk) (hscan : t.scan = s.scan := by simp)
    (hcomps : t.comps = s.comps := by simp) (hhatch : t.hatch = s.hatch := by simp) : t.monitorsOk :=
  ⟨hscan ▸ h.1, State.watchOk.of_frame h.2 hcomps hhatch⟩

/-! ### The scanner (R8 to R12, R17, R19 to R21) -/

theorem State.watchOk.withScan (h : s.watchOk) {x : Scanner} (hx : x.ok) : (s.withScan x).monitorsOk := ⟨hx, h⟩

/-- A scanner whose state and read in flight stay keeps its order. -/
theorem State.monitorsOk.updScan (h : s.monitorsOk) {f : Scanner → Scanner} (hread : (f s.scan).read = s.scan.read)
    (hstate : (f s.scan).state = s.scan.state) : (s.updScan f).monitorsOk := by
  refine State.watchOk.withScan h.2 ?_
  rw [Scanner.ok, hread, hstate]
  exact h.1

theorem State.watchOk.endCycle (h : s.watchOk) (ending : CycleEnding) {next : ScanState}
    (hnext : next = .waiting ∨ next = .stopped) : (s.endCycle ending next).monitorsOk := by
  rw [State.endCycle_eq]
  refine (h.stepAll _ _).withScan ?_
  rcases hnext with rfl | rfl <;> rfl

/-- A cycle that is READING goes on to its next read, or ends (R10, R11 step 4, R12). -/
theorem State.watchOk.takeUp (h : s.watchOk) (hstate : s.scan.state = .reading) (l : List EntryNo) :
    (s.takeUp l).monitorsOk := by
  induction l generalizing s with
  | nil =>
    refine h.endCycle _ ?_
    cases s.scan.mode with
    | continuous => exact .inl rfl
    | single => exact .inr rfl
  | cons i l ih =>
    rw [State.takeUp]
    split
    · exact ih (s := s.passOver i) h hstate
    · exact h.withScan (by simp [Scanner.ok, hstate])

theorem State.watchOk.startCycle (h : s.watchOk) : s.startCycle.monitorsOk :=
  State.watchOk.takeUp (s := s.updScan _) h rfl _

/-- After a completed read, in READING or HALTING (R11 step 4, R20). -/
theorem State.watchOk.moveOn (h : s.watchOk) (hstate : s.scan.state = .reading ∨ s.scan.state = .halting) (i : EntryNo) :
    (s.moveOn i).monitorsOk := by
  rw [State.moveOn]
  split
  · exact h.endCycle _ (.inr rfl)
  next hnot => exact h.takeUp (hstate.resolve_right hnot) _

/-- A read is in flight in READING and HALTING alone. -/
theorem Scanner.ok.inCycle {x : Scanner} (h : x.ok) {r : ReadInFlight} (hr : x.read = some r) :
    x.state = .reading ∨ x.state = .halting := by
  rw [Scanner.ok, hr] at h
  simpa using h.symm

theorem State.monitorsOk.endReadValid (h : s.monitorsOk) {r : ReadInFlight} (hr : s.scan.read = some r) (raw : Int) :
    (s.endReadValid r raw).monitorsOk := by
  rw [State.endReadValid_eq raw rfl]
  refine State.watchOk.moveOn (State.watchOk.of_frame h.2) ?_ _
  exact h.1.inCycle hr

theorem State.monitorsOk.endReadFailed (h : s.monitorsOk) {r : ReadInFlight} (hr : s.scan.read = some r) (o : ReadOutcome) :
    (s.endReadFailed r o).monitorsOk := by
  rw [State.endReadFailed_eq o rfl]
  refine State.watchOk.moveOn (State.watchOk.of_frame h.2) ?_ _
  simpa using h.1.inCycle hr

theorem State.monitorsOk.probeAnswer (h : s.monitorsOk) (raw : Int) (good : Bool) : (s.probeAnswer raw good).monitorsOk := by
  unfold State.probeAnswer
  split
  next r hr =>
    split
    · split
      · exact h.endReadValid hr raw
      · exact h.endReadFailed hr _
    · exact h
  next => exact h

theorem State.monitorsOk.answerWindowExpiry (h : s.monitorsOk) : s.answerWindowExpiry.monitorsOk := by
  unfold State.answerWindowExpiry
  split
  next r hr =>
    split
    · exact h.endReadFailed hr _
    · exact h
  next => exact h

theorem State.monitorsOk.settleExpiry (h : s.monitorsOk) : s.settleExpiry.monitorsOk := by
  unfold State.settleExpiry
  split
  next r hr =>
    refine State.watchOk.withScan h.2 ?_
    have hscan := h.1
    rwa [Scanner.ok, hr] at hscan
  next => exact h

theorem State.monitorsOk.fallTick (h : s.monitorsOk) : s.fallTick.monitorsOk := by
  have htick : (s.updScan fun x => { x with tickIn := x.period }).monitorsOk := h.updScan rfl rfl
  rw [State.fallTick, State.takeTick]
  split
  · exact State.watchOk.startCycle htick.2
  · exact htick.updScan rfl rfl
  · exact htick.updScan rfl rfl
  · exact ⟨by simpa using htick.1, State.watchOk.stepAll htick.2 _ _⟩

theorem State.monitorsOk.scanStop (h : s.monitorsOk) : s.scanStop.2.monitorsOk := by
  unfold State.scanStop
  split
  · exact State.watchOk.endCycle h.2 _ (.inr rfl)
  · exact State.watchOk.endCycle h.2 _ (.inr rfl)
  next hstate =>
    refine State.watchOk.withScan h.2 ?_
    have hscan := h.1
    rwa [Scanner.ok, hstate] at hscan
  · exact h

theorem State.monitorsOk.scanHalt (h : s.monitorsOk) : s.scanHalt.2.monitorsOk := by
  have hscan := h.1
  unfold State.scanHalt
  split
  next hstate => exact State.watchOk.withScan h.2 (by rwa [Scanner.ok, hstate] at hscan)
  next hstate => exact State.watchOk.withScan h.2 (by rwa [Scanner.ok, hstate] at hscan)
  · exact h
  · exact h

theorem State.monitorsOk.scanStart (h : s.monitorsOk) : s.scanStart.2.monitorsOk := by
  have hscan := h.1
  unfold State.scanStart
  split
  next hstate => exact State.watchOk.withScan h.2 (by rwa [Scanner.ok, hstate] at hscan)
  · exact h

theorem State.monitorsOk.scanEntrySet (h : s.monitorsOk) (entry address compartment role settle source offset : Byte) :
    (s.scanEntrySet entry address compartment role settle source offset).2.monitorsOk := by
  unfold State.scanEntrySet
  split
  · split
    · exact h
    split
    · exact h
    · exact h.updScan rfl rfl
  · exact h

theorem State.monitorsOk.scanRangeSet (h : s.monitorsOk) (first last : Byte) : (s.scanRangeSet first last).2.monitorsOk := by
  unfold State.scanRangeSet
  split
  · refine h.updScan ?_ ?_ <;> cases s.scan.state <;> rfl
  · exact h

theorem State.monitorsOk.scanConfigSet (h : s.monitorsOk) (mode : Byte) (period : Half) (auto : Byte) :
    (s.scanConfigSet mode period auto).2.monitorsOk := by
  unfold State.scanConfigSet
  split
  · exact h.updScan rfl rfl
  · exact h

/-! ### The contacts (R50 to R58, R66) -/

/-- The truth kept for the watch while the record of input i is being written: all it needs from a fresh state `s` beside
that input (R64). -/
def State.inputWritten (s t : State) (i : InputNo) : Prop :=
  t.comps = s.comps ∧ t.hatch.patternTruth = s.hatch.patternTruth ∧ t.hatch.bandRequired = s.hatch.bandRequired ∧
    (∀ j : InputNo, t.hatch.inputs[j].settings = s.hatch.inputs[j].settings) ∧
    ∀ j : InputNo, j ≠ i → t.hatch.inputs[j].settled = s.hatch.inputs[j].settled

/-- A debounced state of input i that has been taken evaluates the watch afresh where the input is a member, and is none of
the watch's inputs where it is not (R64). -/
theorem State.watchOk.evaluateIfMember {t : State} {i : InputNo} (h : s.watchOk) (hw : s.inputWritten t i) :
    (t.evaluateIfMember i).watchOk := by
  obtain ⟨hcomps, htruth, hrequired, hsettings, hsettled⟩ := hw
  rw [State.evaluateIfMember]
  split
  · exact State.watchOk.of_fresh h (by simp [hcomps]) t.evaluatePattern_fresh
  next hnot =>
    refine State.watchOk.of_fresh h hcomps (htruth.trans (h.2.trans (State.patternNow_congr hrequired
      (fun j => by rw [hsettings]) (fun j hj => ⟨hsettled j ?_, by rw [hsettings]⟩) fun _ _ _ _ => by rw [hcomps]).symm))
    rintro rfl
    exact hnot (hsettings j ▸ hj)

theorem State.setInput_written (s : State) (i : InputNo) {x : ContactInput} (hx : x.settings = s.hatch.inputs[i].settings) :
    s.inputWritten (s.setInput i x) i := by
  refine ⟨rfl, rfl, rfl, fun j => ?_, fun j hj => ?_⟩
  · rw [State.setInput_hatch, getElem_setAt]
    split
    next hij => rw [hx, hij]
    next => rfl
  · rw [State.setInput_hatch, getElem_setAt_ne _ _ hj.symm]

/-- What leaves compartments, and contacts but for openings, alone goes on with a written input. -/
theorem State.inputWritten.of_openings {t u : State} {i : InputNo} (h : s.inputWritten t i)
    (hcomps : u.comps = t.comps := by simp) (hhatch : u.hatch = { t.hatch with openings := u.hatch.openings } := by simp) :
    s.inputWritten u i := by
  obtain ⟨hc, htruth, hrequired, hsettings, hsettled⟩ := h
  rw [State.inputWritten, hhatch]
  exact ⟨hcomps.trans hc, htruth, hrequired, hsettings, hsettled⟩

theorem State.moveOpeningOf_hatch (s : State) (i : InputNo) (change : OpeningChange) :
    (s.moveOpeningOf i change).hatch = { s.hatch with openings := (s.moveOpeningOf i change).hatch.openings } := by
  unfold State.moveOpeningOf
  split
  · cases change
    · simp only [State.moveOpening, State.startOpening]
      split <;> simp
    · simp only [State.moveOpening, State.endOpening]
      split <;> simp
    · rfl
  · rfl

theorem State.openAtStart_hatch (s : State) (c : Option CompNo) :
    (s.openAtStart c).hatch = { s.hatch with openings := (s.openAtStart c).hatch.openings } := by
  unfold State.openAtStart
  split
  · split <;> rfl
  · rfl

section
variable {t : State} {i : InputNo} (h : s.inputWritten t i)
include h

theorem State.inputWritten.raiseTaken (j : InputNo) (new : Settled) : s.inputWritten (t.raiseTaken j new) i :=
  h.of_openings

theorem State.inputWritten.raiseIf (b : Bool) (c : Condition) : s.inputWritten (t.raiseIf b c) i := h.of_openings

theorem State.inputWritten.handGeneral (e : Entry) : s.inputWritten (t.handGeneral e) i := h.of_openings

theorem State.inputWritten.moveOpeningOf (j : InputNo) (change : OpeningChange) :
    s.inputWritten (t.moveOpeningOf j change) i := h.of_openings (by simp) (t.moveOpeningOf_hatch j change)

theorem State.inputWritten.openAtStart (c : Option CompNo) : s.inputWritten (t.openAtStart c) i :=
  h.of_openings (by simp) (t.openAtStart_hatch c)

end

theorem State.watchOk.takeChange (h : s.watchOk) (i : InputNo) (new : Settled) : (s.takeChange i new).watchOk := by
  have hset := s.setInput_written i (x := { s.hatch.inputs[i] with settled := new, timer := none }) rfl
  exact h.evaluateIfMember (((hset.moveOpeningOf i _).handGeneral _).raiseTaken i new)

theorem State.watchOk.settleFirst (h : s.watchOk) (i : InputNo) : (s.settleFirst i).watchOk := by
  have hset := s.setInput_written i (x := { s.hatch.inputs[i] with settled := s.hatch.inputs[i].level, timer := none }) rfl
  refine h.evaluateIfMember (State.inputWritten.raiseIf ?_ _ _)
  split
  · exact hset.openAtStart _
  · exact hset

theorem State.watchOk.debounceExpiry (h : s.watchOk) (i : InputNo) : (s.debounceExpiry i).watchOk := by
  unfold State.debounceExpiry
  dsimp only
  split
  · split
    · exact h.settleFirst i
    · exact h.takeChange i _
  · exact h

/-- An input written with its member, compartment and debounced state as they were is none of the watch's concern. -/
theorem State.watchOk.setInput (h : s.watchOk) {i : InputNo} {x : ContactInput}
    (hmember : x.settings.member = s.hatch.inputs[i].settings.member)
    (hx : s.hatch.inputs[i].settings.member = true → x.settled = s.hatch.inputs[i].settled ∧
      x.settings.compartment = s.hatch.inputs[i].settings.compartment) : (s.setInput i x).watchOk := by
  refine State.watchOk.of_fresh h rfl (h.2.trans (State.patternNow_congr (s := s) (t := s.setInput i x) rfl (fun j => ?_)
    (fun j hj => ?_) fun _ _ _ _ => rfl).symm)
  · rw [State.setInput_hatch, getElem_setAt]
    split
    next hij => rw [hmember, hij]
    next => rfl
  · rw [State.setInput_hatch, getElem_setAt]
    split
    next hij => subst hij; exact hx hj
    next => exact ⟨rfl, rfl⟩

theorem ContactInput.rawChange_kept (x : ContactInput) (made : Bool) (d : Nat) :
    (x.rawChange made d).settings = x.settings ∧ (x.rawChange made d).settled = x.settled := by
  unfold ContactInput.rawChange
  dsimp only
  (repeat' split) <;> simp_all

theorem State.watchOk.rawChange (h : s.watchOk) (i : InputNo) (made : Bool) : (s.rawChange i made).watchOk := by
  obtain ⟨hsettings, hsettled⟩ := s.hatch.inputs[i].rawChange_kept made s.hatch.debounceSteps
  exact h.setInput (by rw [hsettings]) fun _ => by rw [hsettings, hsettled]; exact ⟨rfl, rfl⟩

/-! ### HATCH_INPUT_SET, HATCH_CONFIG_SET and HATCH_STATUS (R51, R52, R67) -/

theorem ContactInput.reset_kept (x : ContactInput) (new : InputSettings) (d : Nat) :
    (x.reset new d).settings = new ∧ (x.reset new d).settled = x.settled := by
  unfold ContactInput.reset
  dsimp only
  (repeat' split) <;> simp_all

/-- New settings of an input that stays, or stays not, a member: an OPEN member keeps its compartment, and one that is not
OPEN makes the watch false before and after (R51, R64). -/
theorem State.watchOk.resetInput (h : s.watchOk) {i : InputNo} {new : InputSettings} (d : Nat)
    (hmember : s.hatch.inputs[i].settings.member = new.member)
    (hopen : s.hatch.inputs[i].settled = .opened → s.hatch.inputs[i].settings.compartment = new.compartment) :
    (s.setInput i (s.hatch.inputs[i].reset new d)).watchOk := by
  obtain ⟨hsettings, hsettled⟩ := s.hatch.inputs[i].reset_kept new d
  by_cases hclosed : s.hatch.inputs[i].settings.member = true ∧ s.hatch.inputs[i].settled ≠ .opened
  · obtain ⟨hm, hne⟩ := hclosed
    have hinput : (s.setInput i (s.hatch.inputs[i].reset new d)).hatch.inputs[i] = s.hatch.inputs[i].reset new d := by
      rw [State.setInput_hatch, getElem_setAt_self]
    refine State.watchOk.of_fresh h rfl ?_
    rw [State.patternNow_of_notOpen (i := i) (by rw [hinput, hsettings, ← hmember, hm])
      (by rw [hinput, hsettled]; exact hne)]
    exact h.2.trans (State.patternNow_of_notOpen hm hne)
  · refine h.setInput (by rw [hsettings, hmember]) fun hm => ?_
    rw [hsettings, hsettled]
    exact ⟨rfl, (hopen (not_not.mp fun hne => hclosed ⟨hm, hne⟩)).symm⟩

theorem State.watchOk.evaluatePattern (h : s.watchOk) {t : State} (hcomps : t.comps = s.comps) :
    t.evaluatePattern.watchOk :=
  State.watchOk.of_fresh h (by simpa using hcomps) t.evaluatePattern_fresh

theorem State.watchOk.applyInput (h : s.watchOk) {i : InputNo} {new : InputSettings}
    (hopen : s.hatch.inputs[i].settled = .opened → s.hatch.inputs[i].settings.compartment = new.compartment) :
    (s.applyInput i new).watchOk := by
  have hmembers : ∀ (b : Bool) (k : Condition),
      (if s.hatch.inputs[i].settings.member = new.member
        then (s.setInput i (s.hatch.inputs[i].reset new s.hatch.debounceSteps)).raiseIf b k
        else ((s.setInput i (s.hatch.inputs[i].reset new s.hatch.debounceSteps)).raiseIf b k).evaluatePattern).watchOk := by
    intro b k
    split
    next hmember => exact (h.resetInput s.hatch.debounceSteps hmember hopen).of_frame
    next => exact h.evaluatePattern (by simp)
  unfold State.applyInput
  dsimp only
  split
  · exact hmembers _ _
  · exact State.watchOk.of_frame (hmembers _ _) (State.handConfig_frame _ _ _).2.2.2.1 (by simp only [State.handConfig_frame])

theorem State.watchOk.hatchInputSet (h : s.watchOk) (input compartment sense watch member : Byte) :
    (s.hatchInputSet input compartment sense watch member).2.watchOk := by
  unfold State.hatchInputSet
  split
  · dsimp only
    split
    · exact h
    next hnot => exact h.applyInput fun hopened => not_not.mp fun hne => hnot ⟨hopened, .inl hne⟩
  · exact h

theorem State.watchOk.applyHatchConfig (h : s.watchOk) (steps : Nat) (band : Bool) :
    (s.applyHatchConfig steps band).watchOk := by
  have hband : (if s.hatch.bandRequired = band
      then s.withHatch { s.hatch with debounceSteps := steps, bandRequired := band }
      else (s.withHatch { s.hatch with debounceSteps := steps, bandRequired := band }).evaluatePattern).watchOk := by
    split
    next hsame =>
      refine State.watchOk.of_fresh h rfl (h.2.trans (State.patternNow_congr (s := s)
        (t := s.withHatch { s.hatch with debounceSteps := steps, bandRequired := band }) hsame.symm (fun _ => rfl)
        (fun _ _ => ⟨rfl, rfl⟩) fun _ _ _ _ => rfl).symm)
    next => exact h.evaluatePattern rfl
  unfold State.applyHatchConfig
  dsimp only
  split
  · exact hband
  · exact hband.of_frame

theorem State.watchOk.hatchConfigSet (h : s.watchOk) (steps bandRequired : Byte) :
    (s.hatchConfigSet steps bandRequired).2.watchOk := by
  unfold State.hatchConfigSet
  split
  · exact h.applyHatchConfig _ _
  · exact h

theorem State.watchOk.hatchStatus (h : s.watchOk) : s.hatchStatus.2.watchOk := by
  refine State.watchOk.of_fresh h rfl (h.2.trans (State.patternNow_congr (s := s) (t := s.hatchStatus.2) rfl (fun i => ?_)
    (fun i _ => ?_) fun _ _ _ _ => rfl).symm)
  · rw [State.hatchStatus, State.withHatch_hatch, getElem_mapAll]
  · rw [State.hatchStatus, State.withHatch_hatch, getElem_mapAll]
    exact ⟨rfl, rfl⟩

/-! ### Custody and the clock (R26, R40, R47, R190) -/

theorem State.watchOk.compartmentSet (h : s.watchOk) (compartment enabled : Byte) (threshold softLine limit : Half) :
    (s.compartmentSet compartment enabled threshold softLine limit).2.watchOk := by
  unfold State.compartmentSet
  split
  · dsimp only
    split
    · exact h
    split
    · exact h
    · exact h.applyComp _ _
  · exact h

theorem State.watchOk.custodyIn (h : s.watchOk) (identifier : Word) (compartment : Byte) (limit : Word) (cycleLimit : Byte)
    (u : Upstream) : (s.custodyIn identifier compartment limit cycleLimit u).2.watchOk := by
  have haccept : ∀ (i : SlotNo) (c : CompNo) (l n : Nat) (k : Carried), (s.acceptCustody i identifier c l n k).watchOk :=
    fun i c l n k => (h.stepComp c .boundary).of_frame (by simp [State.acceptCustody]) (by simp [State.acceptCustody])
  unfold State.custodyIn
  dsimp only
  split
  · exact h
  split
  · exact h
  split
  · exact h
  split
  · exact h
  split
  · exact h
  split
  · exact h
  split
  · exact h
  split
  · exact haccept _ _ _ _ _
  · exact h

theorem State.watchOk.closeAccount (h : s.watchOk) (i : SlotNo) : (s.closeAccount i).watchOk := by
  unfold State.closeAccount
  dsimp only
  split
  next he => exact h.takeStep he _
  next => exact h.of_frame

theorem State.watchOk.handoverEnd (h : s.watchOk) (identifier : Word) (outcome : Byte) (receipt : Word) :
    (s.handoverEnd identifier outcome receipt).2.watchOk := by
  have haccept : ∀ (i : SlotNo) (o : Outcome), (s.acceptEnd i o receipt).watchOk := fun i o =>
    (h.closeAccount i).of_frame (by simp [State.acceptEnd]) (by simp [State.acceptEnd])
  have hrefused : ∀ i : SlotNo, (s.acceptRefused i).watchOk := fun i => h.of_frame
  unfold State.handoverEnd
  dsimp only
  split
  · exact h
  split
  · exact h
  split
  · exact h
  split
  · exact h
  split
  · exact h
  split
  · exact h
  split
  · split
    · exact haccept _ _
    · exact hrefused _
  · exact h

theorem State.watchOk.rebase (h : s.watchOk) (c : CompNo) : (s.rebase c).watchOk := by
  have hclosed : (if 0 < s.comps[c].interval.steps then s.closeInterval c s.stampNow else s).watchOk := by
    split
    · exact h.closeInterval c _
    · exact h
  exact hclosed.setComp (hclosed.1 c) rfl

theorem State.watchOk.rebaseAll (h : s.watchOk) (l : List CompNo) : (s.rebaseAll l).watchOk := by
  induction l generalizing s with
  | nil => exact h
  | cons c l ih =>
    refine ih ?_
    split
    · exact h.rebase c
    · exact h

theorem State.watchOk.rebaseOpenings (h : s.watchOk) : s.rebaseOpenings.watchOk := h.of_openings rfl rfl

theorem State.watchOk.creditGaps (h : s.watchOk) : s.creditGaps.watchOk := h.of_frame

theorem State.watchOk.handGeneral (h : s.watchOk) (e : Entry) : (s.handGeneral e).watchOk := h.of_frame

theorem State.watchOk.setFromUnset (h : s.watchOk) (t : Nat) : (s.setFromUnset t).watchOk := by
  have hclock : (s.withClock (s.clock.setTo t)).watchOk := h
  exact (hclock.rebaseAll (places 4)).creditGaps.rebaseOpenings.handGeneral _

theorem State.watchOk.timeSet (h : s.watchOk) (time : Word) : (s.timeSet time).2.watchOk := by
  have htrim : ∀ n : Nat, (s.trim n).watchOk := fun n => h.of_frame
  unfold State.timeSet
  dsimp only
  split
  · exact h
  split
  · split
    · exact h
    · exact h.setFromUnset _
  · split
    · exact h
    split
    · exact h
    · dsimp only
      exact htrim _

/-! ### Start-up (R23, R48, R66) -/

/-- Start-up leaves the monitors in order, whatever it finds. -/
theorem State.startUp_monitorsOk (s : State) (r : StartReason) (since : Nat) : (s.startUp r since).monitorsOk := by
  obtain ⟨hscan, hhatch⟩ := s.startUp_blocks r since
  refine ⟨?_, fun c => ?_, ?_⟩
  · rw [hscan]
    cases h : s.restored.autoStart <;> simp [Scanner.ok, Scanner.started, h]
  · rw [State.startUp_comp]
    exact ⟨⟨rfl, rfl⟩, fun _ => ⟨rfl, rfl⟩⟩
  · rw [State.startUp_patternNow, hhatch]
    rfl

end

/-! ### Every step -/

/-- Every request keeps the monitors in order: those not named write neither scanner, compartments nor contacts. -/
theorem State.monitorsOk.perform {s : State} (h : s.monitorsOk) (r : Request) : (s.perform r).2.monitorsOk := by
  have hscan := h.1
  have hwatch := h.2
  cases r
  case scanEntrySet => exact h.scanEntrySet _ _ _ _ _ _ _
  case scanRangeSet => exact h.scanRangeSet _ _
  case scanConfigSet => exact h.scanConfigSet _ _ _
  case scanStart => exact h.scanStart
  case scanHalt => exact h.scanHalt
  case scanStop => exact h.scanStop
  case scanStatus => exact h.updScan rfl rfl
  case probeStatus => exact h.updScan rfl rfl
  case compartmentSet => exact ⟨by simpa [State.perform] using hscan, State.watchOk.compartmentSet hwatch _ _ _ _ _⟩
  case hatchInputSet => exact ⟨by simpa [State.perform] using hscan, State.watchOk.hatchInputSet hwatch _ _ _ _ _⟩
  case hatchConfigSet => exact ⟨by simpa [State.perform] using hscan, State.watchOk.hatchConfigSet hwatch _ _⟩
  case hatchStatus => exact ⟨by simpa [State.perform] using hscan, State.watchOk.hatchStatus hwatch⟩
  case custodyIn => exact ⟨by simpa [State.perform] using hscan, State.watchOk.custodyIn hwatch _ _ _ _ _⟩
  case handoverEnd => exact ⟨by simpa [State.perform] using hscan, State.watchOk.handoverEnd hwatch _ _ _⟩
  case timeSet => exact ⟨by simpa [State.perform] using hscan, State.watchOk.timeSet hwatch _⟩
  all_goals exact h.of_frame (by simp [State.perform]) (by simp [State.perform]) (by simp [State.perform])

theorem monitorsOk_preserved : Preserved State.monitorsOk where
  pending _ _ h := h
  link _ _ h := h
  notice _ h := h.of_frame
  elapse _ _ h := ⟨h.1, State.watchOk.of_openings h.2 rfl rfl⟩
  perform _ r h := h.perform r
  restartAs s r n _ := State.startUp_monitorsOk _ r _
  powerUp s absence held _ := State.startUp_monitorsOk _ _ _
  failSupply _ _ h := h.of_frame
  contact s i made h := ⟨h.1, State.watchOk.setInput h.2 rfl fun _ => ⟨rfl, rfl⟩⟩
  fallTick _ h := h.fallTick
  expireLongOpen _ c h := ⟨h.1, State.watchOk.expireLongOpen h.2 c⟩
  lapse _ _ h := h.of_frame
  settleExpiry _ h := h.settleExpiry
  probeAnswer _ raw good h := h.probeAnswer raw good
  answerWindowExpiry _ h := h.answerWindowExpiry
  rawChange _ i made h := ⟨h.1, State.watchOk.rawChange h.2 i made⟩
  debounceExpiry _ i h := ⟨by simpa using h.1, State.watchOk.debounceExpiry h.2 i⟩
  examineNext _ h := h.of_frame
  eraseComplete _ h := h.of_frame
  programComplete _ h := h.of_frame
  saveWriteEnd _ _ h := h.of_frame

/-- Settles O57: every operation of the blocks keeps the monitors in order (`monitorsOk_preserved`), and so does a step. -/
theorem stepKeepsTheMonitors : Obligations.StepKeepsTheMonitors := fun _ _ h hstep => monitorsOk_preserved.step h hstep

end Sys2Proof.Machine
end

