-- ==== Sys2Proof/Proofs/PlainReports.lean ====
section
/-! PROOFS. The reports that change nothing, and the settings of one value with their CONFIG record (R46, R49, R88, R89,
R111, R116, R148, R160, R172, R180, R182, R186, R187, R189). -/

namespace Sys2Proof.Machine

/-! ### The plain reports -/

theorem calSlotOf_of_code {b : Byte} {c : CalSlot} (h : c.code = b.toNat) : calSlotOf b = some c := by
  rw [byte_of_toNat h]
  cases c <;> rfl

theorem calSlotOf_eq_none {b : Byte} (h : 1 < b.toNat) : calSlotOf b = none :=
  (if_neg (byte_ne_of_lt h (Nat.zero_le 1))).trans (if_neg (byte_ne_of_lt h le_rfl))

section
variable (s : State)

theorem State.compartmentGet_of_val {b : Byte} {c : CompNo} (h : c.val = b.toNat) :
    s.compartmentGet b = (okay (s.compBytes c), s) := by
  simp only [State.compartmentGet, numOf_of_val h]

theorem State.compartmentGet_badValue {b : Byte} (h : 3 < b.toNat) : s.compartmentGet b = (refuse .badValue, s) := by
  simp only [State.compartmentGet, numOf_eq_none h, State.refusing]

theorem State.logRead_inRange (q : Word) {n : Byte} (h1 : 1 ≤ n.toNat) (h16 : n.toNat ≤ 16) :
    s.logRead q n = (⟨if s.log.belowOldest q.toNat then .partly else .ok,
      counted (((s.log.records.filter fun r => decide (q.toNat ≤ r.sequence)).take n.toNat).map LogRecord.image)
        ++ seqField s.log.oldest ++ seqField s.log.newest⟩, s) := by
  refine if_neg (not_or.mpr ⟨?_, Nat.not_lt.mpr h16⟩)
  rintro rfl
  exact absurd h1 (by decide)

theorem State.logRead_badValue (q : Word) {n : Byte} (h : n.toNat = 0 ∨ 16 < n.toNat) :
    s.logRead q n = (refuse .badValue, s) :=
  if_pos (h.imp_left BitVec.eq_of_toNat_eq)

theorem State.offsetRead_of_code {b : Byte} {c : CalSlot} (h : c.code = b.toNat) :
    s.offsetRead b = (okay (s.offsets.statusBytes c), s) := by
  simp only [State.offsetRead, calSlotOf_of_code h]

theorem State.offsetRead_badValue {b : Byte} (h : 1 < b.toNat) : s.offsetRead b = (refuse .badValue, s) := by
  simp only [State.offsetRead, calSlotOf_eq_none h, State.refusing]

end

/-- Settles O14, each report by its own rule; the link is left to `State.submit_report`. -/
theorem reportsChangeNothing : Obligations.ReportsChangeNothing := by
  intro s tag hs
  refine ⟨fun b c h => ?_, fun b h => ?_, fun q n h1 h16 => ?_, fun q n h => ?_, ?_, fun q => ?_, ?_, ?_, fun b c h => ?_,
    fun b h => ?_, ?_, ?_, ?_⟩
  · exact State.submit_report (.compartmentGet b) hs (s.compartmentGet_of_val h)
  · exact State.submit_report (.compartmentGet b) hs (s.compartmentGet_badValue h)
  · exact State.submit_report (.logRead q n) hs (s.logRead_inRange q h1 h16)
  · exact State.submit_report (.logRead q n) hs (s.logRead_badValue q h)
  · exact State.submit_report .logStatus hs rfl
  · exact State.submit_report (.consignmentList q) hs rfl
  · exact State.submit_report .claimList hs rfl
  · exact State.submit_report .noticeStatus hs rfl
  · exact State.submit_report (.offsetRead b) hs (s.offsetRead_of_code h)
  · exact State.submit_report (.offsetRead b) hs (s.offsetRead_badValue h)
  · exact State.submit_report .settingsStatus hs rfl
  · exact State.submit_report .timeGet hs rfl
  · exact State.submit_report .identify hs rfl

/-! ### Settings of one value -/

/-- Writing what stands already changes nothing. -/
theorem State.withLogInterval_self {s : State} {l : Nat} (h : s.logInterval = l) : s.withLogInterval l = s := h ▸ rfl

theorem State.withHandoverLimit_self {s : State} {l : Nat} (h : s.handoverLimit = l) : s.withHandoverLimit l = s := h ▸ rfl

theorem State.withAllowance_self {s : State} {a : Nat} (h : s.claims.allowance = a) :
    s.withClaims { s.claims with allowance := a } = s := h ▸ rfl

theorem State.logIntervalSet_eq (s : State) (b : Byte) {l : Nat} (hl : l = max 1 (min b.toNat 60)) :
    s.logIntervalSet b = (okay [], if s.logInterval = l then s else (s.withLogInterval l).handConfig none (.interval l)) := by
  have hclamp : clamp 1 60 b.toNat = l := hl.symm
  by_cases h : s.logInterval = l
  · simp only [State.logIntervalSet, hclamp, if_pos h, State.withLogInterval_self h]
  · simp only [State.logIntervalSet, hclamp, if_neg h]

theorem State.handoverLimitSet_eq (s : State) (x : Half) {l : Nat} (hl : l = max 30 (min x.toNat 1800)) :
    s.handoverLimitSet x
      = (okay [], if s.handoverLimit = l then s else (s.withHandoverLimit l).handConfig none (.handover l)) := by
  have hclamp : clamp 30 1800 x.toNat = l := hl.symm
  by_cases h : s.handoverLimit = l
  · simp only [State.handoverLimitSet, hclamp, if_pos h, State.withHandoverLimit_self h]
  · simp only [State.handoverLimitSet, hclamp, if_neg h]

theorem State.claimConfigSet_eq (s : State) (w : Word) {a : Nat} (ha : a = min w.toNat 86400) :
    s.claimConfigSet w = (okay [], if s.claims.allowance = a then s
      else (s.withClaims { s.claims with allowance := a }).handConfig none (.claim a)) := by
  have hclamp : clamp 0 86400 w.toNat = a := by rw [ha, clamp, Nat.zero_max]
  by_cases h : s.claims.allowance = a
  · simp only [State.claimConfigSet, hclamp, if_pos h, State.withAllowance_self h]
  · simp only [State.claimConfigSet, hclamp, if_neg h]

/-- A request that writes `t` when a value changes, and is answered with no data: what it comes to in both cases. -/
theorem State.submit_setting (r : Request) {s t : State} {tag : Byte} {p : Prop} [Decidable p] (hs : s.ready)
    (hp : s.perform r = (okay [], if p then s else t)) (hl : t.link = s.link) (hr : r ≠ .restart := by exact nofun) :
    (p → (.next (s.submit tag r) : Host.Outcome State Fault Refusal) = .next (s.replies r.kind tag (okay []))) ∧
      (¬ p → (.next (s.submit tag r) : Host.Outcome State Fault Refusal) = .next (t.replies r.kind tag (okay []))) :=
  ⟨fun h => State.submit_report r hs (by rw [hp, if_pos h]) hr,
    fun h => State.submit_of_ready r hs (by rw [hp, if_neg h]) hl hr⟩

/-- Settles O22, each setting by its own rule and whether its value changes. -/
theorem settingsRecordTheirChange : Obligations.SettingsRecordTheirChange := by
  intro s tag hs
  refine ⟨fun b l hl => ?_, fun h l hl => ?_, fun w a ha => ?_, fun l => ?_⟩
  · exact State.submit_setting (.logIntervalSet b) hs (s.logIntervalSet_eq b hl) (by simp)
  · exact State.submit_setting (.handoverLimitSet h) hs (s.handoverLimitSet_eq h hl) (by simp)
  · exact State.submit_setting (.claimConfigSet w) hs (s.claimConfigSet_eq w ha) (by simp)
  · exact State.submit_setting (.labelSet l) hs rfl (by simp)

end Sys2Proof.Machine
end

