-- ==== Sys2Proof/Proofs/StepShares.lean ====
section
/-! PROOFS. What a step does beside the record of its compartment: the consignments in custody in it, the log and the
notices (R33 to R39, R43, R64, R81). -/

namespace Sys2Proof.Machine

/-! ### One slot -/

/-- A consignment in custody after the band of its compartment, which cools from WARM to COLD or not (R33). -/
def Slot.cooled (x : Slot) (cools : Bool) : Slot := { x with cycles := if cools then sat16 (x.cycles + 1) else x.cycles }

theorem Slot.cooled_false (x : Slot) : x.cooled false = x := rfl

theorem Slot.heldIn_cooled (x : Slot) (cools : Bool) (c : CompNo) : (x.cooled cools).heldIn c = x.heldIn c := rfl

/-- A consignment in custody after a SAMPLE of its compartment, which the log defers or not (R81, R87). -/
def Slot.deferred (x : Slot) (defers : Bool) : Slot := { x with logDeferred := x.logDeferred || defers }

theorem Slot.deferred_false (x : Slot) : x.deferred false = x := by
  simp only [Slot.deferred, Bool.or_false]

theorem Slot.deferred_true (x : Slot) : x.deferred true = { x with logDeferred := true } := by
  simp only [Slot.deferred, Bool.or_true]

/-- What a step of its compartment makes of a consignment in custody, with the clock VALID or not: a heat-shock cycle when
the band cools from WARM to COLD, and the share or blind credit (R33, R36 to R39). -/
def Slot.stepped (x : Slot) (timed cools : Bool) (t tp : Nat) (rate : Option Nat) : Slot :=
  if timed then (x.cooled cools).takeShare t tp rate else x

section
variable (x : Slot) (timed cools : Bool) (t tp : Nat) (rate : Option Nat)

theorem Slot.takeShare_frame : (x.takeShare t tp rate).state = x.state ∧ (x.takeShare t tp rate).compartment = x.compartment ∧
    (x.takeShare t tp rate).cycles = x.cycles ∧ (x.takeShare t tp rate).logDeferred = x.logDeferred := by
  cases rate with
  | none => exact ⟨rfl, rfl, rfl, rfl⟩
  | some r =>
    simp only [Slot.takeShare, Slot.checked]
    split <;> exact ⟨rfl, rfl, rfl, rfl⟩

/-- A step leaves a consignment where it is, and flags no record of it deferred before its SAMPLE is handed. -/
theorem Slot.stepped_frame : (x.stepped timed cools t tp rate).state = x.state ∧
    (x.stepped timed cools t tp rate).compartment = x.compartment ∧
    (x.stepped timed cools t tp rate).logDeferred = x.logDeferred := by
  cases timed with
  | false => exact ⟨rfl, rfl, rfl⟩
  | true =>
    obtain ⟨hstate, hcomp, -, hdeferred⟩ :=
      Slot.takeShare_frame (x.cooled cools) t tp rate
    exact ⟨hstate, hcomp, hdeferred⟩

theorem Slot.heldIn_stepped (c : CompNo) : (x.stepped timed cools t tp rate).heldIn c = x.heldIn c := by
  obtain ⟨hstate, hcomp, -⟩ := x.stepped_frame timed cools t tp rate
  simp only [Slot.heldIn, Slot.inCustody, hstate, hcomp]

/-- The cycles of a slot after a step (R33). -/
theorem Slot.stepped_cycles :
    (x.stepped timed cools t tp rate).cycles = if timed && cools then sat16 (x.cycles + 1) else x.cycles := by
  cases timed with
  | false => rfl
  | true => exact (Slot.takeShare_frame _ t tp rate).2.2.1

theorem Slot.stepped_unset : x.stepped false cools t tp rate = x := rfl

/-- The limit check sets LIMIT_CROSSED when the total exposure is past the limit (R38). -/
theorem Slot.checked_eq : x.checked = { x with limitCrossed := x.limitCrossed || decide (x.limit < x.totalExposure) } := by
  unfold Slot.checked Slot.crosses
  cases hcrossed : x.limitCrossed <;> cases hover : decide (x.limit < x.totalExposure) <;> simp [← hcrossed]

/-- The share of a live or held step, and the limit check after it (R36, R38). -/
theorem Slot.stepped_share (r : Nat) :
    let y := x.stepped true cools t tp (some r)
    y.exposure = sat32 (x.exposure + r * (t - max x.lastAccounted tp)) ∧
      y.covered = sat32 (x.covered + (t - max x.lastAccounted tp)) ∧ y.blind = x.blind ∧ y.lastAccounted = t ∧
      y.limitCrossed = (x.limitCrossed || decide (x.limit < sat32 (x.carriedExposure + y.exposure))) := by
  simp only [Slot.stepped, if_true, Slot.takeShare, Slot.checked_eq]
  exact ⟨rfl, rfl, rfl, rfl, rfl⟩

/-- The blind credit of a blind step, which makes no check (R37). -/
theorem Slot.stepped_blind :
    let y := x.stepped true cools t tp none
    y.blind = sat32 (x.blind + (t - max x.lastAccounted tp)) ∧ y.exposure = x.exposure ∧ y.covered = x.covered ∧
      y.lastAccounted = t ∧ y.limitCrossed = x.limitCrossed :=
  ⟨rfl, rfl, rfl, rfl, rfl⟩

end

/-! ### The table -/

theorem getElem_updHeldIn (s : State) (c : CompNo) (f : Slot → Slot) (i : SlotNo) :
    (s.updHeldIn c f).slots[i] = if s.slots[i].heldIn c then f s.slots[i] else s.slots[i] := by
  rw [State.updHeldIn_slots, getElem_mapAll]

/-- Whether a step of a kind cools its compartment's band from WARM to COLD (R33). -/
def Compartment.cools (x : Compartment) (k : StepKind) : Bool := x.band == .warm && x.bandAfter k == .cold

/-- Whether a step closes the interval while the log appends no general record, which defers its SAMPLE (R81, R87). -/
def State.stepDefers (s : State) (c : CompNo) (cause : StepCause) : Bool := s.closes c cause && !s.log.takesGeneral

section
variable (s : State) (c : CompNo) (cause : StepCause) (i : SlotNo)

theorem State.stepBand_slot (k : StepKind) : (s.stepBand c k).slots[i] =
    if s.slots[i].heldIn c && s.timed then s.slots[i].cooled (s.comps[c].cools k) else s.slots[i] := by
  have hslots : ∀ b, (s.setBand c b).slots = s.slots := fun b => by simp
  have htimed : ∀ b, (s.setBand c b).timed = s.timed := fun b => (State.stampNow_of_clock (by simp)).2.2
  have hnot : s.comps[c].cools k = false → (if s.slots[i].heldIn c && s.timed then
      s.slots[i].cooled (s.comps[c].cools k) else s.slots[i]) = s.slots[i] := fun h => by
    rw [h, Slot.cooled_false, ite_self]
  have hstill : s.comps[c].bandAfter k = s.comps[c].band → s.comps[c].cools k = false := fun h => by
    rw [Compartment.cools, h]
    cases s.comps[c].band <;> rfl
  cases k with
  | live t =>
    by_cases hcool : s.comps[c].band = .warm ∧
        nextBand s.comps[c].band s.comps[c].settings.threshold s.comps[c].settings.softLine t = .cold
    · have hcools : s.comps[c].cools (.live t) = true := by
        simpa only [Compartment.cools, Compartment.bandAfter, Bool.and_eq_true, beq_iff_eq] using hcool
      simp only [State.stepBand, if_pos hcool, hcools, State.creditCycle, htimed]
      by_cases ht : s.timed = true
      · simp only [ht, if_true, getElem_updHeldIn, hslots, Bool.and_true, Slot.cooled]
      · simp only [ht, Bool.and_false, Bool.false_eq_true, if_false, hslots]
    · have hcools : s.comps[c].cools (.live t) = false := by
        simpa only [Compartment.cools, Compartment.bandAfter, Bool.and_eq_false_iff, beq_eq_false_iff_ne, not_and_or]
          using hcool
      simp only [hnot hcools, State.stepBand, if_neg hcool, hslots]
  | held t => exact (hnot (hstill rfl)).symm
  | blind => exact (hnot (hstill rfl)).symm

theorem State.shareStep_slot (t tp : Nat) (rate : Option Nat) : (s.shareStep c t tp rate).slots[i] =
    if s.slots[i].heldIn c && s.timed then s.slots[i].takeShare t tp rate else s.slots[i] := by
  simp only [State.shareStep]
  by_cases ht : s.timed = true
  · simp only [ht, if_true, State.raiseTimes_frame, getElem_updHeldIn, Bool.and_true]
  · simp only [ht, if_false, Bool.and_false, Bool.false_eq_true]

theorem State.stepKnow_slot : (s.stepKnow c cause).slots[i] = s.slots[i] ∧ (s.stepKnow c cause).timed = s.timed := by
  refine ⟨?_, (State.stampNow_of_clock (by simp)).2.2⟩
  simp only [State.stepKnow_frame]

theorem State.stepKnow_cools (k : StepKind) : ((s.stepKnow c cause).comps[c]).cools k = s.comps[c].cools k := by
  obtain ⟨hsettings, hband, -, -⟩ := s.comps[c].learn_frame cause
  rw [State.stepKnow_comps, getElem_setAt_self]
  cases k <;> simp only [Compartment.cools, Compartment.bandAfter, hsettings, hband]

/-- A consignment in custody takes its cycle, then its share, of the step. -/
theorem State.stepShared_slot : (s.stepShared c cause).slots[i] =
    if s.slots[i].heldIn c then
      s.slots[i].stepped s.timed (s.comps[c].cools (s.comps[c].stepKind cause)) s.now s.comps[c].lastStep.time
        (s.comps[c].rate (s.comps[c].stepKind cause))
    else s.slots[i] := by
  obtain ⟨hknow, htimed⟩ := s.stepKnow_slot c cause i
  have hstep : ∀ k span w, (((s.stepKnow c cause).stepBand c k).stepInterval c span k w).timed = s.timed :=
    fun k span w => (State.stampNow_of_clock (by simp)).2.2
  simp only [State.stepShared, State.shareStep_slot, State.stepInterval_frame, State.stepBand_slot, hknow, htimed, hstep,
    State.stepKnow_cools]
  by_cases hheld : s.slots[i].heldIn c = true
  · by_cases ht : s.timed = true
    · simp only [hheld, ht, Bool.and_true, if_true, Slot.heldIn_cooled, Slot.stepped]
    · simp only [hheld, ht, Bool.and_false, Bool.false_eq_true, if_false, if_true, Slot.stepped]
  · simp only [hheld, Bool.false_and, Bool.false_eq_true, if_false]

end

/-- A SAMPLE that the log does not append flags its compartment's consignments. -/
theorem Log.defers_sample (l : Log) (a : Interval) (c : CompNo) :
    l.defers (a.entry c) = if l.takesGeneral then none else some c := by
  unfold Log.defers Log.takesGeneral Interval.entry
  cases l.generalFate <;> rfl

/-- The consignments in custody in a compartment, after a SAMPLE record of it is handed to the log. -/
theorem State.handSample_slot (s : State) (a : Interval) (c : CompNo) (i : SlotNo) :
    (s.handGeneral (a.entry c)).slots[i] =
      if s.slots[i].heldIn c then s.slots[i].deferred (!s.log.takesGeneral) else s.slots[i] := by
  rw [State.handGeneral_slots, Log.defers_sample]
  by_cases h : s.log.takesGeneral = true
  · simp only [h, if_true, State.flagDeferred, Bool.not_true, Slot.deferred_false, ite_self]
  · simp only [h, Bool.false_eq_true, if_false, State.flagDeferred, getElem_updHeldIn, Bool.not_false, Slot.deferred_true]

theorem State.closeInterval_slot (s : State) (c : CompNo) (t : Stamp) (i : SlotNo) : (s.closeInterval c t).slots[i] =
    if s.slots[i].heldIn c then s.slots[i].deferred (!s.log.takesGeneral) else s.slots[i] := by
  simp only [State.closeInterval, State.setComp_slots, State.handSample_slot]

section
variable (s : State) (c : CompNo) (cause : StepCause)

theorem State.takeStep_slot (i : SlotNo) : (s.takeStep c cause).slots[i] =
    if s.slots[i].heldIn c then
      (s.slots[i].stepped s.timed (s.comps[c].cools (s.comps[c].stepKind cause)) s.now s.comps[c].lastStep.time
        (s.comps[c].rate (s.comps[c].stepKind cause))).deferred (s.stepDefers c cause)
    else s.slots[i] := by
  obtain ⟨hlog, -, -⟩ := s.stepShared_frame c cause
  have hshared := s.stepShared_slot c cause i
  rw [State.takeStep_eq, State.stepClose_eq]
  by_cases hcloses : s.closes c cause = true <;> by_cases hheld : s.slots[i].heldIn c = true
  · rw [if_pos hheld] at hshared
    simp only [hcloses, if_true, State.closeInterval_slot, hshared, Slot.heldIn_stepped, hheld, hlog, State.stepDefers,
      Bool.true_and]
  · rw [if_neg hheld] at hshared
    simp only [hcloses, if_true, State.closeInterval_slot, hshared, hheld, Bool.false_eq_true, if_false]
  · simp only [hcloses, hheld, hshared, Bool.false_eq_true, if_false, if_true, State.stepDefers, Bool.false_and,
      Slot.deferred_false]
  · simp only [hcloses, hheld, hshared, Bool.false_eq_true, if_false]

/-! ### The log -/

theorem State.closeInterval_log (t : Stamp) :
    (s.closeInterval c t).log = (s.handGeneral (s.comps[c].interval.entry c)).log := by
  simp only [State.closeInterval, State.setComp_log]

/-- The record handed when the interval closes is that of the fed interval. -/
theorem State.takeStep_log : (s.takeStep c cause).log =
    if s.closes c cause then (s.handGeneral ((s.comps[c].fed s.now cause).entry c)).log else s.log := by
  obtain ⟨hlog, -, -⟩ := s.stepShared_frame c cause
  rw [State.takeStep_eq, State.stepClose_eq]
  by_cases hcloses : s.closes c cause = true
  · simp only [hcloses, if_true, State.closeInterval_log, State.stepShared_comps, getElem_setAt_self]
    exact State.handGeneral_log hlog _
  · simp only [hcloses, Bool.false_eq_true, if_false, hlog]

/-! ### The notices -/

theorem State.stepBand_notices (k : StepKind) : (s.stepBand c k).notices =
    s.notices.raiseMany Condition.pattern.place (!s.hatch.patternTruth && (s.stepBand c k).hatch.patternTruth).toNat := by
  cases k with
  | live t =>
    rw [State.stepBand_hatch, Compartment.bandAfter, ← State.setBand_notices]
    simp only [State.stepBand]
    split
    · simp only [State.creditCycle_frame]
    · rfl
  | held t => simp only [State.stepBand, Bool.not_and_self, Bool.toNat_false, NoticeUnit.raiseMany]
  | blind => simp only [State.stepBand, Bool.not_and_self, Bool.toNat_false, NoticeUnit.raiseMany]

/-- How many limits a step crosses (R38). -/
def State.crossings (s t : State) : Nat := (places 64).countP fun i => !s.slots[i].limitCrossed && t.slots[i].limitCrossed

theorem State.crossings_congr {s t s' t' : State} (hs : ∀ i : SlotNo, s'.slots[i].limitCrossed = s.slots[i].limitCrossed)
    (ht : ∀ i : SlotNo, t'.slots[i].limitCrossed = t.slots[i].limitCrossed) : s'.crossings t' = s.crossings t := by
  simp only [State.crossings, hs, ht]

theorem State.crossings_self (s : State) : s.crossings s = 0 := by
  simp [State.crossings]

theorem State.shareStep_notices (t tp : Nat) (rate : Option Nat) : (s.shareStep c t tp rate).notices =
    s.notices.raiseMany Condition.exposureLimit.place (s.crossings (s.shareStep c t tp rate)) := by
  by_cases ht : s.timed = true
  · have hcross : s.crossings (s.shareStep c t tp rate) = s.crossings (s.updHeldIn c fun x => x.takeShare t tp rate) :=
      State.crossings_congr (fun _ => rfl) fun i => by simp only [State.shareStep, ht, if_true, State.raiseTimes_frame]
    rw [hcross]
    simp only [State.shareStep, ht, if_true, State.raiseTimes_notices, State.updHeldIn_notices, State.crossings]
  · simp only [State.shareStep, ht, Bool.false_eq_true, if_false, State.crossings_self, NoticeUnit.raiseMany]

theorem State.closeInterval_notices (t : Stamp) : (s.closeInterval c t).notices =
    s.notices.raiseMany Condition.logHeld.place (decide (s.log.generalFate = .entering)).toNat := by
  simp only [State.closeInterval, State.setComp_notices, State.handGeneral_notices]

/-- The crossings of a step are those of its shares. -/
theorem State.crossings_takeStep (span : Nat) (w : Option Int) :
    (((s.stepKnow c cause).stepBand c (s.comps[c].stepKind cause)).stepInterval c span (s.comps[c].stepKind cause)
      w).crossings (s.stepShared c cause) = s.crossings (s.takeStep c cause) := by
  refine State.crossings_congr (fun i => ?_) fun i => ?_
  · simp only [State.stepInterval_frame, State.stepBand_slot, (s.stepKnow_slot c cause i).1]
    split <;> rfl
  · rw [State.stepShared_slot, State.takeStep_slot]
    split <;> rfl

theorem State.stepShared_notices : (s.stepShared c cause).notices =
    ((s.notices.raiseMany Condition.blind.place (s.comps[c].entersBlind cause).toNat).raiseMany
      Condition.pattern.place (!s.hatch.patternTruth && (s.takeStep c cause).hatch.patternTruth).toNat).raiseMany
      Condition.exposureLimit.place (s.crossings (s.takeStep c cause)) := by
  have hknow : (s.stepKnow c cause).notices =
      s.notices.raiseMany Condition.blind.place (s.comps[c].entersBlind cause).toNat := by
    simp only [State.stepKnow, State.raiseIf_notices, State.setComp_notices]
  have hhatch : (s.stepKnow c cause).hatch = s.hatch := by simp only [State.stepKnow_frame]
  have htruth : ((s.stepKnow c cause).stepBand c (s.comps[c].stepKind cause)).hatch = (s.takeStep c cause).hatch := by
    simp only [State.takeStep_eq, State.stepClose_frame, State.stepShared, State.shareStep_frame,
      State.stepInterval_frame]
  rw [← State.crossings_takeStep s c cause (s.now - s.comps[c].lastStep.time) cause.watch, ← hknow, ← hhatch, ← htruth,
    ← State.stepBand_notices, State.stepShared, State.shareStep_notices]
  simp only [State.stepInterval_frame]

/-- The raises of a step, in its order: BLIND, PATTERN, EXPOSURE_LIMIT and LOG_HELD (R34, R38, R64, R79). -/
theorem State.takeStep_notices : (s.takeStep c cause).notices =
    ((((s.notices.raiseMany Condition.blind.place (s.comps[c].entersBlind cause).toNat).raiseMany
      Condition.pattern.place (!s.hatch.patternTruth && (s.takeStep c cause).hatch.patternTruth).toNat).raiseMany
      Condition.exposureLimit.place (s.crossings (s.takeStep c cause))).raiseMany
      Condition.logHeld.place (s.closes c cause && decide (s.log.generalFate = .entering)).toNat) := by
  obtain ⟨hlog, -, -⟩ := s.stepShared_frame c cause
  rw [← State.stepShared_notices]
  conv_lhs => rw [State.takeStep_eq, State.stepClose_eq]
  cases s.closes c cause with
  | true => simp only [if_true, State.closeInterval_notices, hlog, Bool.true_and]
  | false => rfl

end

end Sys2Proof.Machine
end

