-- ==== Sys2Proof/Proofs/StepEffects.lean ====
section
/-! PROOFS. What a step does, told apart as the four statements on it do: knowledge (O24), band (O25), shares and blind
credits (O26), and the sample interval (O27). -/

namespace Sys2Proof.Machine

/-! ### The notices of a step, condition by condition -/

/-- Two states of the Notice Unit agree on the condition at place k. -/
def NoticeUnit.SameAt (k : Fin 18) (u v : NoticeUnit) : Prop :=
  u.enables[k] = v.enables[k] ∧ u.members[k] = v.members[k] ∧ u.counts[k] = v.counts[k]

section
variable {u v w : NoticeUnit} {j k : Fin 18}

theorem NoticeUnit.SameAt.trans (h : NoticeUnit.SameAt k u v) (h' : NoticeUnit.SameAt k v w) : NoticeUnit.SameAt k u w := by
  obtain ⟨he, hm, hc⟩ := h
  obtain ⟨he', hm', hc'⟩ := h'
  exact ⟨he.trans he', hm.trans hm', hc.trans hc'⟩

/-- Raises of another condition. -/
theorem NoticeUnit.sameAt_raiseMany_other (u : NoticeUnit) (n : Nat) (h : j ≠ k) :
    NoticeUnit.SameAt j (u.raiseMany k n) u := by
  obtain ⟨hm, hc⟩ := u.raiseMany_other n h
  exact ⟨by rw [NoticeUnit.raiseMany_enables], hm, hc⟩

/-- Raises of the condition itself depend on nothing else. -/
theorem NoticeUnit.SameAt.raiseMany (h : NoticeUnit.SameAt k u v) (n : Nat) :
    NoticeUnit.SameAt k (u.raiseMany k n) (v.raiseMany k n) := by
  obtain ⟨he, hm, hc⟩ := h
  refine ⟨?_, ?_, ?_⟩
  · rw [NoticeUnit.raiseMany_enables, NoticeUnit.raiseMany_enables, he]
  · rw [NoticeUnit.raiseMany_members, NoticeUnit.raiseMany_members, he, hm]
  · rw [NoticeUnit.raiseMany_counts, NoticeUnit.raiseMany_counts, he, hm, hc]

end

section
variable (s : State) (c : CompNo) (cause : StepCause)

theorem State.takeStep_blindNotice : NoticeUnit.SameAt Condition.blind.place (s.takeStep c cause).notices
    (s.notices.raiseMany Condition.blind.place (s.comps[c].entersBlind cause).toNat) := by
  rw [State.takeStep_notices]
  exact ((NoticeUnit.sameAt_raiseMany_other _ _ (by decide)).trans (NoticeUnit.sameAt_raiseMany_other _ _ (by decide))).trans
    (NoticeUnit.sameAt_raiseMany_other _ _ (by decide))

theorem State.takeStep_patternNotice : NoticeUnit.SameAt Condition.pattern.place (s.takeStep c cause).notices
    (s.notices.raiseMany Condition.pattern.place
      (!s.hatch.patternTruth && (s.takeStep c cause).hatch.patternTruth).toNat) := by
  rw [State.takeStep_notices]
  exact ((NoticeUnit.sameAt_raiseMany_other _ _ (by decide)).trans (NoticeUnit.sameAt_raiseMany_other _ _ (by decide))).trans
    ((NoticeUnit.sameAt_raiseMany_other _ _ (by decide)).raiseMany _)

theorem State.takeStep_limitNotice : NoticeUnit.SameAt Condition.exposureLimit.place (s.takeStep c cause).notices
    (s.notices.raiseMany Condition.exposureLimit.place (s.crossings (s.takeStep c cause))) := by
  rw [State.takeStep_notices]
  exact (NoticeUnit.sameAt_raiseMany_other _ _ (by decide)).trans
    (((NoticeUnit.sameAt_raiseMany_other _ _ (by decide)).trans
      (NoticeUnit.sameAt_raiseMany_other _ _ (by decide))).raiseMany _)

theorem State.takeStep_heldNotice : NoticeUnit.SameAt Condition.logHeld.place (s.takeStep c cause).notices
    (s.notices.raiseMany Condition.logHeld.place (s.closes c cause && decide (s.log.generalFate = .entering)).toNat) := by
  rw [State.takeStep_notices]
  exact (((NoticeUnit.sameAt_raiseMany_other _ _ (by decide)).trans
    (NoticeUnit.sameAt_raiseMany_other _ _ (by decide))).trans
      (NoticeUnit.sameAt_raiseMany_other _ _ (by decide))).raiseMany _

/-! ### The step of an enabled compartment (R27) -/

variable {s c}

theorem State.stepComp_of_disabled (h : s.comps[c].settings.enabled = false) : s.stepComp c cause = s := by
  simp [State.stepComp, h, -Fin.getElem_fin]

theorem State.stepComp_of_enabled (h : s.comps[c].settings.enabled = true) : s.stepComp c cause = s.takeStep c cause :=
  if_pos h

theorem State.stepComp_comp (h : s.comps[c].settings.enabled = true) : (s.stepComp c cause).comps[c] = s.compAfter c cause := by
  rw [State.stepComp_of_enabled cause h, State.takeStep_comps, getElem_setAt_self]

end

/-! ### Knowledge (R30, R31, R40, Table 2-3) -/

section
variable {x : Compartment} (w : Option Int)

theorem Compartment.cycle_of_valueless (h : x.knowledge = .unknown ∨ x.knowledge = .blind) :
    x.stepKind (.cycle none w) = .blind ∧ x.learn (.cycle none w) = x := by
  rcases h with h | h <;> simp only [Compartment.stepKind, Compartment.learn, h, and_self]

/-- Up to six misses a compartment with a value holds it. -/
theorem Compartment.cycle_of_missed {v : Int} (h : x.knowledge = .live ∨ x.knowledge = .holding) (hheld : x.held = some v)
    (hm : x.misses ≤ 5) : x.stepKind (.cycle none w) = .held v ∧
      x.learn (.cycle none w) = { x with knowledge := .holding, misses := x.misses + 1 } := by
  have hle : x.misses + 1 ≤ 6 := by omega
  rcases h with h | h <;>
    simp only [Compartment.stepKind, Compartment.learn, Compartment.missed, h, hle, hheld, heldStep, if_true, and_self]

/-- The seventh miss makes it BLIND. -/
theorem Compartment.cycle_of_lastMiss (h : x.knowledge = .live ∨ x.knowledge = .holding) (hm : 6 ≤ x.misses) :
    x.stepKind (.cycle none w) = .blind ∧
      x.learn (.cycle none w) = { x with knowledge := .blind, held := none, misses := 7 } := by
  have hle : ¬x.misses + 1 ≤ 6 := by omega
  rcases h with h | h <;>
    simp only [Compartment.stepKind, Compartment.learn, Compartment.missed, h, hle, if_false, and_self]

theorem Compartment.boundary_of_value {v : Int} (h : x.knowledge = .live ∨ x.knowledge = .holding)
    (hheld : x.held = some v) : x.stepKind .boundary = .held v := by
  rcases h with h | h <;> simp only [Compartment.stepKind, h, hheld, heldStep]

theorem Compartment.boundary_of_valueless (h : x.knowledge = .unknown ∨ x.knowledge = .blind) :
    x.stepKind .boundary = .blind := by
  rcases h with h | h <;> simp only [Compartment.stepKind, h]

theorem Compartment.entersBlind_iff (k : StepCause) :
    x.entersBlind k = true ↔ x.knowledge ≠ .blind ∧ (x.learn k).knowledge = .blind := by
  simp only [Compartment.entersBlind, Bool.and_eq_true, bne_iff_ne, beq_iff_eq]

end

/-- Settles O24, by the cause of the step. -/
theorem stepMovesKnowledge : Obligations.StepMovesKnowledge := by
  unfold Obligations.StepMovesKnowledge
  intro s c
  refine ⟨fun h cause => State.stepComp_of_disabled cause h, fun h => ⟨fun cause => ?_, ?_, ?_, ?_, ?_, ?_⟩⟩
  · rw [State.stepComp_comp cause h]
    rfl
  · rintro v w y rfl
    rw [State.stepComp_comp _ h]
    exact ⟨rfl, rfl, rfl, rfl⟩
  · rintro w y rfl
    rw [State.stepComp_comp _ h, State.compAfter]
    refine ⟨fun hk => ?_, fun v hk hheld => ⟨fun hm => ?_, fun hm => ?_⟩⟩
    · obtain ⟨hkind, hlearn⟩ := Compartment.cycle_of_valueless w hk
      rw [hlearn]
      exact ⟨hkind, rfl, rfl, rfl⟩
    · obtain ⟨hkind, hlearn⟩ := Compartment.cycle_of_missed w hk hheld hm
      rw [hlearn]
      exact ⟨hkind, rfl, hheld, rfl⟩
    · obtain ⟨hkind, hlearn⟩ := Compartment.cycle_of_lastMiss w hk hm
      rw [hlearn]
      exact ⟨hkind, rfl, rfl, rfl⟩
  · rintro y rfl
    rw [State.stepComp_comp _ h]
    exact ⟨rfl, rfl, rfl, rfl⟩
  · rintro y rfl
    rw [State.stepComp_comp _ h]
    exact ⟨rfl, rfl, rfl, fun v hk hheld => Compartment.boundary_of_value hk hheld,
      fun hk => Compartment.boundary_of_valueless hk⟩
  · rintro cause t k rfl rfl
    have hafter : (s.stepComp c cause).comps[c].knowledge = (s.comps[c].learn cause).knowledge := by
      rw [State.stepComp_comp cause h]
      rfl
    obtain ⟨-, hmember, hcount⟩ := s.takeStep_blindNotice c cause
    rw [hafter, State.stepComp_of_enabled cause h, hmember, hcount, NoticeUnit.raiseMany_members,
      NoticeUnit.raiseMany_counts]
    refine ⟨fun hbefore hblind he => ?_, fun hno => ?_⟩
    · have henters : s.comps[c].entersBlind cause = true := (Compartment.entersBlind_iff cause).mpr ⟨hbefore, hblind⟩
      simp [henters, he, -Fin.getElem_fin]
    · have henters : s.comps[c].entersBlind cause = false := by
        rw [Bool.eq_false_iff, ne_eq, Compartment.entersBlind_iff]
        tauto
      simp [henters, -Fin.getElem_fin]

/-! ### Band (R32, R33, Table 2-4) -/

theorem nextBand_eq (b : Band) (threshold softLine t : Int) : nextBand b threshold softLine t =
    if b = .warm then (if t ≤ threshold then .cold else .warm) else (if softLine < t then .warm else .cold) := by
  cases b <;> rfl

theorem Compartment.cools_iff (x : Compartment) (k : StepKind) :
    x.cools k = true ↔ x.band = .warm ∧ ∃ v, k = .live v ∧ v ≤ x.settings.threshold := by
  have hcold : x.cools k = true ↔ x.band = .warm ∧ x.bandAfter k = .cold := by
    simp only [Compartment.cools, Bool.and_eq_true, beq_iff_eq]
  rw [hcold]
  refine and_congr_right fun hwarm => ?_
  cases k with
  | live v =>
    simp only [Compartment.bandAfter, nextBand_eq, hwarm, if_true, StepKind.live.injEq, exists_eq_left']
    split <;> simp_all
  | held v => simp [Compartment.bandAfter, hwarm]
  | blind => simp [Compartment.bandAfter, hwarm]

theorem State.timed_iff (s : State) : s.timed = true ↔ s.clock.state = .valid := beq_iff_eq

/-- The cycle that a consignment in custody is credited (R33). -/
theorem State.takeStep_cycles (s : State) (c : CompNo) (cause : StepCause) (i : SlotNo) :
    (s.takeStep c cause).slots[i].cycles =
      if s.slots[i].heldIn c && (s.timed && s.comps[c].cools (s.comps[c].stepKind cause)) then sat16 (s.slots[i].cycles + 1)
      else s.slots[i].cycles := by
  rw [State.takeStep_slot]
  by_cases hheld : s.slots[i].heldIn c = true
  · rw [if_pos hheld, hheld, Bool.true_and]
    exact Slot.stepped_cycles _ _ _ _ _ _
  · rw [if_neg hheld, if_neg (by simp [hheld, -Fin.getElem_fin])]

/-- Settles O25, by the kind of the step. -/
theorem bandMovesAtLiveSteps : Obligations.BandMovesAtLiveSteps := by
  unfold Obligations.BandMovesAtLiveSteps
  rintro s c cause b h rfl
  have hband : (s.stepComp c cause).comps[c].band = s.comps[c].bandAfter (s.comps[c].stepKind cause) := by
    rw [State.stepComp_comp cause h]
    rfl
  refine ⟨fun v hkind => ⟨?_, fun i => ?_⟩, fun hnot => ⟨?_, fun i => ?_⟩, ?_⟩
  · rw [hband, hkind, Compartment.bandAfter, nextBand_eq]
  · rw [State.stepComp_of_enabled cause h, State.takeStep_cycles]
    refine if_congr ?_ rfl rfl
    simp only [Bool.and_eq_true, State.timed_iff, Compartment.cools_iff, hkind, StepKind.live.injEq, exists_eq_left']
    tauto
  · rw [hband]
    cases hk : s.comps[c].stepKind cause with
    | live v => exact absurd hk (hnot v)
    | held v => rfl
    | blind => rfl
  · rw [State.stepComp_of_enabled cause h, State.takeStep_cycles, if_neg]
    simp only [Bool.and_eq_true, Compartment.cools_iff, not_and, not_exists]
    exact fun _ _ _ v hk => absurd hk (hnot v)
  · rintro t k rfl rfl
    rw [hband]
    obtain ⟨-, hmember, -⟩ := s.takeStep_patternNotice c cause
    rw [State.stepComp_of_enabled cause h, hmember, NoticeUnit.raiseMany_members]
    refine ⟨?_, fun hsame => ?_⟩
    · cases s.notices.enables[Condition.pattern.place] <;> cases s.hatch.patternTruth <;>
        cases (s.takeStep c cause).hatch.patternTruth <;> rfl
    · have hkept : (s.stepKnow c cause).comps[c].band = s.comps[c].bandAfter (s.comps[c].stepKind cause) := by
        obtain ⟨-, hlearn, -, -⟩ := s.comps[c].learn_frame cause
        rw [hsame, State.stepKnow_comps, getElem_setAt_self]
        exact hlearn
      rw [State.takeStep_hatch, State.setBand_truth_kept (.inl hkept)]
      simp only [State.stepKnow_frame]

end Sys2Proof.Machine
end

