-- ==== Sys2Proof/Proofs/StepAccounts.lean ====
section
/-! PROOFS. What a step accounts: shares and blind credits (O26), and the sample interval with its record (O27). -/

namespace Sys2Proof.Machine

/-! ### Shares and blind credits (R35 to R39) -/

theorem Compartment.rate_of_temp (x : Compartment) {k : StepKind} {v : Int} (h : k = .live v ∨ k = .held v) :
    x.rate k = some (rateAt x.settings.threshold x.settings.softLine v) := by
  rcases h with rfl | rfl <;> rfl

theorem Compartment.rate_blind (x : Compartment) : x.rate .blind = none := rfl

theorem State.timed_of_unset {s : State} (h : s.clock.state = .unset) : s.timed = false := by
  rw [Bool.eq_false_iff, ne_eq, State.timed_iff, h]
  decide

theorem rateAt_eq (threshold softLine t : Int) :
    rateAt threshold softLine t = (max 0 (t - threshold)).toNat + (max 0 (t - softLine)).toNat := rfl

theorem sat32_eq (n : Nat) : sat32 n = min n 4294967295 := rfl

theorem Slot.stepped_lastAccounted (x : Slot) (cools : Bool) (t tp : Nat) (rate : Option Nat) :
    (x.stepped true cools t tp rate).lastAccounted = t := by
  cases rate with
  | some r => exact (x.stepped_share cools t tp r).2.2.2.1
  | none => exact (x.stepped_blind cools t tp).2.2.2.1

/-- EXPOSURE_LIMIT is raised as often as LIMIT_CROSSED is set. -/
theorem State.stepComp_limitNotice (s : State) (c : CompNo) (cause : StepCause) :
    NoticeUnit.SameAt Condition.exposureLimit.place (s.stepComp c cause).notices
      (s.notices.raiseMany Condition.exposureLimit.place (s.crossings (s.stepComp c cause))) := by
  by_cases h : s.comps[c].settings.enabled = true
  · rw [State.stepComp_of_enabled cause h]
    exact s.takeStep_limitNotice c cause
  · rw [State.stepComp_of_disabled cause (by simpa only [Bool.not_eq_true] using h), State.crossings_self]
    exact ⟨rfl, rfl, rfl⟩

/-- Settles O26, by the clock and the kind of the step. -/
theorem stepSharesAndBlindCredits : Obligations.StepSharesAndBlindCredits := by
  unfold Obligations.StepSharesAndBlindCredits
  refine ⟨?_, ?_⟩
  · rintro s c cause i x y seconds h rfl rfl rfl
    rw [State.stepComp_of_enabled cause h, State.takeStep_slot]
    refine ⟨fun hheld => by rw [if_neg (by simp only [hheld, Bool.false_eq_true, not_false_eq_true])], fun hunset => ?_,
      fun hvalid hheld => ?_⟩
    · rw [State.timed_of_unset hunset, Slot.stepped_unset]
      split <;> exact ⟨rfl, rfl, rfl, rfl, rfl⟩
    · rw [if_pos hheld, (State.timed_iff s).mpr hvalid]
      refine ⟨Slot.stepped_lastAccounted _ _ _ _ _, fun v hkind => ?_, fun hkind => ?_⟩
      · rw [Compartment.rate_of_temp _ hkind]
        obtain ⟨hexposure, hcovered, hblind, -, hcrossed⟩ := s.slots[i].stepped_share
          (s.comps[c].cools (s.comps[c].stepKind cause)) s.now s.comps[c].lastStep.time
          (rateAt s.comps[c].settings.threshold s.comps[c].settings.softLine v)
        simp only [← rateAt_eq, Slot.deferred, hexposure, hcovered, hblind, hcrossed, sat32_eq, and_self]
      · rw [hkind]
        obtain ⟨hblind, hexposure, hcovered, -, hcrossed⟩ := s.slots[i].stepped_blind (s.comps[c].cools .blind) s.now
          s.comps[c].lastStep.time
        simp only [Compartment.rate_blind, Slot.deferred, hexposure, hcovered, hblind, hcrossed, sat32_eq, and_self]
  · rintro s t c cause k n rfl rfl rfl
    obtain ⟨-, hmember, hcount⟩ := s.stepComp_limitNotice c cause
    rw [hmember, hcount, NoticeUnit.raiseMany_members, NoticeUnit.raiseMany_counts]
    refine ⟨fun hn => ?_, fun hn he => ?_⟩
    · have hcross : s.crossings (s.stepComp c cause) = 0 := hn
      simp [hcross, -Fin.getElem_fin]
    · have hcross : 0 < s.crossings (s.stepComp c cause) := hn
      simp only [hcross, he, and_self, decide_true, Bool.and_true, Bool.or_true, if_true, true_and]
      rfl

/-! ### The sample interval (R42, R43) -/

/-- Settles O27: the fed interval of the model is the one of the statement, field by field, for each kind of step. -/
theorem stepFeedsTheSampleInterval : Obligations.StepFeedsTheSampleInterval := by
  unfold Obligations.StepFeedsTheSampleInterval
  rintro s c cause k x a span temp rfl h rfl rfl rfl ha
  have hfed : a = s.comps[c].fed s.now cause := by
    rw [ha]
    unfold Compartment.fed Interval.add
    dsimp only
    congr 1
    case e_sum | e_count | e_blind => cases s.comps[c].stepKind cause <;> rfl
    case e_minimum => cases s.comps[c].stepKind cause <;> cases s.comps[c].interval.minimum <;> rfl
    case e_maximum => cases s.comps[c].stepKind cause <;> cases s.comps[c].interval.maximum <;> rfl
    case e_increment =>
      cases s.comps[c].stepKind cause with
      | live v => rfl
      | held v => rfl
      | blind => simp only [Compartment.rate_blind, Option.getD_none, Nat.zero_mul, sat32_eq]
    case e_watchMax =>
      cases cause with
      | cycle value w => cases w <;> cases s.comps[c].interval.watchMax <;> rfl
      | blindTick => cases s.comps[c].interval.watchMax <;> rfl
      | boundary => cases s.comps[c].interval.watchMax <;> rfl
  clear ha
  subst hfed
  have hinterval : (s.stepComp c cause).comps[c].interval =
      if s.closes c cause then .opening s.stampNow else s.comps[c].fed s.now cause := by
    rw [State.stepComp_comp cause h]
    rfl
  rw [hinterval, State.stepComp_of_enabled cause h, State.takeStep_log]
  refine ⟨fun ⟨hcause, hsteps⟩ => ?_, fun hcloses => ?_⟩
  · have hopen : s.closes c cause = false := by
      simp [State.closes, hcause, hsteps, -Fin.getElem_fin]
    simp only [hopen, Bool.false_eq_true, if_false, and_self]
  · have hclosed : s.closes c cause = true := decide_eq_true hcloses
    simp only [hclosed, if_true, true_and]
    intro w hw
    have hentry : w = s.handGeneral ((s.comps[c].fed s.now cause).entry c) := hw
    subst hentry
    refine ⟨rfl, fun i => ?_, ?_, fun hfate => ?_⟩
    · rw [State.takeStep_slot, State.handSample_slot]
      split
      · obtain ⟨-, -, hdeferred⟩ := s.slots[i].stepped_frame s.timed (s.comps[c].cools (s.comps[c].stepKind cause)) s.now
          s.comps[c].lastStep.time (s.comps[c].rate (s.comps[c].stepKind cause))
        simp only [Slot.deferred, hdeferred, State.stepDefers, hclosed, Bool.true_and]
      · rfl
    · rintro l rfl
      obtain ⟨-, hmember, -⟩ := s.takeStep_heldNotice c cause
      rw [hmember, hclosed, Bool.true_and, ← State.handGeneral_notices]
    · rw [State.handGeneral_appended hfate]
      exact ⟨_, rfl, rfl, rfl, rfl⟩

end Sys2Proof.Machine
end

