-- ==== Sys2Proof/Proofs/LogTaking.lean ====
section
/-! PROOFS. What handing a record leaves of the log beside the record, and when a custody record that follows a boundary
SAMPLE is written (R75 to R78). -/

namespace Sys2Proof.Machine

/-! ### A record that is lost or merged leaves the records alone -/

/-- The parts of the log that only an append, an eviction or a claim moves. -/
structure Log.Undisturbed (l l' : Log) : Prop where
  records : l'.records = l.records
  ended : l'.ended = l.ended
  holds : l'.holds = l.holds
  heldFull : l.heldFull = true → l'.heldFull = true

theorem State.loseGeneral_undisturbed (s : State) (e : Entry) : s.log.Undisturbed (s.loseGeneral e).log := by
  cases hb : e.body <;> simp only [State.loseGeneral, hb] <;> exact ⟨by simp, by simp, by simp, by simp⟩

theorem State.fallBack_undisturbed (s : State) (e : Entry) : s.log.Undisturbed (s.fallBack e).log := by
  cases hb : e.body with
  | sample b =>
    cases hc : e.compartment <;> simp only [State.fallBack, State.mergeSample, hb, hc] <;>
      exact ⟨by simp, by simp, by simp, by simp⟩
  | _ =>
    simp only [State.fallBack, hb]
    exact s.loseGeneral_undisturbed e

/-- Entering HELD_FULL leaves records, ENDED and holds alone, and so does the fallback after it. -/
theorem State.enterFallBack_undisturbed (s : State) (e : Entry) :
    s.log.Undisturbed ((s.enterHeldFull e.stamp).fallBack e).log := by
  obtain ⟨hrecords, hended, hholds, hheld⟩ := (s.enterHeldFull e.stamp).fallBack_undisturbed e
  exact ⟨hrecords.trans (by simp [State.enterHeldFull]), hended.trans (by simp [State.enterHeldFull]),
    hholds.trans (by simp [State.enterHeldFull]), fun _ => hheld (by simp [State.enterHeldFull])⟩

/-- No general record ends held-full operation or moves a hold. -/
theorem State.handGeneral_holds (s : State) (e : Entry) :
    (s.handGeneral e).log.holds = s.log.holds ∧ (s.log.heldFull = true → (s.handGeneral e).log.heldFull = true) := by
  have hkept : ∀ l : Log, s.log.Undisturbed l → l.holds = s.log.holds ∧ (s.log.heldFull = true → l.heldFull = true) :=
    fun l h => ⟨h.holds, h.heldFull⟩
  cases hf : s.log.generalFate <;> simp only [State.handGeneral, hf]
  · exact hkept _ (s.loseGeneral_undisturbed e)
  · exact hkept _ (s.fallBack_undisturbed e)
  · exact ⟨rfl, id⟩
  · exact ⟨rfl, id⟩
  · exact hkept _ (s.enterFallBack_undisturbed e)

/-! ### The custody test (R77) -/

/-- What R76 does with a custody record depends on ENDED, the sequences in the log and the holds alone. -/
theorem Log.custodyFate_congr {l l' : Log} (hended : l'.ended = l.ended)
    (hrecords : l'.records.map (·.sequence) = l.records.map (·.sequence)) (hholds : l'.holds = l.holds) :
    l'.custodyFate = l.custodyFate := by
  have hlength : l'.records.length = l.records.length := by simpa using congrArg List.length hrecords
  have holdest : l'.oldest = l.oldest := by
    simpa only [Log.oldest, List.head?_map] using congrArg List.head? hrecords
  have holdestHeld : l'.oldestHeld = l.oldestHeld := by
    unfold Log.oldestHeld Log.heldAt
    rw [holdest, hholds]
  simp only [Log.custodyFate, hended, hlength, holdestHeld]

/-- The dry run of R77 ends where the record itself would: the custody record that follows has the same fate. -/
theorem State.handGeneral_custodyFate (s : State) (e probe : Entry) :
    (s.handGeneral e).log.custodyFate = (s.log.dryGeneral probe).custodyFate := by
  have hkept : ∀ l : Log, s.log.Undisturbed l → l.custodyFate = s.log.custodyFate :=
    fun l h => Log.custodyFate_congr h.ended (by rw [h.records]) h.holds
  cases hf : s.log.generalFate <;> simp only [State.handGeneral, Log.dryGeneral, hf]
  · exact hkept _ (s.loseGeneral_undisturbed e)
  · exact hkept _ (s.fallBack_undisturbed e)
  · exact Log.custodyFate_congr rfl (by simp [Log.append, Log.recordOf]) rfl
  · exact Log.custodyFate_congr rfl (by simp [Log.append, Log.recordOf, Log.evict]) rfl
  · exact hkept _ (s.enterFallBack_undisturbed e)

/-- A custody record that is written and is not of kind CUSTODY_OUT: the newest record, and no notice. -/
theorem State.handCustody_written {s : State} {e : Entry} (h : s.log.custodyFate ≠ .unwritten)
    (hout : ∀ t : State, t.afterCustody e s.log.nextSeq = t) :
    (∃ r, (s.handCustody e).log.records.getLast? = some r ∧ r.sequence = s.log.nextSeq ∧ r.stamp = e.stamp ∧
      r.compartment = e.compartment ∧ r.body = e.body) ∧ (s.handCustody e).notices = s.notices := by
  cases hf : s.log.custodyFate with
  | unwritten => exact absurd hf h
  | appended =>
    simp only [State.handCustody, hf, hout]
    exact ⟨⟨s.log.recordOf e, by simp [Log.append], rfl, rfl, rfl, rfl⟩, rfl⟩
  | evicting =>
    simp only [State.handCustody, hf, hout]
    exact ⟨⟨s.log.evict.recordOf e, by simp [Log.append], rfl, rfl, rfl, rfl⟩, rfl⟩

end Sys2Proof.Machine
end

