-- ==== Sys2Proof/Proofs/CustodyInFills.lean ====
section
/-! PROOFS. An accepted CUSTODY_IN (R40, R103 to R108). -/

namespace Sys2Proof.Machine

/-! ### The limit check (R108) -/

theorem State.custodyLimit_slots (s : State) (i : SlotNo) : (s.custodyLimit i).slots = setAt s.slots i
    { s.slots[i] with limitCrossed := s.slots[i].limitCrossed || decide (s.slots[i].limit < s.slots[i].carriedExposure) } := by
  by_cases h : s.slots[i].limit < s.slots[i].carriedExposure
  · simp only [State.custodyLimit, h, if_true, State.raise_frame, State.setSlot_slots, decide_true, Bool.or_true]
  · simp only [State.custodyLimit, h, if_false, decide_false, Bool.or_false]
    exact (setAt_self rfl).symm

theorem State.custodyLimit_notices (s : State) (i : SlotNo) : (s.custodyLimit i).notices =
    s.notices.raiseMany Condition.exposureLimit.place (decide (s.slots[i].limit < s.slots[i].carriedExposure)).toNat := by
  by_cases h : s.slots[i].limit < s.slots[i].carriedExposure
  · simp only [State.custodyLimit, h, if_true, decide_true]
    rfl
  · simp only [State.custodyLimit, h, if_false, decide_false]
    rfl

/-! ### The carried-in figures (R103, R104) -/

theorem carriedOf_record (p : List Byte) : carriedOf (.record p) =
    { mode := .record
      exposure := min (fieldAt p 32 4 + fieldAt p 36 4) 4294967295
      cycles := fieldAt p 40 2
      blind := fieldAt p 48 4
      upstream := some
        { issuer := BitVec.ofNat 64 (fieldAt p 4 8), chain := BitVec.ofNat 32 (fieldAt p 60 4)
          outTime := fieldAt p 28 4, declared := (fieldAt p 2 1).testBit 0, logDeferred := (fieldAt p 2 1).testBit 1
          disposed := (fieldAt p 2 1).testBit 2 }
      declared := (fieldAt p 2 1).testBit 0 } := by
  simp only [carriedOf, readUpstream, Nat.testBit_eq_decide_div_mod_eq, sat32_eq, beq_eq_decide, pow_zero, pow_one,
    Nat.div_one, show 2 ^ 2 = 4 from rfl]

/-! ### The request -/

theorem State.now_of_valid {s : State} (h : s.clock.state = .valid) : s.timed = true ∧ s.now = s.clock.counter := by
  have ht : s.timed = true := (State.timed_iff s).mpr h
  exact ⟨ht, if_pos ht⟩

theorem State.enabled_of_enabledComp {s : State} {b : Byte} {c : CompNo} (h : s.enabledComp b = some c) :
    s.comps[c].settings.enabled = true := by
  unfold State.enabledComp at h
  split at h
  · split at h
    next he =>
      cases h
      exact he
    next => cases h
  · cases h

theorem State.custodyIn_accepted {s : State} {id limit : Word} {compartment cycleLimit : Byte} {u : Upstream} {c : CompNo}
    {i : SlotNo} (hu : u.wellFormed = true) (hvalid : s.clock.state = .valid) (hid : id ≠ 0) (hlimit : limit ≠ 0)
    (hmax : limit.toNat ≠ 4294967295) (hnamed : ∀ m rest, u ≠ .unnamed m rest) (hc : s.enabledComp compartment = some c)
    (hnew : s.slotOf id = none) (hrecord : upstreamFailure u id s.clock.counter = none) (hempty : s.emptySlot = some i)
    (hfits : s.log.custodyFits true = true) : s.custodyIn id compartment limit cycleLimit u =
      (okay (custodyInReply (s.acceptCustody i id c limit.toNat cycleLimit.toNat (carriedOf u)).slots[i] i),
        s.acceptCustody i id c limit.toNat cycleLimit.toNat (carriedOf u)) := by
  obtain ⟨htimed, hnow⟩ := State.now_of_valid hvalid
  have hlength : upstreamFits u = true := by
    cases u with
    | unnamed m rest => exact absurd rfl (hnamed m rest)
    | _ => exact hu
  have hmode : upstreamNamed u = true := by
    cases u with
    | unnamed m rest => exact absurd rfl (hnamed m rest)
    | _ => rfl
  simp only [State.custodyIn, hlength, htimed, hid, hlimit, hmax, hmode, hc, hnew, hnow, hrecord, hempty, hfits,
    Bool.not_true, Bool.false_eq_true, Bool.true_eq_false, if_false, if_true, or_self, Option.isSome_none]

/-! ### The table, the log and the notices after it -/

section
variable (s : State) (i : SlotNo) (id : Word) (c : CompNo) (limit cycleLimit : Nat) (k : Carried)

/-- The slot an accepted CUSTODY_IN leaves (R106, R108). -/
def State.filledSlot (s : State) (id : Word) (c : CompNo) (limit cycleLimit : Nat) (k : Carried) : Slot :=
  { newSlot id c limit cycleLimit s.now k with
    inSeq := (s.stepComp c .boundary).log.nextSeq, limitCrossed := decide (limit < k.exposure) }

theorem State.acceptCustody_slots : (s.acceptCustody i id c limit cycleLimit k).slots =
    setAt (s.stepComp c .boundary).slots i (s.filledSlot id c limit cycleLimit k) := by
  simp only [State.acceptCustody, State.custodyLimit_slots, State.handCustody_frame, State.setSlot_slots,
    newSlot_firstShare, getElem_setAt_self, setAt_setAt]
  rfl

theorem State.acceptCustody_comps :
    (s.acceptCustody i id c limit cycleLimit k).comps = (s.stepComp c .boundary).comps := by
  simp only [State.acceptCustody, State.custodyLimit_frame, State.handCustody_frame, State.setSlot_comps]

/-- The boundary step closes its compartment's interval: the custody test was made for the SAMPLE that it hands (R77). -/
theorem State.boundary_custodyFate (henabled : s.comps[c].settings.enabled = true)
    (hfits : s.log.custodyFits true = true) : (s.stepComp c .boundary).log.custodyFate ≠ .unwritten := by
  have hclosed : s.closes c .boundary = true := decide_eq_true (.inl rfl)
  rw [State.stepComp_of_enabled _ henabled, State.takeStep_log, if_pos hclosed,
    State.handGeneral_custodyFate s _ ⟨⟨0, false⟩, none, .sample ⟨0, none, none, none, 0, 0, 0, 0, none⟩, 0, 0⟩]
  simpa only [Log.custodyFits, if_true, bne_iff_ne] using hfits

theorem State.stepComp_enables (cause : StepCause) (j : Fin 18) :
    (s.stepComp c cause).notices.enables[j] = s.notices.enables[j] := by
  by_cases h : s.comps[c].settings.enabled = true
  · rw [State.stepComp_of_enabled cause h, State.takeStep_notices]
    simp only [NoticeUnit.raiseMany_enables]
  · rw [State.stepComp_of_disabled cause (by simpa only [Bool.not_eq_true] using h)]

/-- The CUSTODY_IN record stands at the newest end, and the limit check alone touches the pending set after the step. -/
theorem State.acceptCustody_record (hfate : (s.stepComp c .boundary).log.custodyFate ≠ .unwritten) :
    (∃ r, (s.acceptCustody i id c limit cycleLimit k).log.records.getLast? = some r ∧
      r.sequence = (s.stepComp c .boundary).log.nextSeq ∧ r.stamp = ⟨s.now, false⟩ ∧ r.compartment = some c ∧
      r.body = .custodyIn id i k.mode k.exposure k.cycles limit cycleLimit) ∧
      (s.acceptCustody i id c limit cycleLimit k).notices = (s.stepComp c .boundary).notices.raiseMany
        Condition.exposureLimit.place (decide (limit < k.exposure)).toNat := by
  have hwritten := State.handCustody_written
    (s := (s.stepComp c .boundary).setSlot i
      { newSlot id c limit cycleLimit s.now k with inSeq := (s.stepComp c .boundary).log.nextSeq })
    (e := custodyInEntry
      { newSlot id c limit cycleLimit s.now k with inSeq := (s.stepComp c .boundary).log.nextSeq } i)
    hfate (fun _ => rfl)
  obtain ⟨hrecord, hnotices⟩ := hwritten
  simp only [State.acceptCustody, newSlot_firstShare, State.custodyLimit_frame, State.custodyLimit_notices,
    State.handCustody_frame, State.setSlot_slots, getElem_setAt_self, hnotices]
  exact ⟨hrecord, rfl⟩

end

/-- Settles O37: the slot, the record and the pending set of `State.acceptCustody`, and its boundary step as
`State.takeStep` gives it. -/
theorem custodyInFillsTheSlot : Obligations.CustodyInFillsTheSlot := by
  unfold Obligations.CustodyInFillsTheSlot
  intro s tag compartment cycleLimit id limit u c i hs hu hvalid hid hlimit hmax hnamed hc hnew hrecord hempty hfits
  obtain ⟨htimed, hnow⟩ := State.now_of_valid hvalid
  have henabled := State.enabled_of_enabledComp hc
  obtain ⟨hlast, hnotices⟩ := s.acceptCustody_record i id c limit.toNat cycleLimit.toNat (carriedOf u)
    (s.boundary_custodyFate c henabled hfits)
  have hslots := s.acceptCustody_slots i id c limit.toNat cycleLimit.toNat (carriedOf u)
  have hcomps := s.acceptCustody_comps i id c limit.toNat cycleLimit.toNat (carriedOf u)
  have hslot : (s.acceptCustody i id c limit.toNat cycleLimit.toNat (carriedOf u)).slots[i]
      = s.filledSlot id c limit.toNat cycleLimit.toNat (carriedOf u) := by
    rw [hslots, getElem_setAt_self]
  have hcomp : (s.acceptCustody i id c limit.toNat cycleLimit.toNat (carriedOf u)).comps[c] = s.compAfter c .boundary := by
    rw [hcomps, State.stepComp_comp _ henabled]
  refine ⟨s.acceptCustody i id c limit.toNat cycleLimit.toNat (carriedOf u), carriedOf u, ?_, ?_,
    fun h => by rw [h]; rfl, fun e cy b h => by rw [h]; rfl, fun p h => by rw [h, carriedOf_record], ?_, ?_,
    fun j hj => ⟨?_, fun hheld => ?_⟩, hcomps, ?_, ?_, fun hover he => ?_⟩
  · refine (State.submit_of_ready (.custodyIn id compartment limit cycleLimit u) hs
      (s.custodyIn_accepted hu hvalid hid hlimit hmax hnamed hc hnew hrecord hempty hfits)
      (by simp only [State.acceptCustody_frame])).trans ?_
    rw [hslot, ← hnow]
    rfl
  · cases u with
    | unnamed m rest => exact absurd rfl (hnamed m rest)
    | _ => rfl
  · rw [hslot, ← hnow]
    rfl
  · obtain ⟨r, hr, hsequence, hstamp, hcompartment, hbody⟩ := hlast
    exact ⟨r, hr, by rw [hslot, hsequence]; rfl, by rw [hstamp, hnow], hcompartment, hbody⟩
  · rw [hslots, getElem_setAt_ne _ _ hj.symm]
  · rw [hslots, getElem_setAt_ne _ _ hj.symm, State.stepComp_of_enabled _ henabled, State.takeStep_slot, if_neg]
    simp only [hheld, Bool.false_eq_true, not_false_eq_true]
  · rw [hcomp]
    rfl
  · rw [hcomp]
    rfl
  · rw [hnotices, NoticeUnit.raiseMany_members, State.stepComp_enables, he, decide_eq_true hover]
    simp only [Bool.toNat_true, Nat.one_pos, and_self, decide_true, Bool.and_true, Bool.or_true]

end Sys2Proof.Machine
end

