-- ==== Sys2Proof/Proofs/CompartmentSettings.lean ====
section
/-! PROOFS. COMPARTMENT_SET: what enabling, disabling and a new long-open limit do (R25, R26, R63, R64, R94). -/

namespace Sys2Proof.Machine

/-- A condition raised or not is pending afterwards if it was, or if it is enabled and raised. -/
theorem NoticeUnit.raiseMany_toNat_members (u : NoticeUnit) (k : Fin 18) (b : Bool) :
    (u.raiseMany k b.toNat).members[k] = (u.members[k] || (u.enables[k] && b)) := by
  rw [NoticeUnit.raiseMany_members]
  cases b <;> cases u.enables[k] <;> simp [-Fin.getElem_fin]

/-! ### The stages of an accepted request -/

/-- The state after the settings are stored and the enable has been acted on, stage 1 of `State.applyComp`. -/
def State.switched (s : State) (c : CompNo) (new : CompSettings) : State :=
  let t := s.setComp c { s.comps[c] with settings := new }
  if s.comps[c].settings.enabled = new.enabled then t else if new.enabled then t.enableComp c else t.disableComp c

/-- The state after a new long-open limit has been acted on, stage 2. -/
def State.limited (s : State) (c : CompNo) (new : CompSettings) : State :=
  if s.comps[c].settings.longOpenLimit = new.longOpenLimit then s.switched c new
  else (s.switched c new).applyLongOpenLimit c

/-- Whether a request changes none of the settings that its CONFIG record names. -/
abbrev State.keepsConfig (s : State) (c : CompNo) (new : CompSettings) : Prop :=
  s.comps[c].settings.enabled = new.enabled ∧ s.comps[c].settings.threshold = new.threshold ∧
    s.comps[c].settings.softLine = new.softLine

theorem State.applyComp_of_kept {s : State} {c : CompNo} {new : CompSettings} (h : s.keepsConfig c new) :
    s.applyComp c new = s.limited c new := if_pos h

theorem State.applyComp_of_changed {s : State} {c : CompNo} {new : CompSettings} (h : ¬ s.keepsConfig c new) :
    s.applyComp c new
      = (s.limited c new).handConfig (some c) (.compartment new.enabled new.threshold new.softLine) := if_neg h

/-! ### Enabling and disabling (R26) -/

section
variable (s : State) (c : CompNo)

theorem State.enableComp_comps : (s.enableComp c).comps = setAt s.comps c
    { s.comps[c].forget with band := .unset, lastStep := s.stampNow, interval := .opening s.stampNow } := by
  simp only [State.enableComp, State.creditHeld_frame, State.setComp_comps]

theorem State.enableComp_slot (i : SlotNo) : (s.enableComp c).slots[i] =
    if s.timed && s.slots[i].heldIn c then s.slots[i].creditGap s.now else s.slots[i] := by
  have htimed : ∀ x, (s.setComp c x).timed = s.timed ∧ (s.setComp c x).now = s.now := fun x => ⟨rfl, rfl⟩
  by_cases ht : s.timed = true
  · simp only [State.enableComp, State.creditHeld, htimed, ht, if_true, getElem_updHeldIn, State.setComp_slots,
      Bool.true_and]
    rfl
  · simp only [State.enableComp, State.creditHeld, htimed, ht, Bool.false_eq_true, if_false, State.setComp_slots,
      Bool.false_and]

/-- The part with the interval closed that a compartment being disabled has open (R26, R43). -/
def State.closedOff (s : State) (c : CompNo) : State :=
  if 0 < s.comps[c].interval.steps then s.closeInterval c s.stampNow else s

theorem State.disableComp_eq :
    s.disableComp c = ((s.closedOff c).setComp c (s.closedOff c).comps[c].forget).setBand c .unset := rfl

theorem State.closedOff_comps : (s.closedOff c).comps = setAt s.comps c { s.comps[c] with
    interval := if 0 < s.comps[c].interval.steps then .opening s.stampNow else s.comps[c].interval } := by
  by_cases h : 0 < s.comps[c].interval.steps
  · simp only [State.closedOff, h, if_true, State.closeInterval_comps]
  · simp only [State.closedOff, h, if_false]
    exact (setAt_self rfl).symm

theorem State.closedOff_hatch : (s.closedOff c).hatch = s.hatch := by
  unfold State.closedOff
  split
  · simp only [State.closeInterval_frame]
  · rfl

theorem State.disableComp_comps : (s.disableComp c).comps = setAt s.comps c { s.comps[c].forget with
    band := .unset
    interval := if 0 < s.comps[c].interval.steps then .opening s.stampNow else s.comps[c].interval } := by
  rw [State.disableComp_eq, State.setBand_comps, State.setComp_comps, getElem_setAt_self, State.closedOff_comps,
    setAt_setAt, setAt_setAt, getElem_setAt_self]
  rfl

theorem State.disableComp_log : (s.disableComp c).log =
    if 0 < s.comps[c].interval.steps then (s.handGeneral (s.comps[c].interval.entry c)).log else s.log := by
  simp only [State.disableComp_eq, State.setBand_frame, State.setComp_log, State.closedOff]
  by_cases h : 0 < s.comps[c].interval.steps
  · simp only [h, if_true, State.closeInterval_log]
  · simp only [h, if_false]

/-- Disabling leaves a slot as it was, but that its SAMPLE may be deferred. -/
theorem State.disableComp_slot (i : SlotNo) :
    { (s.disableComp c).slots[i] with logDeferred := s.slots[i].logDeferred } = s.slots[i] := by
  simp only [State.disableComp_eq, State.setBand_frame, State.setComp_slots, State.closedOff]
  by_cases h : 0 < s.comps[c].interval.steps
  · simp only [h, if_true, State.closeInterval_slot]
    split <;> rfl
  · simp only [h, if_false]

variable {c} in
/-- What writing a band does to the contacts depends on the contacts and the bands alone. -/
theorem State.setBand_hatch_congr {s t : State} (hhatch : t.hatch = s.hatch)
    (hband : ∀ d : CompNo, t.comps[d].band = s.comps[d].band) (b : Band) :
    (t.setBand c b).hatch = (s.setBand c b).hatch := by
  obtain ⟨hinputs, hrequired, -⟩ := t.setBand_inputs c b
  obtain ⟨hinputs', hrequired', -⟩ := s.setBand_inputs c b
  have hnow : (t.setBand c b).patternNow = (s.setBand c b).patternNow := by
    refine State.patternNow_of_bands (by rw [hinputs, hinputs', hhatch]) (by rw [hrequired, hrequired', hhatch])
      fun d => ?_
    rw [State.setBand_comps, State.setBand_comps, getElem_setAt, getElem_setAt]
    split
    · rfl
    · exact hband d
  have hnames : t.memberNames c = s.memberNames c := by simp only [State.memberNames, hhatch]
  rw [State.setBand_hatch, State.setBand_hatch, hnow, hband, hnames, hhatch]

/-- Disabling does to the contacts what unsetting the band does. -/
theorem State.disableComp_hatch : (s.disableComp c).hatch = (s.setBand c .unset).hatch := by
  rw [State.disableComp_eq]
  refine State.setBand_hatch_congr (by rw [State.setComp_hatch, State.closedOff_hatch]) (fun d => ?_) _
  rw [State.setComp_comps, getElem_setAt, State.closedOff_comps, getElem_setAt_self, getElem_setAt]
  split
  next h =>
    subst h
    rfl
  next => rfl

/-- Disabling may raise LOG_HELD with the SAMPLE record, and PATTERN with the band. -/
theorem State.disableComp_notices : ∃ n, (s.disableComp c).notices =
    (s.notices.raiseMany Condition.logHeld.place n).raiseMany Condition.pattern.place
      (!s.hatch.patternTruth && (s.disableComp c).hatch.patternTruth).toNat := by
  have hclosed : ∃ n, (s.closedOff c).notices = s.notices.raiseMany Condition.logHeld.place n := by
    by_cases h : 0 < s.comps[c].interval.steps
    · exact ⟨_, by simp only [State.closedOff, h, if_true, State.closeInterval_notices]; rfl⟩
    · exact ⟨0, by simp only [State.closedOff, h, if_false, NoticeUnit.raiseMany]⟩
  obtain ⟨n, hn⟩ := hclosed
  refine ⟨n, ?_⟩
  rw [State.disableComp_eq, State.setBand_notices, State.setComp_notices, hn, State.setComp_hatch, State.closedOff_hatch]

end

/-! ### What an accepted request leaves -/

section
variable (s : State) (c : CompNo) (new : CompSettings)

/-- The request disables an enabled compartment. -/
abbrev State.turnsOff : Prop := new.enabled = false ∧ s.comps[c].settings.enabled = true

/-- The request enables a disabled compartment. -/
abbrev State.turnsOn : Prop := new.enabled = true ∧ s.comps[c].settings.enabled = false

variable {s c new}

theorem State.switched_same (h : s.comps[c].settings.enabled = new.enabled) :
    s.switched c new = s.setComp c { s.comps[c] with settings := new } := if_pos h

theorem State.switched_on (h : s.turnsOn c new) :
    s.switched c new = (s.setComp c { s.comps[c] with settings := new }).enableComp c := by
  obtain ⟨hnew, hold⟩ := h
  simp only [State.switched, hold, hnew, Bool.false_eq_true, if_false, if_true]

theorem State.switched_off (h : s.turnsOff c new) :
    s.switched c new = (s.setComp c { s.comps[c] with settings := new }).disableComp c := by
  obtain ⟨hnew, hold⟩ := h
  simp only [State.switched, hold, hnew, Bool.true_eq_false, Bool.false_eq_true, if_false]

/-- A request keeps the enable, enables or disables. -/
theorem State.switch_cases (s : State) (c : CompNo) (new : CompSettings) :
    s.comps[c].settings.enabled = new.enabled ∨ s.turnsOn c new ∨ s.turnsOff c new := by
  unfold State.turnsOn State.turnsOff
  cases s.comps[c].settings.enabled <;> cases new.enabled <;> simp

theorem State.not_turnsOff_of_same (h : s.comps[c].settings.enabled = new.enabled) : ¬ s.turnsOff c new :=
  fun ⟨hnew, hold⟩ => absurd (hold.symm.trans (h.trans hnew)) (by decide)

theorem State.not_turnsOff_of_on (h : s.turnsOn c new) : ¬ s.turnsOff c new :=
  fun ⟨hnew, _⟩ => absurd (hnew.symm.trans h.1) (by decide)

theorem State.switched_comps : (s.switched c new).comps = setAt s.comps c (s.switched c new).comps[c] ∧
    (s.switched c new).comps[c].settings = new := by
  rcases s.switch_cases c new with h | h | h
  · rw [State.switched_same h, State.setComp_comps, getElem_setAt_self]
    exact ⟨rfl, rfl⟩
  · rw [State.switched_on h, State.enableComp_comps, State.setComp_comps, setAt_setAt, getElem_setAt_self,
      getElem_setAt_self]
    exact ⟨rfl, rfl⟩
  · rw [State.switched_off h, State.disableComp_comps, State.setComp_comps, setAt_setAt, getElem_setAt_self,
      getElem_setAt_self]
    exact ⟨rfl, rfl⟩

theorem State.switched_kept (h : ¬ s.turnsOff c new) :
    (s.switched c new).hatch = s.hatch ∧ (s.switched c new).notices = s.notices := by
  rcases s.switch_cases c new with hsame | hon | hoff
  · rw [State.switched_same hsame]
    exact ⟨rfl, rfl⟩
  · rw [State.switched_on hon]
    simp only [State.enableComp_frame, State.setComp_hatch, State.setComp_notices, and_self]
  · exact absurd hoff h

theorem State.switched_off_hatch (h : s.turnsOff c new) : (s.switched c new).hatch = (s.setBand c .unset).hatch := by
  rw [State.switched_off h, State.disableComp_hatch]
  refine State.setBand_hatch_congr (s := s) (t := s.setComp c { s.comps[c] with settings := new }) rfl (fun d => ?_) _
  rw [State.setComp_comps, getElem_setAt]
  split
  next hd =>
    subst hd
    rfl
  next => rfl

theorem State.switched_hatch : (s.switched c new).hatch =
    { s.hatch with patternTruth := (s.switched c new).hatch.patternTruth } := by
  by_cases h : s.turnsOff c new
  · rw [State.switched_off_hatch h, State.setBand_hatch]
  · rw [(State.switched_kept h).1]

theorem State.switched_notices : ∃ n, (s.switched c new).notices =
    (s.notices.raiseMany Condition.logHeld.place n).raiseMany Condition.pattern.place
      (!s.hatch.patternTruth && (s.switched c new).hatch.patternTruth).toNat := by
  by_cases h : s.turnsOff c new
  · rw [State.switched_off h]
    exact State.disableComp_notices _ c
  · obtain ⟨hhatch, hnotices⟩ := State.switched_kept h
    exact ⟨0, by rw [hhatch, hnotices, Bool.not_and_self]; rfl⟩

/-! ### The long-open limit (R63) -/

/-- Whether a new long-open limit has been passed by the running timer of a compartment. -/
def State.overtakes (s : State) (c : CompNo) (l : Nat) : Bool :=
  decide (l ≠ s.comps[c].settings.longOpenLimit ∧ s.hatch.openings[c].state = .opening ∧
    s.hatch.openings[c].timer = .running ∧ l ≤ s.hatch.openings[c].elapsed)

theorem State.limited_eq : s.limited c new =
    if s.overtakes c new.longOpenLimit then (s.switched c new).expireLongOpen c else s.switched c new := by
  obtain ⟨-, hsettings⟩ := State.switched_comps (s := s) (c := c) (new := new)
  have hopenings : (s.switched c new).hatch.openings = s.hatch.openings := by rw [State.switched_hatch]
  by_cases hl : s.comps[c].settings.longOpenLimit = new.longOpenLimit
  · have hnot : s.overtakes c new.longOpenLimit = false := by simp [State.overtakes, hl, -Fin.getElem_fin]
    rw [State.limited, if_pos hl, hnot]
    rfl
  · have hdue : (s.switched c new).longOpenDue c = s.overtakes c new.longOpenLimit := by
      simp [State.longOpenDue, State.longOpenRuns, State.overtakes, hopenings, hsettings, Ne.symm hl, Bool.and_assoc,
        Bool.beq_eq_decide_eq, -Fin.getElem_fin]
    rw [State.limited, if_neg hl, State.applyLongOpenLimit, hdue]

theorem State.limited_frame : (s.limited c new).comps = (s.switched c new).comps ∧
    (s.limited c new).slots = (s.switched c new).slots ∧ (s.limited c new).log = (s.switched c new).log ∧
    (s.limited c new).clock = (s.switched c new).clock := by
  rw [State.limited_eq]
  split
  · exact ⟨rfl, rfl, rfl, rfl⟩
  · exact ⟨rfl, rfl, rfl, rfl⟩

theorem State.limited_hatch : (s.limited c new).hatch = { s.hatch with
    patternTruth := (s.switched c new).hatch.patternTruth
    openings := if s.overtakes c new.longOpenLimit then
      setAt s.hatch.openings c { s.hatch.openings[c] with timer := .expired } else s.hatch.openings } := by
  have hswitched := State.switched_hatch (s := s) (c := c) (new := new)
  rw [State.limited_eq]
  cases s.overtakes c new.longOpenLimit with
  | true =>
    simp only [if_true, State.expireLongOpen, State.raise_frame, State.setOpening_hatch]
    rw [hswitched]
  | false =>
    simp only [Bool.false_eq_true, if_false]
    rw [hswitched]

theorem State.limited_notices : (s.limited c new).notices = (s.switched c new).notices.raiseMany
    Condition.longOpen.place (s.overtakes c new.longOpenLimit).toNat := by
  rw [State.limited_eq]
  cases s.overtakes c new.longOpenLimit <;> rfl

/-! ### The CONFIG record (R26) -/

theorem Log.defers_config (l : Log) (t : Stamp) (c : Option CompNo) (change : ConfigChange) :
    l.defers { stamp := t, compartment := c, body := .config change } = none := by
  unfold Log.defers
  cases l.generalFate <;> rfl

theorem State.handConfig_slots (s : State) (c : Option CompNo) (change : ConfigChange) :
    (s.handConfig c change).slots = s.slots := by
  rw [State.handConfig, State.handGeneral_slots, Log.defers_config]
  rfl

/-- The CONFIG record leaves compartments, consignments and contacts alone, and may raise LOG_HELD. -/
theorem State.applyComp_limited : (s.applyComp c new).comps = (s.limited c new).comps ∧
    (s.applyComp c new).slots = (s.limited c new).slots ∧ (s.applyComp c new).hatch = (s.limited c new).hatch ∧
    ∃ n, (s.applyComp c new).notices = (s.limited c new).notices.raiseMany Condition.logHeld.place n := by
  by_cases h : s.keepsConfig c new
  · rw [State.applyComp_of_kept h]
    exact ⟨rfl, rfl, rfl, 0, rfl⟩
  · rw [State.applyComp_of_changed h, State.handConfig_slots]
    exact ⟨by simp, rfl, by simp, _, State.handGeneral_notices _ _⟩

/-- The part after the SAMPLE record of an interval that disabling closes is handed (R26, R43). -/
def State.sampled (s : State) (c : CompNo) (new : CompSettings) : State :=
  if s.turnsOff c new ∧ 0 < s.comps[c].interval.steps then s.handGeneral (s.comps[c].interval.entry c) else s

theorem State.switched_log : (s.switched c new).log = (s.sampled c new).log := by
  rcases s.switch_cases c new with h | h | h
  · rw [State.switched_same h, State.sampled, if_neg fun hoff => State.not_turnsOff_of_same h hoff.1]
    rfl
  · rw [State.switched_on h, State.sampled, if_neg fun hoff => State.not_turnsOff_of_on h hoff.1]
    simp only [State.enableComp_frame, State.setComp_log]
  · rw [State.switched_off h, State.disableComp_log, State.setComp_comps, getElem_setAt_self, State.sampled]
    by_cases hsteps : 0 < s.comps[c].interval.steps
    · rw [if_pos hsteps, if_pos ⟨h, hsteps⟩]
      exact State.handGeneral_log (s := s) (t := s.setComp c { s.comps[c] with settings := new }) rfl _
    · rw [if_neg hsteps, if_neg fun hoff => hsteps hoff.2]
      rfl

/-- The log after the request: that SAMPLE record, then the CONFIG record of a setting that changed. -/
theorem State.applyComp_log : (s.applyComp c new).log = if s.keepsConfig c new then s.log
    else ((s.sampled c new).handGeneral
      ⟨s.stampNow, some c, .config (.compartment new.enabled new.threshold new.softLine), 0, 0⟩).log := by
  obtain ⟨-, -, hlog, hclock⟩ := State.limited_frame (s := s) (c := c) (new := new)
  by_cases h : s.keepsConfig c new
  · rw [State.applyComp_of_kept h, if_pos h, hlog, State.switched_log, State.sampled,
      if_neg fun hoff => State.not_turnsOff_of_same h.1 hoff.1]
  · have hswitched : (s.switched c new).clock = s.clock := by
      unfold State.switched
      dsimp only
      (repeat' split) <;> simp
    obtain ⟨hstamp, -, -⟩ := State.stampNow_of_clock (hclock.trans hswitched)
    rw [State.applyComp_of_changed h, if_neg h, State.handConfig, hstamp]
    exact State.handGeneral_log (hlog.trans State.switched_log) _

/-! ### Consignments and the pattern watch after the request -/

theorem State.applyComp_comp : (s.applyComp c new).comps = setAt s.comps c (s.switched c new).comps[c] := by
  obtain ⟨hcomps, -, -, -⟩ := State.applyComp_limited (s := s) (c := c) (new := new)
  obtain ⟨hlimited, -, -, -⟩ := State.limited_frame (s := s) (c := c) (new := new)
  exact hcomps.trans (hlimited.trans State.switched_comps.1)

/-- A consignment in custody in a compartment enabled again is credited its blind seconds (R94); no other accounting
moves. -/
theorem State.applyComp_slot (i : SlotNo) :
    { (s.applyComp c new).slots[i] with logDeferred := s.slots[i].logDeferred } =
      if s.turnsOn c new ∧ s.timed = true ∧ s.slots[i].heldIn c = true then s.slots[i].creditGap s.now else s.slots[i] := by
  obtain ⟨-, hslots, -, -⟩ := State.applyComp_limited (s := s) (c := c) (new := new)
  obtain ⟨-, hlimited, -, -⟩ := State.limited_frame (s := s) (c := c) (new := new)
  rw [hslots, hlimited]
  rcases s.switch_cases c new with h | h | h
  · rw [State.switched_same h, if_neg]
    · rfl
    · rintro ⟨⟨hnew, hold⟩, -⟩
      exact absurd (hnew.symm.trans (h.symm.trans hold)) (by decide)
  · have hcredit : (s.switched c new).slots[i] =
        if s.timed && s.slots[i].heldIn c then s.slots[i].creditGap s.now else s.slots[i] := by
      rw [State.switched_on h]
      exact State.enableComp_slot _ c i
    rw [hcredit]
    by_cases hheld : s.timed = true ∧ s.slots[i].heldIn c = true
    · rw [if_pos (by simpa only [Bool.and_eq_true] using hheld), if_pos ⟨h, hheld⟩]
      rfl
    · rw [if_neg (by simpa only [Bool.and_eq_true] using hheld), if_neg fun hall => hheld hall.2]
  · rw [State.switched_off h, if_neg fun hall => State.not_turnsOff_of_on hall.1 h]
    exact State.disableComp_slot _ c i

theorem State.applyComp_hatch : (s.applyComp c new).hatch = { s.hatch with
    patternTruth := (s.switched c new).hatch.patternTruth
    openings := if s.overtakes c new.longOpenLimit then
      setAt s.hatch.openings c { s.hatch.openings[c] with timer := .expired } else s.hatch.openings } := by
  obtain ⟨-, -, hhatch, -⟩ := State.applyComp_limited (s := s) (c := c) (new := new)
  rw [hhatch, State.limited_hatch]

/-- The truth of the pattern watch stays, but where the band of a compartment that a member names is unset. -/
theorem State.applyComp_truth_kept (h : ¬ s.turnsOff c new ∨ s.comps[c].band = .unset ∨ s.memberNames c = false) :
    (s.applyComp c new).hatch.patternTruth = s.hatch.patternTruth := by
  rw [State.applyComp_hatch]
  by_cases hoff : s.turnsOff c new
  · rw [State.switched_off_hatch hoff, State.setBand_truth_kept (h.resolve_left (not_not_intro hoff))]
  · rw [(State.switched_kept hoff).1]

/-- There it is evaluated afresh, with the band of the compartment UNSET. -/
theorem State.applyComp_truth_fresh (hoff : s.turnsOff c new) (hband : s.comps[c].band ≠ .unset)
    (hname : s.memberNames c = true) : (s.applyComp c new).hatch.patternTruth = true ↔
      (∀ i : InputNo, s.hatch.inputs[i].settings.member = true → s.hatch.inputs[i].settled = .opened) ∧
        (s.hatch.bandRequired = true → ∃ (i : InputNo) (d : CompNo), s.hatch.inputs[i].settings.member = true ∧
          s.hatch.inputs[i].settings.compartment = some d ∧ d ≠ c ∧ s.comps[d].band = .warm) := by
  obtain ⟨i, hi, -⟩ := State.memberNames_iff.mp hname
  obtain ⟨hinputs, hrequired, -⟩ := s.setBand_inputs c .unset
  have hwarm : ∀ d : CompNo, (s.setBand c .unset).comps[d].band = .warm ↔ d ≠ c ∧ s.comps[d].band = .warm := fun d => by
    rw [State.setBand_comps, getElem_setAt]
    split
    next h => simp [h]
    next h => exact ⟨fun hb => ⟨Ne.symm h, hb⟩, And.right⟩
  have htruth : (s.applyComp c new).hatch.patternTruth = (s.setBand c .unset).patternNow := by
    rw [State.applyComp_hatch, State.switched_off_hatch hoff, ← State.setBand_truth_fresh hband hname]
  rw [htruth, State.patternNow_iff, hinputs, hrequired]
  simp only [hwarm]
  exact and_iff_right ⟨i, hi⟩

/-- The conditions the request raises: PATTERN with the band, LONG_OPEN with the limit, and LOG_HELD with a record. -/
theorem State.applyComp_notices : ∃ m n, (s.applyComp c new).notices =
    ((((s.notices.raiseMany Condition.logHeld.place m).raiseMany Condition.pattern.place
      (!s.hatch.patternTruth && (s.applyComp c new).hatch.patternTruth).toNat).raiseMany Condition.longOpen.place
      (s.overtakes c new.longOpenLimit).toNat).raiseMany Condition.logHeld.place n) := by
  obtain ⟨m, hm⟩ := State.switched_notices (s := s) (c := c) (new := new)
  obtain ⟨-, -, -, n, hn⟩ := State.applyComp_limited (s := s) (c := c) (new := new)
  have htruth : (s.applyComp c new).hatch.patternTruth = (s.switched c new).hatch.patternTruth := by
    rw [State.applyComp_hatch]
  exact ⟨m, n, by rw [hn, State.limited_notices, hm, htruth]⟩

theorem State.applyComp_patternNotice : NoticeUnit.SameAt Condition.pattern.place (s.applyComp c new).notices
    (s.notices.raiseMany Condition.pattern.place
      (!s.hatch.patternTruth && (s.applyComp c new).hatch.patternTruth).toNat) := by
  obtain ⟨m, n, h⟩ := State.applyComp_notices (s := s) (c := c) (new := new)
  rw [h]
  exact ((NoticeUnit.sameAt_raiseMany_other _ _ (by decide)).trans (NoticeUnit.sameAt_raiseMany_other _ _ (by decide))).trans
    ((NoticeUnit.sameAt_raiseMany_other _ _ (by decide)).raiseMany _)

theorem State.applyComp_longOpenNotice : NoticeUnit.SameAt Condition.longOpen.place (s.applyComp c new).notices
    (s.notices.raiseMany Condition.longOpen.place (s.overtakes c new.longOpenLimit).toNat) := by
  obtain ⟨m, n, h⟩ := State.applyComp_notices (s := s) (c := c) (new := new)
  rw [h]
  exact (NoticeUnit.sameAt_raiseMany_other _ _ (by decide)).trans
    (((NoticeUnit.sameAt_raiseMany_other _ _ (by decide)).trans
      (NoticeUnit.sameAt_raiseMany_other _ _ (by decide))).raiseMany _)

end

/-! ### The request (R25) -/

theorem State.compNamed_iff (s : State) (c : CompNo) :
    s.compNamed c = true ↔ ∃ i : SlotNo, s.slots[i].state ≠ .empty ∧ s.slots[i].compartment = c := by
  simp only [State.compNamed, anyAt_iff, Bool.and_eq_true, bne_iff_ne, beq_iff_eq]

theorem State.compartmentSet_badValue (s : State) {b enabled : Byte} {th ts : Half} (limit : Half)
    (h : 3 < b.toNat ∨ 1 < enabled.toNat ∨ th.toInt < -4000 ∨ 0 < th.toInt ∨ ts.toInt < th.toInt + 100 ∨
      1000 < ts.toInt) : s.compartmentSet b enabled th ts limit = (refuse .badValue, s) := by
  unfold State.compartmentSet
  split
  next c e hc he =>
    refine if_pos ?_
    rcases h with hb | hb | hrange
    · exact absurd hc (by simp only [numOf_eq_none hb, reduceCtorEq, not_false_eq_true])
    · exact absurd he (by simp only [yesNoOf_eq_none hb, reduceCtorEq, not_false_eq_true])
    · exact hrange
  next => rfl

section
variable {s : State} {b enabled : Byte} {th ts limit : Half} {c : CompNo} {e : Bool}

theorem State.compartmentSet_eq (hc : c.val = b.toNat) (he : yesNo e = [enabled])
    (hrange : -4000 ≤ th.toInt ∧ th.toInt ≤ 0 ∧ th.toInt + 100 ≤ ts.toInt ∧ ts.toInt ≤ 1000) :
    s.compartmentSet b enabled th ts limit =
      if e = false ∧ s.comps[c].settings.enabled = true ∧ s.compNamed c = true then (refuse .occupied, s)
      else (okay [], s.applyComp c ⟨e, th.toInt, ts.toInt, max 10 (min limit.toNat 3600)⟩) := by
  have hin : ¬ (th.toInt < -4000 ∨ 0 < th.toInt ∨ ts.toInt < th.toInt + 100 ∨ 1000 < ts.toInt) := by omega
  simp only [State.compartmentSet, numOf_of_val hc, yesNoOf_of_yesNo he, if_neg hin]
  rfl

end

/-- Settles O23: the checks of `State.compartmentSet`, and of an accepted request what `State.applyComp` leaves. -/
theorem compartmentSetWritesSettings : Obligations.CompartmentSetWritesSettings := by
  unfold Obligations.CompartmentSetWritesSettings
  intro s tag b enabled th ts limit hs
  refine ⟨fun h => State.submit_report (.compartmentSet b enabled th ts limit) hs (s.compartmentSet_badValue limit h),
    fun c e hc he h1 h2 h3 h4 => ⟨fun hoff hon hnamed => ?_, fun hfree => ?_⟩⟩
  · refine State.submit_report (.compartmentSet b enabled th ts limit) hs ?_
    exact (State.compartmentSet_eq hc he ⟨h1, h2, h3, h4⟩).trans (if_pos ⟨hoff, hon, (s.compNamed_iff c).mpr hnamed⟩)
  · have hnot : ¬ (e = false ∧ s.comps[c].settings.enabled = true ∧ s.compNamed c = true) := by
      rintro ⟨hoff, hon, hnamed⟩
      obtain ⟨i, hi, hic⟩ := (s.compNamed_iff c).mp hnamed
      rcases hfree with h | h | h
      · exact absurd (hoff.symm.trans h) (by decide)
      · exact absurd (hon.symm.trans h) (by decide)
      · exact h i hi hic
    obtain ⟨new, hnew⟩ : ∃ new : CompSettings, new = ⟨e, th.toInt, ts.toInt, max 10 (min limit.toNat 3600)⟩ := ⟨_, rfl⟩
    have hperform : s.compartmentSet b enabled th ts limit = (okay [], s.applyComp c new) := by
      rw [hnew]
      exact (State.compartmentSet_eq hc he ⟨h1, h2, h3, h4⟩).trans (if_neg hnot)
    have hcomp : (s.applyComp c new).comps[c] = (s.switched c new).comps[c] := by
      rw [State.applyComp_comp, getElem_setAt_self]
    refine ⟨s.applyComp c new, State.submit_of_ready (.compartmentSet b enabled th ts limit) hs hperform (by simp),
      ?_, fun d hd => ?_, by simp, by simp, fun hon hold => ?_, fun hoff hold => ?_, fun i => ?_, fun hsame => ?_, ?_,
      ?_, ?_, ?_, ?_, ?_⟩
    · rw [hcomp, State.switched_comps.2, hnew]
    · rw [State.applyComp_comp, getElem_setAt_ne _ _ (Ne.symm hd)]
    · rw [hcomp, State.switched_on ⟨by rw [hnew]; exact hon, hold⟩, State.enableComp_comps, getElem_setAt_self]
      exact ⟨rfl, rfl, rfl, rfl, rfl, rfl⟩
    · rw [hcomp, State.switched_off ⟨by rw [hnew]; exact hoff, hold⟩, State.disableComp_comps, getElem_setAt_self,
        State.setComp_comps, getElem_setAt_self]
      exact ⟨rfl, rfl, rfl, rfl⟩
    · rw [State.applyComp_slot]
      by_cases hcredit : s.turnsOn c new ∧ s.timed = true ∧ s.slots[i].heldIn c = true
      · obtain ⟨⟨hon, hold⟩, htimed, hheld⟩ := hcredit
        have hvalid := (State.timed_iff s).mp htimed
        rw [if_pos ⟨⟨hon, hold⟩, htimed, hheld⟩, if_pos ⟨by rw [hnew] at hon; exact hon, hold, hvalid, hheld⟩,
          (State.now_of_valid hvalid).2, Slot.creditGap, sat32_eq]
      · rw [if_neg hcredit, if_neg]
        rintro ⟨hon, hold, hvalid, hheld⟩
        exact hcredit ⟨⟨by rw [hnew]; exact hon, hold⟩, (State.timed_iff s).mpr hvalid, hheld⟩
    · rw [hcomp, State.switched_same (by rw [hnew]; exact hsame.symm), State.setComp_comps, getElem_setAt_self]
    · rintro a rfl
      rw [State.applyComp_log, hnew]
      refine if_congr (and_congr eq_comm (and_congr eq_comm eq_comm)) rfl ?_
      by_cases hsampled : (e = false ∧ s.comps[c].settings.enabled = true) ∧ 0 < s.comps[c].interval.steps
      · rw [State.sampled, if_pos hsampled, if_pos (and_assoc.mp hsampled)]
        rfl
      · rw [State.sampled, if_neg hsampled, if_neg (mt and_assoc.mpr hsampled)]
    · rw [State.applyComp_hatch]
    · rintro l overtaken hl rfl
      have hlimit : new.longOpenLimit = l := by rw [hnew, hl]
      refine ⟨by rw [State.applyComp_hatch, ← hlimit]; rfl, ?_⟩
      rintro k rfl
      obtain ⟨-, hmember, -⟩ := State.applyComp_longOpenNotice (s := s) (c := c) (new := new)
      rw [hmember, NoticeUnit.raiseMany_toNat_members, hlimit]
      rfl
    · refine fun h => State.applyComp_truth_kept ?_
      rcases h with h | h | h | h
      · exact .inl fun hoff => absurd (hoff.1.symm.trans ((congrArg CompSettings.enabled hnew).trans h)) (by decide)
      · exact .inl fun hoff => absurd (hoff.2.symm.trans h) (by decide)
      · exact .inr (.inl h)
      · refine .inr (.inr (Bool.eq_false_iff.mpr fun hname => ?_))
        obtain ⟨j, hj, hjc⟩ := State.memberNames_iff.mp hname
        exact h j hj hjc
    · intro j hoff hon hband hj hjc
      exact State.applyComp_truth_fresh ⟨by rw [hnew]; exact hoff, hon⟩ hband (State.memberNames_iff.mpr ⟨j, hj, hjc⟩)
    · rintro k rfl
      obtain ⟨-, hmember, -⟩ := State.applyComp_patternNotice (s := s) (c := c) (new := new)
      rw [hmember, NoticeUnit.raiseMany_toNat_members, Bool.and_assoc]

end Sys2Proof.Machine
end

