-- ==== Sys2Proof/Proofs/StartUpRecords.lean ====
section
/-! PROOFS. What the records and credits of a start-up leave of the slots, the log and the enables (R48, R66, R91, R97,
R132, R193, R194). -/

namespace Sys2Proof.Machine

/-! ### The enables (R165) -/

section
variable (s : State)

theorem State.handGeneral_enables (e : Entry) : (s.handGeneral e).notices.enables = s.notices.enables := by
  rw [State.handGeneral_notices, NoticeUnit.raiseMany_enables]

theorem State.handCustody_enables (e : Entry) : (s.handCustody e).notices.enables = s.notices.enables := by
  have hraise : ∀ (t : State) (c : Condition), (t.raise c).notices.enables = t.notices.enables :=
    fun t c => t.notices.raise_enables c.place
  unfold State.handCustody
  dsimp only
  split
  · simp only [State.afterCustody_frame, State.withLog_notices]
  · simp only [State.afterCustody_frame, State.withLog_notices]
  · split
    · rfl
    · exact hraise _ _

theorem State.closeRetained_enables (l : List CompNo) : (s.closeRetained l).notices.enables = s.notices.enables := by
  induction l generalizing s with
  | nil => rfl
  | cons c l ih =>
    rw [State.closeRetained, ih]
    split
    · rw [State.closeInterval_notices, NoticeUnit.raiseMany_enables]
    · rfl

theorem State.abandonAll_enables (t : Stamp) (l : List SlotNo) :
    (s.abandonAll t l).notices.enables = s.notices.enables := by
  induction l generalizing s with
  | nil => rfl
  | cons i l ih =>
    rw [State.abandonAll, ih]
    split
    · rw [State.abandon, State.handCustody_enables, State.setSlot_notices]
    · rfl

theorem State.recordDefaulted_enables : s.recordDefaulted.notices.enables = s.notices.enables := by
  unfold State.recordDefaulted
  split
  · exact State.handGeneral_enables _ _
  · rfl

theorem State.startRecords_enables (r : StartReason) (since : Nat) :
    (s.startRecords r since).notices.enables = s.notices.enables := by
  simp only [State.startRecords, State.handGeneral_enables, State.recordDefaulted_enables, State.creditStart_frame,
    State.abandonAll_enables, State.closeRetained_enables]

end

/-! ### Holds and HELD_FULL (R91) -/

/-- A later log with the holds of an earlier one, and HELD_FULL if that was. -/
def Log.KeepsHolds (l l' : Log) : Prop := l'.holds = l.holds ∧ (l.heldFull = true → l'.heldFull = true)

theorem Log.KeepsHolds.refl (l : Log) : l.KeepsHolds l := ⟨rfl, id⟩

theorem Log.KeepsHolds.trans {l l' l'' : Log} (h : l.KeepsHolds l') (h' : l'.KeepsHolds l'') : l.KeepsHolds l'' := by
  obtain ⟨hholds, hheld⟩ := h
  obtain ⟨hholds', hheld'⟩ := h'
  exact ⟨hholds'.trans hholds, fun hl => hheld' (hheld hl)⟩

section
variable (s : State)

theorem State.handGeneral_keepsHolds (e : Entry) : s.log.KeepsHolds (s.handGeneral e).log := s.handGeneral_holds e

/-- A record that ends a handover is no CUSTODY_OUT record: it moves no hold. -/
theorem State.abandon_keepsHolds (i : SlotNo) (r : AbandonReason) (t : Stamp) : s.log.KeepsHolds (s.abandon i r t).log := by
  unfold State.abandon State.handCustody
  dsimp only
  split
  · exact ⟨rfl, id⟩
  · exact ⟨rfl, id⟩
  · split
    · exact ⟨rfl, id⟩
    · exact ⟨rfl, fun _ => rfl⟩

theorem State.closeRetained_keepsHolds (l : List CompNo) : s.log.KeepsHolds (s.closeRetained l).log := by
  induction l generalizing s with
  | nil => exact .refl _
  | cons c l ih =>
    refine Log.KeepsHolds.trans ?_ (ih _)
    split
    · rw [State.closeInterval_log]
      exact s.handGeneral_keepsHolds _
    · exact .refl _

theorem State.abandonAll_keepsHolds (t : Stamp) (l : List SlotNo) : s.log.KeepsHolds (s.abandonAll t l).log := by
  induction l generalizing s with
  | nil => exact .refl _
  | cons i l ih =>
    refine Log.KeepsHolds.trans ?_ (ih _)
    split
    · exact s.abandon_keepsHolds _ _ _
    · exact .refl _

theorem State.recordDefaulted_keepsHolds : s.log.KeepsHolds s.recordDefaulted.log := by
  unfold State.recordDefaulted
  split
  · exact s.handGeneral_keepsHolds _
  · exact .refl _

theorem State.startRecords_keepsHolds (r : StartReason) (since : Nat) : s.log.KeepsHolds (s.startRecords r since).log := by
  have hcredit : ∀ t : State, t.creditStart.log = t.log := fun t => by simp only [State.creditStart_frame]
  unfold State.startRecords
  refine Log.KeepsHolds.trans ?_ (State.handGeneral_keepsHolds _ _)
  refine Log.KeepsHolds.trans ?_ (State.recordDefaulted_keepsHolds _)
  rw [hcredit]
  exact (s.closeRetained_keepsHolds _).trans (State.abandonAll_keepsHolds _ _ _)

end

/-! ### The slots -/

/-- A slot with its blind seconds and last accounted time replaced. -/
def Slot.accounted (x : Slot) (blind since : Nat) : Slot := { x with blind := blind, lastAccounted := since }

theorem Slot.accounted_self (x : Slot) : x.accounted x.blind x.lastAccounted = x := rfl

theorem Slot.creditGap_eq (x : Slot) (t : Nat) :
    x.creditGap t = x.accounted (sat32 (x.blind + (t - x.lastAccounted))) t := rfl

/-- A slot after start-up has ended a handover in progress (R132). -/
def Slot.handedBack (x : Slot) : Slot := if x.state = .handingOver then x.returned else x

theorem Slot.handedBack_handedBack (x : Slot) : x.handedBack.handedBack = x.handedBack := by
  by_cases h : x.state = .handingOver
  · rw [show x.handedBack = x.returned from if_pos h]
    exact if_neg (by simp [Slot.returned])
  · rw [show x.handedBack = x from if_neg h]
    exact if_neg h

theorem Slot.deferred_deferred (x : Slot) (a b : Bool) : (x.deferred a).deferred b = x.deferred (a || b) := by
  simp only [Slot.deferred, Bool.or_assoc]

section
variable (s : State) (i : SlotNo)

theorem State.closeRetained_slot (l : List CompNo) : ∃ b, (s.closeRetained l).slots[i] = s.slots[i].deferred b := by
  induction l generalizing s with
  | nil => exact ⟨false, (Slot.deferred_false _).symm⟩
  | cons c l ih =>
    have hclose : ∃ b, (if 0 < s.comps[c].interval.steps then s.closeInterval c s.stampNow else s).slots[i]
        = s.slots[i].deferred b := by
      by_cases hsteps : 0 < s.comps[c].interval.steps
      · simp only [hsteps, if_true, State.closeInterval_slot]
        split
        · exact ⟨_, rfl⟩
        · exact ⟨false, (Slot.deferred_false _).symm⟩
      · simp only [hsteps, if_false]
        exact ⟨false, (Slot.deferred_false _).symm⟩
    obtain ⟨a, ha⟩ := hclose
    obtain ⟨b, hb⟩ := ih (if 0 < s.comps[c].interval.steps then s.closeInterval c s.stampNow else s)
    exact ⟨a || b, by rw [State.closeRetained, hb, ha, Slot.deferred_deferred]⟩

theorem State.abandon_slots (t : Stamp) (j : SlotNo) :
    (s.abandon j .power t).slots = setAt s.slots j s.slots[j].returned := by
  simp only [State.abandon, State.handCustody_frame, State.setSlot_slots]

theorem State.abandonAll_slot (t : Stamp) (l : List SlotNo) :
    (s.abandonAll t l).slots[i] = if i ∈ l then s.slots[i].handedBack else s.slots[i] := by
  induction l generalizing s with
  | nil => simp only [State.abandonAll, List.not_mem_nil, if_false]
  | cons j l ih =>
    have hfirst : (if s.slots[j].state = .handingOver then s.abandon j .power t else s).slots[i] =
        if i = j then s.slots[i].handedBack else s.slots[i] := by
      by_cases hover : s.slots[j].state = .handingOver
      · rw [if_pos hover, State.abandon_slots, getElem_setAt]
        by_cases hij : i = j
        · subst hij
          rw [if_pos rfl, if_pos rfl, Slot.handedBack, if_pos hover]
        · rw [if_neg (Ne.symm hij), if_neg hij]
      · rw [if_neg hover]
        by_cases hij : i = j
        · subst hij
          rw [if_pos rfl, Slot.handedBack, if_neg hover]
        · rw [if_neg hij]
    rw [State.abandonAll, ih, hfirst]
    by_cases hij : i = j
    · simp only [hij, List.mem_cons, true_or, if_true, Slot.handedBack_handedBack, ite_self]
    · simp only [hij, List.mem_cons, false_or, if_false]

/-- The gap credits leave all but blind seconds and the last accounted time (R194). -/
theorem State.creditStart_slot : ∃ b t, s.creditStart.slots[i] = s.slots[i].accounted b t := by
  by_cases ht : s.timed = true
  · have hgaps : s.creditStart.slots[i] =
        if s.slots[i].state = .inCustody then s.slots[i].creditGap s.now else s.slots[i] := by
      rw [State.creditStart, if_pos ht, State.creditGaps, State.withSlots_slots, getElem_mapAll]
    rw [hgaps]
    split
    · exact ⟨_, _, Slot.creditGap_eq _ _⟩
    · exact ⟨_, _, (Slot.accounted_self _).symm⟩
  · rw [State.creditStart, if_neg ht]
    exact ⟨_, _, (Slot.accounted_self _).symm⟩

theorem State.recordDefaulted_slots : s.recordDefaulted.slots = s.slots := by
  unfold State.recordDefaulted
  split
  · exact s.handConfig_slots _ _
  · rfl

theorem State.handPower_slots (t : State) (r : StartReason) (since n : Nat) :
    (s.handGeneral (t.powerEntry r since n)).slots = s.slots := by
  have hdefers : s.log.defers (t.powerEntry r since n) = none := by
    unfold Log.defers State.powerEntry
    cases s.log.generalFate <;> rfl
  rw [State.handGeneral_slots, hdefers]
  rfl

/-- A slot after the records and credits: a handover ended, blind seconds credited, a SAMPLE deferred. -/
theorem State.startRecords_slot (r : StartReason) (since : Nat) : ∃ d b t, (s.startRecords r since).slots[i] =
    (s.slots[i].deferred d).handedBack.accounted b t := by
  obtain ⟨d, hd⟩ := s.closeRetained_slot i (places 4)
  obtain ⟨b, t, hcredit⟩ := ((s.closeRetained (places 4)).abandonAll s.stampNow
    (places 64)).creditStart_slot i
  have habandon : ((s.closeRetained (places 4)).abandonAll s.stampNow (places 64)).slots[i]
      = (s.slots[i].deferred d).handedBack := by
    rw [State.abandonAll_slot, if_pos (show i ∈ places 64 from List.mem_finRange i), hd]
  refine ⟨d, b, t, ?_⟩
  rw [State.startRecords, State.handPower_slots, State.recordDefaulted_slots, hcredit, habandon]

end

end Sys2Proof.Machine
end

