-- ==== Sys2Proof/Proofs/StartUpLeaves.lean ====
section
/-! PROOFS. What start-up leaves, whichever of its three events brings it (R23, R48, R66, R91, R97, R132, R133, R137, R173,
R179, R185, R188, R193, R195, R203). -/

namespace Sys2Proof.Machine

/-! ### The seconds of openings in progress (R66, R193 step 2) -/

/-- A slot after the openings in progress end: with the clock VALID a consignment in custody is credited those of its
compartment. -/
def State.openingCredited (s : State) (x : Slot) : Slot :=
  if s.timed = true ∧ x.inCustody = true ∧ s.hatch.openings[x.compartment].state = .opening then
    x.creditOpening s.now s.hatch.openings[x.compartment].startTime
  else x

section
variable (s : State) (i : SlotNo)

theorem State.creditOpen_slot (c : CompNo) : (s.creditOpen c).slots[i] =
    if s.slots[i].compartment = c then s.openingCredited s.slots[i] else s.slots[i] := by
  have hslot : (s.creditOpen c).slots[i] = if s.hatch.openings[c].state = .opening ∧ s.timed = true ∧
      s.slots[i].heldIn c = true then s.slots[i].creditOpening s.now s.hatch.openings[c].startTime else s.slots[i] := by
    by_cases hopen : s.hatch.openings[c].state = .opening
    · by_cases ht : s.timed = true
      · simp only [State.creditOpen, State.creditOpenings, hopen, ht, if_true, getElem_updHeldIn, true_and]
      · simp only [State.creditOpen, State.creditOpenings, hopen, ht, if_true, Bool.false_eq_true, if_false, false_and,
          and_false]
    · simp only [State.creditOpen, hopen, if_false, false_and]
  rw [hslot]
  by_cases hc : s.slots[i].compartment = c
  · subst hc
    rw [if_pos rfl, State.openingCredited]
    refine if_congr ?_ rfl rfl
    simp only [Slot.heldIn, Bool.and_eq_true, beq_self_eq_true, and_true]
    tauto
  · rw [if_neg hc, if_neg]
    simp only [Slot.heldIn, Bool.and_eq_true, beq_iff_eq]
    tauto

theorem State.openingCredited_creditOpen (c : CompNo) (x : Slot) : (s.creditOpen c).openingCredited x = s.openingCredited x := by
  obtain ⟨-, hnow, htimed⟩ := State.stampNow_of_clock (s := s) (t := s.creditOpen c) (by simp)
  have hhatch : (s.creditOpen c).hatch = s.hatch := by simp
  simp only [State.openingCredited, hnow, htimed, hhatch]

theorem State.creditOpenAll_slot {l : List CompNo} (hl : l.Nodup) : (s.creditOpenAll l).slots[i] =
    if s.slots[i].compartment ∈ l then s.openingCredited s.slots[i] else s.slots[i] := by
  induction l generalizing s with
  | nil => simp only [State.creditOpenAll, List.not_mem_nil, if_false]
  | cons c l ih =>
    obtain ⟨hc, hrest⟩ := List.nodup_cons.mp hl
    rw [State.creditOpenAll, ih _ hrest, State.openingCredited_creditOpen, State.creditOpen_slot]
    by_cases hhere : s.slots[i].compartment = c
    · have hkept : (s.openingCredited s.slots[i]).compartment = c := by
        rw [← hhere, State.openingCredited]
        split <;> rfl
      rw [if_pos hhere, hkept, if_neg hc, if_pos (by rw [hhere]; exact List.mem_cons_self)]
    · simp only [hhere, if_false, List.mem_cons, false_or]

/-- Of every opening in progress a consignment in custody is credited at most its own compartment's. -/
theorem State.creditOpenAll_places : (s.creditOpenAll (places 4)).slots[i] = s.openingCredited s.slots[i] := by
  exact (s.creditOpenAll_slot i (l := places 4) (List.nodup_finRange 4)).trans (if_pos (List.mem_finRange _))

end

/-! ### The blocks after start-up -/

section
variable (s : State) (r : StartReason) (since : Nat)

/-- The blocks that hold no record: what `State.startBlocks` built of them stands. -/
theorem State.startUp_stores : (s.startUp r since).logInterval = s.restored.logInterval ∧
    (s.startUp r since).handoverLimit = s.restored.handoverLimit ∧
    (s.startUp r since).claims = s.claims.restarted s.restored.allowance ∧
    (s.startUp r since).offsets = s.offsets.settle ∧
    (s.startUp r since).settings = s.settings.started (Config.cutOffWriteValid s.free) ∧
    (s.startUp r since).label = s.restored.label ∧ (s.startUp r since).link = s.link.started ∧
    (s.startUp r since).clock = { s.clock with uptime := 0 } := by
  simp only [State.startUp, State.withFree_logInterval, State.withFree_handoverLimit, State.withFree_claims,
    State.withFree_offsets, State.withFree_settings, State.withFree_label, State.withFree_link, State.withFree_clock,
    State.endStart_frame, State.startRecords_frame]
  exact ⟨rfl, rfl, rfl, rfl, rfl, rfl, rfl, rfl⟩

theorem State.startUp_slot (i : SlotNo) : ∃ d b t,
    (s.startUp r since).slots[i] = (s.slots[i].deferred d).handedBack.accounted b t := by
  obtain ⟨d, b, t, h⟩ := s.startBlocks.startRecords_slot i r since
  refine ⟨d, b, t, ?_⟩
  rw [State.startUp, State.withFree_slots]
  simp only [State.endStart_frame, h, State.startBlocks_frame]

theorem State.startUp_keepsHolds : s.log.KeepsHolds (s.startUp r since).log := by
  have hlog : (s.startUp r since).log = (s.startBlocks.startRecords r since).log := by
    simp only [State.startUp, State.withFree_log, State.endStart_frame]
  rw [hlog]
  exact s.startBlocks.startRecords_keepsHolds r since

/-- Raises make a place pending that is enabled. -/
theorem NoticeUnit.raiseMany_members_at (u : NoticeUnit) (k j : Fin 18) (b : Bool) :
    (u.raiseMany k b.toNat).members[j] = (u.members[j] || (u.enables[j] && (decide (j = k) && b))) := by
  by_cases h : j = k
  · subst h
    rw [NoticeUnit.raiseMany_toNat_members, decide_eq_true rfl, Bool.true_and]
  · rw [(u.raiseMany_other b.toNat h).1, decide_eq_false h, Bool.false_and, Bool.and_false, Bool.or_false]

/-- Emptying the pending set leaves the enables. -/
theorem NoticeUnit.emptied_frame (u : NoticeUnit) :
    u.emptied.enables = u.enables ∧ ∀ j : Fin 18, u.emptied.members[j] = false :=
  ⟨rfl, fun j => by simp [NoticeUnit.emptied]⟩

theorem State.endStart_notices : s.endStart.notices =
    (s.notices.emptied.raiseMany Condition.clockLost.place (s.truth .clockLost).toNat).raiseMany Condition.logHeld.place
      (s.truth .logHeld).toNat := by
  rw [State.endStart, State.raiseIf_notices, State.raiseIf_notices, State.withNotices_notices]

/-- The pending set after start-up: CLOCK_LOST and LOG_HELD, each when enabled and its truth holds (R173). -/
theorem State.startUp_notices : (s.startUp r since).notices.enables = s.restored.enables ∧
    ∀ j : Fin 18, (s.startUp r since).notices.members[j] =
      (s.restored.enables[j] && (decide (j = Condition.clockLost.place) && (s.clock.state == .unset) ||
        decide (j = Condition.logHeld.place) && (s.startUp r since).log.heldFull)) := by
  have henables : (s.startBlocks.startRecords r since).notices.enables = s.restored.enables :=
    s.startBlocks.startRecords_enables r since
  have hclock : (s.startBlocks.startRecords r since).truth .clockLost = (s.clock.state == .unset) := by
    rw [State.truth, show (s.startBlocks.startRecords r since).clock = s.startBlocks.clock by simp]
    rfl
  have hheld : (s.startBlocks.startRecords r since).truth .logHeld = (s.startUp r since).log.heldFull := by
    simp only [State.truth, State.startUp, State.withFree_log, State.endStart_frame]
  have hnotices : (s.startUp r since).notices =
      ((s.startBlocks.startRecords r since).notices.emptied.raiseMany Condition.clockLost.place
        (s.clock.state == .unset).toNat).raiseMany Condition.logHeld.place (s.startUp r since).log.heldFull.toNat := by
    have hend : (s.startUp r since).notices = (s.startBlocks.startRecords r since).endStart.notices :=
      State.withFree_notices _ _
    rw [hend, State.endStart_notices, hclock, hheld]
  have hempty : (s.startBlocks.startRecords r since).notices.emptied.enables = s.restored.enables :=
    (NoticeUnit.emptied_frame _).1.trans henables
  refine ⟨by rw [hnotices, NoticeUnit.raiseMany_enables, NoticeUnit.raiseMany_enables, hempty], fun j => ?_⟩
  have hnone : (s.startBlocks.startRecords r since).notices.emptied.members[j] = false :=
    (NoticeUnit.emptied_frame _).2 j
  rw [hnotices, NoticeUnit.raiseMany_members_at, NoticeUnit.raiseMany_members_at, NoticeUnit.raiseMany_enables, hempty,
    hnone, Bool.false_or, ← Bool.and_or_distrib_left]

end

end Sys2Proof.Machine
end

