-- ==== Sys2Proof/Proofs/StartUpEvents.lean ====
section
/-! PROOFS. The three events that start the part up, and what start-up leaves after each (O53). -/

namespace Sys2Proof.Machine

/-! ### Configuration, offset store and link -/

/-- Every block takes its part of the restored configuration (R185). -/
theorem State.startUp_config (s : State) (r : StartReason) (since : Nat) : (s.startUp r since).config = s.restored := by
  obtain ⟨hscan, hhatch⟩ := s.startUp_blocks r since
  obtain ⟨hinterval, hhandover, hclaims, -, -, hlabel, -, -⟩ := s.startUp_stores r since
  obtain ⟨henables, -⟩ := s.startUp_notices r since
  have hcomps : mapAll (·.settings) (s.startUp r since).comps = s.restored.comps :=
    table_ext fun c => by rw [getElem_mapAll, State.startUp_comp]
  have hinputs : mapAll (·.settings) (s.startUp r since).hatch.inputs = s.restored.inputs :=
    table_ext fun i => by
      rw [getElem_mapAll, hhatch, HatchMonitor.started, getElem_ofFn_place]
      rfl
  rw [State.config, hcomps, hinputs, hscan, hinterval, hhandover, hclaims, hlabel, henables, hhatch]
  rfl

theorem OffsetStore.entriesOf_withEntries (o : OffsetStore) (c d : CalSlot) (v : Vector OffsetEntry 16) :
    (o.withEntries c v).entriesOf d = if d = c then v else o.entriesOf d := by
  cases c <;> cases d <;> rfl

theorem OffsetStore.withEntries_lastOp (o : OffsetStore) (c : CalSlot) (v : Vector OffsetEntry 16) :
    (o.withEntries c v).lastOp = o.lastOp := by
  cases c <;> rfl

/-- An operation cut off ends INTERRUPTED (R179). -/
theorem OffsetStore.settle_frame (o : OffsetStore) : o.settle.running = none ∧
    o.settle.lastResult = (if o.running.isSome then .interrupted else o.lastResult) ∧ o.settle.lastOp = o.lastOp := by
  unfold OffsetStore.settle
  cases h : o.running with
  | none => exact ⟨h, rfl, rfl⟩
  | some p =>
    cases p with
    | erase c => exact ⟨rfl, rfl, o.withEntries_lastOp c _⟩
    | program c i v => exact ⟨rfl, rfl, o.withEntries_lastOp c _⟩

theorem OffsetStore.settle_erase {o : OffsetStore} {e : CalSlot} (h : o.running = some (.erase e)) (d : CalSlot) :
    o.settle.entriesOf d = if d = e then Vector.replicate 16 .blank else o.entriesOf d := by
  rw [OffsetStore.settle, h, ← OffsetStore.entriesOf_withEntries]
  cases d <;> rfl

theorem OffsetStore.settle_program {o : OffsetStore} {e : CalSlot} {j : EntryNo} {v : Int}
    (h : o.running = some (.program e j v)) (d : CalSlot) :
    o.settle.entriesOf d = if d = e then setAt (o.entriesOf d) j .blank else o.entriesOf d := by
  have hset : o.settle.entriesOf d = (o.withEntries e (setAt (o.entriesOf e) j .blank)).entriesOf d := by
    rw [OffsetStore.settle, h]
    cases d <;> rfl
  rw [hset, OffsetStore.entriesOf_withEntries]
  split
  next hd => rw [hd]
  next => rfl

/-- A save cut off ends INTERRUPTED (R185 step 1). -/
theorem SettingsStore.started_frame (x : SettingsStore) (landed : Bool) : (x.started landed).saving = none ∧
    (x.started landed).lastResult = (if x.saving.isSome then .interrupted else x.lastResult) := by
  unfold SettingsStore.started SettingsStore.settle
  cases h : x.saving with
  | none => exact ⟨h, rfl⟩
  | some w => exact ⟨rfl, rfl⟩

/-- With no reply formed the transmitter can begin a notice only. -/
theorem State.offer_of_noReply {s : State} (h : s.link.reply = none) :
    s.offer.link = { s.link with transmitter := s.offer.link.transmitter } ∧
      s.offer.notices.members = s.notices.members ∧ s.offer.notices.enables = s.notices.enables := by
  cases ht : s.link.transmitter with
  | idle =>
    cases ho : s.notices.owed with
    | false =>
      rw [show s.offer = s by simp only [State.offer, ht, h, ho, Bool.false_eq_true, if_false]]
      exact ⟨rfl, rfl, rfl⟩
    | true =>
      rw [show s.offer = s.sendNotice by simp only [State.offer, ht, h, ho, if_true]]
      unfold State.sendNotice
      split <;> exact ⟨rfl, rfl, rfl⟩
  | sendingReply f =>
    rw [State.offer_busy (by simp [ht])]
    exact ⟨rfl, rfl, rfl⟩
  | sendingNotice f =>
    rw [State.offer_busy (by simp [ht])]
    exact ⟨rfl, rfl, rfl⟩

/-! ### The three events -/

/-- The part as `State.startUp` takes it up after an event, `live` when VDD stayed present: its clock is decided, its
openings are credited, and nothing else has changed but the link. -/
structure State.Begins (s s0 : State) (live : Bool) (k : ClockState) : Prop where
  power : s0.power = .on
  clock : s0.clock.state = k
  free : s0.free = s.free
  settings : s0.settings = s.settings
  offsets : s0.offsets = s.offsets
  claims : s0.claims = s.claims
  log : s0.log = s.log
  hatch : s0.hatch = s.hatch
  slots : ∀ i : SlotNo, s0.slots[i] = if live then s.openingCredited s.slots[i] else s.slots[i]

/-- The part as a start-up with VDD present takes it up. -/
def State.restarting (s : State) (n : Nat) : State :=
  (s.creditOpenAll (places 4)).withClock ((s.creditOpenAll (places 4)).clock.pass n)

theorem State.restartAs_eq (s : State) (r : StartReason) (n : Nat) : s.restartAs r n = (s.restarting n).startUp r s.now := rfl

theorem State.restarting_begins {s : State} (h : s.power = .on) (n : Nat) :
    s.Begins (s.restarting n) true s.clock.state where
  power := by simpa [State.restarting] using h
  clock := by simp [State.restarting, DeviceClock.pass]
  free := by simp [State.restarting]
  settings := by simp [State.restarting]
  offsets := by simp [State.restarting]
  claims := by simp [State.restarting]
  log := by simp [State.restarting]
  hatch := by simp [State.restarting]
  slots i := by rw [State.restarting, State.withClock_slots, State.creditOpenAll_places, if_pos rfl]

/-- The part as a power-on takes it up. -/
def State.powering (s : State) (absence : Nat) (held : Bool) : State :=
  (s.withPower .on).withClock (s.clock.powered absence held (Config.lostCounter s.free))

theorem State.powering_begins (s : State) (absence : Nat) (held : Bool) :
    s.Begins (s.powering absence held) false (if s.clock.state = .valid ∧ held = true then .valid else .unset) where
  power := rfl
  clock := by
    by_cases h : s.clock.state = .valid ∧ held = true
    · rw [if_pos h, State.powering, State.withClock_clock, DeviceClock.powered, if_pos h]
      exact h.1
    · rw [if_neg h, State.powering, State.withClock_clock, DeviceClock.powered, if_neg h]
  free := rfl
  settings := rfl
  offsets := rfl
  claims := rfl
  log := rfl
  hatch := rfl
  slots _ := rfl

/-- The link as a RESTART leaves it for its start-up: the frame being sent and the reply are out in full (R195). -/
def State.restartSent (s : State) (tag : Byte) : State := s.updLink fun l =>
  { l with sent := l.sent ++ l.transmitter.frame?.toList ++ [replyFrame Request.restart.kind tag (okay [])] }

theorem State.restartSent_begins {s s0 : State} {tag : Byte} {live : Bool} {k : ClockState}
    (h : (s.restartSent tag).Begins s0 live k) : s.Begins s0 live k :=
  ⟨h.power, h.clock, h.free, h.settings, h.offsets, h.claims, h.log, h.hatch, h.slots⟩

theorem State.startUp_events {s : State} {c : Instr} {k : ClockState} {live : Bool}
    (h : (∃ n b, c = .powerOn n b ∧ live = false ∧ k = (if s.clock.state = .valid ∧ b = true then .valid else .unset)) ∨
      (∃ n, c = .resetLine n ∧ s.power = .on ∧ live = true ∧ k = s.clock.state) ∨
      (∃ tag, c = .restart tag ∧ s.ready ∧ live = true ∧ k = s.clock.state)) :
    ∃ s0 r since, exec c s = .next (State.startUp s0 r since).pump ∧ s.Begins s0 live k ∧
      ∀ tag, c = .restart tag →
        s0.link.sent = s.link.sent ++ s.link.transmitter.frame?.toList ++ [replyFrame 0x5B tag (okay [])] := by
  rcases h with ⟨n, b, rfl, rfl, rfl⟩ | ⟨n, rfl, hon, rfl, rfl⟩ | ⟨tag, rfl, ⟨hon, hreply, hqueue⟩, rfl, rfl⟩
  · exact ⟨s.powering n b, .powerOn, s.clock.lastValid, rfl, s.powering_begins n b, nofun⟩
  · refine ⟨s.restarting n, .resetLine, s.now, ?_, State.restarting_begins hon n, nofun⟩
    refine congrArg Host.Outcome.next ?_
    simp only [State.happen, hon, State.restartAs_eq]
  · refine ⟨(s.restartSent tag).restarting (Config.restartSeconds s.free), .restart, s.now, ?_,
      State.restartSent_begins (State.restarting_begins (s := s.restartSent tag) hon _), ?_⟩
    · refine congrArg Host.Outcome.next ?_
      simp only [State.submit, State.happen, hon, hreply, hqueue, and_self, if_true, State.take]
      rfl
    · rintro tag' htag
      cases htag
      simp only [State.restarting, State.withClock_link, State.creditOpenAll_frame]
      rfl

/-! ### The tables -/

section
variable (w : WorkingConfig)

/-- No reading, no failure count and no fault outlives a start-up (R23). -/
theorem Scanner.started_tables (i : EntryNo) : (Scanner.started w).rows[i] = .cleared ∧
    (Scanner.started w).failures[i] = 0 ∧ (Scanner.started w).faults[i] = false := by
  simp [Scanner.started]

/-- Every input waits for its first debounce, and every compartment is SHUT (R66). -/
theorem HatchMonitor.started_tables (h : HatchMonitor) :
    (∀ i : InputNo, (h.started w).inputs[i] = ⟨w.inputs[i], h.inputs[i].made, .unsettled, some w.debounceSteps, 0⟩) ∧
      ∀ c : CompNo, (h.started w).openings[c] = .shut := by
  refine ⟨fun i => ?_, fun c => ?_⟩
  · rw [HatchMonitor.started, getElem_ofFn_place]
    rfl
  · simp [HatchMonitor.started]

theorem ClaimUnit.restarted_slot (u : ClaimUnit) (allowance : Nat) (i : ClaimNo) :
    (u.restarted allowance).slots[i] = u.slots[i].map Claim.restarted := by
  rw [ClaimUnit.restarted, getElem_mapAll]

end

/-! ### The slots -/

theorem Slot.handedBack_of_over {x : Slot} (h : x.state = .handingOver) : x.handedBack = x.returned := if_pos h

theorem Slot.handedBack_of_not {x : Slot} (h : ¬ x.state = .handingOver) : x.handedBack = x := if_neg h

/-- Beside what `openingSeconds` is given, start-up changes these fields of a slot alone. -/
theorem Slot.started_eq (x : Slot) (q b t : Nat) (d : Bool) :
    (({ x with openingSeconds := q }).deferred d).handedBack.accounted b t =
      { x with
        state := if x.state = .handingOver then .inCustody else x.state
        handover := if x.state = .handingOver then none else x.handover
        openingSeconds := q
        blind := b, lastAccounted := t, logDeferred := x.logDeferred || d } := by
  by_cases h : x.state = .handingOver
  · rw [Slot.handedBack_of_over, if_pos h, if_pos h]
    · rfl
    · exact h
  · rw [Slot.handedBack_of_not, if_neg h, if_neg h]
    · rfl
    · exact h

/-- The opening seconds a start-up leaves (R66). -/
def State.startSeconds (s : State) (live : Bool) (x : Slot) : Nat :=
  if live = true ∧ s.clock.state = .valid ∧ x.inCustody = true ∧ s.hatch.openings[x.compartment].state = .opening then
    min (x.openingSeconds + (s.now - max s.hatch.openings[x.compartment].startTime x.inTime)) 4294967295
  else x.openingSeconds

theorem State.openingCredited_eq (s : State) (live : Bool) (x : Slot) :
    (if live then s.openingCredited x else x) = { x with openingSeconds := s.startSeconds live x } := by
  cases live with
  | false =>
    rw [show s.startSeconds false x = x.openingSeconds from if_neg fun h => absurd h.1 (by decide)]
    rfl
  | true =>
    by_cases h : s.timed = true ∧ x.inCustody = true ∧ s.hatch.openings[x.compartment].state = .opening
    · rw [if_pos rfl, State.openingCredited, if_pos h, State.startSeconds,
        if_pos ⟨rfl, (State.timed_iff s).mp h.1, h.2⟩, ← sat32_eq]
      rfl
    · rw [if_pos rfl, State.openingCredited, if_neg h, State.startSeconds,
        if_neg fun hall => h ⟨(State.timed_iff s).mpr hall.2.1, hall.2.2⟩]

section
variable {s s0 : State} {live : Bool} {k : ClockState}

theorem State.Begins.slot (h : s.Begins s0 live k) (r : StartReason) (since : Nat) (i : SlotNo) : ∃ d b t,
    (s0.startUp r since).slots[i] =
      { s.slots[i] with
        state := if s.slots[i].state = .handingOver then .inCustody else s.slots[i].state
        handover := if s.slots[i].state = .handingOver then none else s.slots[i].handover
        openingSeconds := s.startSeconds live s.slots[i]
        blind := b, lastAccounted := t, logDeferred := s.slots[i].logDeferred || d } := by
  obtain ⟨d, b, t, hslot⟩ := s0.startUp_slot r since i
  exact ⟨d, b, t, by rw [hslot, h.slots, State.openingCredited_eq, Slot.started_eq]⟩

/-- The event leaves the stores, and so the restored configuration, as they were. -/
theorem State.Begins.restored (h : s.Begins s0 live k) : s0.restored = s.restored := by
  rw [State.restored, State.restored, h.settings, h.free]

/-- The link after start-up and the offer that follows it: nothing waits, and at most a notice has begun (R203). -/
theorem State.startUp_link (s0 : State) (r : StartReason) (since : Nat) :
    (s0.startUp r since).pump = (s0.startUp r since).offer ∧
      (s0.startUp r since).offer.notices.members = (s0.startUp r since).notices.members ∧
      (s0.startUp r since).offer.config = (s0.startUp r since).config ∧
      ∃ x, (s0.startUp r since).offer.link = { s0.link.started with transmitter := x } := by
  obtain ⟨-, -, -, -, -, -, hlink, -⟩ := s0.startUp_stores r since
  have hreply : (s0.startUp r since).link.reply = none := by rw [hlink]; rfl
  have hqueue : (s0.startUp r since).link.queue = [] := by rw [hlink]; rfl
  obtain ⟨hoffer, hmembers, henables⟩ := State.offer_of_noReply hreply
  refine ⟨State.pump_eq_offer (fun _ => hqueue) (fun _ => hqueue), hmembers, ?_, _, by rw [hoffer, hlink]⟩
  simp only [State.config, State.offer_frame, henables]

end

end Sys2Proof.Machine
end

