-- ==== Sys2Proof/Proofs/StartUpSettled.lean ====
section
/-! PROOFS. What start-up leaves, put together (O53). -/

namespace Sys2Proof.Machine

/-- What a start-up has left of a part `s`: the state `t`, with VDD present throughout (`live`) or not, and clock state k. -/
structure State.StartedUp (s t : State) (live : Bool) (k : ClockState) : Prop where
  power : t.power = .on
  clock : t.clock.state = k
  uptime : t.clock.uptime = 0
  scan : t.scan = .started s.restored
  config : t.config = s.restored
  comps : ∀ c : CompNo, t.comps[c] = ⟨s.restored.comps[c], .unknown, .unset, none, 0, t.stampNow, .opening t.stampNow⟩
  hatch : t.hatch = s.hatch.started s.restored
  slots : ∀ i : SlotNo, ∃ d b since, t.slots[i] =
    { s.slots[i] with
      state := if s.slots[i].state = .handingOver then .inCustody else s.slots[i].state
      handover := if s.slots[i].state = .handingOver then none else s.slots[i].handover
      openingSeconds := s.startSeconds live s.slots[i]
      blind := b, lastAccounted := since, logDeferred := s.slots[i].logDeferred || d }
  log : s.log.KeepsHolds t.log
  claims : t.claims = s.claims.restarted s.restored.allowance
  offsets : t.offsets = s.offsets.settle
  settings : t.settings = s.settings.started (Config.cutOffWriteValid s.free)
  pending : ∀ j : Fin 18, t.notices.members[j] =
    (s.restored.enables[j] && (decide (j = Condition.clockLost.place) && (k == .unset) ||
      decide (j = Condition.logHeld.place) && t.log.heldFull))

section
variable {s s0 t : State} {live : Bool} {k : ClockState}

theorem State.Begins.startedUp (h : s.Begins s0 live k) (r : StartReason) (since : Nat) :
    s.StartedUp (s0.startUp r since) live k := by
  obtain ⟨hscan, hhatch⟩ := s0.startUp_blocks r since
  obtain ⟨-, -, hclaims, hoffsets, hsettings, -, -, hclock⟩ := s0.startUp_stores r since
  obtain ⟨-, hpending⟩ := s0.startUp_notices r since
  have hlog := s0.startUp_keepsHolds r since
  have hconfig := s0.startUp_config r since
  have hcomps := s0.startUp_comp r since
  have hpower : (s0.startUp r since).power = s0.power := by simp only [State.startUp_frame]
  rw [h.restored] at hscan hhatch hclaims hconfig hcomps
  rw [h.restored, h.clock] at hpending
  rw [h.hatch] at hhatch
  rw [h.claims] at hclaims
  rw [h.offsets] at hoffsets
  rw [h.settings, h.free] at hsettings
  rw [h.log] at hlog
  exact
    { power := hpower.trans h.power, clock := (congrArg DeviceClock.state hclock).trans h.clock
      uptime := congrArg DeviceClock.uptime hclock, scan := hscan, config := hconfig, comps := hcomps, hatch := hhatch
      slots := h.slot r since, log := hlog, claims := hclaims, offsets := hoffsets, settings := hsettings
      pending := hpending }

/-- The offer that follows start-up changes nothing of this. -/
theorem State.StartedUp.offer (h : s.StartedUp t live k) (hmembers : t.offer.notices.members = t.notices.members)
    (hconfig : t.offer.config = t.config) : s.StartedUp t.offer live k := by
  have hstamp : t.offer.stampNow = t.stampNow := (State.stampNow_of_clock (by simp only [State.offer_frame])).1
  obtain ⟨-, hpower, hscan, hcomps, -, hhatch, hlog, hslots, -, hclaims, hoffsets, hsettings, -, hclock, -, -⟩ :=
    t.offer_frame
  refine ⟨?_, ?_, ?_, ?_, ?_, ?_, ?_, ?_, ?_, ?_, ?_, ?_, ?_⟩
  · rw [hpower, h.power]
  · rw [hclock, h.clock]
  · rw [hclock, h.uptime]
  · rw [hscan, h.scan]
  · rw [hconfig, h.config]
  · rw [hcomps, hstamp]
    exact h.comps
  · rw [hhatch, h.hatch]
  · rw [hslots]
    exact h.slots
  · rw [hlog]
    exact h.log
  · rw [hclaims, h.claims]
  · rw [hoffsets, h.offsets]
  · rw [hsettings, h.settings]
  · rw [hmembers, hlog]
    exact h.pending

/-- The entries of the offset store: those of an operation cut off are BLANK (R179). -/
theorem State.StartedUp.entries (h : s.StartedUp t live k) (d : CalSlot) :
    t.offsets.entriesOf d = match s.offsets.running with
      | some (.erase e) => if d = e then Vector.replicate 16 .blank else s.offsets.entriesOf d
      | some (.program e j _) => if d = e then setAt (s.offsets.entriesOf d) j .blank else s.offsets.entriesOf d
      | none => s.offsets.entriesOf d := by
  rw [h.offsets]
  cases hop : s.offsets.running with
  | none => rw [OffsetStore.settle, hop]
  | some p =>
    cases p with
    | erase e => exact OffsetStore.settle_erase hop d
    | program e j v => exact OffsetStore.settle_program hop d

theorem State.StartedUp.logHeld (h : s.StartedUp t live k) : t.notices.members[Condition.logHeld.place] =
    (s.restored.enables[Condition.logHeld.place] && t.log.heldFull) := by
  rw [h.pending, decide_eq_false (by decide : ¬ Condition.logHeld.place = Condition.clockLost.place), Bool.false_and,
    Bool.false_or, decide_eq_true rfl, Bool.true_and]

/-- No other condition than these two is pending (R173). -/
theorem State.StartedUp.onlyTwo (h : s.StartedUp t live k) {j : Fin 18} (hj : t.notices.members[j] = true) :
    j = Condition.logHeld.place ∨ j = Condition.clockLost.place := by
  rw [h.pending] at hj
  simp only [Bool.and_eq_true, Bool.or_eq_true, decide_eq_true_eq] at hj
  exact hj.2.symm.imp And.left And.left

theorem State.StartedUp.clockLost (h : s.StartedUp t live .unset)
    (he : s.restored.enables[Condition.clockLost.place] = true) : t.notices.members[Condition.clockLost.place] = true := by
  rw [h.pending, he, decide_eq_true rfl]
  rfl

end

/-- Settles O53: each event begins a start-up that leaves `State.StartedUp`, and the offer after it can begin a notice
only. -/
theorem startUpLeavesTheBlocks : Obligations.StartUpLeavesTheBlocks := by
  unfold Obligations.StartUpLeavesTheBlocks
  rintro s c w k live hevent rfl
  obtain ⟨s0, r, since, hexec, hbegin, hsent⟩ := State.startUp_events hevent
  obtain ⟨hpump, hmembers, hconfig, x, hlink⟩ := s0.startUp_link r since
  rw [hpump] at hexec
  have h := (hbegin.startedUp r since).offer hmembers hconfig
  refine ⟨(s0.startUp r since).offer, hexec, ?_⟩
  generalize (s0.startUp r since).offer = t at h hlink ⊢
  obtain ⟨hrunning, hresult, hlastOp⟩ := s.offsets.settle_frame
  obtain ⟨hsaving, hsaved⟩ := s.settings.started_frame (Config.cutOffWriteValid s.free)
  obtain ⟨hinputs, hopenings⟩ := HatchMonitor.started_tables s.restored s.hatch
  obtain ⟨hholds, hheld⟩ := h.log
  refine ⟨h.power, h.clock, h.uptime, congrArg Scanner.state h.scan, congrArg Scanner.read h.scan,
    congrArg Scanner.cycleSet h.scan, congrArg Scanner.pendingRange h.scan, congrArg Scanner.completed h.scan,
    congrArg Scanner.lastEnding h.scan, congrArg Scanner.overruns h.scan, congrArg Scanner.tickIn h.scan, fun i => ?_,
    h.config, h.comps, fun i => ?_, fun i => ?_, congrArg HatchMonitor.patternTruth h.hatch, fun i x o hx ho => ?_,
    hholds, hheld, congrArg ClaimUnit.queue h.claims, fun i => ?_,
    (congrArg OffsetStore.running h.offsets).trans hrunning, (congrArg SettingsStore.saving h.settings).trans hsaving,
    (congrArg OffsetStore.lastResult h.offsets).trans hresult, (congrArg OffsetStore.lastOp h.offsets).trans hlastOp,
    h.entries, (congrArg SettingsStore.lastResult h.settings).trans hsaved, h.logHeld, fun j hj => h.onlyTwo hj,
    fun hk he => ?_, congrArg Link.receiver hlink, congrArg Link.queue hlink, congrArg Link.reply hlink,
    congrArg Link.counts hlink, fun tag htag => (congrArg Link.sent hlink).trans (hsent tag htag)⟩
  · rw [h.scan]
    exact Scanner.started_tables s.restored i
  · rw [h.hatch]
    exact hinputs i
  · rw [h.hatch]
    exact hopenings i
  · subst hx ho
    obtain ⟨d, b, since, hslot⟩ := h.slots i
    rw [hslot]
    exact ⟨rfl, fun hx => by simp only [hx, Bool.true_or]⟩
  · rw [h.claims]
    exact ClaimUnit.restarted_slot _ _ i
  · subst hk
    exact h.clockLost he

end Sys2Proof.Machine
end

