-- ==== Sys2Proof/Proofs/ContactDebounce.lean ====
section
/-! PROOFS. The debounce of a contact: what a change of its level does to the timer (R53, R54, R66). -/

namespace Sys2Proof.Machine

/-! ### The level of a contact changes (R53) -/

section
variable {x : ContactInput} {made : Bool} (d : Nat)

/-- A contact that takes the level it has has not changed (log entry 14). -/
theorem ContactInput.rawChange_same (h : x.made = made) : x.rawChange made d = x := if_pos h

/-- An UNSETTLED input restarts its timer at every change (R66). -/
theorem ContactInput.rawChange_unsettled (h : x.made ≠ made) (hx : x.settled = .unsettled) :
    x.rawChange made d = { x with made := made, timer := some d } := by
  simp only [ContactInput.rawChange, if_neg h, hx]

variable (h : x.made ≠ made) (hx : x.settled ≠ .unsettled)
include h hx

/-- A settled input without a running timer starts one away from its settled state (R54). -/
theorem ContactInput.rawChange_resting (hnone : x.timer = none) : x.rawChange made d =
    if levelOf x.settings.sense made = x.settled then { x with made := made }
    else { x with made := made, timer := some d } := by
  unfold ContactInput.rawChange
  rw [if_neg h]
  split
  next hunsettled => exact absurd hunsettled hx
  next =>
    split
    next hsome => exact absurd (hsome.symm.trans hnone) nofun
    next => rfl

/-- A return to the settled state under a running timer is a bounce (R54). -/
theorem ContactInput.rawChange_running (hsome : x.timer.isSome = true) : x.rawChange made d =
    if levelOf x.settings.sense made = x.settled then
      { x with made := made, timer := none, bounces := min (x.bounces + 1) 255 }
    else { x with made := made } := by
  unfold ContactInput.rawChange
  rw [if_neg h]
  split
  next hunsettled => exact absurd hunsettled hx
  next =>
    split
    next => rfl
    next hnone => exact absurd (hnone ▸ hsome) nofun

end

/-! ### RAW_CHANGE -/

/-- RAW_CHANGE at a quiet link writes the input, and the transmitter chooses. -/
theorem exec_rawChange {s : State} (h : s.quiet) (i : InputNo) (made : Bool) :
    exec (.rawChange i made) s
      = .next (s.setInput i (s.hatch.inputs[i].rawChange made s.hatch.debounceSteps)).offer := by
  rw [← State.rawChange, ← State.pump_of_quiet (t := s.rawChange i made) h (by simp)]
  simp only [exec, execRawChange, h.1]

/-- Settles O28, by whether the level changes, the input is settled and its timer runs. -/
theorem rawChangeDebounces : Obligations.RawChangeDebounces := by
  unfold Obligations.RawChangeDebounces
  rintro s i made x hs rfl
  rw [exec_rawChange hs]
  refine ⟨fun h => ?_, fun h hx => ?_, fun h hx =>
    ⟨fun ht hl => ?_, fun ht hl => ?_, fun ht hl => ?_, fun ht hl => ?_⟩⟩
  · have hkept : s.setInput i s.hatch.inputs[i] = s := by
      rw [State.setInput, setAt_self rfl]
      rfl
    rw [ContactInput.rawChange_same _ h, hkept]
  · rw [ContactInput.rawChange_unsettled _ h hx]
  · rw [ContactInput.rawChange_resting _ h hx ht, if_neg hl]
  · rw [ContactInput.rawChange_resting _ h hx ht, if_pos hl]
  · rw [ContactInput.rawChange_running _ h hx ht, if_pos hl]
  · rw [ContactInput.rawChange_running _ h hx ht, if_neg hl]

end Sys2Proof.Machine
end

