-- ==== Sys2Proof/Proofs/OpeningRules.lean ====
section
/-! PROOFS. The openings of compartments, the watches of contacts and the pattern watch, one rule for each operation that a
settled contact brings (R56 to R61, R64, R66). -/

namespace Sys2Proof.Machine

/-- The offer that follows an event leaves the pending set and the enables. -/
theorem State.offer_pending (s : State) :
    s.offer.notices.members = s.notices.members ∧ s.offer.notices.enables = s.notices.enables := by
  cases hr : s.link.reply with
  | none => exact (State.offer_of_noReply hr).2
  | some f =>
    unfold State.offer
    split
    · simp only [hr, State.sendReply, State.updLink, State.withLink_notices, and_self]
    · exact ⟨rfl, rfl⟩

/-- The conditions of the inputs stand after the first eight (R164). -/
theorem Condition.hatch_place_ne (i : InputNo) {k : Fin 18} (hk : k.val < 8) : (Condition.hatch i).place ≠ k :=
  Fin.ne_of_val_ne (by simp only [Condition.place]; omega)

/-! ### Openings (R59 to R61) -/

section
variable (s : State) (c : CompNo)

theorem State.startOpening_hatch : (s.startOpening c).hatch =
    { s.hatch with openings := setAt s.hatch.openings c ⟨.opening, some s.stampNow, 0, .running⟩ } := by
  simp only [State.startOpening]
  split
  · rw [State.updHeldIn_hatch, State.setOpening_hatch]
  · rw [State.setOpening_hatch]

/-- An opening that starts is counted by the consignments in custody in its compartment (R60). -/
theorem State.startOpening_slot (j : SlotNo) : (s.startOpening c).slots[j] =
    if s.timed = true ∧ s.slots[j].heldIn c = true then { s.slots[j] with openings := min (s.slots[j].openings + 1) 65535 }
    else s.slots[j] := by
  simp only [State.startOpening]
  by_cases ht : s.timed = true
  · simp only [ht, if_true, getElem_updHeldIn, State.setOpening_slots, true_and]
    rfl
  · simp only [ht, if_false, State.setOpening_slots, false_and, Bool.false_eq_true]

theorem State.creditOpenings_slot (j : SlotNo) : (s.creditOpenings c).slots[j] =
    if s.timed = true ∧ s.slots[j].heldIn c = true then
      s.slots[j].creditOpening s.now s.hatch.openings[c].startTime else s.slots[j] := by
  simp only [State.creditOpenings]
  by_cases ht : s.timed = true
  · simp only [ht, if_true, getElem_updHeldIn, true_and]
  · simp only [ht, if_false, false_and, Bool.false_eq_true]

/-- Whether no input naming a compartment is OPEN. -/
theorem State.anyOpen_eq_false_iff : s.anyOpen c = false ↔
    ∀ j : InputNo, s.hatch.inputs[j].settings.compartment = some c → s.hatch.inputs[j].settled ≠ .opened := by
  simp only [State.anyOpen, ← Bool.not_eq_true, anyAt_iff, Bool.and_eq_true, beq_iff_eq, not_exists, not_and, ne_eq]

theorem State.openingChange_opened_iff (new : Settled) :
    s.openingChange c new = .opened ↔ s.hatch.openings[c].state = .shut ∧ new = .opened := by
  unfold State.openingChange
  cases s.hatch.openings[c].state with
  | shut => by_cases hnew : new = .opened <;> simp [hnew]
  | opening => by_cases hlast : new = .shut ∧ s.anyOpen c = false <;> simp [hlast]
  | openAtStart => by_cases hlast : new = .shut ∧ s.anyOpen c = false <;> simp [hlast]

theorem State.openingChange_closed_iff (new : Settled) : s.openingChange c new = .closed ↔
    s.hatch.openings[c].state ≠ .shut ∧ new = .shut ∧ s.anyOpen c = false := by
  unfold State.openingChange
  cases s.hatch.openings[c].state with
  | shut => by_cases hnew : new = .opened <;> simp [hnew]
  | opening => by_cases hlast : new = .shut ∧ s.anyOpen c = false <;> simp [hlast]
  | openAtStart => by_cases hlast : new = .shut ∧ s.anyOpen c = false <;> simp [hlast]

/-- At a first settling only a compartment that is SHUT becomes OPEN_AT_START (R66). -/
theorem State.openAtStart_openings (d : Option CompNo) : (s.openAtStart d).hatch.openings[c] =
    if d = some c ∧ s.hatch.openings[c].state = .shut then ⟨.openAtStart, none, 0, .stopped⟩
    else s.hatch.openings[c] := by
  cases d with
  | none => simp only [State.openAtStart, reduceCtorEq, false_and, if_false]
  | some k =>
    have heq : s.openAtStart (some k) = if s.hatch.openings[k].state = .shut then
        s.setOpening k ⟨.openAtStart, none, 0, .stopped⟩ else s := rfl
    by_cases hshut : s.hatch.openings[k].state = .shut
    · rw [heq, if_pos hshut, State.setOpening_hatch, getElem_setAt]
      by_cases hk : k = c
      · subst hk
        rw [if_pos rfl, if_pos ⟨rfl, hshut⟩]
      · rw [if_neg hk, if_neg fun h => hk (Option.some.inj h.1)]
    · rw [heq, if_neg hshut, if_neg]
      rintro ⟨hk, h⟩
      cases hk
      exact hshut h

end

/-! ### Watches (R58, R64) -/

/-- Whether a watch raises its input's condition at a change taken to a state (R58). -/
def Watch.raises : Watch → Settled → Bool
  | .off, _ => false
  | .change, _ => true
  | .openLevel, new => new == .opened

theorem Watch.raises_eq (w : Watch) (new : Settled) :
    w.raises new = (decide (w = .change) || decide (w = .openLevel ∧ new = .opened)) := by
  cases w <;> cases new <;> rfl

theorem State.raiseTaken_notices (s : State) (i : InputNo) (new : Settled) : (s.raiseTaken i new).notices =
    s.notices.raiseMany (Condition.hatch i).place (s.hatch.inputs[i].settings.watch.raises new).toNat := by
  unfold State.raiseTaken
  split
  next h => simp only [h, Watch.raises, Bool.toNat_false, NoticeUnit.raiseMany]
  next h => simp only [h, Watch.raises]; rfl
  next h => simp only [h, Watch.raises, State.raiseIf_notices]

section
variable (s : State) (i : InputNo)

/-- A change of a member evaluates the pattern watch, one of another input leaves it (R64). -/
theorem State.evaluateIfMember_hatch : (s.evaluateIfMember i).hatch = { s.hatch with
    patternTruth := if s.hatch.inputs[i].settings.member = true then s.patternNow else s.hatch.patternTruth } := by
  unfold State.evaluateIfMember
  split
  next h => rw [State.evaluatePattern_hatch]
  next h => rfl

theorem State.evaluateIfMember_notices : (s.evaluateIfMember i).notices = s.notices.raiseMany Condition.pattern.place
    (!s.hatch.patternTruth && (s.evaluateIfMember i).hatch.patternTruth).toNat := by
  unfold State.evaluateIfMember
  split
  · exact State.evaluatePattern_notices s
  · rw [Bool.not_and_self]
    rfl

end

/-! ### Records (R57) -/

/-- A HATCH record flags no consignment. -/
theorem State.handHatch_slots (s : State) (i : InputNo) (new : Settled) (change : OpeningChange) :
    (s.handGeneral (s.hatchEntry i new change)).slots = s.slots := by
  have hdefers : s.log.defers (s.hatchEntry i new change) = none := by
    unfold Log.defers
    cases s.log.generalFate <;> rfl
  rw [State.handGeneral_slots, hdefers]
  rfl

end Sys2Proof.Machine
end

