-- ==== Sys2Proof/Proofs/TakenChanges.lean ====
section
/-! PROOFS. DEBOUNCE_EXPIRY: the change of a settled input is taken (R56 to R61, R64), and the first settling after start-up
is none (R66). -/

namespace Sys2Proof.Machine

/-! ### The stages of a taken change (R56) -/

/-- Step 1: the new debounced state stands, and the timer is stopped. -/
def State.newlySettled (s : State) (i : InputNo) (new : Settled) : State :=
  s.setInput i { s.hatch.inputs[i] with settled := new, timer := none }

/-- The compartment change of the taken change. -/
def State.takenChange (s : State) (i : InputNo) (new : Settled) : OpeningChange := (s.newlySettled i new).changeOf i new

/-- Step 2: the opening of the compartment that the input names follows. -/
def State.openingMoved (s : State) (i : InputNo) (new : Settled) : State :=
  (s.newlySettled i new).moveOpeningOf i (s.takenChange i new)

section
variable (s : State) (i : InputNo) (new : Settled)

theorem State.newlySettled_input (j : InputNo) : (s.newlySettled i new).hatch.inputs[j] =
    if j = i then { s.hatch.inputs[i] with settled := new, timer := none } else s.hatch.inputs[j] := by
  rw [State.newlySettled, State.setInput_hatch, getElem_setAt]
  exact if_congr eq_comm rfl rfl

/-- The settings of every input stay. -/
theorem State.newlySettled_settings (j : InputNo) :
    (s.newlySettled i new).hatch.inputs[j].settings = s.hatch.inputs[j].settings := by
  rw [State.newlySettled_input]
  split
  next h => rw [h]
  next => rfl

/-- No input naming the compartment of a newly settled input is OPEN: neither that input nor another. -/
theorem State.newlySettled_anyOpen {c : CompNo} (hc : s.hatch.inputs[i].settings.compartment = some c) :
    (s.newlySettled i new).anyOpen c = false ↔ new ≠ .opened ∧ ∀ j : InputNo, j ≠ i →
      s.hatch.inputs[j].settings.compartment = some c → s.hatch.inputs[j].settled ≠ .opened := by
  rw [State.anyOpen_eq_false_iff]
  simp only [State.newlySettled_settings]
  simp only [State.newlySettled_input, apply_ite ContactInput.settled]
  refine ⟨fun h => ⟨?_, fun j hj hjc => ?_⟩, fun ⟨hnew, hothers⟩ j hjc => ?_⟩
  · simpa only [if_true] using h i hc
  · simpa only [hj, if_false] using h j hjc
  · split
    · exact hnew
    next hj => exact hothers j hj hjc

theorem State.takenChange_opened_iff : s.takenChange i new = .opened ↔
    ∃ c, s.hatch.inputs[i].settings.compartment = some c ∧ s.hatch.openings[c].state = .shut ∧ new = .opened := by
  rw [State.takenChange, State.changeOf, State.newlySettled_settings]
  cases s.hatch.inputs[i].settings.compartment with
  | none => simp only [reduceCtorEq, false_and, exists_false]
  | some c => simp only [State.openingChange_opened_iff, Option.some.injEq, exists_eq_left', State.newlySettled,
      State.setInput_hatch]

theorem State.takenChange_closed_iff : s.takenChange i new = .closed ↔
    ∃ c, s.hatch.inputs[i].settings.compartment = some c ∧ s.hatch.openings[c].state ≠ .shut ∧ new = .shut ∧
      ∀ j : InputNo, j ≠ i → s.hatch.inputs[j].settings.compartment = some c → s.hatch.inputs[j].settled ≠ .opened := by
  rw [State.takenChange, State.changeOf, State.newlySettled_settings]
  cases hc : s.hatch.inputs[i].settings.compartment with
  | none => simp only [reduceCtorEq, false_and, exists_false]
  | some c =>
    simp only [State.openingChange_closed_iff, Option.some.injEq, exists_eq_left', s.newlySettled_anyOpen i new hc]
    refine and_congr_right fun _ => and_congr_right fun hnew => and_iff_right ?_
    rw [hnew]
    decide

/-- The three compartment changes of an input that names a compartment, and what they do to its opening. -/
theorem State.openingMoved_of_change {c : CompNo} (hc : s.hatch.inputs[i].settings.compartment = some c) :
    s.openingMoved i new = (s.newlySettled i new).moveOpening c (s.takenChange i new) := by
  rw [State.openingMoved, State.moveOpeningOf, State.newlySettled_settings, hc]

theorem State.openingMoved_frame : (s.openingMoved i new).clock = s.clock ∧ (s.openingMoved i new).log = s.log ∧
    (s.openingMoved i new).notices = s.notices ∧ (s.openingMoved i new).comps = s.comps ∧
    (s.openingMoved i new).hatch = { (s.newlySettled i new).hatch with
      openings := (s.openingMoved i new).hatch.openings } := by
  refine ⟨?_, ?_, ?_, ?_, State.moveOpeningOf_hatch _ _ _⟩ <;> simp [State.openingMoved, State.newlySettled]

/-- The part when the change's record has been handed and its condition raised, before the pattern watch. -/
def State.changeRecorded (s : State) (i : InputNo) (new : Settled) : State :=
  ((s.openingMoved i new).handGeneral
    ((s.openingMoved i new).hatchEntry i new (s.takenChange i new))).raiseTaken i new

theorem State.takeChange_eq : s.takeChange i new = (s.changeRecorded i new).evaluateIfMember i := rfl

theorem State.changeRecorded_hatch : (s.changeRecorded i new).hatch = (s.openingMoved i new).hatch := by
  simp only [State.changeRecorded, State.raiseTaken_frame, State.handGeneral_frame]

theorem State.changeRecorded_truth : (s.changeRecorded i new).hatch.patternTruth = s.hatch.patternTruth := by
  obtain ⟨-, -, -, -, hhatch⟩ := s.openingMoved_frame i new
  rw [State.changeRecorded_hatch, hhatch]
  rfl

theorem State.changeRecorded_inputs : (s.changeRecorded i new).hatch.inputs = (s.newlySettled i new).hatch.inputs := by
  obtain ⟨-, -, -, -, hhatch⟩ := s.openingMoved_frame i new
  rw [State.changeRecorded_hatch, hhatch]

/-! ### What a taken change leaves -/

theorem State.takeChange_inputs : (s.takeChange i new).hatch.inputs = (s.newlySettled i new).hatch.inputs := by
  rw [State.takeChange_eq, State.evaluateIfMember_hatch, State.changeRecorded_inputs]

theorem State.takeChange_input (j : InputNo) : (s.takeChange i new).hatch.inputs[j] =
    if j = i then { s.hatch.inputs[i] with settled := new, timer := none } else s.hatch.inputs[j] := by
  rw [State.takeChange_inputs, State.newlySettled_input]

theorem State.takeChange_openings : (s.takeChange i new).hatch.openings = (s.openingMoved i new).hatch.openings := by
  rw [State.takeChange_eq, State.evaluateIfMember_hatch, State.changeRecorded_hatch]

theorem State.takeChange_slots : (s.takeChange i new).slots = (s.openingMoved i new).slots := by
  simp only [State.takeChange_eq, State.changeRecorded, State.evaluateIfMember_frame, State.raiseTaken_frame,
    State.handHatch_slots]

/-- The HATCH record carries the present time and the compartment of its input (R57). -/
theorem State.takeChange_log : (s.takeChange i new).log = (s.handGeneral
    { stamp := s.stampNow, compartment := s.hatch.inputs[i].settings.compartment
      body := .hatch i new (s.takenChange i new) }).log := by
  obtain ⟨hclock, hlog, -, -, hhatch⟩ := s.openingMoved_frame i new
  have hentry : (s.openingMoved i new).hatchEntry i new (s.takenChange i new) =
      { stamp := s.stampNow, compartment := s.hatch.inputs[i].settings.compartment
        body := .hatch i new (s.takenChange i new) } := by
    rw [State.hatchEntry, (State.stampNow_of_clock hclock).1, hhatch]
    exact congrArg (fun x : InputSettings => ({ stamp := s.stampNow, compartment := x.compartment
                                                body := .hatch i new (s.takenChange i new) } : Entry))
      (s.newlySettled_settings i new i)
  simp only [State.takeChange_eq, State.changeRecorded, State.evaluateIfMember_frame, State.raiseTaken_frame, hentry]
  exact State.handGeneral_log hlog _

/-- A change of an input that is no member leaves the pattern watch. -/
theorem State.takeChange_truth_kept (h : s.hatch.inputs[i].settings.member = false) :
    (s.takeChange i new).hatch.patternTruth = s.hatch.patternTruth := by
  have hmember : (s.changeRecorded i new).hatch.inputs[i].settings.member = false := by
    rw [State.changeRecorded_inputs, State.newlySettled_settings, h]
  rw [State.takeChange_eq, State.evaluateIfMember_hatch, State.changeRecorded_truth, hmember]
  rfl

/-- A change of a member evaluates it afresh (R64). -/
theorem State.takeChange_truth_fresh (h : s.hatch.inputs[i].settings.member = true) :
    (s.takeChange i new).hatch.patternTruth = true ↔
      (∀ j : InputNo, (s.takeChange i new).hatch.inputs[j].settings.member = true →
        (s.takeChange i new).hatch.inputs[j].settled = .opened) ∧
      (s.hatch.bandRequired = true → ∃ (j : InputNo) (c : CompNo),
        (s.takeChange i new).hatch.inputs[j].settings.member = true ∧
        (s.takeChange i new).hatch.inputs[j].settings.compartment = some c ∧ s.comps[c].band = .warm) := by
  obtain ⟨-, -, -, hcomps, hhatch⟩ := s.openingMoved_frame i new
  have hmember : (s.changeRecorded i new).hatch.inputs[i].settings.member = true := by
    rw [State.changeRecorded_inputs, State.newlySettled_settings, h]
  have htruth : (s.takeChange i new).hatch.patternTruth = (s.changeRecorded i new).patternNow := by
    rw [State.takeChange_eq, State.evaluateIfMember_hatch, if_pos hmember]
  have hrequired : (s.changeRecorded i new).hatch.bandRequired = s.hatch.bandRequired := by
    rw [State.changeRecorded_hatch, hhatch]
    rfl
  have hcomps' : (s.changeRecorded i new).comps = s.comps := by
    simp only [State.changeRecorded, State.raiseTaken_frame, State.handGeneral_frame, hcomps]
  rw [htruth, State.patternNow_iff, hrequired, hcomps', State.takeChange_inputs, State.changeRecorded_inputs]
  exact and_iff_right ⟨i, by rw [State.newlySettled_settings, h]⟩

/-- The raises of a taken change, in its order: LOG_HELD with the record, HATCHi and PATTERN. -/
theorem State.takeChange_notices : ∃ b : Bool, (s.takeChange i new).notices =
    ((s.notices.raiseMany Condition.logHeld.place b.toNat).raiseMany (Condition.hatch i).place
      (s.hatch.inputs[i].settings.watch.raises new).toNat).raiseMany Condition.pattern.place
      (!s.hatch.patternTruth && (s.takeChange i new).hatch.patternTruth).toNat := by
  obtain ⟨-, -, hnotices, -, hhatch⟩ := s.openingMoved_frame i new
  have hwatch : (s.openingMoved i new).hatch.inputs[i].settings = s.hatch.inputs[i].settings := by
    rw [hhatch]
    exact s.newlySettled_settings i new i
  refine ⟨decide ((s.openingMoved i new).log.generalFate = .entering), ?_⟩
  rw [State.takeChange_eq, State.evaluateIfMember_notices, State.changeRecorded_truth, State.changeRecorded,
    State.raiseTaken_notices, State.handGeneral_notices, hnotices]
  simp only [State.handGeneral_frame, hwatch]

theorem State.takeChange_hatchNotice : (s.takeChange i new).notices.members[(Condition.hatch i).place] =
    (s.notices.members[(Condition.hatch i).place] || (s.notices.enables[(Condition.hatch i).place] &&
      s.hatch.inputs[i].settings.watch.raises new)) := by
  obtain ⟨b, h⟩ := s.takeChange_notices i new
  rw [h, (NoticeUnit.raiseMany_other _ _ (Condition.hatch_place_ne i (by decide))).1, NoticeUnit.raiseMany_toNat_members,
    NoticeUnit.raiseMany_enables, (NoticeUnit.raiseMany_other _ _ (Condition.hatch_place_ne i (by decide))).1]

theorem State.takeChange_patternNotice : (s.takeChange i new).notices.members[Condition.pattern.place] =
    (s.notices.members[Condition.pattern.place] || (s.notices.enables[Condition.pattern.place] &&
      (!s.hatch.patternTruth && (s.takeChange i new).hatch.patternTruth))) := by
  obtain ⟨b, h⟩ := s.takeChange_notices i new
  rw [h, NoticeUnit.raiseMany_toNat_members, NoticeUnit.raiseMany_enables, NoticeUnit.raiseMany_enables,
    (NoticeUnit.raiseMany_other _ _ (Condition.hatch_place_ne i (by decide)).symm).1,
    (NoticeUnit.raiseMany_other _ _ (by decide)).1]

/-! ### The opening of its compartment -/

section
variable {c : CompNo} (hc : s.hatch.inputs[i].settings.compartment = some c)
include hc

/-- The first OPEN input of a SHUT compartment starts an opening (R60). -/
theorem State.takeChange_opens (hshut : s.hatch.openings[c].state = .shut) :
    (s.takeChange i .opened).hatch.openings[c] = ⟨.opening, some s.stampNow, 0, .running⟩ ∧
      ∀ j : SlotNo, (s.takeChange i .opened).slots[j] = if s.timed = true ∧ s.slots[j].heldIn c = true then
        { s.slots[j] with openings := min (s.slots[j].openings + 1) 65535 } else s.slots[j] := by
  have hchange : s.takenChange i .opened = .opened := (s.takenChange_opened_iff i .opened).mpr ⟨c, hc, hshut, rfl⟩
  have hmoved : s.openingMoved i .opened = (s.newlySettled i .opened).startOpening c := by
    rw [State.openingMoved_of_change s i .opened hc, hchange, State.moveOpening]
  rw [State.takeChange_openings, State.takeChange_slots, hmoved]
  refine ⟨?_, fun j => State.startOpening_slot _ c j⟩
  rw [State.startOpening_hatch, getElem_setAt_self]
  rfl

variable (hothers : ∀ j : InputNo, j ≠ i → s.hatch.inputs[j].settings.compartment = some c →
  s.hatch.inputs[j].settled ≠ .opened)
include hothers

theorem State.openingMoved_closes (hopen : s.hatch.openings[c].state ≠ .shut) : s.openingMoved i .shut =
    if s.hatch.openings[c].state = .opening then (s.newlySettled i .shut).endOpening c
    else (s.newlySettled i .shut).setOpening c .shut := by
  have hchange : s.takenChange i .shut = .closed :=
    (s.takenChange_closed_iff i .shut).mpr ⟨c, hc, hopen, rfl, hothers⟩
  rw [State.openingMoved_of_change s i .shut hc, hchange, State.moveOpening]
  rfl

/-- The last OPEN input of a compartment in OPENING ends the opening, which is credited (R61). -/
theorem State.takeChange_closes (hopen : s.hatch.openings[c].state = .opening) :
    (s.takeChange i .shut).hatch.openings[c] = .shut ∧
      ∀ j : SlotNo, (s.takeChange i .shut).slots[j] = if s.timed = true ∧ s.slots[j].heldIn c = true then
        s.slots[j].creditOpening s.now s.hatch.openings[c].startTime else s.slots[j] := by
  rw [State.takeChange_openings, State.takeChange_slots,
    State.openingMoved_closes s i hc hothers (by rw [hopen]; decide), if_pos hopen, State.endOpening]
  refine ⟨?_, fun j => State.creditOpenings_slot _ c j⟩
  rw [State.setOpening_hatch, getElem_setAt_self]

/-- The last one of a compartment found open at start-up shuts it, with no credit (R66). -/
theorem State.takeChange_shuts (hopen : s.hatch.openings[c].state = .openAtStart) :
    (s.takeChange i .shut).hatch.openings[c] = .shut ∧ (s.takeChange i .shut).slots = s.slots := by
  rw [State.takeChange_openings, State.takeChange_slots,
    State.openingMoved_closes s i hc hothers (by rw [hopen]; decide), if_neg (by rw [hopen]; decide)]
  refine ⟨?_, rfl⟩
  rw [State.setOpening_hatch, getElem_setAt_self]

end

end

/-! ### DEBOUNCE_EXPIRY -/

/-- DEBOUNCE_EXPIRY at a quiet link has its effect, and the transmitter chooses. -/
theorem exec_debounceExpiry {s : State} (h : s.quiet) (i : InputNo) :
    exec (.debounceExpiry i) s = .next (s.debounceExpiry i).offer :=
  congrArg _ (State.happen_of_quiet (f := fun s => s.debounceExpiry i) h (by simp))

theorem State.debounceExpiry_stopped {s : State} {i : InputNo} (h : s.hatch.inputs[i].timer = none) :
    s.debounceExpiry i = s := by
  simp only [State.debounceExpiry, h]

theorem State.debounceExpiry_running {s : State} {i : InputNo} (h : s.hatch.inputs[i].timer.isSome = true) :
    s.debounceExpiry i = if s.hatch.inputs[i].settled = .unsettled then s.settleFirst i
      else s.takeChange i s.hatch.inputs[i].level := by
  obtain ⟨d, hd⟩ := Option.isSome_iff_exists.mp h
  simp only [State.debounceExpiry, hd]

/-- Settles O29, from what `State.takeChange` leaves. -/
theorem debounceExpiryTakesTheChange : Obligations.DebounceExpiryTakesTheChange := by
  unfold Obligations.DebounceExpiryTakesTheChange
  rintro s i x hs rfl htimer hsettled
  generalize hnew : s.hatch.inputs[i].level = new
  obtain ⟨hmembers, -⟩ := (s.takeChange i new).offer_pending
  rw [exec_debounceExpiry hs, State.debounceExpiry_running htimer, if_neg hsettled, hnew]
  refine ⟨_, rfl, ?_, fun j hj => ?_, ?_, ?_, fun hfate => ?_, ?_, ?_, ?_, ?_, fun hmember => ?_, fun hmember => ?_, ?_⟩ <;>
    simp only [State.offer_frame, hmembers]
  · exact (s.takeChange_input i new i).trans (if_pos rfl)
  · exact (s.takeChange_input i new j).trans (if_neg hj)
  · simp only [State.takeChange_frame]
  · simp only [State.takeChange_frame]
  · rw [State.takeChange_log, State.handGeneral_appended hfate]
    exact ⟨_, rfl, rfl, rfl, _, rfl, s.takenChange_opened_iff i new, s.takenChange_closed_iff i new⟩
  · rintro c hc hshut rfl
    simpa only [State.timed_iff] using s.takeChange_opens i hc hshut
  · rintro c start hc hopen hstart rfl hothers
    have hbegan : s.hatch.openings[c].startTime = start.time := by rw [Opening.startTime, hstart]
    simpa only [State.timed_iff, hbegan, Slot.creditOpening, sat32_eq] using s.takeChange_closes i hc hothers hopen
  · rintro c hc hopen rfl hothers
    exact s.takeChange_shuts i hc hothers hopen
  · rintro k rfl
    rw [State.takeChange_hatchNotice, Watch.raises_eq]
  · exact s.takeChange_truth_fresh i new hmember
  · exact s.takeChange_truth_kept i new hmember
  · rintro k rfl
    rw [State.takeChange_patternNotice, Bool.and_assoc]

/-! ### The first settling (R66) -/

section
variable (s : State) (i : InputNo)

/-- The part when a first settling has found the compartment SHUT or open, before its notices. -/
def State.firstSettled (s : State) (i : InputNo) : State :=
  let t := s.newlySettled i s.hatch.inputs[i].level
  if s.hatch.inputs[i].level = .opened then t.openAtStart s.hatch.inputs[i].settings.compartment else t

theorem State.settleFirst_eq : s.settleFirst i = ((s.firstSettled i).raiseIf
    (s.hatch.inputs[i].level == .opened && s.hatch.inputs[i].settings.watch == .openLevel) (.hatch i)).evaluateIfMember i := rfl

theorem State.firstSettled_inputs :
    (s.firstSettled i).hatch.inputs = (s.newlySettled i s.hatch.inputs[i].level).hatch.inputs := by
  unfold State.firstSettled
  dsimp only
  split
  · rw [State.openAtStart_hatch]
  · rfl

theorem State.firstSettled_openings (c : CompNo) : (s.firstSettled i).hatch.openings[c] =
    if s.hatch.inputs[i].level = .opened ∧ s.hatch.inputs[i].settings.compartment = some c ∧
      s.hatch.openings[c].state = .shut then ⟨.openAtStart, none, 0, .stopped⟩ else s.hatch.openings[c] := by
  unfold State.firstSettled
  by_cases hopen : s.hatch.inputs[i].level = .opened
  · simp only [hopen, if_true, State.openAtStart_openings, true_and]
    rfl
  · simp only [hopen, if_false, false_and]
    rfl

theorem State.firstSettled_notices : (s.firstSettled i).notices = s.notices := by
  unfold State.firstSettled
  dsimp only
  split
  · simp only [State.openAtStart_frame]
    rfl
  · rfl

/-- The input has its level, and settings as they were. -/
theorem State.settleFirst_input : (s.settleFirst i).hatch.inputs[i] =
    { s.hatch.inputs[i] with settled := s.hatch.inputs[i].level, timer := none } := by
  have hinputs : (s.settleFirst i).hatch.inputs = (s.firstSettled i).hatch.inputs := by
    rw [State.settleFirst_eq, State.evaluateIfMember_hatch]
    simp only [State.raiseIf_frame]
  rw [hinputs, State.firstSettled_inputs, State.newlySettled_input, if_pos rfl]

theorem State.settleFirst_opening (c : CompNo) : (s.settleFirst i).hatch.openings[c] =
    if s.hatch.inputs[i].level = .opened ∧ s.hatch.inputs[i].settings.compartment = some c ∧
      s.hatch.openings[c].state = .shut then ⟨.openAtStart, none, 0, .stopped⟩ else s.hatch.openings[c] := by
  have hopenings : (s.settleFirst i).hatch.openings = (s.firstSettled i).hatch.openings := by
    rw [State.settleFirst_eq, State.evaluateIfMember_hatch]
    simp only [State.raiseIf_frame]
  rw [hopenings, State.firstSettled_openings]

/-- The opened level under its watch makes the condition pending where it is enabled. -/
theorem State.settleFirst_hatchNotice (hopen : s.hatch.inputs[i].level = .opened)
    (hwatch : s.hatch.inputs[i].settings.watch = .openLevel)
    (he : s.notices.enables[(Condition.hatch i).place] = true) :
    (s.settleFirst i).notices.members[(Condition.hatch i).place] = true := by
  rw [State.settleFirst_eq, State.evaluateIfMember_notices,
    (NoticeUnit.raiseMany_other _ _ (Condition.hatch_place_ne i (by decide))).1, State.raiseIf_notices,
    NoticeUnit.raiseMany_toNat_members, State.firstSettled_notices, he, hopen, hwatch]
  simp only [beq_self_eq_true, Bool.and_self, Bool.or_true]

end

/-- Settles O30, from what `State.settleFirst` leaves. -/
theorem firstSettlingIsNoTakenChange : Obligations.FirstSettlingIsNoTakenChange := by
  unfold Obligations.FirstSettlingIsNoTakenChange
  rintro s i x hs rfl
  rw [exec_debounceExpiry hs]
  refine ⟨fun hnone => by rw [State.debounceExpiry_stopped hnone], fun htimer hsettled => ?_⟩
  obtain ⟨hmembers, -⟩ := (s.settleFirst i).offer_pending
  rw [State.debounceExpiry_running htimer, if_pos hsettled]
  refine ⟨_, rfl, ?_, ?_, ?_, fun c => ?_, fun hopen hwatch he => ?_⟩ <;> simp only [State.offer_frame, hmembers]
  · exact s.settleFirst_input i
  · simp only [State.settleFirst_frame]
  · simp only [State.settleFirst_frame]
  · exact s.settleFirst_opening i c
  · exact s.settleFirst_hatchNotice i hopen hwatch he

end Sys2Proof.Machine
end

