-- ==== Sys2Proof/Proofs/LongOpenTimer.lean ====
section
/-! PROOFS. LONG_OPEN_EXPIRY (R63): what the seconds that it brings do to clock, openings and cycle timer, and the expiry at
their end. -/

namespace Sys2Proof.Machine

/-! ### A tick leaves the contacts alone (R8, R9) -/

/-- The contacts, the openings and the enables of `s` stand in `t`. -/
def State.contactsKept (s t : State) : Prop :=
  t.hatch.inputs = s.hatch.inputs ∧ t.hatch.openings = s.hatch.openings ∧ t.notices.enables = s.notices.enables

theorem State.contactsKept.trans {s t u : State} (h : s.contactsKept t) (g : t.contactsKept u) : s.contactsKept u := by
  obtain ⟨hi, ho, he⟩ := h
  obtain ⟨gi, go, ge⟩ := g
  exact ⟨gi.trans hi, go.trans ho, ge.trans he⟩

theorem State.stepComp_contactsKept (s : State) (c : CompNo) (cause : StepCause) :
    s.contactsKept (s.stepComp c cause) := by
  rw [State.stepComp]
  split
  · obtain ⟨hinputs, -, hopenings⟩ :=
      (s.stepKnow c cause).setBand_inputs c (s.comps[c].bandAfter (s.comps[c].stepKind cause))
    refine ⟨?_, ?_, ?_⟩
    · rw [State.takeStep_hatch, hinputs]
      simp only [State.stepKnow_frame]
    · rw [State.takeStep_hatch, hopenings]
      simp only [State.stepKnow_frame]
    · simp only [State.takeStep_notices, NoticeUnit.raiseMany_enables]
  · exact ⟨rfl, rfl, rfl⟩

theorem State.stepAll_contactsKept (s : State) (causeOf : CompNo → StepCause) (l : List CompNo) :
    s.contactsKept (s.stepAll causeOf l) := by
  induction l generalizing s with
  | nil => exact ⟨rfl, rfl, rfl⟩
  | cons c l ih => exact (s.stepComp_contactsKept c _).trans (ih _)

theorem State.takeUp_contactsKept (s : State) (l : List EntryNo) : s.contactsKept (s.takeUp l) := by
  induction l generalizing s with
  | nil => exact s.stepAll_contactsKept (cycleCause s.scan.cycleSet) (places 4)
  | cons i l ih =>
    rw [State.takeUp]
    split
    · exact ih (s.passOver i)
    · exact ⟨rfl, rfl, rfl⟩

theorem State.fallTick_contactsKept (s : State) : s.contactsKept s.fallTick := by
  rw [State.fallTick, State.takeTick]
  split
  · exact State.takeUp_contactsKept (State.updScan _ _) _
  · exact ⟨rfl, rfl, rfl⟩
  · exact ⟨rfl, rfl, rfl⟩
  · exact State.stepAll_contactsKept (s.updScan _) _ _

/-! ### The interval that a tick begins (R7) -/

theorem State.takeUp_timer (s : State) (l : List EntryNo) : (s.takeUp l).scan.tickIn = s.scan.tickIn := by
  induction l generalizing s with
  | nil => simp only [State.takeUp, State.endNormally, State.endCycle_eq, State.withScan_scan]
  | cons i l ih =>
    rw [State.takeUp]
    split
    · exact ih (s.passOver i)
    · rfl

/-- The interval after a tick is the period in force. -/
theorem State.fallTick_timer (s : State) : s.fallTick.scan.tickIn = s.scan.period := by
  rw [State.fallTick, State.takeTick]
  split
  · exact State.takeUp_timer (State.updScan _ _) _
  · rfl
  · rfl
  · simp only [State.blindTick_frame, State.updScan, State.withScan_scan]

/-- Where a tick is due it is taken first, and once. -/
theorem State.due_of_tick {s : State} (h : s.scan.tickIn = 0) : ∃ rest, s.due = .tick :: rest ∧ .tick ∉ rest :=
  ⟨((places 4).filter s.longOpenDue).map .longOpen ++ ((places 64).filter s.lapseDue).map .lapse,
    by simp only [State.due, if_pos h, List.cons_append, List.nil_append], by simp⟩

/-- Seconds up to the end of the interval that a tick now begins leave the scanner as the tick did, with that interval
running. -/
theorem State.passTo_scan_fromTick {s : State} (h : s.quiet) (hdue : s.scan.tickIn = 0) {m : Nat}
    (hm : m + 1 ≤ s.scan.period) :
    (s.passTo (m + 1)).scan = { s.fallTick.scan with tickIn := s.scan.period - (m + 1) } := by
  obtain ⟨rest, hrest, hnot⟩ := State.due_of_tick hdue
  have hfired : (s.fireAll s.due).scan = s.fallTick.scan := by
    rw [hrest, State.fireAll, State.fireAll_scan (State.fire_quiet h .tick) hnot, State.fire,
      State.pump_of_quiet h (by simp), (State.offer_frame _).2.2.1]
  have hsecond : ((s.fireAll s.due).elapse 1).scan = { s.fallTick.scan with tickIn := s.scan.period - 1 } := by
    rw [State.elapse, hfired, State.fallTick_timer]
  have hquiet : ((s.fireAll s.due).elapse 1).quiet :=
    State.quiet_of_link (State.fireAll_quiet h s.due) (by simp) (by simp)
  rw [State.passTo, State.passTo_scan hquiet (by rw [hsecond]; exact Nat.le_sub_one_of_lt hm), hsecond]
  simp only [Nat.sub_sub, Nat.add_comm 1]

/-- Seconds that reach past the next tick and not past the one after it (R7). -/
theorem State.passTo_scan_overTick {s : State} (h : s.quiet) {n : Nat} (hlo : s.scan.tickIn < n)
    (hhi : n ≤ s.scan.tickIn + s.scan.period) : (s.passTo n).scan =
      { (s.passTo s.scan.tickIn).fallTick.scan with tickIn := s.scan.tickIn + s.scan.period - n } := by
  obtain ⟨m, rfl⟩ : ∃ m, n = s.scan.tickIn + (m + 1) := ⟨n - s.scan.tickIn - 1, by omega⟩
  have hbefore := State.passTo_scan h le_rfl
  have hperiod : (s.passTo s.scan.tickIn).scan.period = s.scan.period := by rw [hbefore]
  rw [State.passTo_add, State.passTo_scan_fromTick (State.passTo_quiet h _) (by rw [hbefore]; exact Nat.sub_self _)
    (by omega), hperiod, Nat.add_sub_add_left]

/-! ### The seconds and the openings (R63) -/

/-- Two openings agree but for their long-open timers. -/
def Opening.Alike (o p : Opening) : Prop := o.state = p.state ∧ o.start = p.start ∧ o.elapsed = p.elapsed

theorem Opening.Alike.elapse {o p : Opening} (h : o.Alike p) (n : Nat) : (o.elapse n).Alike (p.elapse n) := by
  obtain ⟨hstate, hstart, helapsed⟩ := h
  unfold Opening.elapse
  rw [hstate]
  split
  · exact ⟨rfl, hstart, congrArg (fun e => sat32 (e + n)) helapsed⟩
  · exact ⟨hstate, hstart, helapsed⟩

/-- Clock, contacts, openings and enables of `u` are those of `s`, whatever timer events have fallen: these can expire a
long-open timer, and change nothing else of them. -/
structure State.Follows (s u : State) : Prop where
  quiet : u.quiet
  clock : u.clock = s.clock
  inputs : u.hatch.inputs = s.hatch.inputs
  openings : ∀ c : CompNo, u.hatch.openings[c].Alike s.hatch.openings[c]
  enables : u.notices.enables = s.notices.enables

section
variable {s u : State} (h : s.Follows u)
include h

theorem State.Follows.offer : s.Follows u.offer := by
  obtain ⟨-, henables⟩ := u.offer_pending
  exact ⟨State.quiet_offer h.quiet, by simpa using h.clock, by simpa using h.inputs,
    fun c => by simpa only [State.offer_frame] using h.openings c, henables.trans h.enables⟩

theorem State.Follows.expireLongOpen (c : CompNo) : s.Follows (u.expireLongOpen c) := by
  refine ⟨State.quiet_of_link h.quiet (by simp) (by simp), by simpa using h.clock, h.inputs, fun d => ?_,
    (u.notices.raise_enables _).trans h.enables⟩
  have hopening : (u.expireLongOpen c).hatch.openings[d]
      = if c = d then { u.hatch.openings[c] with timer := .expired } else u.hatch.openings[d] := by
    rw [State.expireLongOpen, (State.raise_frame _ _).2.2.2.2.2.1, State.setOpening_hatch, getElem_setAt]
  rw [hopening]
  split
  next hcd =>
    subst hcd
    exact h.openings c
  next => exact h.openings d

theorem State.Follows.fallTick : s.Follows u.fallTick := by
  obtain ⟨hinputs, hopenings, henables⟩ := u.fallTick_contactsKept
  exact ⟨State.quiet_of_link h.quiet (by simp) (by simp), by simpa using h.clock, hinputs.trans h.inputs,
    fun c => by rw [hopenings]; exact h.openings c, henables.trans h.enables⟩

theorem State.Follows.lapse (i : SlotNo) : s.Follows (u.lapse i) := by
  have henables : (u.lapse i).notices.enables = u.notices.enables :=
    (NoticeUnit.raise_enables _ _).trans (State.handCustody_enables _ _)
  exact ⟨State.quiet_of_link h.quiet (by simp) (by simp), by simpa using h.clock, by simpa using h.inputs,
    fun c => by simpa only [State.lapse_frame] using h.openings c, henables.trans h.enables⟩

/-- Timer events fall, and the link follows. -/
theorem State.Follows.fire (e : TimerEvent) : s.Follows (u.fire e) := by
  cases e with
  | tick =>
    rw [State.fire, State.pump_of_quiet h.quiet (by simp)]
    exact h.fallTick.offer
  | longOpen c =>
    rw [State.fire, State.pump_of_quiet h.quiet (by simp)]
    exact (h.expireLongOpen c).offer
  | lapse i =>
    rw [State.fire, State.pump_of_quiet h.quiet (by simp)]
    exact (h.lapse i).offer

theorem State.Follows.fireAll (l : List TimerEvent) : s.Follows (u.fireAll l) := by
  induction l generalizing u with
  | nil => exact h
  | cons e l ih => exact ih (h.fire e)

/-- A second passes for both. -/
theorem State.Follows.elapse : (s.elapse 1).Follows (u.elapse 1) := by
  refine ⟨State.quiet_of_link h.quiet (by simp) (by simp), ?_, h.inputs, fun c => ?_, h.enables⟩
  · simp only [State.elapse, h.clock]
  · simp only [State.elapse, getElem_mapAll]
    exact (h.openings c).elapse 1

theorem State.Follows.passTo (n : Nat) : (s.after n).Follows (u.passTo n) := by
  induction n generalizing s u with
  | zero => exact h
  | succ n ih =>
    rw [← State.after_succ, State.passTo]
    exact ih (h.fireAll u.due).elapse

end

/-- However the timer events fall, clock and openings follow the seconds. -/
theorem State.passTo_follows {s : State} (h : s.quiet) (n : Nat) : (s.after n).Follows (s.passTo n) :=
  State.Follows.passTo ⟨h, rfl, rfl, fun _ => ⟨rfl, rfl, rfl⟩, rfl⟩ n

section
variable (s : State) (n : Nat)

/-- The passing of seconds alone moves clock, openings in progress and the cycle timer. -/
theorem State.after_frame : (s.after n).hatch.inputs = s.hatch.inputs ∧ (s.after n).log = s.log ∧
    (s.after n).slots = s.slots ∧ (s.after n).comps = s.comps ∧ (s.after n).notices = s.notices := by
  cases n <;> exact ⟨rfl, rfl, rfl, rfl, rfl⟩

theorem State.after_opening {c : CompNo} (h : s.hatch.openings[c].state = .opening) :
    (s.after n).hatch.openings[c].state = .opening ∧
      (s.after n).hatch.openings[c].start = s.hatch.openings[c].start ∧
      (0 < n → (s.after n).hatch.openings[c].elapsed = min (s.hatch.openings[c].elapsed + n) 4294967295) := by
  cases n with
  | zero => exact ⟨h, rfl, fun h0 => absurd h0 (Nat.lt_irrefl 0)⟩
  | succ n =>
    have helapse : (s.after (n + 1)).hatch.openings[c] =
        { s.hatch.openings[c] with elapsed := sat32 (s.hatch.openings[c].elapsed + (n + 1)) } :=
      (getElem_mapAll _ _ c).trans (if_pos h)
    rw [helapse]
    exact ⟨h, rfl, fun _ => rfl⟩

theorem State.after_uptime (h : 0 < n) : (s.after n).clock.uptime = min (s.clock.uptime + n) 4294967294 := by
  cases n with
  | zero => exact absurd h (Nat.lt_irrefl 0)
  | succ n => rfl

end

/-! ### LONG_OPEN_EXPIRY -/

theorem State.longOpenRuns_iff (s : State) (c : CompNo) : s.longOpenRuns c = true ↔
    s.hatch.openings[c].state = .opening ∧ s.hatch.openings[c].timer = .running := by
  simp only [State.longOpenRuns, Bool.and_eq_true, beq_iff_eq]

/-- A timer that does not run does not expire (log entry 14). -/
theorem exec_longOpenExpiry_stopped {s : State} {c : CompNo} (h : s.quiet) (hrun : s.longOpenRuns c = false) :
    exec (.longOpenExpiry c) s = .next s.offer := by
  have hkept : s.longOpenExpiry c = s := by simp only [State.longOpenExpiry, hrun, Bool.false_eq_true, if_false]
  refine congrArg _ ((State.happen_of_quiet (f := fun s => s.longOpenExpiry c) h ?_).trans ?_) <;> rw [hkept]

/-- A timer that runs expires once the seconds left have passed (R63). -/
theorem exec_longOpenExpiry {s : State} {c : CompNo} (h : s.quiet) (hrun : s.longOpenRuns c = true) :
    exec (.longOpenExpiry c) s = .next ((s.passTo (s.longOpenLeft c)).expireLongOpen c).offer := by
  rw [← State.pump_of_quiet (State.passTo_quiet h (s.longOpenLeft c)) (by simp)]
  simp only [exec, execLongOpenExpiry, State.happen, h.1, State.longOpenExpiry, hrun, if_true]

/-- Settles O31: the seconds left by `State.passTo_follows` and `State.passTo_scan_overTick`, then the expiry. -/
theorem longOpenExpiresOnce : Obligations.LongOpenExpiresOnce := by
  unfold Obligations.LongOpenExpiresOnce
  intro s c hs
  refine ⟨fun hnot => exec_longOpenExpiry_stopped hs ?_, ?_⟩
  · rw [Bool.eq_false_iff, ne_eq, State.longOpenRuns_iff, not_and_or]
    exact hnot
  rintro n p hopen hrunning rfl rfl
  obtain ⟨-, hclock, hinputs, hopenings, henables⟩ := State.passTo_follows hs (s.longOpenLeft c)
  obtain ⟨hstate, hstart, helapsed⟩ := hopenings c
  have hexec := exec_longOpenExpiry hs ((s.longOpenRuns_iff c).mpr ⟨hopen, hrunning⟩)
  change exec (.longOpenExpiry c) s = .next ((s.passTo (s.longOpenLeft c)).expireLongOpen c).offer ∧ _
  have hleft : s.comps[c].settings.longOpenLimit - s.hatch.openings[c].elapsed = s.longOpenLeft c := rfl
  rw [hleft]
  generalize s.longOpenLeft c = n at hclock hinputs hopenings henables hstate hstart helapsed hexec ⊢
  obtain ⟨hkept, hlog, hslots, hcomps, hnotices⟩ := s.after_frame n
  obtain ⟨hafter, hbegan, hgrown⟩ := s.after_opening n hopen
  refine ⟨hexec, hstate.trans hafter, hstart.trans hbegan, fun hn => ⟨helapsed.trans (hgrown hn), ?_⟩,
    hinputs.trans hkept, State.passTo_calm, fun hlo hhi => ?_, _, hexec, ?_, ?_, ?_, fun hcalm => ?_, fun he => ?_⟩
  · rw [hclock, s.after_uptime n hn]
  · rw [State.passTo_scan_overTick hs hlo hhi]
    refine ⟨rfl, fun hcycle => ?_⟩
    rw [State.passTo_fallTick_inCycle hs hcycle]
    rfl
  · simp only [State.offer_frame, State.expireLongOpen, State.raise_frame, State.setOpening_hatch, getElem_setAt_self]
  · simp only [State.offer_frame, State.expireLongOpen, State.raise_frame, State.setOpening_hatch, getElem_setAt_self]
    exact hstate.trans hafter
  · simp only [State.offer_frame, State.expireLongOpen, State.raise_frame, State.setOpening_hatch]
    exact hinputs.trans hkept
  · simp only [State.offer_frame, State.expireLongOpen_frame, State.passTo_calm hcalm]
    exact ⟨hlog, hslots, hcomps⟩
  · rw [(State.offer_pending _).1]
    exact NoticeUnit.raise_member _ (by rw [State.setOpening_notices, henables, hnotices, he])

end Sys2Proof.Machine
end

