-- ==== Sys2Proof/Proofs/HatchRequests.lean ====
section
/-! PROOFS. HATCH_INPUT_SET and HATCH_CONFIG_SET (R50 to R52, R64). -/

namespace Sys2Proof.Machine

/-! ### Reading the fields (R50) -/

theorem senseOf_of_code {b : Byte} {e : Sense} (h : e.code = b.toNat) : senseOf b = some e := by
  rw [byte_of_toNat h]
  cases e <;> rfl

theorem watchOf_of_code {b : Byte} {w : Watch} (h : w.code = b.toNat) : watchOf b = some w := by
  rw [byte_of_toNat h]
  cases w <;> rfl

theorem senseOf_eq_none {b : Byte} (h : 1 < b.toNat) : senseOf b = none :=
  (if_neg (byte_ne_of_lt h (Nat.zero_le 1))).trans (if_neg (byte_ne_of_lt h le_rfl))

theorem watchOf_eq_none {b : Byte} (h : 2 < b.toNat) : watchOf b = none :=
  (if_neg (byte_ne_of_lt h (by decide))).trans ((if_neg (byte_ne_of_lt h (by decide))).trans
    (if_neg (byte_ne_of_lt h le_rfl)))

/-! ### The two last stages of a request that may evaluate the watch afresh and record a change (R51, R52, R64) -/

/-- The pattern watch is evaluated afresh unless the setting that it hangs on is kept. -/
def State.reevaluatedUnless (t : State) (kept : Prop) [Decidable kept] : State := if kept then t else t.evaluatePattern

/-- A CONFIG record is handed unless all settings are kept. -/
def State.recordedUnless (t : State) (kept : Prop) [Decidable kept] (change : ConfigChange) : State :=
  if kept then t else t.handConfig none change

section
variable (t : State) (kept : Prop) [Decidable kept]

theorem State.reevaluatedUnless_hatch : (t.reevaluatedUnless kept).hatch =
    { t.hatch with patternTruth := if kept then t.hatch.patternTruth else t.patternNow } := by
  unfold State.reevaluatedUnless
  split
  · rfl
  · exact State.evaluatePattern_hatch t

theorem State.reevaluatedUnless_notices : (t.reevaluatedUnless kept).notices =
    t.notices.raiseMany Condition.pattern.place
      (!t.hatch.patternTruth && (t.reevaluatedUnless kept).hatch.patternTruth).toNat := by
  unfold State.reevaluatedUnless
  split
  · rw [Bool.not_and_self]
    rfl
  · exact State.evaluatePattern_notices t

theorem State.reevaluatedUnless_frame : (t.reevaluatedUnless kept).log = t.log ∧
    (t.reevaluatedUnless kept).slots = t.slots ∧ (t.reevaluatedUnless kept).clock = t.clock := by
  unfold State.reevaluatedUnless
  split
  · exact ⟨rfl, rfl, rfl⟩
  · simp only [State.evaluatePattern_frame, and_self]

variable (change : ConfigChange)

theorem State.recordedUnless_frame : (t.recordedUnless kept change).hatch = t.hatch ∧
    (t.recordedUnless kept change).slots = t.slots := by
  unfold State.recordedUnless
  split
  · exact ⟨rfl, rfl⟩
  · exact ⟨by simp only [State.handConfig_frame], State.handConfig_slots t none change⟩

theorem State.recordedUnless_log : (t.recordedUnless kept change).log = if kept then t.log
    else (t.handGeneral { stamp := t.stampNow, compartment := none, body := .config change }).log := by
  unfold State.recordedUnless
  split <;> rfl

/-- A CONFIG record raises no condition but LOG_HELD. -/
theorem State.recordedUnless_notices :
    ∃ n, (t.recordedUnless kept change).notices = t.notices.raiseMany Condition.logHeld.place n := by
  unfold State.recordedUnless
  split
  · exact ⟨0, rfl⟩
  · exact ⟨_, State.handGeneral_notices _ _⟩

theorem State.recordedUnless_member {k : Fin 18} (hk : k ≠ Condition.logHeld.place) :
    (t.recordedUnless kept change).notices.members[k] = t.notices.members[k] := by
  obtain ⟨n, h⟩ := t.recordedUnless_notices kept change
  rw [h, (NoticeUnit.raiseMany_other _ _ hk).1]

end

/-- The two stages together. -/
def State.concluded (t : State) (watch kept : Prop) [Decidable watch] [Decidable kept] (change : ConfigChange) : State :=
  (t.reevaluatedUnless watch).recordedUnless kept change

section
variable (t : State) (watch kept : Prop) [Decidable watch] [Decidable kept] (change : ConfigChange)

theorem State.concluded_hatch : (t.concluded watch kept change).hatch =
    { t.hatch with patternTruth := if watch then t.hatch.patternTruth else t.patternNow } := by
  rw [State.concluded, (State.recordedUnless_frame _ kept change).1, State.reevaluatedUnless_hatch]

theorem State.concluded_slots : (t.concluded watch kept change).slots = t.slots := by
  rw [State.concluded, (State.recordedUnless_frame _ kept change).2, (t.reevaluatedUnless_frame watch).2.1]

theorem State.concluded_log : (t.concluded watch kept change).log = if kept then t.log
    else (t.handGeneral { stamp := t.stampNow, compartment := none, body := .config change }).log := by
  obtain ⟨hlog, -, hclock⟩ := t.reevaluatedUnless_frame watch
  rw [State.concluded, State.recordedUnless_log, (State.stampNow_of_clock hclock).1, hlog]
  exact if_congr Iff.rfl rfl (State.handGeneral_log hlog _)

theorem State.concluded_patternNotice : (t.concluded watch kept change).notices.members[Condition.pattern.place] =
    (t.notices.members[Condition.pattern.place] || (t.notices.enables[Condition.pattern.place] &&
      (!t.hatch.patternTruth && (t.concluded watch kept change).hatch.patternTruth))) := by
  rw [State.concluded, State.recordedUnless_member _ _ _ (by decide), State.reevaluatedUnless_notices,
    NoticeUnit.raiseMany_toNat_members, (State.recordedUnless_frame _ kept change).1]

theorem State.concluded_otherNotice {k : Fin 18} (hheld : k ≠ Condition.logHeld.place)
    (hpattern : k ≠ Condition.pattern.place) :
    (t.concluded watch kept change).notices.members[k] = t.notices.members[k] := by
  rw [State.concluded, State.recordedUnless_member _ _ _ hheld, State.reevaluatedUnless_notices,
    (NoticeUnit.raiseMany_other _ _ hpattern).1]

/-- The truth that was kept for the watch stays with the setting. -/
theorem State.concluded_truth_kept (h : watch) :
    (t.concluded watch kept change).hatch.patternTruth = t.hatch.patternTruth := by
  rw [State.concluded_hatch, if_pos h]

theorem State.concluded_truth_fresh (h : ¬ watch) : (t.concluded watch kept change).hatch.patternTruth = t.patternNow := by
  rw [State.concluded_hatch, if_neg h]

end

/-! ### HATCH_INPUT_SET (R50, R51) -/

/-- New settings keep the debounced state; a new sense takes the level afresh (R51). -/
theorem ContactInput.reset_eq (x : ContactInput) (new : InputSettings) (d : Nat) : x.reset new d = { x with
    settings := new
    timer := if new.sense = x.settings.sense then x.timer else if x.settled = .unsettled then some d
      else if levelOf new.sense x.made = x.settled then none else some d } := by
  unfold ContactInput.reset
  by_cases hsense : x.settings.sense = new.sense
  · rw [if_pos hsense, if_pos hsense.symm]
  · rw [if_neg hsense, if_neg (Ne.symm hsense)]
    split
    next hunsettled => rw [if_pos hunsettled]
    next hsettled => rw [if_neg hsettled]; rfl

/-- The settings are stored, and a watch set to OPEN_LEVEL over an OPEN input raises its condition (R51). -/
def State.inputStored (s : State) (i : InputNo) (new : InputSettings) : State :=
  (s.setInput i (s.hatch.inputs[i].reset new s.hatch.debounceSteps)).raiseIf
    (s.hatch.inputs[i].settings.watch != .openLevel && new.watch == .openLevel && s.hatch.inputs[i].settled == .opened)
    (.hatch i)

section
variable (s : State) (i : InputNo) (new : InputSettings)

theorem State.inputStored_frame : (s.inputStored i new).log = s.log ∧ (s.inputStored i new).slots = s.slots ∧
    (s.inputStored i new).comps = s.comps ∧ (s.inputStored i new).clock = s.clock ∧ (s.inputStored i new).hatch =
      { s.hatch with inputs := setAt s.hatch.inputs i (s.hatch.inputs[i].reset new s.hatch.debounceSteps) } := by
  simp [State.inputStored, -Fin.getElem_fin]

theorem State.inputStored_notices : (s.inputStored i new).notices = s.notices.raiseMany (Condition.hatch i).place
    (decide (s.hatch.inputs[i].settings.watch ≠ .openLevel ∧ new.watch = .openLevel ∧
      s.hatch.inputs[i].settled = .opened)).toNat := by
  have hraise : (s.hatch.inputs[i].settings.watch != .openLevel && new.watch == .openLevel &&
      s.hatch.inputs[i].settled == .opened) = decide (s.hatch.inputs[i].settings.watch ≠ .openLevel ∧
        new.watch = .openLevel ∧ s.hatch.inputs[i].settled = .opened) := by
    rw [Bool.eq_iff_iff, decide_eq_true_iff, Bool.and_eq_true, Bool.and_eq_true, bne_iff_ne, beq_iff_eq, beq_iff_eq,
      and_assoc]
  rw [State.inputStored, State.raiseIf_notices, hraise, State.setInput_notices]

theorem State.applyInput_eq : s.applyInput i new = (s.inputStored i new).concluded
    (s.hatch.inputs[i].settings.member = new.member) (s.hatch.inputs[i].settings = new) (.hatchInput i new) := by
  have hsettled : (s.setInput i (s.hatch.inputs[i].reset new s.hatch.debounceSteps)).hatch.inputs[i].settled
      = s.hatch.inputs[i].settled := by
    rw [State.setInput_hatch, getElem_setAt_self, (s.hatch.inputs[i].reset_kept new _).2]
  simp only [State.applyInput, hsettled]
  rfl

theorem State.applyInput_hatchNotice : (s.applyInput i new).notices.members[(Condition.hatch i).place] =
    (s.notices.members[(Condition.hatch i).place] || (s.notices.enables[(Condition.hatch i).place] &&
      decide (s.hatch.inputs[i].settings.watch ≠ .openLevel ∧ new.watch = .openLevel ∧
        s.hatch.inputs[i].settled = .opened))) := by
  rw [State.applyInput_eq, State.concluded_otherNotice _ _ _ _ (Condition.hatch_place_ne i (by decide))
    (Condition.hatch_place_ne i (by decide)), State.inputStored_notices, NoticeUnit.raiseMany_toNat_members]

theorem State.applyInput_patternNotice : (s.applyInput i new).notices.members[Condition.pattern.place] =
    (s.notices.members[Condition.pattern.place] || (s.notices.enables[Condition.pattern.place] &&
      (!s.hatch.patternTruth && (s.applyInput i new).hatch.patternTruth))) := by
  obtain ⟨-, -, -, -, hhatch⟩ := s.inputStored_frame i new
  rw [State.applyInput_eq, State.concluded_patternNotice, hhatch, State.inputStored_notices,
    NoticeUnit.raiseMany_enables, (NoticeUnit.raiseMany_other _ _ (Condition.hatch_place_ne i (by decide)).symm).1]

/-- A change of membership evaluates the pattern watch afresh (R64). -/
theorem State.applyInput_truth_fresh (h : new.member ≠ s.hatch.inputs[i].settings.member) :
    (s.applyInput i new).hatch.patternTruth = true ↔
      (∃ j : InputNo, (s.applyInput i new).hatch.inputs[j].settings.member = true) ∧
      (∀ j : InputNo, (s.applyInput i new).hatch.inputs[j].settings.member = true →
        (s.applyInput i new).hatch.inputs[j].settled = .opened) ∧
      (s.hatch.bandRequired = true → ∃ (j : InputNo) (d : CompNo),
        (s.applyInput i new).hatch.inputs[j].settings.member = true ∧
        (s.applyInput i new).hatch.inputs[j].settings.compartment = some d ∧ s.comps[d].band = .warm) := by
  obtain ⟨-, -, hcomps, -, hhatch⟩ := s.inputStored_frame i new
  have hinputs : (s.applyInput i new).hatch.inputs = (s.inputStored i new).hatch.inputs := by
    rw [State.applyInput_eq, State.concluded_hatch]
  have hrequired : (s.inputStored i new).hatch.bandRequired = s.hatch.bandRequired := by rw [hhatch]
  rw [hinputs, State.applyInput_eq, State.concluded_truth_fresh _ _ _ _ (Ne.symm h), State.patternNow_iff, hrequired,
    hcomps]

variable {s i new}

theorem State.hatchInputSet_badValue {b c e w m : Byte}
    (h : 7 < b.toNat ∨ (3 < c.toNat ∧ c ≠ 0xFF) ∨ 1 < e.toNat ∨ 2 < w.toNat ∨ 1 < m.toNat) :
    s.hatchInputSet b c e w m = (refuse .badValue, s) := by
  unfold State.hatchInputSet
  split
  next hi hc he hw hm =>
    rcases h with h | ⟨h, hne⟩ | h | h | h
    · simp [numOf_eq_none h] at hi
    · simp [compOf_eq_none h hne] at hc
    · simp [senseOf_eq_none h] at he
    · simp [watchOf_eq_none h] at hw
    · simp [yesNoOf_eq_none h] at hm
  next => rfl

/-- A request whose five fields are in range comes down to the test of an OPEN input (R51). -/
theorem State.hatchInputSet_inRange {b c e w m : Byte} (hi : i.val = b.toNat) (hc : numField new.compartment = [c])
    (he : new.sense.code = e.toNat) (hw : new.watch.code = w.toNat) (hm : yesNo new.member = [m]) :
    s.hatchInputSet b c e w m = if s.hatch.inputs[i].settled = .opened ∧
        (s.hatch.inputs[i].settings.compartment ≠ new.compartment ∨ s.hatch.inputs[i].settings.sense ≠ new.sense)
      then (refuse .wrongState, s) else (okay [], s.applyInput i new) := by
  simp only [State.hatchInputSet, numOf_of_val hi, compOf_of_numField hc, senseOf_of_code he, watchOf_of_code hw,
    yesNoOf_of_yesNo hm, State.refusing]

end

/-! ### HATCH_CONFIG_SET (R52) -/

/-- The debounce time and the band required are stored. -/
def State.hatchConfigStored (s : State) (steps : Nat) (band : Bool) : State :=
  s.withHatch { s.hatch with debounceSteps := steps, bandRequired := band }

section
variable {s : State}

theorem State.applyHatchConfig_eq (steps : Nat) (band : Bool) : s.applyHatchConfig steps band =
    (s.hatchConfigStored steps band).concluded (s.hatch.bandRequired = band)
      (s.hatch.debounceSteps = steps ∧ s.hatch.bandRequired = band) (.hatchPart steps band) := rfl

theorem State.hatchConfigSet_badValue {b : Byte} (d : Byte) (h : 1 < b.toNat) :
    s.hatchConfigSet d b = (refuse .badValue, s) := by
  simp only [State.hatchConfigSet, yesNoOf_eq_none h, State.refusing]

theorem State.hatchConfigSet_inRange {b : Byte} {band : Bool} (d : Byte) (h : yesNo band = [b]) :
    s.hatchConfigSet d b = (okay [], s.applyHatchConfig (max 2 (min d.toNat 200)) band) := by
  simp only [State.hatchConfigSet, yesNoOf_of_yesNo h, clamp]

end

/-- Settles O32: the checks of the two requests, and of accepted ones what `State.concluded` leaves. -/
theorem hatchSettings : Obligations.HatchSettings := by
  unfold Obligations.HatchSettings
  intro s tag hs
  refine ⟨fun b c e w m hbad => State.submit_report (.hatchInputSet b c e w m) hs (State.hatchInputSet_badValue hbad),
    fun b c e w m i new hi hc he hw hm => ⟨fun hopen hmoved => ?_, fun hfree => ?_⟩,
    fun d b hbad => State.submit_report (.hatchConfigSet d b) hs (State.hatchConfigSet_badValue d hbad),
    fun d b band hband => ?_⟩
  · exact State.submit_report (.hatchInputSet b c e w m) hs
      ((State.hatchInputSet_inRange hi hc he hw hm).trans (if_pos ⟨hopen, hmoved⟩))
  · have hperform : s.hatchInputSet b c e w m = (okay [], s.applyInput i new) := by
      refine (State.hatchInputSet_inRange hi hc he hw hm).trans (if_neg ?_)
      rintro ⟨hopen, hmoved⟩
      obtain ⟨hcomp, hsense⟩ := hfree.resolve_left (not_not_intro hopen)
      exact hmoved.elim (fun h => h hcomp) fun h => h hsense
    obtain ⟨hlog, hslots, -, hclock, hhatch⟩ := s.inputStored_frame i new
    refine ⟨s.applyInput i new, State.submit_of_ready (.hatchInputSet b c e w m) hs hperform (by simp), ?_, ?_, by simp,
      by simp, ?_, ?_, fun hsame => ?_, s.applyInput_truth_fresh i new, ?_, ?_⟩
    · rintro x rfl
      rw [State.applyInput_eq, State.concluded_hatch, hhatch, ContactInput.reset_eq]
    · rw [State.applyInput_eq, State.concluded_hatch, hhatch]
    · rw [State.applyInput_eq, State.concluded_slots, hslots]
    · rintro k rfl
      exact s.applyInput_hatchNotice i new
    · rw [State.applyInput_eq, State.concluded_truth_kept _ _ _ _ hsame.symm, hhatch]
    · rintro k rfl
      rw [State.applyInput_patternNotice, Bool.and_assoc]
    · rw [State.applyInput_eq, State.concluded_log, hlog, (State.stampNow_of_clock hclock).1, State.handGeneral_log hlog,
        apply_ite State.log]
      exact if_congr eq_comm rfl rfl
  · generalize hsteps : max 2 (min d.toNat 200) = steps
    have hperform : s.hatchConfigSet d b = (okay [], s.applyHatchConfig steps band) := by
      rw [State.hatchConfigSet_inRange d hband, hsteps]
    refine ⟨s.applyHatchConfig steps band, State.submit_of_ready (.hatchConfigSet d b) hs hperform (by simp), ?_⟩
    simp only [State.applyHatchConfig_frame, true_and]
    rw [State.applyHatchConfig_eq]
    refine ⟨?_, ?_, ?_, ?_, ?_, fun hsame => ?_, fun hchanged => ?_, ?_, ?_⟩
    · rw [State.concluded_hatch]; rfl
    · rw [State.concluded_hatch]; rfl
    · rw [State.concluded_hatch]; rfl
    · rw [State.concluded_hatch]; rfl
    · exact State.concluded_slots _ _ _ _
    · exact State.concluded_truth_kept _ _ _ _ hsame.symm
    · rw [State.concluded_truth_fresh _ _ _ _ (Ne.symm hchanged), State.patternNow_iff]
      exact Iff.rfl
    · rintro k rfl
      rw [State.concluded_patternNotice, ← Bool.and_assoc]
      rfl
    · rw [State.concluded_log, apply_ite State.log]
      exact if_congr (and_congr eq_comm eq_comm) rfl
        (State.handGeneral_log (s := s) (t := s.hatchConfigStored steps band) rfl _)

end Sys2Proof.Machine
end

