-- ==== Sys2Proof/Proofs/ProofRecords.lean ====
section
/-! PROOFS. Little-endian fields of an image, and the fields of the 72-byte proof record (R128, R129, Table 11-6). -/

namespace Sys2Proof.Machine

/-! ### Reading back a field that was written -/

theorem ofLe_le8 (n : Nat) : ofLe (le8 n) = n % 256 := by
  simp only [le8, ofLe, BitVec.toNat_ofNat]
  omega

theorem ofLe_le16 (n : Nat) : ofLe (le16 n) = n % 65536 := by
  simp only [le16, ofLe, BitVec.toNat_ofNat]
  omega

theorem ofLe_le32 (n : Nat) : ofLe (le32 n) = n % 4294967296 := by
  simp only [le32, ofLe, BitVec.toNat_ofNat]
  omega

theorem ofLe_le64 (n : Nat) : ofLe (le64 n) = n % 18446744073709551616 := by
  simp only [le64, le32, List.cons_append, List.nil_append, ofLe, BitVec.toNat_ofNat]
  omega

theorem ofLe_word (w : Word) : ofLe (le32 w.toNat) = w.toNat := by
  rw [ofLe_le32, Nat.mod_eq_of_lt w.isLt]

theorem ofLe_wide (w : Wide) : ofLe (le64 w.toNat) = w.toNat := by
  rw [ofLe_le64, Nat.mod_eq_of_lt w.isLt]

/-! ### The proof record -/

/-! ### Finding a field in an image -/

@[simp] theorem le8_length (n : Nat) : (le8 n).length = 1 := by simp [le8]
@[simp] theorem le16_length (n : Nat) : (le16 n).length = 2 := by simp [le16]
@[simp] theorem le32_length (n : Nat) : (le32 n).length = 4 := by simp [le32]
@[simp] theorem le64_length (n : Nat) : (le64 n).length = 8 := by simp [le64]

/-- A field that starts behind the first part of an image is a field of the rest. -/
theorem fieldAt_behind {part : List Byte} {off : Nat} (rest : List Byte) (n : Nat) (h : part.length ≤ off) :
    fieldAt (part ++ rest) off n = fieldAt rest (off - part.length) n := by
  rw [fieldAt, fieldAt, List.drop_append, List.drop_eq_nil_of_le h, List.nil_append]

/-- The field at the front of an image. -/
theorem fieldAt_front {part : List Byte} {n : Nat} (rest : List Byte) (h : part.length = n) :
    fieldAt (part ++ rest) 0 n = ofLe part := by
  rw [fieldAt, List.drop_zero, List.take_left' h]

section
variable (identity label : Wide) (x : Slot) (o : CustodyOut) (chain : Word)

theorem proofBody_length : (proofBody identity label x o chain).length = 68 := by
  simp only [proofBody, List.length_append, le8_length, le16_length, le32_length, le64_length]

theorem proofRecord_length : (proofRecord identity label x o chain).length = 72 := by
  simp only [proofRecord, List.length_append, proofBody_length, le32_length]

/-- The check stands behind the 68 bytes that it covers (R129). -/
theorem proofRecord_check : fieldAt (proofRecord identity label x o chain) 68 4 =
    (crc32 ((proofRecord identity label x o chain).take 68)).toNat := by
  have hbody := proofBody_length identity label x o chain
  rw [proofRecord, List.take_left' hbody, fieldAt_behind _ _ hbody.le, hbody, fieldAt, List.drop_zero]
  exact ofLe_word _

/-- The fields of the body, ahead of the check. -/
theorem proofRecord_eq_append : ∃ check, proofRecord identity label x o chain = proofBody identity label x o chain ++ check :=
  ⟨_, rfl⟩

/-- Who issued the record, and of which consignment. -/
theorem proofRecord_names :
    fieldAt (proofRecord identity label x o chain) 0 1 = 0x5A ∧
    fieldAt (proofRecord identity label x o chain) 1 1 = x.compartment.val ∧
    fieldAt (proofRecord identity label x o chain) 3 1 = 0 ∧
    fieldAt (proofRecord identity label x o chain) 4 8 = identity.toNat ∧
    fieldAt (proofRecord identity label x o chain) 12 8 = label.toNat ∧
    fieldAt (proofRecord identity label x o chain) 20 4 = x.identifier.toNat := by
  obtain ⟨check, hrecord⟩ := proofRecord_eq_append identity label x o chain
  have hcompartment : x.compartment.val % 256 = x.compartment.val :=
    Nat.mod_eq_of_lt (x.compartment.isLt.trans (by decide))
  simp [hrecord, proofBody, fieldAt_behind, fieldAt_front, ofLe_le8, ofLe_wide, ofLe_word, hcompartment]

/-- The record's flags: DECLARED, LOG_DEFERRED and DISPOSED (Table 11-6). -/
theorem proofRecord_flags : fieldAt (proofRecord identity label x o chain) 2 1 =
    (if x.declared then 1 else 0) + (if x.logDeferred then 2 else 0) + (if o.outcome = .disposed then 4 else 0) := by
  obtain ⟨check, hrecord⟩ := proofRecord_eq_append identity label x o chain
  have hflags : fieldAt (proofRecord identity label x o chain) 2 1 =
      flagsField [x.declared, x.logDeferred, o.outcome == .disposed] % 256 := by
    simp [hrecord, proofBody, fieldAt_behind, fieldAt_front, ofLe_le8]
  rw [hflags]
  cases x.declared <;> cases x.logDeferred <;> cases o.outcome <;> rfl

/-- The times, and the exposure with its cycles. -/
theorem proofRecord_exposure :
    fieldAt (proofRecord identity label x o chain) 24 4 = x.inTime % 4294967296 ∧
    fieldAt (proofRecord identity label x o chain) 28 4 = o.time % 4294967296 ∧
    fieldAt (proofRecord identity label x o chain) 32 4 = x.carriedExposure % 4294967296 ∧
    fieldAt (proofRecord identity label x o chain) 36 4 = x.exposure % 4294967296 ∧
    fieldAt (proofRecord identity label x o chain) 40 2 = min (x.carriedCycles + x.cycles) 65535 := by
  obtain ⟨check, hrecord⟩ := proofRecord_eq_append identity label x o chain
  have hcycles : x.totalCycles % 65536 = min (x.carriedCycles + x.cycles) 65535 :=
    Nat.mod_eq_of_lt (Nat.lt_succ_of_le (Nat.min_le_right _ _))
  simp [hrecord, proofBody, fieldAt_behind, fieldAt_front, ofLe_le32, ofLe_le16, hcycles]

/-- The openings, the blind seconds, and what ties the record to the log. -/
theorem proofRecord_evidence :
    fieldAt (proofRecord identity label x o chain) 42 2 = x.openings % 65536 ∧
    fieldAt (proofRecord identity label x o chain) 44 4 = x.openingSeconds % 4294967296 ∧
    fieldAt (proofRecord identity label x o chain) 48 4 = min (x.carriedBlind + x.blind) 4294967295 ∧
    fieldAt (proofRecord identity label x o chain) 52 4 = o.receipt.toNat ∧
    fieldAt (proofRecord identity label x o chain) 56 4 = o.sequence % 4294967296 ∧
    fieldAt (proofRecord identity label x o chain) 60 4 = chain.toNat ∧
    fieldAt (proofRecord identity label x o chain) 64 4 = x.limit % 4294967296 := by
  obtain ⟨check, hrecord⟩ := proofRecord_eq_append identity label x o chain
  have hreceipt : o.receipt.toNat < 4294967296 := o.receipt.isLt
  have hchain : chain.toNat < 4294967296 := chain.isLt
  have hblind : sat32 (x.carriedBlind + x.blind) % 4294967296 = min (x.carriedBlind + x.blind) 4294967295 :=
    Nat.mod_eq_of_lt (Nat.lt_succ_of_le (Nat.min_le_right _ _))
  simp [hrecord, proofBody, fieldAt_behind, fieldAt_front, ofLe_le32, ofLe_le16, hblind, hreceipt, hchain]

end

end Sys2Proof.Machine
end

