-- ==== Sys2Proof/Proofs/HandoverEnds.lean ====
section
/-! PROOFS. HANDOVER_END ACCEPTED or DISPOSED: the accounting that is closed, the CUSTODY_OUT record and the slot that it
leaves (R62, R94, R124, R125, R128). -/

namespace Sys2Proof.Machine

/-! ### The account is closed (R94, R124 step 2) -/

section
variable {s : State} {i : SlotNo}

theorem State.closeAccount_enabled (h : s.comps[s.slots[i].compartment].settings.enabled = true) :
    s.closeAccount i = s.stepComp s.slots[i].compartment .boundary := by
  rw [State.stepComp_of_enabled _ h]
  exact if_pos h

theorem State.closeAccount_disabled (h : s.comps[s.slots[i].compartment].settings.enabled = false) :
    s.closeAccount i = s.setSlot i (s.slots[i].creditGap s.now) :=
  if_neg (by rw [h]; decide)

/-- A disabled compartment takes no step: the other consignments are as after its boundary step in either case. -/
theorem State.closeAccount_other {j : SlotNo} (h : j ≠ i) :
    (s.closeAccount i).slots[j] = (s.stepComp s.slots[i].compartment .boundary).slots[j] := by
  cases he : s.comps[s.slots[i].compartment].settings.enabled with
  | true => rw [State.closeAccount_enabled he]
  | false =>
    rw [State.closeAccount_disabled he, State.stepComp_of_disabled _ he, State.setSlot_slots, getElem_setAt_ne _ _ h.symm]

/-- A consignment that is not in custody in a compartment takes no part in its step. -/
theorem State.stepComp_notHeld {c : CompNo} {j : SlotNo} (cause : StepCause) (h : s.slots[j].heldIn c = false) :
    (s.stepComp c cause).slots[j] = s.slots[j] := by
  cases he : s.comps[c].settings.enabled with
  | true =>
    rw [State.stepComp_of_enabled cause he, State.takeStep_slot, if_neg]
    rw [h]
    decide
  | false => rw [State.stepComp_of_disabled cause he]

theorem State.closeAccount_openings : (s.closeAccount i).hatch.openings = s.hatch.openings := by
  cases he : s.comps[s.slots[i].compartment].settings.enabled with
  | true => rw [State.closeAccount_enabled he, (s.stepComp_contactsKept _ _).2.1]
  | false => rw [State.closeAccount_disabled he, State.setSlot_hatch]

/-- The custody test was made for the SAMPLE that closing the account hands, if it hands one (R77). -/
theorem State.closeAccount_custodyFate
    (h : s.log.custodyFits s.comps[s.slots[i].compartment].settings.enabled = true) :
    (s.closeAccount i).log.custodyFate ≠ .unwritten := by
  cases he : s.comps[s.slots[i].compartment].settings.enabled with
  | true =>
    rw [State.closeAccount_enabled he]
    exact s.boundary_custodyFate _ he (by rwa [he] at h)
  | false =>
    rw [State.closeAccount_disabled he, State.setSlot_log]
    rw [he] at h
    simpa only [Log.custodyFits, Bool.false_eq_true, if_false, bne_iff_ne] using h

/-- A step moves the accounting of a consignment alone. -/
theorem Slot.stepped_kept (x : Slot) (timed cools : Bool) (t tp : Nat) (rate : Option Nat) :
    (x.stepped timed cools t tp rate).identifier = x.identifier ∧ (x.stepped timed cools t tp rate).inTime = x.inTime := by
  cases timed with
  | false => exact ⟨rfl, rfl⟩
  | true =>
    cases rate with
    | none => exact ⟨rfl, rfl⟩
    | some r => simp only [Slot.stepped, if_true, Slot.takeShare, Slot.checked_eq]; exact ⟨rfl, rfl⟩

theorem State.closeAccount_compartment : (s.closeAccount i).slots[i].compartment = s.slots[i].compartment := by
  cases he : s.comps[s.slots[i].compartment].settings.enabled with
  | true =>
    rw [State.closeAccount_enabled he, State.stepComp_of_enabled _ he, State.takeStep_slot]
    split
    · exact (s.slots[i].stepped_frame _ _ _ _ _).2.1
    · rfl
  | false => rw [State.closeAccount_disabled he, State.setSlot_slots, getElem_setAt_self, Slot.creditGap]

/-- With the clock VALID the account of a consignment in custody is closed at the present time. -/
theorem State.closeAccount_slot (htimed : s.timed = true) (hcustody : s.slots[i].inCustody = true) :
    (s.closeAccount i).slots[i].identifier = s.slots[i].identifier ∧
      (s.closeAccount i).slots[i].inTime = s.slots[i].inTime ∧ (s.closeAccount i).slots[i].lastAccounted = s.now := by
  cases he : s.comps[s.slots[i].compartment].settings.enabled with
  | true =>
    have hheld : s.slots[i].heldIn s.slots[i].compartment = true := by
      simp only [Slot.heldIn, hcustody, beq_self_eq_true, Bool.and_self]
    rw [State.closeAccount_enabled he, State.stepComp_of_enabled _ he, State.takeStep_slot, if_pos hheld, htimed]
    obtain ⟨hidentifier, hin⟩ := s.slots[i].stepped_kept true _ _ _ _
    exact ⟨hidentifier, hin, Slot.stepped_lastAccounted _ _ _ _ _⟩
  | false =>
    rw [State.closeAccount_disabled he, State.setSlot_slots, getElem_setAt_self]
    exact ⟨rfl, rfl, rfl⟩

end

/-! ### The CUSTODY_OUT record (R125) -/

/-- A custody record that is written stands at the newest end, and the log carries its chain value (R72, R76). -/
theorem State.handCustody_newest {s : State} {e : Entry} (h : s.log.custodyFate ≠ .unwritten) :
    ∃ r, (s.handCustody e).log.records.getLast? = some r ∧ (s.handCustody e).log.chain = r.chain ∧
      r.sequence = s.log.nextSeq ∧ r.stamp = e.stamp ∧ r.compartment = e.compartment ∧ r.body = e.body := by
  have hafter : ∀ (t : State) (q : Nat), (t.afterCustody e q).log.records = t.log.records ∧
      (t.afterCustody e q).log.chain = t.log.chain := fun t q => by
    unfold State.afterCustody
    split <;> exact ⟨rfl, rfl⟩
  have hwritten : ∃ l : Log, l.nextSeq = s.log.nextSeq ∧
      s.handCustody e = (s.withLog (l.append e)).afterCustody e s.log.nextSeq := by
    cases hf : s.log.custodyFate with
    | unwritten => exact absurd hf h
    | appended => exact ⟨s.log, rfl, by simp only [State.handCustody, hf]⟩
    | evicting => exact ⟨s.log.evict, rfl, by simp only [State.handCustody, hf]⟩
  obtain ⟨l, hnext, hhanded⟩ := hwritten
  obtain ⟨hrecords, hchain⟩ := hafter (s.withLog (l.append e)) s.log.nextSeq
  rw [hhanded, hrecords, hchain]
  exact ⟨l.recordOf e, by simp [Log.append], rfl, hnext, rfl, rfl, rfl⟩

/-! ### The slot that an end leaves (R62, R124) -/

/-- A slot with its account closed, when the opening in progress has been credited and its custody-out fields stand. -/
def Slot.ending (y : Slot) (opening : Opening) (t : Nat) (out : CustodyOut) : Slot :=
  { y with
    openingSeconds := if opening.state = .opening then sat32 (y.openingSeconds + (t - max opening.startTime y.inTime))
      else y.openingSeconds
    handover := none
    out := some out }

/-- The custody-out fields of an end (R124 steps 4 and 5). -/
def State.outFields (s : State) (i : SlotNo) (o : Outcome) (receipt : Word) : CustodyOut :=
  ⟨s.now, (s.closeAccount i).log.nextSeq, receipt, o⟩

/-- The slot as its CUSTODY_OUT record finds it. -/
def State.endingSlot (s : State) (i : SlotNo) (o : Outcome) (receipt : Word) : Slot :=
  (s.closeAccount i).slots[i].ending s.hatch.openings[s.slots[i].compartment] s.now (s.outFields i o receipt)

section
variable (s : State) (i : SlotNo) (o : Outcome) (receipt : Word)

theorem State.creditEnding_slots : (s.creditEnding i).slots = setAt s.slots i { s.slots[i] with
    openingSeconds := if s.hatch.openings[s.slots[i].compartment].state = .opening then
      sat32 (s.slots[i].openingSeconds +
        (s.now - max s.hatch.openings[s.slots[i].compartment].startTime s.slots[i].inTime))
      else s.slots[i].openingSeconds } := by
  simp only [State.creditEnding]
  split
  · rfl
  · exact (setAt_self rfl).symm

/-- The part before the CUSTODY_OUT record: the accounting closed and the slot's fields written. -/
def State.endPrepared (s : State) (i : SlotNo) (o : Outcome) (receipt : Word) : State :=
  ((s.closeAccount i).creditEnding i).setOut i o receipt

theorem State.endPrepared_slots :
    (s.endPrepared i o receipt).slots = setAt (s.closeAccount i).slots i (s.endingSlot i o receipt) := by
  have hnow : ((s.closeAccount i).creditEnding i).now = s.now ∧ (s.closeAccount i).now = s.now :=
    ⟨(State.stampNow_of_clock (by simp)).2.1, (State.stampNow_of_clock (by simp)).2.1⟩
  have hlog : ((s.closeAccount i).creditEnding i).log = (s.closeAccount i).log := by simp
  rw [State.endPrepared, State.setOut, State.setSlot_slots, State.creditEnding_slots, setAt_setAt, getElem_setAt_self,
    hnow.1, hnow.2, hlog]
  simp only [State.closeAccount_openings, State.closeAccount_compartment, State.endingSlot, Slot.ending, State.outFields]

theorem State.endPrepared_frame : (s.endPrepared i o receipt).log = (s.closeAccount i).log ∧
    (s.endPrepared i o receipt).stampNow = s.stampNow ∧ (s.endPrepared i o receipt).identity = s.identity ∧
    (s.endPrepared i o receipt).label = s.label := by
  refine ⟨?_, (State.stampNow_of_clock ?_).1, ?_, ?_⟩ <;> simp [State.endPrepared]

/-- The part when the CUSTODY_OUT record has been handed. -/
def State.endRecorded (s : State) (i : SlotNo) (o : Outcome) (receipt : Word) : State :=
  (s.endPrepared i o receipt).handCustody (custodyOutEntry (s.endingSlot i o receipt) i o receipt s.stampNow)

theorem State.acceptEnd_eq : s.acceptEnd i o receipt = (s.endRecorded i o receipt).composeProof i := by
  obtain ⟨-, hstamp, -, -⟩ := s.endPrepared_frame i o receipt
  have hslot : (s.endPrepared i o receipt).slots[i] = s.endingSlot i o receipt := by
    rw [State.endPrepared_slots, getElem_setAt_self]
  rw [State.endRecorded, ← hslot, ← hstamp]
  rfl

theorem State.composeProof_of_out {s : State} {i : SlotNo} {out : CustodyOut} (h : s.slots[i].out = some out) :
    s.composeProof i = s.setSlot i { s.slots[i] with
      state := .handedOver, proof := some (proofRecord s.identity s.label s.slots[i] out s.log.chain) } := by
  simp only [State.composeProof, h]

/-- The proof record of an end. -/
def State.endProof (s : State) (i : SlotNo) (o : Outcome) (receipt : Word) : List Byte :=
  proofRecord s.identity s.label (s.endingSlot i o receipt) (s.outFields i o receipt) (s.endRecorded i o receipt).log.chain

theorem State.acceptEnd_slots : (s.acceptEnd i o receipt).slots = setAt (s.closeAccount i).slots i
    { s.endingSlot i o receipt with state := .handedOver, proof := some (s.endProof i o receipt) } := by
  obtain ⟨-, -, hidentity, hlabel⟩ := s.endPrepared_frame i o receipt
  have hslots : (s.endRecorded i o receipt).slots = setAt (s.closeAccount i).slots i (s.endingSlot i o receipt) := by
    rw [State.endRecorded, (State.handCustody_frame _ _).2.2.2.2.2.2.1, State.endPrepared_slots]
  have hslot : (s.endRecorded i o receipt).slots[i] = s.endingSlot i o receipt := by
    rw [hslots, getElem_setAt_self]
  have hnames : (s.endRecorded i o receipt).identity = s.identity ∧ (s.endRecorded i o receipt).label = s.label := by
    simp only [State.endRecorded, State.handCustody_frame, hidentity, hlabel, and_self]
  have hout : (s.endRecorded i o receipt).slots[i].out = some (s.outFields i o receipt) := by
    rw [hslot]
    rfl
  rw [State.acceptEnd_eq, State.composeProof_of_out hout, State.setSlot_slots, hslot, hslots, setAt_setAt, hnames.1,
    hnames.2]
  rfl

theorem State.acceptEnd_openings : (s.acceptEnd i o receipt).hatch.openings = s.hatch.openings := by
  have hhatch : (s.acceptEnd i o receipt).hatch = (s.closeAccount i).hatch := by simp [State.acceptEnd]
  rw [hhatch, State.closeAccount_openings]

theorem State.acceptEnd_log : (s.acceptEnd i o receipt).log = (s.endRecorded i o receipt).log := by
  rw [State.acceptEnd_eq]
  simp only [State.composeProof_frame]

variable {s i o receipt}

/-- The newest record is the CUSTODY_OUT of the ending slot, and its chain value is the log's. -/
theorem State.endRecorded_newest (h : (s.closeAccount i).log.custodyFate ≠ .unwritten) :
    ∃ r, (s.endRecorded i o receipt).log.records.getLast? = some r ∧ (s.endRecorded i o receipt).log.chain = r.chain ∧
      r.sequence = (s.closeAccount i).log.nextSeq ∧ r.stamp = s.stampNow ∧
      r.compartment = some (s.endingSlot i o receipt).compartment ∧
      r.body = .custodyOut (s.endingSlot i o receipt).identifier i o receipt (s.endingSlot i o receipt).exposure
        (s.endingSlot i o receipt).cycles (s.endingSlot i o receipt).limitCrossed
        (s.endingSlot i o receipt).logDeferred (s.endingSlot i o receipt).declared := by
  obtain ⟨hlog, -, -, -⟩ := s.endPrepared_frame i o receipt
  rw [← hlog] at h ⊢
  exact State.handCustody_newest h

end

/-! ### The request (R122) -/

section
variable {s : State} {id receipt : Word} {i : SlotNo} {o : Outcome}

/-- A request that passes the checks of Table 6-3 is accepted. -/
theorem State.handoverEnd_accepted {b : Byte} (hb : outcomeOf b = some (some o)) (htimed : s.timed = true) (hid : id ≠ 0)
    (hfound : s.slotOf id = some i) (hstate : s.slots[i].state = .handingOver)
    (hfits : s.log.custodyFits s.comps[s.slots[i].compartment].settings.enabled = true) :
    s.handoverEnd id b receipt = (okay ((s.acceptEnd i o receipt).endReply i), s.acceptEnd i o receipt) := by
  have hends : s.log.custodyFits (s.endSteps i (some o)) = true := hfits
  simp only [State.handoverEnd, htimed, hb, hid, hfound, hstate, hends, Bool.not_true, Bool.false_eq_true, if_false,
    if_true, reduceCtorEq, ne_eq, not_true_eq_false]

theorem exec_handoverEnd {tag : Byte} {c : Instr} (hs : s.ready)
    (hc : (c = .handoverEndAccepted tag id receipt ∧ o = .accepted) ∨
      (c = .handoverEndDisposed tag id receipt ∧ o = .disposed))
    (htimed : s.timed = true) (hid : id ≠ 0) (hfound : s.slotOf id = some i) (hstate : s.slots[i].state = .handingOver)
    (hfits : s.log.custodyFits s.comps[s.slots[i].compartment].settings.enabled = true) :
    exec c s = .next ((s.acceptEnd i o receipt).replies 0x32 tag (okay ((s.acceptEnd i o receipt).endReply i))) := by
  rcases hc with ⟨rfl, rfl⟩ | ⟨rfl, rfl⟩
  · exact State.submit_of_ready (.handoverEnd id 0 receipt) hs
      (State.handoverEnd_accepted (b := 0) rfl htimed hid hfound hstate hfits) (by simp)
  · exact State.submit_of_ready (.handoverEnd id 1 receipt) hs
      (State.handoverEnd_accepted (b := 1) rfl htimed hid hfound hstate hfits) (by simp)

/-- The slot that an identifier names holds it (R96). -/
theorem State.identifier_of_slotOf (h : s.slotOf id = some i) : s.slots[i].identifier = id := by
  have hfound := lowest_some h
  simp only [Bool.and_eq_true, beq_iff_eq] at hfound
  exact hfound.2

end

/-- Settles O40: the slot by `State.acceptEnd_slots`, the record by `State.endRecorded_newest`, and the proof record field
by field. -/
theorem handoverEndComposesTheProof : Obligations.HandoverEndComposesTheProof := by
  unfold Obligations.HandoverEndComposesTheProof
  rintro s tag id receipt i x y opening c o hs hvalid hid hfound rfl hstate hfits hc hy rfl
  obtain ⟨htimed, hnow⟩ := State.now_of_valid hvalid
  have hstamp : s.stampNow = ⟨s.clock.counter, false⟩ := by rw [State.stampNow, hnow, htimed]; rfl
  have hcustody : s.slots[i].inCustody = true := by rw [Slot.inCustody, hstate]; rfl
  obtain ⟨hidentifier, hin, haccounted⟩ := State.closeAccount_slot htimed hcustody
  have hcompartment := s.closeAccount_compartment (i := i)
  have hclosed : (s.closeAccount i).slots[i] = y := by
    rw [hy]
    cases he : s.comps[s.slots[i].compartment].settings.enabled with
    | true => rw [State.closeAccount_enabled he]; rfl
    | false =>
      rw [State.closeAccount_disabled he, State.setSlot_slots, getElem_setAt_self, Slot.creditGap, hnow]
      rfl
  have hending : s.endingSlot i o receipt =
      y.ending s.hatch.openings[s.slots[i].compartment] s.now (s.outFields i o receipt) := by
    rw [State.endingSlot, hclosed]
  obtain ⟨r, hlast, hchain, hsequence, hrstamp, hrcomp, hbody⟩ :=
    State.endRecorded_newest (o := o) (receipt := receipt) (State.closeAccount_custodyFate hfits)
  have hslot : (s.acceptEnd i o receipt).slots[i] =
      { s.endingSlot i o receipt with state := .handedOver, proof := some (s.endProof i o receipt) } := by
    rw [State.acceptEnd_slots, getElem_setAt_self]
  rw [hclosed] at hidentifier hcompartment hin haccounted
  rw [State.identifier_of_slotOf hfound] at hidentifier
  have hout : s.outFields i o receipt = ⟨s.clock.counter, r.sequence, receipt, o⟩ := by
    rw [State.outFields, hnow, hsequence]
  have hproof : s.endProof i o receipt = proofRecord s.identity s.label (s.acceptEnd i o receipt).slots[i]
      ⟨s.clock.counter, r.sequence, receipt, o⟩ r.chain := by
    rw [State.endProof, hchain, hslot, hout]
    rfl
  have hnames : (s.acceptEnd i o receipt).slots[i].identifier = id ∧
      (s.acceptEnd i o receipt).slots[i].compartment = s.slots[i].compartment ∧
      (s.acceptEnd i o receipt).slots[i].lastAccounted = s.clock.counter := by
    rw [hslot, hending]
    exact ⟨hidentifier, hcompartment, haccounted.trans hnow⟩
  obtain ⟨hid', hcomp', hlastAccounted⟩ := hnames
  refine ⟨s.acceptEnd i o receipt, r, ⟨s.clock.counter, r.sequence, receipt, o⟩, _,
    exec_handoverEnd hs hc htimed hid hfound hstate hfits, ?slot, rfl, ?last, hrstamp.trans hstamp, ?compartment, ?body,
    proofRecord_length .., rfl, ?fields, proofRecord_check .., hlastAccounted, s.acceptEnd_openings i o receipt, ?others⟩
  case slot =>
    rw [← hproof, hslot, hending, Slot.ending, hin, hnow, hout]
    simp only [sat32_eq]
  case last => rw [State.acceptEnd_log, hlast]
  case compartment => rw [hrcomp, hending]; exact congrArg some hcompartment
  case body =>
    rw [hbody, hslot, hending]
    simp only [Slot.ending, hidentifier]
  case fields =>
    obtain ⟨hkind, hcomp, hspare, hidentity, hlabel, hname⟩ := proofRecord_names s.identity s.label
      (s.acceptEnd i o receipt).slots[i] ⟨s.clock.counter, r.sequence, receipt, o⟩ r.chain
    obtain ⟨htimeIn, htimeOut, hcarried, hexposure, hcycles⟩ := proofRecord_exposure s.identity s.label
      (s.acceptEnd i o receipt).slots[i] ⟨s.clock.counter, r.sequence, receipt, o⟩ r.chain
    exact ⟨hkind, hcomp.trans (congrArg Fin.val hcomp'), proofRecord_flags .., hspare, hidentity, hlabel,
      hname.trans (congrArg BitVec.toNat hid'), htimeIn, htimeOut, hcarried, hexposure, hcycles, proofRecord_evidence ..⟩
  case others =>
    intro j hj
    have hother : (s.acceptEnd i o receipt).slots[j] = (s.stepComp s.slots[i].compartment .boundary).slots[j] := by
      rw [State.acceptEnd_slots, getElem_setAt_ne _ _ hj.symm, State.closeAccount_other hj]
    exact ⟨hother, fun hheld => hother.trans (State.stepComp_notHeld .boundary hheld)⟩

end Sys2Proof.Machine
end

