-- ==== Sys2Proof/Proofs/OvertakenLapse.lean ====
section
/-! PROOFS. A handover that ends while the seconds to its lapse pass: with a frame waiting for an IDLE transmitter, which
`State.evidenceOk` leaves open and `State.linkOk` excludes, the slot is HANDED_OVER when its lapse is taken (R119, R120,
R199). -/

namespace Sys2Proof.Machine

/-- A consignment in HANDING_OVER whose deadline is second 1. -/
def Slot.dueAtOne : Slot := { Slot.blank with identifier := 1, state := .handingOver, handover := some ⟨0, 1⟩ }

/-- Second 0: the consignment's HANDOVER_END ACCEPTED waits in the receive queue beside an IDLE transmitter, a cycle timer
tick is due, and the lapse of slot 0 is the next command. -/
def State.overtaken : State :=
  { State.reset with
    pending := [.handoverLapse 0]
    slots := setAt State.reset.slots 0 .dueAtOne
    clock := ⟨.valid, 0, 0, 0⟩
    scan := { State.reset.scan with tickIn := 0 }
    link := { State.reset.link with transmitter := .idle, queue := [requestFrame 1 (.handoverEnd 1 0 0)] } }

/-- What the lapse leaves: the tick is taken in the second before it, and the link, following the tick, takes the end. -/
def State.overtakenNext : State := (State.overtaken.withPending []).happen fun s => s.handoverLapse 0

theorem step_overtaken : step .overtaken = .next .overtakenNext := rfl

theorem Slot.dueAtOne_ok : Slot.dueAtOne.ok := by
  unfold Slot.ok
  decide

theorem overtaken_slot (i : SlotNo) : State.overtaken.slots[i] = if 0 = i then .dueAtOne else .blank := by
  rw [← reset_slots i]
  exact getElem_setAt State.reset.slots 0 i .dueAtOne

/-- Slot 0 is the one consignment. -/
theorem overtaken_tableOk : State.overtaken.tableOk := by
  have hempty : ∀ i : SlotNo, State.overtaken.slots[i].state ≠ .empty → 0 = i := by
    intro i hstate
    rw [overtaken_slot] at hstate
    by_contra hi
    rw [if_neg hi] at hstate
    exact hstate rfl
  refine ⟨fun i => ?_, fun i j hi hj _ => (hempty i hi).symm.trans (hempty j hj)⟩
  rw [overtaken_slot]
  split
  · exact Slot.dueAtOne_ok
  · exact reset_slots i ▸ reset_tableOk.1 i

/-- The log and the claims are those of the reset, and no slot counts a claim. -/
theorem overtaken_evidenceOk : State.overtaken.evidenceOk := by
  obtain ⟨hholds, hqueue, hnodup, hreference, hdiffer, -⟩ := reset_claimsOk
  exact ⟨reset_log_ok, ⟨hholds, hqueue, hnodup, hreference, hdiffer, by decide +kernel⟩, nofun, overtaken_tableOk⟩

/-- The lapse has returned the slot that HANDOVER_END had handed over. -/
theorem overtakenNext_slot : State.overtakenNext.slots[(0 : SlotNo)].state = .inCustody ∧
    State.overtakenNext.slots[(0 : SlotNo)].out.isSome = true := by
  decide +kernel

/-- Refutes O59: evidence in order does not keep a lapse from falling on a slot that a waiting frame has handed over
meanwhile, and the slot is then IN_CUSTODY with custody-out fields. -/
theorem not_stepKeepsTheEvidence : ¬ Obligations.StepKeepsTheEvidence := by
  unfold Obligations.StepKeepsTheEvidence
  intro hkeeps
  obtain ⟨-, -, -, hslots, -⟩ := hkeeps .overtaken .overtakenNext overtaken_evidenceOk step_overtaken
  obtain ⟨-, -, -, hout, -, -⟩ := hslots 0
  obtain ⟨hstate, hsome⟩ := overtakenNext_slot
  rw [hsome, hstate] at hout
  cases hout

end Sys2Proof.Machine
end

