-- ==== Sys2Proof/Proofs/GeneralRecords.lean ====
section
/-! PROOFS. What becomes of a general record by the log's fill, its holds and ENDED (R71, R72, R75, R79 to R82, R87). -/

namespace Sys2Proof.Machine

/-! ### A record is appended, after an eviction where the places are full -/

/-- The log as an append finds it: below `n` records as it stands, else without its oldest record. -/
def Log.madeRoom (l : Log) (n : Nat) : Log := if l.records.length < n then l else l.evict

theorem Log.madeRoom_append {l : Log} (hended : l.ended = false) (n : Nat) (e : Entry) : (l.madeRoom n).append e =
    { l with
      records := (if l.records.length < n then l.records else l.records.tail) ++ [l.recordOf e]
      nextSeq := if l.nextSeq = 4294967295 then 4294967295 else l.nextSeq + 1
      chain := (l.recordOf e).chain
      ended := decide (l.nextSeq = 4294967295) } := by
  have hnext : (if l.nextSeq = lastSequence then l.nextSeq else l.nextSeq + 1) =
      if l.nextSeq = 4294967295 then 4294967295 else l.nextSeq + 1 := by
    split
    · assumption
    · rfl
  by_cases hplaces : l.records.length < n
  · simp only [Log.madeRoom, Log.append, hplaces, if_true, hnext, hended, Bool.or_false]
  · simp only [Log.madeRoom, Log.append, Log.evict, hplaces, if_false, hnext, hended, Bool.or_false]
    rfl

theorem image28_length (q : Nat) (t : Stamp) (c : Option CompNo) (b : Body) : (image28 q t c b).length = 28 := by
  simp [image28, Body.bytes]

/-- The chain value covers the log's and the first 28 bytes of the record's image (R72). -/
theorem Log.recordOf_chain (l : Log) (e : Entry) :
    (l.recordOf e).chain = crc32 (le32 l.chain.toNat ++ (l.recordOf e).image.take 28) := by
  rw [LogRecord.image, List.take_left' (image28_length ..)]
  rfl

/-! ### A general record that is taken (R75) -/

theorem Log.generalFate_of_room {l : Log} (hended : l.ended = false) (hheld : l.heldFull = false)
    (hroom : l.records.length < 4032 ∨ l.oldestHeld = false) :
    l.generalFate = if l.records.length < 4032 then .appended else .evicting := by
  by_cases hplaces : l.records.length < 4032
  · simp [Log.generalFate, hended, hheld, hplaces]
  · simp [Log.generalFate, hended, hheld, hplaces, hroom.resolve_left hplaces]

theorem State.handGeneral_taken {s : State} (hended : s.log.ended = false) (hheld : s.log.heldFull = false)
    (hroom : s.log.records.length < 4032 ∨ s.log.oldestHeld = false) (e : Entry) :
    s.handGeneral e = s.withLog ((s.log.madeRoom 4032).append e) := by
  rw [State.handGeneral, Log.generalFate_of_room hended hheld hroom, Log.madeRoom]
  by_cases hplaces : s.log.records.length < 4032
  · simp only [hplaces, if_true]
  · simp only [hplaces, if_false]

theorem Log.takesGeneral_of_room {l : Log} (hended : l.ended = false) (hheld : l.heldFull = false)
    (hroom : l.records.length < 4032 ∨ l.oldestHeld = false) : l.takesGeneral = true := by
  rw [Log.takesGeneral, Log.generalFate_of_room hended hheld hroom]
  split <;> rfl

/-! ### A general record that falls back (R79 to R82) -/

theorem State.enterHeldFull_log (s : State) (t : Stamp) : (s.enterHeldFull t).log =
    { s.log with heldFull := true, heldSince := some (s.log.heldSince.getD t) } := by
  simp only [State.enterHeldFull, State.raise_frame, State.withLog_log]

/-- The part in HELD_FULL, which a record of time t brings about where it is not in force (R79). -/
def State.inHeldFull (s : State) (t : Stamp) : State := if s.log.heldFull then s else s.enterHeldFull t

theorem State.inHeldFull_log (s : State) (t : Stamp) : (s.inHeldFull t).log =
    if s.log.heldFull then s.log
    else { s.log with heldFull := true, heldSince := some (s.log.heldSince.getD t) } := by
  unfold State.inHeldFull
  split
  · rfl
  · exact s.enterHeldFull_log t

theorem Log.generalFate_of_fallBack {l : Log} (hended : l.ended = false)
    (hback : l.heldFull = true ∨ (4032 ≤ l.records.length ∧ l.oldestHeld = true)) :
    l.generalFate = if l.heldFull then .fallback else .entering := by
  cases hheld : l.heldFull with
  | true => simp [Log.generalFate, hended, hheld]
  | false =>
    obtain ⟨hplaces, hoheld⟩ := hback.resolve_left (by simp [hheld])
    simp [Log.generalFate, hended, hheld, Nat.not_lt.mpr hplaces, hoheld]

theorem State.handGeneral_fallBack {s : State} (hended : s.log.ended = false)
    (hback : s.log.heldFull = true ∨ (4032 ≤ s.log.records.length ∧ s.log.oldestHeld = true)) (e : Entry) :
    s.handGeneral e = (s.inHeldFull e.stamp).fallBack e := by
  rw [State.handGeneral, Log.generalFate_of_fallBack hended hback, State.inHeldFull]
  cases s.log.heldFull <;> rfl

theorem State.fallBack_log_of_sample {e : Entry} {b : SampleBody} {c : CompNo} (s : State) (hbody : e.body = .sample b)
    (hcomp : e.compartment = some c) : (s.fallBack e).log = { s.log with
      coarse := setAt s.log.coarse c (some (mergeCoarse s.log.coarse[c] e.stamp b e.tempSum e.tempCount)) } := by
  simp only [State.fallBack, hbody, State.mergeSample, hcomp, State.flagDeferred_frame, State.withLog_log, updAt]

theorem State.fallBack_of_other {e : Entry} (s : State) (hbody : ∀ b, e.body ≠ .sample b) :
    s.fallBack e = s.loseGeneral e := by
  cases hb : e.body with
  | sample b => exact absurd hb (hbody b)
  | _ => simp only [State.fallBack, hb]

/-! ### Lost records are counted by their kind (R82) -/

section
variable {e : Entry} (s : State)

theorem State.loseGeneral_hatch {i : InputNo} {st : Settled} {ch : OpeningChange} (hbody : e.body = .hatch i st ch) :
    s.loseGeneral e = s.withLog { s.log with hatchLost := min (s.log.hatchLost + 1) 65535 } := by
  simp only [State.loseGeneral, hbody, sat16]

theorem State.loseGeneral_claim {a : ClaimAction} {r i : Word} {h : Nat} {w : Option Nat}
    {v : Option (Verdict × Evidence)} (hbody : e.body = .claim a r i h w v) :
    s.loseGeneral e = s.withLog { s.log with claimLost := min (s.log.claimLost + 1) 65535 } := by
  simp only [State.loseGeneral, hbody, sat16]

/-- The kinds that are counted under other, a SAMPLE apart. -/
def Body.isOther (b : Body) : Prop :=
  (∃ c, b = .config c) ∨ (∃ p n k, b = .time p n k) ∨ ∃ r g k n, b = .power r g k n

theorem Body.isOther.ne_sample {b : Body} (h : b.isOther) (x : SampleBody) : b ≠ .sample x := by
  rcases h with ⟨c, rfl⟩ | ⟨p, n, k, rfl⟩ | ⟨r, g, k, n, rfl⟩ <;> exact nofun

theorem State.loseGeneral_other (hbody : e.body.isOther) :
    s.loseGeneral e = s.withLog { s.log with otherLost := min (s.log.otherLost + 1) 65535 } := by
  rcases hbody with ⟨c, hb⟩ | ⟨p, n, k, hb⟩ | ⟨r, g, k, n, hb⟩ <;> simp only [State.loseGeneral, hb, sat16]

theorem State.loseGeneral_sample {b : SampleBody} (hbody : e.body = .sample b) : s.loseGeneral e =
    (s.withLog { s.log with otherLost := min (s.log.otherLost + 1) 65535 }).flagDeferred e.compartment := by
  simp only [State.loseGeneral, hbody, sat16]

theorem State.handGeneral_ended (hended : s.log.ended = true) : s.handGeneral e = s.loseGeneral e := by
  simp only [State.handGeneral, Log.generalFate, hended, if_true]

end

/-! ### The consignments and the notices (R79, R81) -/

theorem Log.defers_of_other {e : Entry} (l : Log) (hbody : ∀ b, e.body ≠ .sample b) : l.defers e = none := by
  cases hb : e.body with
  | sample b => exact absurd hb (hbody b)
  | _ => cases hf : l.generalFate <;> simp only [Log.defers, hf, hb]

/-- Only a SAMPLE flags consignments. -/
theorem State.handGeneral_slots_of_other {e : Entry} (s : State) (hbody : ∀ b, e.body ≠ .sample b) :
    (s.handGeneral e).slots = s.slots := by
  rw [State.handGeneral_slots, Log.defers_of_other _ hbody]
  rfl

theorem Log.defers_of_fallBack {e : Entry} {b : SampleBody} {l : Log} (hended : l.ended = false)
    (hback : l.heldFull = true ∨ (4032 ≤ l.records.length ∧ l.oldestHeld = true)) (hbody : e.body = .sample b) :
    l.defers e = e.compartment := by
  rw [Log.defers, Log.generalFate_of_fallBack hended hback, hbody]
  cases l.heldFull <;> rfl

/-- A log that enters HELD_FULL raises LOG_HELD. -/
theorem State.handGeneral_raises {s : State} (hended : s.log.ended = false) (hheld : s.log.heldFull = false)
    (hback : 4032 ≤ s.log.records.length ∧ s.log.oldestHeld = true)
    (henabled : s.notices.enables[Condition.logHeld.place] = true) (e : Entry) :
    (s.handGeneral e).notices.members[Condition.logHeld.place] = true := by
  have hfate : s.log.generalFate = .entering := by
    rw [Log.generalFate_of_fallBack hended (.inr hback), hheld]
    rfl
  rw [State.handGeneral_notices, hfate, NoticeUnit.raiseMany_members, henabled]
  simp

/-- Settles O33: a record is taken by `State.handGeneral_taken`, or falls back by `State.handGeneral_fallBack`. -/
theorem generalRecordsByTheLog : Obligations.GeneralRecordsByTheLog := by
  unfold Obligations.GeneralRecordsByTheLog
  refine ⟨fun s e hended _ _ => ⟨fun hheld hroom => ?taken, fun l hback hl => ?fallsBack⟩,
    fun s e hended => ⟨?endedSample, ?endedHatch, ?endedClaim, ?endedOther⟩⟩
  case taken =>
    refine ⟨s.log.recordOf e, rfl, rfl, rfl, rfl, s.log.recordOf_chain e, ?_⟩
    rw [State.handGeneral_taken hended hheld hroom, Log.madeRoom_append hended]
  case fallsBack =>
    obtain rfl : l = (s.inHeldFull e.stamp).log := hl.trans (s.inHeldFull_log e.stamp).symm
    have hfalls := State.handGeneral_fallBack hended hback e
    have hloses : (∀ b, e.body ≠ .sample b) → s.handGeneral e = (s.inHeldFull e.stamp).loseGeneral e :=
      fun hbody => hfalls.trans (State.fallBack_of_other _ hbody)
    refine ⟨fun b c hbody hcomp => ⟨?_, ?_⟩, State.handGeneral_slots_of_other s, fun i st ch hbody => ?_,
      fun a r i h w v hbody => ?_, fun hbody => ?_, fun hheld henabled => ?_⟩
    · rw [hfalls, State.fallBack_log_of_sample _ hbody hcomp]
      cases (s.inHeldFull e.stamp).log.coarse[c] <;> rfl
    · rw [State.handGeneral_slots, Log.defers_of_fallBack hended hback hbody, hcomp]
      rfl
    · rw [hloses (by simp [hbody]), State.loseGeneral_hatch _ hbody, State.withLog_log]
    · rw [hloses (by simp [hbody]), State.loseGeneral_claim _ hbody, State.withLog_log]
    · rw [hloses (Body.isOther.ne_sample hbody), State.loseGeneral_other _ hbody, State.withLog_log]
    · exact State.handGeneral_raises hended hheld (hback.resolve_left (by simp [hheld])) henabled e
  case endedSample =>
    intro b hbody
    rw [State.handGeneral_ended _ hended, State.loseGeneral_sample _ hbody]
    refine ⟨by simp only [State.flagDeferred_frame, State.withLog_log], fun i => ?_⟩
    cases hcomp : e.compartment with
    | none => simp [State.flagDeferred]
    | some c => simp [State.flagDeferred, -Fin.getElem_fin]
  case endedHatch => exact fun i st ch hbody => (s.handGeneral_ended hended).trans (s.loseGeneral_hatch hbody)
  case endedClaim => exact fun a r i h w v hbody => (s.handGeneral_ended hended).trans (s.loseGeneral_claim hbody)
  case endedOther => exact fun hbody => (s.handGeneral_ended hended).trans (s.loseGeneral_other hbody)

end Sys2Proof.Machine
end

