-- ==== Sys2Proof/Proofs/RecoveryRecords.lean ====
section
/-! PROOFS. The end of HELD_FULL and the recovery records, one at a time (R83 to R87). -/

namespace Sys2Proof.Machine

/-! ### The release of a hold (R74, R83) -/

/-- The part without the hold of a claim slot. -/
def State.holdDropped (s : State) (i : ClaimNo) : State := s.withLog { s.log with holds := setAt s.log.holds i none }

/-- The part as HELD_FULL ends with the release of a hold. -/
def State.heldFullLeft (s : State) (i : ClaimNo) : State :=
  (s.holdDropped i).withLog { (s.holdDropped i).log with heldFull := false }

/-- HELD_FULL ends exactly when it is in force and the oldest record is no longer held (R83). -/
theorem State.releaseHold_eq (s : State) (i : ClaimNo) : s.releaseHold i =
    if s.log.heldFull && !(s.holdDropped i).log.oldestHeld then (s.heldFullLeft i).recover [0, 1, 2, 3]
    else s.holdDropped i := rfl

theorem State.releaseHold_keeps {s : State} {i : ClaimNo}
    (h : s.log.heldFull = false ∨ (s.holdDropped i).log.oldestHeld = true) : s.releaseHold i = s.holdDropped i := by
  rw [State.releaseHold_eq]
  rcases h with h | h <;> simp [h]

theorem State.releaseHold_recovers {s : State} {i : ClaimNo} (hheld : s.log.heldFull = true)
    (hfree : (s.holdDropped i).log.oldestHeld = false) : s.releaseHold i = (s.heldFullLeft i).recover [0, 1, 2, 3] := by
  simp [State.releaseHold_eq, hheld, hfree]

/-! ### A recovery record that finds room (R75, R84) -/

section
variable {s : State}

theorem State.recover_ended (h : s.log.ended = true) (l : List CompNo) : s.recover l = s := by
  cases l with
  | nil => exact if_pos h
  | cons c rest => exact if_pos h

theorem State.recover_empty {c : CompNo} (h : s.log.coarse[c] = none) (rest : List CompNo) :
    s.recover (c :: rest) = s.recover rest := by
  cases hended : s.log.ended with
  | true => rw [State.recover_ended hended, State.recover_ended hended]
  | false => simp only [State.recover, hended, h, Bool.false_eq_true, if_false]

/-- The log once the COARSE record of compartment c is taken: its accumulator is empty (R84, R85). -/
def Log.coarseTaken (l : Log) (a : Coarse) (c : CompNo) : Log :=
  { (l.madeRoom 4032).append (a.entry c) with coarse := setAt l.coarse c none }

variable (hended : s.log.ended = false) (hheld : s.log.heldFull = false)
include hended hheld

theorem State.recover_taken {c : CompNo} {a : Coarse} (ha : s.log.coarse[c] = some a)
    (hroom : s.log.records.length < 4032 ∨ s.log.oldestHeld = false) (rest : List CompNo) :
    s.recover (c :: rest) = (s.withLog (s.log.coarseTaken a c)).recover rest := by
  have hcoarse : ((s.log.madeRoom 4032).append (a.entry c)).coarse = s.log.coarse := by
    rw [Log.madeRoom_append hended]
  simp only [State.recover, hended, ha, Bool.false_eq_true, if_false, Log.takesGeneral_of_room hended hheld hroom, if_true,
    State.handGeneral_taken hended hheld hroom, State.withLog_log, hcoarse]
  rfl

/-- The log once the GAP record is taken: the counts are 0 and the held-full start time is absent (R84, R86). -/
def State.gapTaken (s : State) : Log :=
  { (s.log.madeRoom 4032).append s.gapEntry with
    heldSince := none, hatchLost := 0, claimLost := 0, otherLost := 0, custodyLost := 0 }

theorem State.recover_gapTaken (hroom : s.log.records.length < 4032 ∨ s.log.oldestHeld = false) :
    s.recover [] = s.withLog s.gapTaken := by
  simp only [State.recover, hended, Bool.false_eq_true, if_false, State.recoverGap,
    Log.takesGeneral_of_room hended hheld hroom, if_true, State.handGeneral_taken hended hheld hroom]
  rfl

/-! ### A recovery record that finds the oldest held again (R84) -/

section
variable (hfull : 4032 ≤ s.log.records.length ∧ s.log.oldestHeld = true)
include hfull

/-- A recovery record that is not taken brings HELD_FULL back, and neither it nor a count is lost. -/
theorem State.handGeneral_owed {e : Entry} (howed : ∀ t : State, t.fallBack e = t) :
    s.handGeneral e = s.enterHeldFull e.stamp := by
  rw [State.handGeneral_fallBack hended (.inr hfull), howed, State.inHeldFull, hheld]
  rfl

omit hheld in
theorem Log.takesGeneral_of_full : s.log.takesGeneral = false := by
  rw [Log.takesGeneral, Log.generalFate_of_fallBack hended (.inr hfull)]
  split <;> rfl

theorem State.recover_owed {c : CompNo} {a : Coarse} (ha : s.log.coarse[c] = some a) (rest : List CompNo) :
    s.recover (c :: rest) = s.enterHeldFull ⟨a.last, a.relative⟩ := by
  refine Eq.trans ?_ (State.handGeneral_owed hended hheld hfull (e := a.entry c) fun _ => rfl)
  simp only [State.recover, hended, ha, Log.takesGeneral_of_full hended hfull, Bool.false_eq_true, if_false]

theorem State.recover_gapOwed : s.recover [] = s.enterHeldFull s.stampNow := by
  refine Eq.trans ?_ (State.handGeneral_owed hended hheld hfull (e := s.gapEntry) fun _ => rfl)
  simp only [State.recover, hended, State.recoverGap, Log.takesGeneral_of_full hended hfull, Bool.false_eq_true, if_false]

end

end

theorem State.enterHeldFull_member {s : State} (henabled : s.notices.enables[Condition.logHeld.place] = true) (t : Stamp) :
    (s.enterHeldFull t).notices.members[Condition.logHeld.place] = true := by
  simp [State.enterHeldFull, State.raise, NoticeUnit.raise_members, henabled, -Fin.getElem_fin]

/-- Settles O35, one record at a time. -/
theorem recoveryRecordByRecord : Obligations.RecoveryRecordByRecord := by
  unfold Obligations.RecoveryRecordByRecord
  refine ⟨?release, fun s l hended => State.recover_ended hended l,
    fun s c rest hempty => State.recover_empty hempty rest,
    fun s c rest a hended hheld ha => ⟨fun hroom => ?coarseTaken, fun hplaces holdest => ?coarseOwed⟩,
    fun s hended hheld => ⟨fun hroom => ?gapTaken, fun hplaces holdest => ?gapOwed⟩⟩
  case release =>
    rintro s u i rfl
    exact ⟨State.releaseHold_keeps, State.releaseHold_recovers⟩
  case coarseTaken =>
    refine ⟨s.withLog (s.log.coarseTaken a c), s.log.recordOf (a.entry c), State.recover_taken hended hheld ha hroom rest, ?_,
      rfl, rfl, rfl, rfl⟩
    rw [Log.coarseTaken, Log.madeRoom_append hended]
    rfl
  case coarseOwed =>
    rw [State.recover_owed hended hheld ⟨hplaces, holdest⟩ ha rest]
    exact ⟨State.enterHeldFull_log _ _, fun henabled => State.enterHeldFull_member henabled _⟩
  case gapTaken =>
    refine ⟨s.log.recordOf s.gapEntry, ?_⟩
    rw [State.recover_gapTaken hended hheld hroom, State.gapTaken, Log.madeRoom_append hended]
    exact ⟨rfl, rfl, rfl, rfl, rfl, rfl, rfl, rfl, rfl, rfl, rfl, hheld⟩
  case gapOwed =>
    rw [State.recover_gapOwed hended hheld ⟨hplaces, holdest⟩, State.enterHeldFull_log]
    exact ⟨rfl, rfl, rfl, rfl, rfl, rfl, rfl⟩

end Sys2Proof.Machine
end

