-- ==== Sys2Proof/Proofs/CustodyRecords.lean ====
section
/-! PROOFS. What becomes of a custody record, which holds its CUSTODY_OUT ends, and what the custody test asks (R74, R76 to
R78, R87). -/

namespace Sys2Proof.Machine

/-! ### A custody record that is written (R76) -/

theorem Log.custodyFate_of_room {l : Log} (hended : l.ended = false)
    (hroom : l.records.length < 4096 ∨ l.oldestHeld = false) :
    l.custodyFate = if l.records.length < 4096 then .appended else .evicting := by
  by_cases hplaces : l.records.length < 4096
  · simp [Log.custodyFate, hended, hplaces]
  · simp [Log.custodyFate, hended, hplaces, hroom.resolve_left hplaces]

theorem State.handCustody_taken {s : State} (hended : s.log.ended = false)
    (hroom : s.log.records.length < 4096 ∨ s.log.oldestHeld = false) (e : Entry) :
    s.handCustody e = (s.withLog ((s.log.madeRoom 4096).append e)).afterCustody e s.log.nextSeq := by
  rw [State.handCustody, Log.custodyFate_of_room hended hroom, Log.madeRoom]
  by_cases hplaces : s.log.records.length < 4096
  · simp only [hplaces, if_true]
  · simp only [hplaces, if_false]

/-- Beside the append a custody record moves holds alone (R74). -/
theorem State.afterCustody_kept (s : State) (e : Entry) (q : Nat) : (s.afterCustody e q).log.records = s.log.records ∧
    (s.afterCustody e q).log.chain = s.log.chain ∧ (s.afterCustody e q).log.custodyLost = s.log.custodyLost ∧
    (s.afterCustody e q).log.ended = s.log.ended := by
  unfold State.afterCustody
  split <;> exact ⟨rfl, rfl, rfl, rfl⟩

theorem State.afterCustody_of_other {e : Entry} (s : State) (q : Nat)
    (hbody : ∀ id sl o r x c a b d, e.body ≠ .custodyOut id sl o r x c a b d) : s.afterCustody e q = s := by
  unfold State.afterCustody
  split
  next hb => exact absurd hb (hbody _ _ _ _ _ _ _ _ _)
  next => rfl

theorem getElem_fixEnds (claims : Vector (Option Claim) 8) (holds : Vector (Option Hold) 8) (id : Word) (q : Nat)
    (i : ClaimNo) : (fixEnds claims holds id q)[i] = match holds[i], claims[i] with
      | some h, some k => if h.stop = none ∧ k.identifier = id then some { h with stop := some q } else some h
      | h, _ => h :=
  Vector.getElem_ofFn i.isLt

/-! ### A custody record that cannot be written (R78) -/

theorem Log.custodyFate_unwritten {l : Log} (hplaces : 4096 ≤ l.records.length) (holdest : l.oldestHeld = true) :
    l.custodyFate = .unwritten := by
  simp [Log.custodyFate, Nat.not_lt.mpr hplaces, holdest]

theorem Log.custodyFate_ended {l : Log} (hended : l.ended = true) : l.custodyFate = .unwritten := if_pos hended

theorem Log.custodyFate_ne_unwritten (l : Log) :
    l.custodyFate ≠ .unwritten ↔ l.ended = false ∧ (l.records.length < 4096 ∨ l.oldestHeld = false) := by
  cases hended : l.ended with
  | true => simp [Log.custodyFate_ended hended]
  | false =>
    by_cases hroom : l.records.length < 4096 ∨ l.oldestHeld = false
    · rw [Log.custodyFate_of_room hended hroom]
      refine iff_of_true ?_ ⟨rfl, hroom⟩
      split <;> decide
    · obtain ⟨hplaces, holdest⟩ := not_or.mp hroom
      refine iff_of_false (not_not.mpr ?_) fun h => hroom h.2
      exact Log.custodyFate_unwritten (Nat.not_lt.mp hplaces) (Bool.eq_true_of_not_eq_false holdest)

/-! ### The custody test (R77) -/

/-- The window of a hold runs from its start to its stop, or on where it has none (R74). -/
theorem Hold.covers_iff (h : Hold) (q : Nat) : h.covers q = true ↔ h.start ≤ q ∧ ∀ e, h.stop = some e → q ≤ e := by
  cases hstop : h.stop <;> simp [Hold.covers, hstop]

theorem Log.heldAt_iff (l : Log) (q : Nat) : l.heldAt q = true ↔
    ∃ (i : ClaimNo) (h : Hold), l.holds[i] = some h ∧ h.start ≤ q ∧ ∀ e, h.stop = some e → q ≤ e := by
  rw [Log.heldAt, anyAt_iff]
  refine exists_congr fun i => ?_
  cases l.holds[i] with
  | none => simp
  | some h => simp [Hold.covers_iff]

theorem Log.custodyFits_alone (l : Log) :
    l.custodyFits false = true ↔ l.ended = false ∧ (l.records.length < 4096 ∨ l.oldestHeld = false) := by
  rw [← Log.custodyFate_ne_unwritten, Log.custodyFits, if_neg Bool.false_ne_true, bne_iff_ne]

/-- The SAMPLE that the test of R77 puts first. -/
def probeEntry : Entry := ⟨⟨0, false⟩, none, .sample ⟨0, none, none, none, 0, 0, 0, 0, none⟩, 0, 0⟩

theorem Log.custodyFits_after (l : Log) : l.custodyFits true = true ↔
    (l.dryGeneral probeEntry).ended = false ∧
      ((l.dryGeneral probeEntry).records.length < 4096 ∨ (l.dryGeneral probeEntry).oldestHeld = false) := by
  rw [← Log.custodyFate_ne_unwritten, Log.custodyFits, if_pos rfl, bne_iff_ne]
  rfl

/-- A SAMPLE that is not appended leaves the log as the test finds it. -/
theorem Log.dryGeneral_of_fallBack {l : Log}
    (h : l.ended = true ∨ l.heldFull = true ∨ (4032 ≤ l.records.length ∧ l.oldestHeld = true)) (e : Entry) :
    l.dryGeneral e = l := by
  cases hended : l.ended with
  | true => simp [Log.dryGeneral, Log.generalFate, hended]
  | false =>
    rw [Log.dryGeneral, Log.generalFate_of_fallBack hended (h.resolve_left (by simp [hended]))]
    cases l.heldFull <;> rfl

theorem Log.dryGeneral_of_room {l : Log} (hended : l.ended = false) (hheld : l.heldFull = false)
    (hroom : l.records.length < 4032 ∨ l.oldestHeld = false) (e : Entry) :
    l.dryGeneral e = (l.madeRoom 4032).append e := by
  rw [Log.dryGeneral, Log.generalFate_of_room hended hheld hroom, Log.madeRoom]
  by_cases hplaces : l.records.length < 4032
  · simp only [hplaces, if_true]
  · simp only [hplaces, if_false]

/-- After an eviction and an append the second record is the oldest. -/
theorem Log.oldestHeld_second {l l' : Log} {r : LogRecord} (hrecords : l'.records = l.records.tail ++ [r])
    (hholds : l'.holds = l.holds) (hplaces : 2 ≤ l.records.length) :
    l'.oldestHeld = false ↔ ∀ r, l.records[1]? = some r → l.heldAt r.sequence = false := by
  obtain ⟨second, hsecond⟩ : ∃ second, l.records[1]? = some second := ⟨_, List.getElem?_eq_getElem hplaces⟩
  have hhead : l'.records.head? = some second := by
    rw [hrecords, List.head?_append, List.head?_tail, hsecond]
    rfl
  have hheldAt : l'.heldAt second.sequence = l.heldAt second.sequence := by rw [Log.heldAt, Log.heldAt, hholds]
  simp [Log.oldestHeld, Log.oldest, hhead, hsecond, hheldAt]

/-- The cases of the custody test after a SAMPLE, by what R75 does with the SAMPLE. -/
theorem Log.custodyFits_after_iff (l : Log) : l.custodyFits true = true ↔ l.ended = false ∧
    ((l.heldFull = true ∧ (l.records.length < 4096 ∨ l.oldestHeld = false)) ∨
      (l.heldFull = false ∧ l.records.length < 4032 ∧ l.nextSeq ≠ 4294967295) ∨
      (l.heldFull = false ∧ 4032 ≤ l.records.length ∧ l.oldestHeld = true ∧ l.records.length < 4096) ∨
      (l.heldFull = false ∧ 4032 ≤ l.records.length ∧ l.oldestHeld = false ∧ l.nextSeq ≠ 4294967295 ∧
        (l.records.length < 4096 ∨ ∀ r, l.records[1]? = some r → l.heldAt r.sequence = false))) := by
  rw [Log.custodyFits_after]
  cases hended : l.ended with
  | true => simp [Log.dryGeneral_of_fallBack (.inl hended), hended]
  | false =>
    cases hheld : l.heldFull with
    | true => simp [Log.dryGeneral_of_fallBack (.inr (.inl hheld)), hended]
    | false =>
      by_cases hplaces : l.records.length < 4032
      · have hsome : l.records.length + 1 < 4096 := by omega
        simp [Log.dryGeneral_of_room hended hheld (.inl hplaces), Log.madeRoom_append hended, hplaces, hsome,
          Nat.not_le.mpr hplaces]
      · have hfull := Nat.not_lt.mp hplaces
        cases holdest : l.oldestHeld with
        | true => simp [Log.dryGeneral_of_fallBack (.inr (.inr ⟨hfull, holdest⟩)), hended, holdest, hplaces, hfull]
        | false =>
          have hlength : l.records.length - 1 + 1 = l.records.length := by omega
          have hsecond := Log.oldestHeld_second (l := l) (l' := (l.madeRoom 4032).append probeEntry)
            (by rw [Log.madeRoom_append hended, if_neg hplaces]) (by rw [Log.madeRoom_append hended]) (by omega)
          rw [Log.dryGeneral_of_room hended hheld (.inr holdest), hsecond]
          simp [Log.madeRoom_append hended, hplaces, hfull, hlength]

/-! ### HELD_FULL ends with no accumulator filled (R83, R84, R86) -/

theorem State.recover_noneFilled {s : State} (h : ∀ c : CompNo, s.log.coarse[c] = none) (l : List CompNo) :
    s.recover l = s.recover [] := by
  induction l with
  | nil => rfl
  | cons c l ih => rw [State.recover_empty (h c), ih]

/-- Settles O34: a record is written by `State.handCustody_taken`, or lost; then the GAP record and the custody test. -/
theorem custodyRecordsAndTheEndOfHeldFull : Obligations.CustodyRecordsAndTheEndOfHeldFull := by
  unfold Obligations.CustodyRecordsAndTheEndOfHeldFull
  refine ⟨fun s e hended _ => ⟨fun hroom => ?written, fun hplaces holdest => ?unwritten⟩, fun s e hended => ?ended,
    fun s i hheld hended hfree hnone => ?gap,
    fun l => ⟨l.custodyFits_alone, l.custodyFits_after_iff, fun q => l.heldAt_iff q⟩⟩
  case written =>
    obtain ⟨hrecords, hchain, hlost, hends⟩ := State.afterCustody_kept
      (s.withLog ((s.log.madeRoom 4096).append e)) e s.log.nextSeq
    rw [← State.handCustody_taken hended hroom, State.withLog_log, Log.madeRoom_append hended] at hrecords hchain hlost hends
    refine ⟨s.log.recordOf e, rfl, rfl, rfl, rfl, hrecords, hchain, hlost, hends, fun i => ?_⟩
    rw [State.handCustody_taken hended hroom, Log.madeRoom_append hended]
    cases hbody : e.body with
    | custodyOut id =>
      simp only [State.afterCustody, hbody, State.withLog_log, State.withLog_claims, getElem_fixEnds]
      cases s.log.holds[i] <;> cases s.claims.slots[i] <;> rfl
    | _ => rw [State.afterCustody_of_other _ _ (by simp [hbody])]; rfl
  case unwritten =>
    simp only [State.handCustody, Log.custodyFate_unwritten hplaces holdest, hended, Bool.or_false, sat16]
    cases hheld : s.log.heldFull with
    | true => simp [← hheld]
    | false => simp [State.enterHeldFull_log]
  case ended =>
    simp only [State.handCustody, Log.custodyFate_ended hended, hended, Bool.or_true, if_true, sat16]
  case gap =>
    have hrecovered : s.releaseHold i = (s.heldFullLeft i).recover [] :=
      (State.releaseHold_recovers hheld hfree).trans (State.recover_noneFilled (s := s.heldFullLeft i) hnone _)
    rw [hrecovered, State.recover_gapTaken (s := s.heldFullLeft i) hended rfl (.inr hfree), State.gapTaken,
      Log.madeRoom_append (l := (s.heldFullLeft i).log) hended]
    exact ⟨_, rfl, rfl, rfl, rfl, rfl, rfl, rfl, rfl, rfl, rfl, rfl, getElem_setAt_self _ _ _, rfl⟩

end Sys2Proof.Machine
end

