-- ==== Sys2Proof/Proofs/ClaimCloses.lean ====
section
/-! PROOFS. CLAIM_CLOSE: the hold released with the records that follow, the count, and the CLAIM record (R83, R136,
R161). -/

namespace Sys2Proof.Machine

/-! ### What the log and the notices are made from -/

/-- Two parts with the same log, notices and clock: the log makes the same of every record that is handed to them. -/
structure State.LogsAlike (s t : State) : Prop where
  log : t.log = s.log
  notices : t.notices = s.notices
  clock : t.clock = s.clock

namespace State.LogsAlike
variable {s t : State}

theorem withLog (h : s.LogsAlike t) (l : Log) : (s.withLog l).LogsAlike (t.withLog l) := ⟨rfl, h.notices, h.clock⟩

theorem handGeneral (h : s.LogsAlike t) (e : Entry) : (s.handGeneral e).LogsAlike (t.handGeneral e) where
  log := State.handGeneral_log h.log e
  notices := by rw [State.handGeneral_notices, State.handGeneral_notices, h.log, h.notices]
  clock := by simp only [State.handGeneral_frame, h.clock]

theorem gapEntry (h : s.LogsAlike t) : t.gapEntry = s.gapEntry := by
  rw [State.gapEntry, State.gapEntry, h.log, (State.stampNow_of_clock h.clock).1]

theorem recoverGap (h : s.LogsAlike t) : s.recoverGap.LogsAlike t.recoverGap := by
  have hhanded := h.handGeneral s.gapEntry
  rw [State.recoverGap, State.recoverGap, h.gapEntry, h.log, hhanded.log]
  split
  · exact hhanded.withLog _
  · exact hhanded

theorem recover (h : s.LogsAlike t) (l : List CompNo) : (s.recover l).LogsAlike (t.recover l) := by
  induction l generalizing s t with
  | nil =>
    rw [State.recover, State.recover, h.log]
    split
    · exact h
    · exact h.recoverGap
  | cons c l ih =>
    rw [State.recover, State.recover, h.log]
    split
    · exact h
    · split
      next => exact ih h
      next a _ =>
        have hhanded := h.handGeneral (a.entry c)
        dsimp only
        rw [hhanded.log]
        split
        · exact ih (hhanded.withLog _)
        · exact hhanded

theorem holdDropped (h : s.LogsAlike t) (i : ClaimNo) : (s.holdDropped i).LogsAlike (t.holdDropped i) := by
  rw [State.holdDropped, State.holdDropped, h.log]
  exact h.withLog _

theorem heldFullLeft (h : s.LogsAlike t) (i : ClaimNo) : (s.heldFullLeft i).LogsAlike (t.heldFullLeft i) := by
  rw [State.heldFullLeft, State.heldFullLeft, (h.holdDropped i).log]
  exact (h.holdDropped i).withLog _

theorem releaseHold (h : s.LogsAlike t) (i : ClaimNo) : (s.releaseHold i).LogsAlike (t.releaseHold i) := by
  rw [State.releaseHold_eq, State.releaseHold_eq, h.log, (h.holdDropped i).log]
  split
  · exact (h.heldFullLeft i).recover _
  · exact h.holdDropped i

end State.LogsAlike

/-! ### What the recovery records leave alone -/

/-- COARSE and GAP records flag no consignment and move no hold. -/
theorem State.handRecovery_kept {s : State} {e : Entry} (hbody : ∀ b, e.body ≠ .sample b) :
    (s.handGeneral e).slots = s.slots ∧ (s.handGeneral e).log.holds = s.log.holds :=
  ⟨s.handGeneral_slots_of_other hbody, (s.handGeneral_holds e).1⟩

theorem State.recoverGap_kept (s : State) : s.recoverGap.slots = s.slots ∧ s.recoverGap.log.holds = s.log.holds := by
  have hkept := State.handRecovery_kept (s := s) (e := s.gapEntry) nofun
  unfold State.recoverGap
  split
  · exact hkept
  · exact hkept

theorem State.recover_kept (s : State) (l : List CompNo) :
    (s.recover l).slots = s.slots ∧ (s.recover l).log.holds = s.log.holds := by
  induction l generalizing s with
  | nil =>
    rw [State.recover]
    split
    · exact ⟨rfl, rfl⟩
    · exact s.recoverGap_kept
  | cons c l ih =>
    rw [State.recover]
    split
    · exact ⟨rfl, rfl⟩
    · split
      next => exact ih s
      next a _ =>
        obtain ⟨hslots, hholds⟩ := State.handRecovery_kept (s := s) (e := a.entry c) nofun
        split
        · exact ⟨(ih _).1.trans hslots, (ih _).2.trans hholds⟩
        · exact ⟨hslots, hholds⟩

theorem State.releaseHold_kept (s : State) (i : ClaimNo) :
    (s.releaseHold i).slots = s.slots ∧ (s.releaseHold i).log.holds = setAt s.log.holds i none := by
  rw [State.releaseHold_eq]
  split
  · exact (s.heldFullLeft i).recover_kept _
  · exact ⟨rfl, rfl⟩

/-! ### The close (R161) -/

section
variable (s : State) (i : ClaimNo) (k : Claim)

/-- The CLAIM record of a close. -/
def State.closeEntry (s : State) (i : ClaimNo) (k : Claim) : Entry :=
  claimEntry s.stampNow s.slots[k.slot].compartment .closed k (s.windowEnd i) none

theorem State.acceptClose_slots : (s.acceptClose i k).slots =
    setAt s.slots k.slot { s.slots[k.slot] with openClaims := s.slots[k.slot].openClaims - 1 } := by
  have hbody : ∀ b, (s.closeEntry i k).body ≠ .sample b := nofun
  calc (s.acceptClose i k).slots
    _ = (((s.withQueue (s.claims.queue.filter (· != i))).releaseHold i).countClaim k.slot (· - 1)).slots :=
        State.handGeneral_slots_of_other _ hbody
    _ = _ := by
        rw [State.countClaim, State.setSlot_slots, (State.releaseHold_kept _ i).1]
        rfl

theorem State.acceptClose_claims : (s.acceptClose i k).claims =
    { s.claims with slots := setAt s.claims.slots i none, queue := s.claims.queue.filter (· != i) } := by
  simp [State.acceptClose, State.withQueue]

/-- The close hands its record to the log that the release of the hold leaves. -/
theorem State.acceptClose_logsAlike :
    ((s.releaseHold i).handGeneral (s.closeEntry i k)).LogsAlike (s.acceptClose i k) := by
  have hqueue : s.LogsAlike (s.withQueue (s.claims.queue.filter (· != i))) := ⟨rfl, rfl, rfl⟩
  obtain ⟨hlog, hnotices, hclock⟩ := hqueue.releaseHold i
  have hcount : (s.releaseHold i).LogsAlike
      (((s.withQueue (s.claims.queue.filter (· != i))).releaseHold i).countClaim k.slot (· - 1)) :=
    ⟨hlog, hnotices, hclock⟩
  obtain ⟨hlog, hnotices, hclock⟩ := hcount.handGeneral (s.closeEntry i k)
  exact ⟨hlog, hnotices, hclock⟩

theorem State.acceptClose_holds : (s.acceptClose i k).log.holds = setAt s.log.holds i none := by
  rw [(s.acceptClose_logsAlike i k).log, (State.handGeneral_holds _ _).1, (s.releaseHold_kept i).2]

theorem Log.generalFate_appended_iff (l : Log) :
    l.generalFate = .appended ↔ l.ended = false ∧ l.heldFull = false ∧ l.records.length < 4032 := by
  cases hended : l.ended with
  | true => simp [Log.generalFate, hended]
  | false =>
    cases hheld : l.heldFull with
    | true => simp [Log.generalFate, hended, hheld]
    | false =>
      by_cases hplaces : l.records.length < 4032
      · simp [Log.generalFate, hended, hheld, hplaces]
      · cases holdest : l.oldestHeld <;> simp [Log.generalFate, hended, hheld, hplaces, holdest]

/-- With room in the log the CLAIM record is the newest. -/
theorem State.acceptClose_record (hfate : s.log.generalFate = .appended) :
    (s.acceptClose i k).log.records = s.log.records ++ [(s.holdDropped i).log.recordOf (s.closeEntry i k)] := by
  have hdropped : (s.holdDropped i).log.generalFate = .appended := by
    rw [Log.generalFate_appended_iff] at hfate ⊢
    exact hfate
  obtain ⟨-, hheld, -⟩ := (Log.generalFate_appended_iff _).mp hfate
  rw [(s.acceptClose_logsAlike i k).log, State.releaseHold_keeps (.inl hheld), State.handGeneral_appended hdropped]
  rfl

end

/-! ### The request (R161) -/

section
variable {s : State} {ref : Word}

theorem State.claimClose_zero : s.claimClose 0 = (refuse .badValue, s) := if_pos rfl

theorem State.claimClose_unknown (h0 : ref ≠ 0) (h : s.claimOf ref = none) : s.claimClose ref = (refuse .unknown, s) := by
  simp only [State.claimClose, if_neg h0, h, State.refusing]

variable {i : ClaimNo} {k : Claim}

theorem State.claimClose_found (h0 : ref ≠ 0) (h : s.claimOf ref = some i) (hk : s.claims.slots[i] = some k) :
    s.claimClose ref = (okay (le8 i.val ++ le8 (s.slots[k.slot].openClaims - 1)), s.acceptClose i k) := by
  simp only [State.claimClose, if_neg h0, h, hk, State.acceptClose_slots, getElem_setAt_self]

/-- The claim that a reference names holds it (R136). -/
theorem State.reference_of_claimOf (h : s.claimOf ref = some i) (hk : s.claims.slots[i] = some k) : k.reference = ref := by
  have hfound := lowest_some h
  rwa [hk, beq_iff_eq] at hfound

end

/-- Settles O46: the close by what it leaves of each block, the log by that of the release and the record after it. -/
theorem claimCloses : Obligations.ClaimCloses := by
  unfold Obligations.ClaimCloses
  intro s tag ref hs
  refine ⟨?zero, fun h0 h => State.submit_report (.claimClose ref) hs (State.claimClose_unknown h0 h),
    fun i k h0 h hk => ?found⟩
  case zero =>
    rintro rfl
    exact State.submit_report (.claimClose 0) hs State.claimClose_zero
  case found =>
    obtain rfl := State.reference_of_claimOf h hk
    have hcount : ∀ j : SlotNo, (s.acceptClose i k).slots[j].openClaims =
        if j = k.slot then s.slots[j].openClaims - 1 else s.slots[j].openClaims := by
      intro j
      rw [State.acceptClose_slots, getElem_setAt]
      by_cases hj : j = k.slot
      · subst hj
        rw [if_pos rfl, if_pos rfl]
      · rw [if_neg (Ne.symm hj), if_neg hj]
    refine ⟨s.acceptClose i k,
      State.submit_of_ready (.claimClose k.reference) hs (State.claimClose_found h0 h hk) (by simp),
      s.acceptClose_claims i k, s.acceptClose_holds i k, (hcount k.slot).trans (if_pos rfl), hcount,
      fun _ hfate => ⟨_, s.acceptClose_record i k hfate, rfl, rfl⟩, ?_, by simp, by simp⟩
    rintro w rfl
    obtain ⟨hlog, hnotices, -⟩ := s.acceptClose_logsAlike i k
    exact ⟨hlog, hnotices⟩

end Sys2Proof.Machine
end

