-- ==== Sys2Proof/Proofs/ReceivedFrames.lean ====
section
/-! PROOFS. The bytes of a whole frame at a hunting receiver are the frame, taken or queued (R197 to R200). -/

namespace Sys2Proof.Machine

/-! ### The bytes of a frame (R197) -/

/-- The bytes of a frame that follow its sync byte. -/
def Frame.tail (f : Frame) : List Byte := f.body ++ le16 (crc16 f.body).toNat

section
variable {f : Frame}

theorem Frame.body_length (f : Frame) : f.body.length = 4 + f.payload.length := by
  simp only [Frame.body, List.length_append, le16_length, List.length_cons, List.length_nil]

theorem Frame.tail_length (f : Frame) : f.tail.length = 6 + f.payload.length := by
  rw [Frame.tail, List.length_append, f.body_length, le16_length]
  omega

/-- The two bytes at the front of a frame state its payload length. -/
theorem Frame.statedLength_tail (h : f.payload.length ≤ 1024) : statedLength f.tail = f.payload.length := by
  rw [statedLength, Frame.tail, Frame.body, List.append_assoc, List.append_assoc, fieldAt_front _ (le16_length _),
    ofLe_le16, Nat.mod_eq_of_lt (by omega)]

/-- They do so as soon as both have arrived. -/
theorem Frame.statedLength_part {p rest : List Byte} (h : f.payload.length ≤ 1024) (hp : p ++ rest = f.tail)
    (htwo : 2 ≤ p.length) : statedLength p = f.payload.length := by
  rw [← Frame.statedLength_tail h, ← hp, statedLength, statedLength, fieldAt, fieldAt, List.drop_zero, List.drop_zero,
    List.take_append_of_le_length htwo]

theorem Frame.frameOf_tail (h : f.payload.length ≤ 1024) : frameOf f.tail = f := by
  have hpayload : (f.tail.drop 4).take f.payload.length = f.payload := by
    simp [Frame.tail, Frame.body, le16]
  rw [frameOf, Frame.statedLength_tail h, hpayload]
  rfl

/-- The check that a frame carries is that of its body. -/
theorem Frame.checkMatches_tail (h : f.payload.length ≤ 1024) : checkMatches f.tail = true := by
  have hfield : fieldAt f.tail (4 + f.payload.length) 2 = (crc16 f.body).toNat := by
    rw [Frame.tail, ← f.body_length, fieldAt_behind _ _ le_rfl, Nat.sub_self,
      ← List.append_nil (le16 (crc16 f.body).toNat), fieldAt_front _ (le16_length _), ofLe_le16]
    exact Nat.mod_eq_of_lt (crc16 f.body).isLt
  have hbody : f.tail.take (4 + f.payload.length) = f.body := by
    rw [Frame.tail, ← f.body_length, List.take_left']
    rfl
  rw [checkMatches, Frame.statedLength_tail h, halfAt, hfield, hbody, BitVec.ofNat_toNat, BitVec.setWidth_eq,
    beq_self_eq_true]

end

/-! ### The receiver, byte by byte (R198) -/

/-- The part with a frame in assembly. -/
def State.assembling (s : State) (bytes : List Byte) : State := s.updLink fun l => { l with receiver := .inFrame bytes }

section
variable {s : State} {f : Frame}

theorem State.hunt_of_hunting (h : s.link.receiver = .hunting) : s.hunt = s := by
  rw [State.hunt, State.updLink, ← h]
  rfl

/-- A frame that is not whole yet stays in assembly. -/
theorem State.assemble_part {p rest : List Byte} (q : List Byte) (h : f.payload.length ≤ 1024) (hp : p ++ rest = f.tail)
    (hrest : rest ≠ []) : (s.assembling q).assemble p = s.assembling p := by
  have hlength : p.length < 6 + f.payload.length := by
    have hsum := congrArg List.length hp
    rw [List.length_append, f.tail_length] at hsum
    have := List.length_pos_iff.mpr hrest
    omega
  unfold State.assemble
  by_cases htwo : p.length < 2
  · rw [if_pos htwo]
    rfl
  · rw [Frame.statedLength_part h hp (Nat.not_lt.mp htwo), if_neg htwo, if_neg (Nat.not_lt.mpr h), if_pos hlength]
    rfl

/-- A whole frame is accepted. -/
theorem State.assemble_whole (q : List Byte) (h : f.payload.length ≤ 1024) :
    (s.assembling q).assemble f.tail = (s.hunt.accept f).pump := by
  have htwo : ¬ f.tail.length < 2 := by rw [f.tail_length]; omega
  have hwhole : ¬ f.tail.length < 6 + f.payload.length := by rw [f.tail_length]; omega
  rw [State.assemble, if_neg htwo, Frame.statedLength_tail h, if_neg (Nat.not_lt.mpr h), if_neg hwhole,
    if_pos (Frame.checkMatches_tail h), Frame.frameOf_tail h]
  rfl

theorem State.receiveAll_assembling {p rest : List Byte} (h : f.payload.length ≤ 1024) (hp : p ++ rest = f.tail)
    (hrest : rest ≠ []) : (s.assembling p).receiveAll (rest.map .good) = (s.hunt.accept f).pump := by
  induction rest generalizing p with
  | nil => exact absurd rfl hrest
  | cons b rest ih =>
    have hsplit : (p ++ [b]) ++ rest = f.tail := by rw [List.append_assoc, List.singleton_append, hp]
    have hreceive : (s.assembling p).receive (.good b) = (s.assembling p).assemble (p ++ [b]) := rfl
    rw [List.map_cons, State.receiveAll, hreceive]
    by_cases hlast : rest = []
    · subst hlast
      rw [List.append_nil] at hsplit
      rw [hsplit, State.assemble_whole p h]
      exact ite_self _
    · rw [State.assemble_part p h hsplit hlast]
      exact (if_pos rfl).trans (ih hsplit hlast)

/-- The bytes of a frame at a hunting receiver are the frame's arrival. -/
theorem State.receiveAll_wire (hhunting : s.link.receiver = .hunting) (h : f.payload.length ≤ 1024) :
    s.receiveAll (f.wire.map .good) = (s.accept f).pump := by
  have hsync : s.receive (.good 0xC3) = s.assembling [] := by
    simp only [State.receive, hhunting, if_true, State.assembling]
  have hrest : f.tail ≠ [] := List.ne_nil_of_length_pos (by rw [f.tail_length]; omega)
  have htail := State.receiveAll_assembling (s := s) (p := []) h (List.nil_append _) hrest
  rw [State.hunt_of_hunting hhunting] at htail
  rw [← htail, Frame.wire, List.map_cons, State.receiveAll, hsync]
  exact if_pos rfl

end

/-! ### A request that arrives in its frame (R199, R200) -/

/-- After a reply the link has nothing left to do while no frame waits. -/
theorem State.pump_replies {t : State} (h : t.link.queue = []) (kind tag : Byte) (a : Answer) :
    (t.replies kind tag a).pump = t.replies kind tag a := by
  have hqueue : (t.replies kind tag a).link.queue = [] := by
    rw [State.replies, State.answered, State.offer_queue]
    exact h
  rw [State.pump_eq_offer (fun _ => hqueue) (fun _ => hqueue), State.replies, State.answered, State.offer_offer]

/-- The bytes of a frame that names a request have the effect of the request. -/
theorem exec_frameReceived {s t : State} {f : Frame} {r : Request} {a : Answer} (hs : s.ready)
    (hhunting : s.link.receiver = .hunting) (hlength : f.payload.length ≤ 1024) (hparse : parse f.kind f.payload = .ok r)
    (hp : s.perform r = (a, t)) (hl : t.link = s.link) (hr : r ≠ .restart := by exact nofun) :
    exec (.frameReceived (f.wire.map .good)) s = .next (t.replies r.kind f.tag a) := by
  have hsubmit := Host.Outcome.next.inj (State.submit_of_ready r (tag := f.tag) hs hp hl hr)
  obtain ⟨hon, hnone, hqueue⟩ := hs
  have htaken : (s.accept f).pump = t.replies r.kind f.tag a := by
    rw [← hsubmit]
    simp only [State.accept, State.takeFrame, State.submit, State.happen, hon, hnone, hqueue, hparse, and_self, if_true]
  have hexec : exec (.frameReceived (f.wire.map .good)) s = .next (s.receiveAll (f.wire.map .good)).pump := by
    simp only [exec, execFrameReceived, State.happen, hon]
  rw [hexec, State.receiveAll_wire hhunting hlength, htaken, State.pump_replies (by rw [hl, hqueue])]

end Sys2Proof.Machine
end

