-- ==== Sys2Proof/Proofs/HandoverRefusals.lean ====
section
/-! PROOFS. HANDOVER_END refused by one of the six checks of Table 6-3, and with outcome REFUSED (R77, R122, R123, R127). -/

namespace Sys2Proof.Machine

/-! ### The checks, in their order (R122) -/

theorem outcomeOf_eq_none {b : Byte} (h : 2 < b.toNat) : outcomeOf b = none :=
  (if_neg (byte_ne_of_lt h (Nat.zero_le 2))).trans
    ((if_neg (byte_ne_of_lt h (by decide))).trans (if_neg (byte_ne_of_lt h le_rfl)))

section
variable {s : State} {id receipt : Word} {b : Byte} {o : Option Outcome} {i : SlotNo}

theorem State.handoverEnd_noTime (h : s.timed = false) : s.handoverEnd id b receipt = (refuse .noTime, s) := by
  simp only [State.handoverEnd, h, Bool.not_false, if_true, State.refusing]

section
variable (htimed : s.timed = true)
include htimed

theorem State.handoverEnd_noOutcome (hb : outcomeOf b = none) : s.handoverEnd id b receipt = (refuse .badValue, s) := by
  simp only [State.handoverEnd, htimed, hb, Bool.not_true, Bool.false_eq_true, if_false, State.refusing]

variable (hb : outcomeOf b = some o)
include hb

theorem State.handoverEnd_zero : s.handoverEnd 0 b receipt = (refuse .badValue, s) := by
  simp only [State.handoverEnd, htimed, hb, Bool.not_true, Bool.false_eq_true, if_false, if_true, State.refusing]

theorem State.handoverEnd_unknown (hid : id ≠ 0) (hfound : s.slotOf id = none) :
    s.handoverEnd id b receipt = (refuse .unknown, s) := by
  simp only [State.handoverEnd, htimed, hb, hid, hfound, Bool.not_true, Bool.false_eq_true, if_false, State.refusing]

variable (hid : id ≠ 0) (hfound : s.slotOf id = some i)
include hid hfound

theorem State.handoverEnd_lapsed (hstate : s.slots[i].state = .inCustody) :
    s.handoverEnd id b receipt = (refuse .lapsed, s) := by
  simp only [State.handoverEnd, htimed, hb, hid, hfound, hstate, Bool.not_true, Bool.false_eq_true, if_false, if_true,
    State.refusing]

theorem State.handoverEnd_wrongState (hstate : s.slots[i].state = .handedOver) :
    s.handoverEnd id b receipt = (refuse .wrongState, s) := by
  simp only [State.handoverEnd, htimed, hb, hid, hfound, hstate, Bool.not_true, Bool.false_eq_true, if_false, if_true,
    State.refusing, reduceCtorEq, ne_eq, not_false_eq_true]

variable (hstate : s.slots[i].state = .handingOver)
include hstate

theorem State.handoverEnd_logHeld (hfits : s.log.custodyFits (s.endSteps i o) = false) :
    s.handoverEnd id b receipt = (refuse .logHeld, s) := by
  simp only [State.handoverEnd, htimed, hb, hid, hfound, hstate, hfits, Bool.not_true, Bool.false_eq_true, if_false,
    State.refusing, reduceCtorEq, ne_eq, not_true_eq_false]

end

/-- An end with outcome REFUSED that passes the checks is accepted (R123). -/
theorem State.handoverEnd_refused (htimed : s.timed = true) (hid : id ≠ 0) (hfound : s.slotOf id = some i)
    (hstate : s.slots[i].state = .handingOver) (hfits : s.log.custodyFits false = true) :
    s.handoverEnd id 2 receipt = (okay (le8 i.val ++ le8 (s.acceptRefused i).slots[i].refusals), s.acceptRefused i) := by
  have hb : outcomeOf 2 = some none := rfl
  have hends : s.log.custodyFits (s.endSteps i none) = true := hfits
  simp only [State.handoverEnd, htimed, hb, hid, hfound, hstate, hends, Bool.not_true, Bool.false_eq_true, if_false,
    if_true, reduceCtorEq, ne_eq, not_true_eq_false]

end

/-! ### The rows of HANDOVER_END -/

/-- Each row is the request with its own outcome. -/
theorem exec_handoverEnd_row {tag : Byte} {id receipt : Word} {c : Instr}
    (hc : c = .handoverEndAccepted tag id receipt ∨ c = .handoverEndDisposed tag id receipt ∨
      c = .handoverEndRefused tag id receipt) :
    ∃ (b : Byte) (o : Option Outcome), outcomeOf b = some o ∧ (o = none ↔ c = .handoverEndRefused tag id receipt) ∧
      ∀ s : State, exec c s = .next (s.submit tag (.handoverEnd id b receipt)) := by
  rcases hc with rfl | rfl | rfl
  · exact ⟨0, some .accepted, rfl, iff_of_false nofun nofun, fun _ => rfl⟩
  · exact ⟨1, some .disposed, rfl, iff_of_false nofun nofun, fun _ => rfl⟩
  · exact ⟨2, none, rfl, iff_of_true rfl rfl, fun _ => rfl⟩

/-- The frame of a HANDOVER_END spells one with its outcome byte, whatever that is (R200, Table 11-3). -/
theorem parse_handoverEnd (tag outcome : Byte) (id receipt : Word) : ∃ id' receipt',
    parse (requestFrame tag (.handoverEnd id outcome receipt)).kind
      (requestFrame tag (.handoverEnd id outcome receipt)).payload = .ok (.handoverEnd id' outcome receipt') :=
  ⟨_, _, rfl⟩

theorem handoverEnd_payload_length (tag outcome : Byte) (id receipt : Word) :
    (requestFrame tag (.handoverEnd id outcome receipt)).payload.length = 9 := rfl

/-! ### The slot and the record of a refused end (R123, R127) -/

section
variable (s : State) (i : SlotNo)

/-- The slot that a refused end leaves. -/
def Slot.refused (x : Slot) : Slot :=
  { x with state := .inCustody, handover := none, refusals := min (x.refusals + 1) 255 }

/-- The part before the HANDOVER_ABANDON record of a refused end. -/
def State.refusedSlot (s : State) (i : SlotNo) : State := s.setSlot i s.slots[i].refused

theorem State.acceptRefused_eq : s.acceptRefused i =
    (s.refusedSlot i).handCustody (abandonEntry s.slots[i].refused i .refused s.stampNow) := by
  have hreturned : (s.setSlot i { s.slots[i] with refusals := sat8 (s.slots[i].refusals + 1) }).setSlot i
      (s.setSlot i { s.slots[i] with refusals := sat8 (s.slots[i].refusals + 1) }).slots[i].returned = s.refusedSlot i := by
    rw [State.setSlot_slots, getElem_setAt_self]
    exact congrArg s.withSlots (setAt_setAt s.slots i _ _)
  have hslot : (s.refusedSlot i).slots[i] = s.slots[i].refused := getElem_setAt_self s.slots i _
  rw [State.acceptRefused, State.abandon, hreturned, hslot]

theorem State.acceptRefused_slots : (s.acceptRefused i).slots = setAt s.slots i s.slots[i].refused := by
  simp only [State.acceptRefused_eq, State.handCustody_frame, State.refusedSlot, State.setSlot_slots]

/-- The HANDOVER_ABANDON record is the newest where the custody test found room for it. -/
theorem State.acceptRefused_record (hfits : s.log.custodyFits false = true) :
    ∃ r, (s.acceptRefused i).log.records.getLast? = some r ∧ r.stamp = s.stampNow ∧
      r.compartment = some s.slots[i].compartment ∧
      r.body = .handoverAbandon s.slots[i].identifier i .refused (min (s.slots[i].refusals + 1) 255) := by
  have hfate : (s.refusedSlot i).log.custodyFate ≠ .unwritten :=
    (Log.custodyFate_ne_unwritten _).mpr (s.log.custodyFits_alone.mp hfits)
  obtain ⟨r, hlast, -, -, hstamp, hcompartment, hbody⟩ := State.handCustody_newest
    (e := abandonEntry s.slots[i].refused i .refused s.stampNow) hfate
  rw [State.acceptRefused_eq]
  exact ⟨r, hlast, hstamp, hcompartment, hbody⟩

end

/-- Settles O39: the checks one by one, the frame by `exec_frameReceived`, the refused end by what it leaves. -/
theorem handoverEndRefusals : Obligations.HandoverEndRefusals := by
  unfold Obligations.HandoverEndRefusals
  refine ⟨fun s tag id receipt c hs hc => ?rows, fun s tag outcome id receipt bytes hs hhunting houtcome hbytes => ?frame,
    fun s tag id receipt i x hs hvalid hid hfound hx hstate hfits => ?refused⟩
  case rows =>
    obtain ⟨b, o, hb, hrefused, hexec⟩ := exec_handoverEnd_row hc
    rw [hexec]
    refine ⟨fun hunset => State.submit_report (.handoverEnd id b receipt) hs
      (State.handoverEnd_noTime (State.timed_of_unset hunset)), fun hvalid => ?_⟩
    obtain ⟨htimed, -⟩ := State.now_of_valid hvalid
    refine ⟨?zero, fun hid hfound => State.submit_report (.handoverEnd id b receipt) hs
      (State.handoverEnd_unknown htimed hb hid hfound), fun i hid hfound => ⟨fun hstate => ?_, fun hstate => ?_,
        fun hstate hrow hfits => ?_, fun hstate hrow hfits => ?_⟩⟩
    case zero =>
      rintro rfl
      exact State.submit_report (.handoverEnd 0 b receipt) hs (State.handoverEnd_zero htimed hb)
    · exact State.submit_report (.handoverEnd id b receipt) hs (State.handoverEnd_lapsed htimed hb hid hfound hstate)
    · exact State.submit_report (.handoverEnd id b receipt) hs (State.handoverEnd_wrongState htimed hb hid hfound hstate)
    · obtain rfl := hrefused.mpr hrow
      exact State.submit_report (.handoverEnd id b receipt) hs
        (State.handoverEnd_logHeld htimed hb hid hfound hstate hfits)
    · obtain ⟨out, rfl⟩ := Option.ne_none_iff_exists'.mp (mt hrefused.mp hrow)
      exact State.submit_report (.handoverEnd id b receipt) hs
        (State.handoverEnd_logHeld htimed hb hid hfound hstate hfits)
  case frame =>
    subst hbytes
    have hnone := outcomeOf_eq_none houtcome
    obtain ⟨id', receipt', hparse⟩ := parse_handoverEnd tag outcome id receipt
    have hlength : (requestFrame tag (.handoverEnd id outcome receipt)).payload.length ≤ 1024 := by
      rw [handoverEnd_payload_length]
      decide
    have hreceived : ∀ st : Status, s.handoverEnd id' outcome receipt' = (refuse st, s) →
        exec (.frameReceived ((requestFrame tag (.handoverEnd id outcome receipt)).wire.map .good)) s =
          .next (s.replies 0x32 tag (refuse st)) :=
      fun st hst => exec_frameReceived (r := .handoverEnd id' outcome receipt') (a := refuse st) (t := s) hs hhunting hlength
        hparse hst rfl
    exact ⟨fun hunset => hreceived _ (State.handoverEnd_noTime (State.timed_of_unset hunset)),
      fun hvalid => hreceived _ (State.handoverEnd_noOutcome (State.now_of_valid hvalid).1 hnone)⟩
  case refused =>
    subst hx
    obtain ⟨htimed, -⟩ := State.now_of_valid hvalid
    have haccepted := State.handoverEnd_refused (receipt := receipt) htimed hid hfound hstate hfits
    rw [State.acceptRefused_slots, getElem_setAt_self] at haccepted
    exact ⟨s.acceptRefused i, State.submit_of_ready (.handoverEnd id 2 receipt) hs haccepted (by simp),
      s.acceptRefused_slots i, s.acceptRefused_record i hfits, by simp, by simp⟩

end Sys2Proof.Machine
end

