-- ==== Sys2Proof/Proofs/OvertakenTable.lean ====
section
/-! PROOFS. The Custody Table in order does not by itself keep a lapse from returning a slot that is no longer HANDING_OVER:
the state of `State.overtaken` meets `State.tableOk`, and its next state does not (R93, R119, R120, R124). -/

namespace Sys2Proof.Machine

/-- The slot that the lapse returns is IN_CUSTODY with the custody-out fields of its end. -/
theorem overtakenNext_not_tableOk : ¬ State.overtakenNext.tableOk := by
  rintro ⟨hslots, -⟩
  obtain ⟨-, -, -, hout, -, -⟩ := hslots 0
  obtain ⟨hstate, hsome⟩ := overtakenNext_slot
  rw [hsome, hstate] at hout
  cases hout

/-- Refutes O58: with a HANDOVER_END waiting in the receive queue beside an IDLE transmitter, which `State.tableOk` leaves
open and `State.linkOk` excludes, the end is taken in the seconds before the lapse, and the lapse falls on the HANDED_OVER
slot. -/
theorem not_stepKeepsTheCustodyTable : ¬ Obligations.StepKeepsTheCustodyTable := by
  unfold Obligations.StepKeepsTheCustodyTable
  intro hkeeps
  exact overtakenNext_not_tableOk (hkeeps .overtaken .overtakenNext overtaken_tableOk step_overtaken)

end Sys2Proof.Machine
end

