-- ==== Sys2Proof/Proofs/ReleaseAndWipe.lean ====
section
/-! PROOFS. RELEASE and WIPE, each with its refusals (R90, R113, R196). -/

namespace Sys2Proof.Machine

/-! ### RELEASE (R113) -/

section
variable {s : State} {id : Word} {i : SlotNo}

theorem State.release_unknown (h : id = 0 ∨ s.slotOf id = none) : s.release id = (refuse .unknown, s) := by
  cases hfound : s.slotOf id with
  | none => simp only [State.release, hfound, State.refusing]
  | some j =>
    have hid : id = 0 := h.resolve_right (by simp [hfound])
    simp only [State.release, hfound, if_pos hid, State.refusing]

variable (hid : id ≠ 0) (hfound : s.slotOf id = some i)
include hid hfound

theorem State.release_wrongState (hstate : s.slots[i].state ≠ .handedOver) :
    s.release id = (refuse .wrongState, s) := by
  simp only [State.release, hfound, hid, hstate, if_false, ne_eq, not_false_eq_true, if_true, State.refusing]

theorem State.release_claimed (hstate : s.slots[i].state = .handedOver) (hclaims : 0 < s.slots[i].openClaims) :
    s.release id = (refuse .claimed, s) := by
  simp only [State.release, hfound, hid, hstate, hclaims, if_false, ne_eq, not_true_eq_false, if_true, State.refusing]

theorem State.release_empties (hstate : s.slots[i].state = .handedOver) (hclaims : s.slots[i].openClaims = 0) :
    s.release id = (okay (le8 i.val), s.setSlot i .blank) := by
  simp only [State.release, hfound, hid, hstate, hclaims, if_false, ne_eq, not_true_eq_false, Nat.lt_irrefl]

end

/-! ### WIPE (R90, R196) -/

section
variable {s : State}

theorem State.inUse_iff : s.inUse = true ↔
    (∃ i : SlotNo, s.slots[i].state ≠ .empty) ∨ ∃ i : ClaimNo, s.claims.slots[i].isSome = true := by
  simp only [State.inUse, Bool.or_eq_true, anyAt_iff, bne_iff_ne]

theorem State.wipe_occupied (h : s.inUse = true) : s.wipe = (refuse .occupied, s) := if_pos h

theorem State.wipe_wiped (h : s.inUse = false) : s.wipe = (okay (le32 1), s.withLog s.log.wiped) :=
  if_neg (by simp [h])

end

/-- Settles O52: each request check by check; a wipe leaves the log of `Log.wiped`. -/
theorem releaseAndWipeRemoveWhatIsDone : Obligations.ReleaseAndWipeRemoveWhatIsDone := by
  unfold Obligations.ReleaseAndWipeRemoveWhatIsDone
  refine ⟨fun s tag id hs => ⟨fun hunknown => ?_, fun i hid hfound => ⟨fun hstate => ?_, fun hstate hclaims => ?_,
    fun hstate hclaims => ?_⟩⟩, fun s tag hs => ⟨fun huse => ?occupied, fun hslots hclaims => ?wiped⟩⟩
  · exact State.submit_report (.release id) hs (State.release_unknown hunknown)
  · exact State.submit_report (.release id) hs (State.release_wrongState hid hfound hstate)
  · exact State.submit_report (.release id) hs (State.release_claimed hid hfound hstate hclaims)
  · exact State.submit_of_ready (.release id) hs (State.release_empties hid hfound hstate hclaims) rfl
  case occupied => exact State.submit_report .wipe hs (State.wipe_occupied (State.inUse_iff.mpr huse))
  case wiped =>
    have hfree : s.inUse = false := by
      rw [Bool.eq_false_iff, ne_eq, State.inUse_iff]
      rintro (⟨i, hi⟩ | ⟨i, hi⟩)
      · exact hi (hslots i)
      · rw [hclaims i] at hi
        cases hi
    exact State.submit_of_ready .wipe hs (State.wipe_wiped hfree) rfl

end Sys2Proof.Machine
end

