-- ==== Sys2Proof/Proofs/CustodyInChecks.lean ====
section
/-! PROOFS. The checks of CUSTODY_IN in the order of Table 5-4, and the four of an upstream record (R100 to R102, R105,
R192, R200). -/

namespace Sys2Proof.Machine

/-! ### Finding a slot (R96, R105) -/

theorem lowest_eq_none_iff {α : Type} {n : Nat} {v : Vector α n} {p : α → Bool} :
    lowest v p = none ↔ ∀ i : Fin n, p v[i] = false := by
  simp [lowest, places]

theorem State.slotOf_eq_none_iff {s : State} {id : Word} :
    s.slotOf id = none ↔ ∀ i : SlotNo, s.slots[i].state ≠ .empty → s.slots[i].identifier ≠ id := by
  simp [State.slotOf, lowest_eq_none_iff]

theorem State.slotOf_isSome_iff {s : State} {id : Word} :
    (s.slotOf id).isSome = true ↔ ∃ i : SlotNo, s.slots[i].state ≠ .empty ∧ s.slots[i].identifier = id := by
  rw [Option.isSome_iff_ne_none, ne_eq, State.slotOf_eq_none_iff]
  push Not
  rfl

theorem State.emptySlot_eq_none_iff {s : State} : s.emptySlot = none ↔ ∀ i : SlotNo, s.slots[i].state ≠ .empty := by
  simp [State.emptySlot, lowest_eq_none_iff]

/-! ### The operands (R101, R200) -/

theorem upstreamFits_of_wellFormed {u : Upstream} (h : u.wellFormed = true) : upstreamFits u = true := by
  cases u with
  | unnamed m rest => exact ((Bool.and_eq_true _ _).mp h).2
  | _ => exact h

theorem upstreamNamed_eq_false_iff {u : Upstream} : upstreamNamed u = false ↔ ∃ m rest, u = .unnamed m rest := by
  cases u <;> simp [upstreamNamed]

section
variable {s : State} {b : Byte}

theorem State.enabledComp_of_val {c : CompNo} (hc : c.val = b.toNat) :
    s.enabledComp b = if s.comps[c].settings.enabled = true then some c else none := by
  simp only [State.enabledComp, numOf_of_val hc]

theorem State.enabledComp_eq_none (h : 3 < b.toNat ∨ ∃ c : CompNo, c.val = b.toNat ∧ s.comps[c].settings.enabled = false) :
    s.enabledComp b = none := by
  rcases h with habove | ⟨c, hc, hdisabled⟩
  · simp only [State.enabledComp, numOf_eq_none habove]
  · simp only [State.enabledComp_of_val hc, hdisabled, Bool.false_eq_true, if_false]

end

/-! ### The upstream record (R102, Table 11-6) -/

theorem ofLe_lt (l : List Byte) : ofLe l < 256 ^ l.length := by
  induction l with
  | nil => exact Nat.one_pos
  | cons b rest ih =>
    have hb : b.toNat < 256 := b.isLt
    rw [ofLe, List.length_cons, pow_succ]
    omega

/-- A four-byte field of an image is a word. -/
theorem wordField_eq_iff {image : List Byte} {offset : Nat} {w : Word} :
    BitVec.ofNat 32 (fieldAt image offset 4) = w ↔ fieldAt image offset 4 = w.toNat := by
  have hlt : fieldAt image offset 4 < 2 ^ 32 :=
    (ofLe_lt _).trans_le (Nat.pow_le_pow_right (by decide) (List.length_take_le 4 _))
  rw [← BitVec.toNat_inj, BitVec.toNat_ofNat, Nat.mod_eq_of_lt hlt]

/-- The checks of an upstream record on its bytes. -/
theorem upstreamFailure_record (r : List Byte) (id : Word) (now : Nat) : upstreamFailure (.record r) id now =
    if fieldAt r 68 4 ≠ (crc32 (r.take 68)).toNat then some 1
    else if fieldAt r 0 1 ≠ 0x5A then some 2
    else if fieldAt r 20 4 ≠ id.toNat then some 3
    else if now < fieldAt r 28 4 then some 4
    else none :=
  if_congr (not_congr wordField_eq_iff) rfl (if_congr Iff.rfl rfl (if_congr (not_congr wordField_eq_iff) rfl rfl))

theorem upstreamFailure_first {r : List Byte} {id : Word} {now n : Nat}
    (h : (n = 1 ∧ fieldAt r 68 4 ≠ (crc32 (r.take 68)).toNat) ∨
      (n = 2 ∧ fieldAt r 68 4 = (crc32 (r.take 68)).toNat ∧ fieldAt r 0 1 ≠ 0x5A) ∨
      (n = 3 ∧ fieldAt r 68 4 = (crc32 (r.take 68)).toNat ∧ fieldAt r 0 1 = 0x5A ∧ fieldAt r 20 4 ≠ id.toNat) ∨
      (n = 4 ∧ fieldAt r 68 4 = (crc32 (r.take 68)).toNat ∧ fieldAt r 0 1 = 0x5A ∧ fieldAt r 20 4 = id.toNat ∧
        now < fieldAt r 28 4)) : upstreamFailure (.record r) id now = some n := by
  rw [upstreamFailure_record]
  rcases h with ⟨rfl, hcheck⟩ | ⟨rfl, hcheck, hkind⟩ | ⟨rfl, hcheck, hkind, hid⟩ | ⟨rfl, hcheck, hkind, hid, htime⟩
  · rw [if_pos hcheck]
  · rw [if_neg (not_not.mpr hcheck), if_pos hkind]
  · rw [if_neg (not_not.mpr hcheck), if_neg (not_not.mpr hkind), if_pos hid]
  · rw [if_neg (not_not.mpr hcheck), if_neg (not_not.mpr hkind), if_neg (not_not.mpr hid), if_pos htime]

/-- An upstream record that passes its four checks, and every other upstream part, has no failure. -/
theorem upstreamFailure_none {u : Upstream} {id : Word} {now : Nat}
    (h : ∀ r : List Byte, u = .record r → fieldAt r 68 4 = (crc32 (r.take 68)).toNat ∧ fieldAt r 0 1 = 0x5A ∧
      fieldAt r 20 4 = id.toNat ∧ fieldAt r 28 4 ≤ now) : upstreamFailure u id now = none := by
  cases u with
  | record r =>
    obtain ⟨hcheck, hkind, hid, htime⟩ := h r rfl
    rw [upstreamFailure_record, if_neg (not_not.mpr hcheck), if_neg (not_not.mpr hkind), if_neg (not_not.mpr hid),
      if_neg (Nat.not_lt.mpr htime)]
  | _ => rfl

/-! ### The checks, in their order (R100) -/

section
variable {s : State} {id limit : Word} {compartment cycleLimit : Byte} {u : Upstream} {c : CompNo}
variable (hu : upstreamFits u = true)
include hu

theorem State.custodyIn_noTime (htimed : s.timed = false) :
    s.custodyIn id compartment limit cycleLimit u = (refuse .noTime, s) := by
  simp only [State.custodyIn, hu, htimed, Bool.not_true, Bool.not_false, Bool.false_eq_true, if_false, if_true,
    State.refusing]

variable (htimed : s.timed = true)
include htimed

theorem State.custodyIn_badValue (h : (id = 0 ∨ limit = 0 ∨ limit.toNat = max32 ∨ upstreamNamed u = false) ∨
    s.enabledComp compartment = none) : s.custodyIn id compartment limit cycleLimit u = (refuse .badValue, s) := by
  by_cases hoperands : id = 0 ∨ limit = 0 ∨ limit.toNat = max32 ∨ upstreamNamed u = false
  · simp only [State.custodyIn, hu, htimed, Bool.not_true, Bool.false_eq_true, if_false, if_pos hoperands, State.refusing]
  · simp only [State.custodyIn, hu, htimed, Bool.not_true, Bool.false_eq_true, if_false, if_neg hoperands,
      h.resolve_left hoperands, State.refusing]

variable (hoperands : ¬ (id = 0 ∨ limit = 0 ∨ limit.toNat = max32 ∨ upstreamNamed u = false))
  (hc : s.enabledComp compartment = some c)
include hoperands hc

theorem State.custodyIn_duplicate (hheld : (s.slotOf id).isSome = true) :
    s.custodyIn id compartment limit cycleLimit u = (refuse .duplicate, s) := by
  simp only [State.custodyIn, hu, htimed, Bool.not_true, Bool.false_eq_true, if_false, if_neg hoperands, hc, hheld,
    if_true, State.refusing]

variable (hnew : s.slotOf id = none)
include hnew

theorem State.custodyIn_badRecord {n : Nat} (hrecord : upstreamFailure u id s.now = some n) :
    s.custodyIn id compartment limit cycleLimit u = (⟨.badRecord, le8 n⟩, s) := by
  simp only [State.custodyIn, hu, htimed, Bool.not_true, Bool.false_eq_true, if_false, if_neg hoperands, hc, hnew,
    Option.isSome_none, hrecord]

variable (hrecord : upstreamFailure u id s.now = none)
include hrecord

theorem State.custodyIn_full (hempty : s.emptySlot = none) :
    s.custodyIn id compartment limit cycleLimit u = (refuse .full, s) := by
  simp only [State.custodyIn, hu, htimed, Bool.not_true, Bool.false_eq_true, if_false, if_neg hoperands, hc, hnew,
    Option.isSome_none, hrecord, hempty, State.refusing]

theorem State.custodyIn_logHeld {i : SlotNo} (hempty : s.emptySlot = some i) (hfits : s.log.custodyFits true = false) :
    s.custodyIn id compartment limit cycleLimit u = (refuse .logHeld, s) := by
  simp only [State.custodyIn, hu, htimed, Bool.not_true, Bool.false_eq_true, if_false, if_neg hoperands, hc, hnew,
    Option.isSome_none, hrecord, hempty, hfits, State.refusing]

end

/-- Settles O36: one lemma for each check of Table 5-4, with those before it passed. -/
theorem custodyInChecksInOrder : Obligations.CustodyInChecksInOrder := by
  unfold Obligations.CustodyInChecksInOrder
  intro s tag compartment cycleLimit id limit u hs hwf
  have hu := upstreamFits_of_wellFormed hwf
  have hrefused : ∀ a : Answer, s.custodyIn id compartment limit cycleLimit u = (a, s) →
      exec (.custodyIn tag id compartment limit cycleLimit u) s = .next (s.replies 0x28 tag a) :=
    fun a => State.submit_report (.custodyIn id compartment limit cycleLimit u) hs
  refine ⟨fun hunset => hrefused _ (State.custodyIn_noTime hu (State.timed_of_unset hunset)), fun hvalid => ?_⟩
  obtain ⟨htimed, hnow⟩ := State.now_of_valid hvalid
  refine ⟨fun hbad => hrefused _ (State.custodyIn_badValue hu htimed ?bad),
    fun c hid hlimit hmax hnamed hval henabled => ?_⟩
  case bad =>
    rcases hbad with h | h | h | h | h
    · exact .inl (.inl h)
    · exact .inl (.inr (.inl h))
    · exact .inl (.inr (.inr (.inl h)))
    · exact .inl (.inr (.inr (.inr (upstreamNamed_eq_false_iff.mpr h))))
    · exact .inr (State.enabledComp_eq_none h)
  have hoperands : ¬ (id = 0 ∨ limit = 0 ∨ limit.toNat = max32 ∨ upstreamNamed u = false) := by
    simp only [hid, hlimit, hmax, upstreamNamed_eq_false_iff, hnamed, exists_false, or_self, not_false_eq_true]
  have hc : s.enabledComp compartment = some c := by rw [State.enabledComp_of_val hval, if_pos henabled]
  refine ⟨fun hheld => hrefused _ (State.custodyIn_duplicate hu htimed hoperands hc (State.slotOf_isSome_iff.mpr hheld)),
    fun hfree => ?_⟩
  have hnew := State.slotOf_eq_none_iff.mpr hfree
  refine ⟨?failing, fun hpasses => ?passing⟩
  case failing =>
    rintro r n rfl hfails
    exact hrefused _ (State.custodyIn_badRecord hu htimed hoperands hc hnew (hnow ▸ upstreamFailure_first hfails))
  case passing =>
    rw [← hnow] at hpasses ⊢
    have hrecord := upstreamFailure_none hpasses
    refine ⟨hrecord, fun hused => ?full, fun hempty hfits => ?logHeld⟩
    case full =>
      exact hrefused _ (State.custodyIn_full hu htimed hoperands hc hnew hrecord (State.emptySlot_eq_none_iff.mpr hused))
    case logHeld =>
      obtain ⟨j, hj⟩ := hempty
      obtain ⟨i, hi⟩ := Option.ne_none_iff_exists'.mp fun hnone => State.emptySlot_eq_none_iff.mp hnone j hj
      exact hrefused _ (State.custodyIn_logHeld hu htimed hoperands hc hnew hrecord hi hfits)

end Sys2Proof.Machine
end

