-- ==== Sys2Proof/Proofs/HandoverBegin.lean ====
section
/-! PROOFS. HANDOVER_BEGIN: the checks in the order of Table 6-2, and the handover that an accepted one begins (R77, R117,
R118). -/

namespace Sys2Proof.Machine

/-! ### The checks, in their order (R117) -/

section
variable {s : State} {id : Word} {i : SlotNo}

theorem State.handoverBegin_noTime (h : s.timed = false) : s.handoverBegin id = (refuse .noTime, s) := by
  simp only [State.handoverBegin, h, Bool.not_false, if_true, State.refusing]

variable (htimed : s.timed = true)
include htimed

theorem State.handoverBegin_zero : s.handoverBegin 0 = (refuse .badValue, s) := by
  simp only [State.handoverBegin, htimed, Bool.not_true, Bool.false_eq_true, if_false, if_true, State.refusing]

theorem State.handoverBegin_unknown (hid : id ≠ 0) (hfound : s.slotOf id = none) :
    s.handoverBegin id = (refuse .unknown, s) := by
  simp only [State.handoverBegin, htimed, hid, hfound, Bool.not_true, Bool.false_eq_true, if_false, State.refusing]

variable (hid : id ≠ 0) (hfound : s.slotOf id = some i)
include hid hfound

theorem State.handoverBegin_wrongState (hstate : s.slots[i].state ≠ .inCustody) :
    s.handoverBegin id = (refuse .wrongState, s) := by
  simp only [State.handoverBegin, htimed, hid, hfound, if_pos hstate, Bool.not_true, Bool.false_eq_true, if_false,
    State.refusing]

variable (hstate : s.slots[i].state = .inCustody)
include hstate

theorem State.handoverBegin_logHeld (hfits : s.log.custodyFits false = false) :
    s.handoverBegin id = (refuse .logHeld, s) := by
  simp only [State.handoverBegin, htimed, hid, hfound, hstate, hfits, Bool.not_true, Bool.false_eq_true, if_false,
    State.refusing, ne_eq, not_true_eq_false]

theorem State.handoverBegin_accepted (hfits : s.log.custodyFits false = true) : s.handoverBegin id =
    (okay (le8 i.val ++ le32 s.now ++ le32 s.deadline), s.acceptBegin i) := by
  simp only [State.handoverBegin, htimed, hid, hfound, hstate, hfits, Bool.not_true, Bool.false_eq_true, if_false,
    if_true, ne_eq, not_true_eq_false]

end

/-! ### The handover begun (R118) -/

section
variable (s : State) (i : SlotNo)

theorem State.acceptBegin_slots : (s.acceptBegin i).slots =
    setAt s.slots i { s.slots[i] with state := .handingOver, handover := some ⟨s.now, s.deadline⟩ } := by
  simp only [State.acceptBegin, State.handCustody_frame, State.setSlot_slots]

/-- The HANDOVER_BEGIN record is the newest where the custody test found room for it. -/
theorem State.acceptBegin_record (hfits : s.log.custodyFits false = true) :
    ∃ r, (s.acceptBegin i).log.records.getLast? = some r ∧ r.stamp = s.stampNow ∧
      r.body = .handoverBegin s.slots[i].identifier i s.deadline := by
  obtain ⟨r, hlast, -, -, hstamp, -, hbody⟩ := State.handCustody_newest
    (s := s.setSlot i { s.slots[i] with state := .handingOver, handover := some ⟨s.now, s.deadline⟩ })
    (e := beginEntry s.slots[i] i s.stampNow s.deadline)
    ((Log.custodyFate_ne_unwritten _).mpr (s.log.custodyFits_alone.mp hfits))
  exact ⟨r, hlast, hstamp, hbody⟩

end

/-- Settles O38: one lemma for each check of Table 6-2, then what an accepted request leaves. -/
theorem handoverBegins : Obligations.HandoverBegins := by
  unfold Obligations.HandoverBegins
  intro s tag id hs
  have hrefused : ∀ st : Status, s.handoverBegin id = (refuse st, s) →
      exec (.handoverBegin tag id) s = .next (s.replies 0x31 tag (refuse st)) :=
    fun _ => State.submit_report (.handoverBegin id) hs
  refine ⟨fun hunset => hrefused _ (State.handoverBegin_noTime (State.timed_of_unset hunset)), fun hvalid => ?_⟩
  obtain ⟨htimed, hnow⟩ := State.now_of_valid hvalid
  refine ⟨?zero, fun hid hfound => hrefused _ (State.handoverBegin_unknown htimed hid hfound),
    fun i hid hfound => ⟨fun hstate => hrefused _ (State.handoverBegin_wrongState htimed hid hfound hstate),
      fun hstate hfits => hrefused _ (State.handoverBegin_logHeld htimed hid hfound hstate hfits), ?accepted⟩⟩
  case zero =>
    rintro rfl
    exact hrefused _ (State.handoverBegin_zero htimed)
  case accepted =>
    intro hstate hfits deadline hdeadline
    obtain rfl : deadline = s.deadline := by rw [hdeadline, ← hnow]; rfl
    rw [← hnow]
    exact ⟨s.acceptBegin i, State.submit_of_ready (.handoverBegin id) hs
      (State.handoverBegin_accepted htimed hid hfound hstate hfits) (by simp), s.acceptBegin_slots i,
      s.acceptBegin_record i hfits, by simp, by simp⟩

end Sys2Proof.Machine
end

