-- ==== Sys2Proof/Proofs/HandoverLapse.lean ====
section
/-! PROOFS. HANDOVER_LAPSE: a handover stands while the seconds to its deadline pass, and at their end the slot returns to
IN_CUSTODY with its HANDOVER_ABANDON record (R119 to R121, R127). -/

namespace Sys2Proof.Machine

/-! ### The lapse of a slot (R120) -/

/-- A lapse, with the record taken from the slot as it stands. -/
theorem State.lapse_eq (s : State) (i : SlotNo) : s.lapse i =
    ((s.setSlot i s.slots[i].returned).handCustody (abandonEntry s.slots[i] i .lapsed s.stampNow)).raise
      .handoverLapsed := by
  simp only [State.lapse, State.abandon, State.setSlot_slots, getElem_setAt_self]
  rfl

theorem State.lapse_slots (s : State) (i : SlotNo) : (s.lapse i).slots = setAt s.slots i s.slots[i].returned := by
  simp only [State.lapse_eq, State.raise_frame, State.handCustody_frame, State.setSlot_slots]

/-- The HANDOVER_ABANDON record is the newest where the log has room for it. -/
theorem State.lapse_record {s : State} (i : SlotNo) (hfits : s.log.custodyFits false = true) :
    ∃ r, (s.lapse i).log.records.getLast? = some r ∧
      r.body = .handoverAbandon s.slots[i].identifier i .lapsed s.slots[i].refusals := by
  obtain ⟨r, hlast, -, -, -, -, hbody⟩ := State.handCustody_newest (s := s.setSlot i s.slots[i].returned)
    (e := abandonEntry s.slots[i] i .lapsed s.stampNow)
    ((Log.custodyFate_ne_unwritten _).mpr (s.log.custodyFits_alone.mp hfits))
  exact ⟨r, by simpa only [State.lapse_eq, State.raise_frame] using hlast, hbody⟩

theorem State.lapse_member {s : State} (i : SlotNo)
    (henabled : s.notices.enables[Condition.handoverLapsed.place] = true) :
    (s.lapse i).notices.members[Condition.handoverLapsed.place] = true := by
  rw [State.lapse_eq]
  exact NoticeUnit.raise_member _ (by rwa [State.handCustody_enables])

/-! ### What steps and timer events leave of a handover -/

/-- Of a slot `x`, what `y` shares with it: the consignment, its refusals and its handover. -/
structure Slot.HandoverStands (x y : Slot) : Prop where
  identifier : y.identifier = x.identifier
  compartment : y.compartment = x.compartment
  refusals : y.refusals = x.refusals
  state : y.state = x.state
  handover : y.handover = x.handover

theorem Slot.HandoverStands.refl (x : Slot) : x.HandoverStands x := ⟨rfl, rfl, rfl, rfl, rfl⟩

theorem Slot.HandoverStands.trans {x y z : Slot} (h : x.HandoverStands y) (g : y.HandoverStands z) : x.HandoverStands z :=
  ⟨g.identifier.trans h.identifier, g.compartment.trans h.compartment, g.refusals.trans h.refusals,
    g.state.trans h.state, g.handover.trans h.handover⟩

/-- A step moves the accounting of a consignment alone (R33, R36 to R39). -/
theorem Slot.stepped_handoverStands (x : Slot) (timed cools : Bool) (t tp : Nat) (rate : Option Nat) :
    x.HandoverStands (x.stepped timed cools t tp rate) := by
  cases timed with
  | false => exact .refl x
  | true =>
    cases rate with
    | none => exact ⟨rfl, rfl, rfl, rfl, rfl⟩
    | some r =>
      simp only [Slot.stepped, if_true, Slot.takeShare, Slot.checked_eq]
      exact ⟨rfl, rfl, rfl, rfl, rfl⟩

/-- A deferred SAMPLE flags a consignment and changes nothing else of it (R81). -/
theorem Slot.deferred_handoverStands (x : Slot) (defers : Bool) : x.HandoverStands (x.deferred defers) :=
  ⟨rfl, rfl, rfl, rfl, rfl⟩

section
variable (s : State) (i : SlotNo)

theorem State.stepComp_handoverStands (c : CompNo) (cause : StepCause) :
    s.slots[i].HandoverStands (s.stepComp c cause).slots[i] := by
  cases he : s.comps[c].settings.enabled with
  | false => rw [State.stepComp_of_disabled cause he]; exact .refl _
  | true =>
    rw [State.stepComp_of_enabled cause he, State.takeStep_slot]
    split
    · exact (s.slots[i].stepped_handoverStands _ _ _ _ _).trans (Slot.deferred_handoverStands _ _)
    · exact .refl _

theorem State.stepAll_handoverStands (causeOf : CompNo → StepCause) (l : List CompNo) :
    s.slots[i].HandoverStands (s.stepAll causeOf l).slots[i] := by
  induction l generalizing s with
  | nil => exact .refl _
  | cons c l ih => exact (s.stepComp_handoverStands i c _).trans (ih _)

theorem State.takeUp_handoverStands (l : List EntryNo) : s.slots[i].HandoverStands (s.takeUp l).slots[i] := by
  induction l generalizing s with
  | nil => exact s.stepAll_handoverStands i (cycleCause s.scan.cycleSet) (places 4)
  | cons e l ih =>
    rw [State.takeUp]
    split
    · exact ih (s.passOver e)
    · exact .refl _

/-- A tick, and the cycle end or blind tick it brings, leave a handover (R8, R9). -/
theorem State.fallTick_handoverStands : s.slots[i].HandoverStands s.fallTick.slots[i] := by
  rw [State.fallTick, State.takeTick]
  split
  · exact State.takeUp_handoverStands (State.updScan (State.updScan s _) _) i _
  · exact .refl _
  · exact .refl _
  · exact State.stepAll_handoverStands (s.updScan _) i _ _

end

/-- The claims stand in `u` as in `s`, and so does the handover of slot i. -/
structure State.HandoverStands (s u : State) (i : SlotNo) : Prop where
  claims : u.claims = s.claims
  slot : s.slots[i].HandoverStands u.slots[i]

section
variable {s u : State} {i : SlotNo}

theorem State.HandoverStands.trans {v : State} (h : s.HandoverStands u i) (g : u.HandoverStands v i) :
    s.HandoverStands v i :=
  ⟨g.claims.trans h.claims, h.slot.trans g.slot⟩

/-- Every timer event but the lapse of the slot itself leaves its handover. -/
theorem State.fire_handoverStands (hs : s.quiet) {e : TimerEvent} (he : e ≠ .lapse i) : s.HandoverStands (s.fire e) i := by
  cases e with
  | tick =>
    rw [State.fire, State.pump_of_quiet hs (by simp)]
    exact ⟨by simp, by simpa only [State.offer_frame] using s.fallTick_handoverStands i⟩
  | longOpen c =>
    rw [State.fire, State.pump_of_quiet hs (by simp)]
    exact ⟨by simp, by simpa only [State.offer_frame, State.expireLongOpen_frame] using .refl _⟩
  | lapse j =>
    have hij : j ≠ i := fun h => he (congrArg _ h)
    rw [State.fire, State.pump_of_quiet hs (by simp)]
    refine ⟨by simp, ?_⟩
    simp only [State.offer_frame, State.lapse_slots, getElem_setAt_ne _ _ hij]
    exact .refl _

theorem State.fireAll_handoverStands (hs : s.quiet) {l : List TimerEvent} (hl : .lapse i ∉ l) :
    s.HandoverStands (s.fireAll l) i := by
  induction l generalizing s with
  | nil => exact ⟨rfl, .refl _⟩
  | cons e l ih =>
    obtain ⟨he, hrest⟩ := List.ne_and_not_mem_of_not_mem_cons hl
    exact (State.fire_handoverStands hs (Ne.symm he)).trans (ih (State.fire_quiet hs e) hrest)

/-! ### The seconds to the deadline (R119) -/

/-- Seconds alone move the present time by no more than their number (R188). -/
theorem State.after_now_le (s : State) (n : Nat) : (s.after n).now ≤ s.now + n := by
  cases n with
  | zero => exact le_rfl
  | succ n =>
    change (if s.timed then satTime (s.clock.counter + (n + 1)) else satTime (s.clock.uptime + (n + 1))) ≤
      (if s.timed then s.clock.counter else s.clock.uptime) + (n + 1)
    split <;> exact Nat.min_le_left _ _

/-- Seconds that do not reach past the deadline of a handover leave it, however the other timer events fall. -/
theorem State.passTo_handoverStands (hs : s.quiet) {h : Handover} (hhandover : s.slots[i].handover = some h) {n : Nat}
    (hn : n ≤ h.deadline - s.now) : s.HandoverStands (s.passTo n) i := by
  induction n with
  | zero => exact ⟨rfl, .refl _⟩
  | succ n ih =>
    have hbefore := ih (Nat.le_of_succ_le hn)
    have hnow : (s.passTo n).now ≤ s.now + n := by
      rw [(State.stampNow_of_clock (State.passTo_follows hs n).clock).2.1]
      exact s.after_now_le n
    have hnot : .lapse i ∉ (s.passTo n).due := by
      rw [State.lapse_mem_due_iff, hbefore.slot.handover, hhandover]
      rintro ⟨-, _, ⟨⟩, hdue⟩
      omega
    rw [State.passTo_add]
    obtain ⟨hclaims, hslot⟩ := hbefore.trans (State.fireAll_handoverStands (State.passTo_quiet hs n) hnot)
    exact ⟨hclaims, hslot⟩

end

/-- With the clock VALID the seconds left bring it to a deadline that it can reach. -/
theorem State.deadline_le_after {s : State} {d : Nat} (hvalid : s.clock.state = .valid) (hd : d ≤ 4294967294) :
    d ≤ (s.after (d - s.now)).clock.counter := by
  obtain ⟨-, hnow⟩ := State.now_of_valid hvalid
  rw [hnow]
  cases hleft : d - s.clock.counter with
  | zero => exact Nat.le_of_sub_eq_zero hleft
  | succ n =>
    change d ≤ satTime (s.clock.counter + (n + 1))
    exact Nat.le_min.mpr ⟨by omega, hd⟩

/-! ### HANDOVER_LAPSE -/

/-- A timer that does not run does not lapse (log entry 14). -/
theorem exec_handoverLapse_stopped {s : State} {i : SlotNo} (hs : s.quiet) (hstate : s.slots[i].state ≠ .handingOver) :
    exec (.handoverLapse i) s = .next s.offer := by
  have hkept : s.handoverLapse i = s := by
    unfold State.handoverLapse
    split
    next h _ => exact absurd h hstate
    next => rfl
  refine congrArg _ ((State.happen_of_quiet (f := fun s => s.handoverLapse i) hs ?_).trans ?_) <;> rw [hkept]

/-- A timer that runs lapses once the seconds left have passed (R119). -/
theorem exec_handoverLapse {s : State} {i : SlotNo} {h : Handover} (hs : s.quiet) (hstate : s.slots[i].state = .handingOver)
    (hhandover : s.slots[i].handover = some h) :
    exec (.handoverLapse i) s = .next ((s.passTo (h.deadline - s.now)).lapse i).offer := by
  rw [← State.pump_of_quiet (State.passTo_quiet hs (h.deadline - s.now)) (by simp)]
  simp only [exec, execHandoverLapse, State.happen, hs.1, State.handoverLapse, hstate, hhandover]

/-- Settles O41: the handover stands until its deadline by `State.passTo_handoverStands`, then the lapse. -/
theorem handoverLapses : Obligations.HandoverLapses := by
  unfold Obligations.HandoverLapses
  rintro s i x hs rfl
  refine ⟨exec_handoverLapse_stopped hs, ?_⟩
  rintro h n p hstate hhandover rfl rfl
  obtain ⟨hclaims, hid, hcomp, hrefusals, hstate', hhandover'⟩ := State.passTo_handoverStands hs hhandover le_rfl
  have hreach := State.deadline_le_after (s := s) (d := h.deadline)
  have hexec := exec_handoverLapse hs hstate hhandover
  generalize h.deadline - s.now = n at hclaims hid hcomp hrefusals hstate' hhandover' hreach hexec ⊢
  obtain ⟨-, hclock, -, -, henables⟩ := State.passTo_follows hs n
  obtain ⟨-, hlog, hslots, hcomps, hnotices⟩ := s.after_frame n
  have hreturned : ((s.passTo n).lapse i).offer.slots[i] = (s.passTo n).slots[i].returned := by
    simp only [State.offer_frame, State.lapse_slots, getElem_setAt_self]
  refine ⟨?exec, hstate'.trans hstate, hhandover'.trans hhandover, State.passTo_calm, fun hvalid hd => ?_,
    fun hlo hhi => ?_, _, hexec, ?_, ?_, fun hcalm => ⟨?_, ?_, fun hfits => ?_⟩, fun he => ?_, ?_⟩
  case exec =>
    rw [hexec, State.lapse_eq, abandonEntry, hid, hcomp, hrefusals]
    rfl
  · rw [hclock]
    exact hreach hvalid hd
  · rw [State.passTo_scan_overTick hs hlo hhi]
  · rw [hreturned]; rfl
  · rw [hreturned]; rfl
  · simp only [State.offer_frame, State.lapse_slots, State.passTo_calm hcalm, hslots, Slot.returned]
  · simp only [State.offer_frame, State.lapse_frame, State.passTo_calm hcalm, hcomps]
  · obtain ⟨r, hlast, hbody⟩ := State.lapse_record (s := s.passTo n) i (by rw [State.passTo_calm hcalm, hlog, hfits])
    rw [hid, hrefusals] at hbody
    exact ⟨r, by simpa only [State.offer_frame] using hlast, hbody⟩
  · rw [(State.offer_pending _).1]
    exact State.lapse_member i (by rw [henables, hnotices, he])
  · simp only [State.offer_frame, State.lapse_frame, hclaims]

end Sys2Proof.Machine
end

