-- ==== Sys2Proof/Proofs/ClaimOpens.lean ====
section
/-! PROOFS. CLAIM_OPEN: the checks in the order of Table 7-3, and the claim, the hold, the count and the CLAIM record of an
accepted request (R136, R138 to R140). -/

namespace Sys2Proof.Machine

/-! ### The checks, in their order (R138) -/

section
variable {s : State} {ref id : Word}

theorem State.claimOpen_badValue (h : ref = 0 ∨ id = 0) : s.claimOpen ref id = (refuse .badValue, s) := if_pos h

variable (hvalues : ¬ (ref = 0 ∨ id = 0))
include hvalues

theorem State.claimOpen_duplicate (hopen : (s.claimOf ref).isSome = true) :
    s.claimOpen ref id = (refuse .duplicate, s) := by
  simp only [State.claimOpen, if_neg hvalues, hopen, if_true, State.refusing]

variable (hnew : s.claimOf ref = none)
include hnew

theorem State.claimOpen_unknown (hfound : s.slotOf id = none) : s.claimOpen ref id = (refuse .unknown, s) := by
  simp only [State.claimOpen, if_neg hvalues, hnew, Option.isSome_none, Bool.false_eq_true, if_false, hfound,
    State.refusing]

variable {j : SlotNo} (hfound : s.slotOf id = some j)
include hfound

theorem State.claimOpen_full (hfree : s.freeClaim = none) : s.claimOpen ref id = (refuse .full, s) := by
  simp only [State.claimOpen, if_neg hvalues, hnew, Option.isSome_none, Bool.false_eq_true, if_false, hfound, hfree,
    State.refusing]

variable {i : ClaimNo} (hfree : s.freeClaim = some i)
include hfree

theorem State.claimOpen_evicted (hevicted : s.log.evicted s.slots[j].windowEnd = true) :
    s.claimOpen ref id = (refuse .evicted, s) := by
  simp only [State.claimOpen, if_neg hvalues, hnew, Option.isSome_none, Bool.false_eq_true, if_false, hfound, hfree,
    hevicted, if_true, State.refusing]

theorem State.claimOpen_accepted (hevicted : s.log.evicted s.slots[j].windowEnd = false) : s.claimOpen ref id =
    (okay (le8 i.val ++ le32 s.slots[j].inSeq ++ le32 (s.log.heldStart s.slots[j].inSeq)
      ++ windowField s.slots[j].windowEnd), s.acceptClaim i j ref) := by
  simp only [State.claimOpen, if_neg hvalues, hnew, Option.isSome_none, Bool.false_eq_true, if_false, hfound, hfree,
    hevicted]

end

/-! ### The claim opened (R139, R140) -/

/-- With room in the log a general record is the newest. -/
theorem State.handGeneral_records {s : State} (hfate : s.log.generalFate = .appended) (e : Entry) :
    (s.handGeneral e).log.records = s.log.records ++ [s.log.recordOf e] := by
  rw [State.handGeneral_appended hfate]
  rfl

section
variable (s : State) (i : ClaimNo) (j : SlotNo) (ref : Word)

/-- The claim that an accepted request opens on slot j. -/
def State.newClaim (s : State) (j : SlotNo) (ref : Word) : Claim :=
  ⟨ref, s.slots[j].identifier, j, s.slots[j].inSeq, s.log.heldStart s.slots[j].inSeq, s.stampNow, .opened⟩

/-- The part with the claim, its hold and its count, before the record. -/
def State.claimPlaced (s : State) (i : ClaimNo) (j : SlotNo) (ref : Word) : State :=
  ((s.setClaim i (some (s.newClaim j ref))).placeHold i
    ⟨s.log.heldStart s.slots[j].inSeq, s.slots[j].windowEnd⟩).countClaim j (· + 1)

/-- The CLAIM record of an opening. -/
def State.openEntry (s : State) (j : SlotNo) (ref : Word) : Entry :=
  claimEntry s.stampNow s.slots[j].compartment .opened (s.newClaim j ref) s.slots[j].windowEnd none

theorem State.acceptClaim_eq :
    s.acceptClaim i j ref = (s.claimPlaced i j ref).handGeneral (s.openEntry j ref) := rfl

theorem State.acceptClaim_claims : (s.acceptClaim i j ref).claims =
    { s.claims with slots := setAt s.claims.slots i (some (s.newClaim j ref)) } := by
  simp only [State.acceptClaim_eq, State.handGeneral_frame, State.claimPlaced, State.countClaim_frame,
    State.placeHold_frame, State.setClaim_claims]

theorem State.claimPlaced_log : (s.claimPlaced i j ref).log = { s.log with
    holds := setAt s.log.holds i (some ⟨s.log.heldStart s.slots[j].inSeq, s.slots[j].windowEnd⟩) } := rfl

theorem State.acceptClaim_holds : (s.acceptClaim i j ref).log.holds =
    setAt s.log.holds i (some ⟨s.log.heldStart s.slots[j].inSeq, s.slots[j].windowEnd⟩) := by
  rw [State.acceptClaim_eq, (State.handGeneral_holds _ _).1, State.claimPlaced_log]

theorem State.acceptClaim_slots : (s.acceptClaim i j ref).slots =
    setAt s.slots j { s.slots[j] with openClaims := s.slots[j].openClaims + 1 } :=
  State.handGeneral_slots_of_other _ nofun

/-- A hold does not decide what becomes of a record while the log has room. -/
theorem State.acceptClaim_records (hfate : s.log.generalFate = .appended) : (s.acceptClaim i j ref).log.records =
    s.log.records ++ [(s.claimPlaced i j ref).log.recordOf (s.openEntry j ref)] := by
  have hplaced : (s.claimPlaced i j ref).log.generalFate = .appended := by
    rw [Log.generalFate_appended_iff] at hfate ⊢
    exact hfate
  rw [State.acceptClaim_eq, State.handGeneral_records hplaced, State.claimPlaced_log]

end

/-- Settles O42: one lemma for each check of Table 7-3, then what an accepted request leaves. -/
theorem claimOpens : Obligations.ClaimOpens := by
  unfold Obligations.ClaimOpens
  intro s tag ref id hs
  have hrefused : ∀ st : Status, s.claimOpen ref id = (refuse st, s) →
      exec (.claimOpen tag ref id) s = .next (s.replies 0x38 tag (refuse st)) :=
    fun _ => State.submit_report (.claimOpen ref id) hs
  refine ⟨fun h => hrefused _ (State.claimOpen_badValue h), fun href hid => ?_⟩
  have hvalues : ¬ (ref = 0 ∨ id = 0) := not_or.mpr ⟨href, hid⟩
  refine ⟨fun hopen => hrefused _ (State.claimOpen_duplicate hvalues hopen),
    fun hnew hfound => hrefused _ (State.claimOpen_unknown hvalues hnew hfound), fun j hnew hfound =>
    ⟨fun hfree => hrefused _ (State.claimOpen_full hvalues hnew hfound hfree), fun i hfree =>
      ⟨fun hevicted => hrefused _ (State.claimOpen_evicted hvalues hnew hfound hfree hevicted), fun hevicted => ?_⟩⟩⟩
  exact ⟨s.acceptClaim i j ref, s.log.heldStart s.slots[j].inSeq, rfl,
    State.submit_of_ready (.claimOpen ref id) hs (State.claimOpen_accepted hvalues hnew hfound hfree hevicted) (by simp),
    s.acceptClaim_claims i j ref, s.acceptClaim_holds i j ref, s.acceptClaim_slots i j ref,
    fun hfate => ⟨_, s.acceptClaim_records i j ref hfate, rfl, rfl⟩⟩

end Sys2Proof.Machine
end

