-- ==== Sys2Proof/Proofs/WalkArithmetic.lean ====
section
/-! PROOFS. The arithmetic of a walk: what each record does to it, its last addition, its results and the verdict (Table
7-5, R149, R151 to R157). -/

namespace Sys2Proof.Machine

/-! ### An addition to the running sum (R151 to R153) -/

theorem crossesAt_iff (snap : Snapshot) (sum : Nat) :
    crossesAt snap sum = true ↔ snap.limit < min (snap.carriedExposure + sum) 4294967295 := decide_eq_true_iff

/-- The crossing test of an addition, with the sum that it leaves. -/
theorem Walk.addSum_eq {w : Walk} {snap : Snapshot} {n sum : Nat} {place : Crossing}
    (hsum : sum = min (w.sum + n) 4294967295) : w.addSum snap n place = { w with
      sum := sum
      crossing := if w.crossing = .none ∧ snap.limit < min (snap.carriedExposure + sum) 4294967295 then
        (if w.clean = true then place else .unplaced) else w.crossing } := by
  subst hsum
  simp only [Walk.addSum, crossesAt_iff]
  rfl

/-! ### The treatment of a record (Table 7-5) -/

section
variable {w : Walk} {snap : Snapshot} {r : LogRecord}

/-- A record of the snapshot's compartment, stamped by device time. -/
theorem own_device_iff (snap : Snapshot) (r : LogRecord) :
    (r.compartment == some snap.compartment && !r.stamp.relative) = true ↔
      r.compartment = some snap.compartment ∧ r.stamp.relative = false := by
  rw [Bool.and_eq_true, beq_iff_eq, Bool.not_eq_true']

section
variable (hown : r.compartment = some snap.compartment) (hdevice : r.stamp.relative = false)
include hown hdevice

theorem Walk.treat_sample {b : SampleBody} (hbody : r.body = .sample b) :
    w.treat snap r = w.addSum snap b.increment (.record r.sequence r.stamp.time) := by
  simp only [Walk.treat, hbody, (own_device_iff snap r).mpr ⟨hown, hdevice⟩, if_true]

theorem Walk.treat_coarse {b : CoarseBody} (hbody : r.body = .coarse b) :
    w.treat snap r = ({ w with clean := false }).addSum snap b.increment .unplaced := by
  simp only [Walk.treat, hbody, (own_device_iff snap r).mpr ⟨hown, hdevice⟩, if_true]

theorem Walk.treat_opened {i : InputNo} {st : Settled} (hbody : r.body = .hatch i st .opened) :
    w.treat snap r = { w with openings := w.openings + 1 } := by
  simp only [Walk.treat, hbody, (own_device_iff snap r).mpr ⟨hown, hdevice⟩, beq_self_eq_true, Bool.and_self, if_true]

end

/-- A RELATIVE COARSE record of the compartment ends cleanliness alone (R151, log entry 22). -/
theorem Walk.treat_coarse_relative {b : CoarseBody} (hown : r.compartment = some snap.compartment)
    (hrelative : ¬ r.stamp.relative = false) (hbody : r.body = .coarse b) :
    w.treat snap r = { w with clean := false } := by
  have hnot := mt (own_device_iff snap r).mp fun h => hrelative h.2
  simp only [Walk.treat, hbody, if_neg hnot, if_pos hown]

theorem Walk.treat_gap {since : Option Stamp} {h c o k : Nat} (hbody : r.body = .gap since h c o k) :
    w.treat snap r = { w with gaps := w.gaps + 1, clean := false } := by
  simp only [Walk.treat, hbody]

/-- Every other record is passed over. -/
theorem Walk.treat_other
    (hsample : ∀ b, r.body = .sample b → ¬ (r.compartment = some snap.compartment ∧ r.stamp.relative = false))
    (hcoarse : ∀ b, r.body = .coarse b → r.compartment ≠ some snap.compartment)
    (hopened : ∀ i st, r.body = .hatch i st .opened →
      ¬ (r.compartment = some snap.compartment ∧ r.stamp.relative = false))
    (hgap : ∀ since h c o k, r.body ≠ .gap since h c o k) : w.treat snap r = w := by
  cases hbody : r.body with
  | sample b => simp only [Walk.treat, hbody, if_neg (mt (own_device_iff snap r).mp (hsample b hbody))]
  | coarse b =>
    have hnot := mt (own_device_iff snap r).mp fun h => hcoarse b hbody h.1
    simp only [Walk.treat, hbody, if_neg hnot, if_neg (hcoarse b hbody)]
  | hatch i st change =>
    by_cases hchange : change = .opened
    · subst hchange
      have hnot := mt (own_device_iff snap r).mp (hopened i st hbody)
      simp only [Walk.treat, hbody, hnot, Bool.false_and, Bool.false_eq_true, if_false]
    · simp only [Walk.treat, hbody, beq_false_of_ne hchange, Bool.and_false, Bool.false_eq_true, if_false]
  | gap since h c o k => exact absurd hbody (hgap since h c o k)
  | _ => simp only [Walk.treat, hbody]

/-- The examination of the record at the walk's position: its treatment, and the walk moves on (R150). -/
theorem Walk.examine_of_recordAt {l : Log} {treated : Walk} (hrecord : l.recordAt w.position = some r)
    (htreated : w.treat snap r = treated) :
    w.examine l snap = { treated with position := w.position + 1, examined := w.examined + 1 } := by
  simp only [Walk.examine, hrecord, htreated]

end

/-! ### The last addition (R152) -/

theorem Walk.addOpen_of_device {snap : Snapshot} {n : Nat} (w : Walk) (h : snap.openIncrement = some ⟨n, false⟩) :
    w.addOpen snap = w.addSum snap n .openInterval := by
  simp only [Walk.addOpen, h, Bool.false_eq_true, if_false]

/-- A RELATIVE open interval, and a window that has ended, add nothing. -/
theorem Walk.addOpen_of_other {snap : Snapshot} (w : Walk) (h : ∀ n, snap.openIncrement ≠ some ⟨n, false⟩) :
    w.addOpen snap = w := by
  cases hopen : snap.openIncrement with
  | none => simp only [Walk.addOpen, hopen]
  | some o =>
    obtain ⟨n, relative⟩ := o
    cases relative with
    | false => exact absurd hopen (h n)
    | true => simp only [Walk.addOpen, hopen, if_true]

/-- The last addition counts no GAP record. -/
theorem Walk.addOpen_gaps (w : Walk) (snap : Snapshot) : (w.addOpen snap).gaps = w.gaps := by
  unfold Walk.addOpen Walk.addSum
  (repeat' split) <;> rfl

/-- Settles O44: where a walk starts, one lemma for each row of Table 7-5, the last addition, and the results. -/
theorem walkWeighsTheRecords : Obligations.WalkWeighsTheRecords := by
  unfold Obligations.WalkWeighsTheRecords
  refine ⟨fun k snap => rfl, ?records, fun w snap => ⟨?openInterval, w.addOpen_of_other⟩, ?results⟩
  case records =>
    rintro w base l snap r own device hrecord rfl hown hdevice
    refine ⟨?sample, ?coarse, ?coarseRelative, ?opened, ?gap, ?other⟩
    case sample =>
      intro b sum hbody ho hd hsum
      rw [Walk.examine_of_recordAt hrecord (Walk.treat_sample (hown.mp ho) (hdevice.mp hd) hbody),
        Walk.addSum_eq hsum]
    case coarse =>
      intro b sum hbody ho hd hsum
      rw [Walk.examine_of_recordAt hrecord (Walk.treat_coarse (hown.mp ho) (hdevice.mp hd) hbody),
        Walk.addSum_eq (w := { w with clean := false }) hsum]
      rfl
    case coarseRelative =>
      intro b hbody ho hd
      exact Walk.examine_of_recordAt hrecord (Walk.treat_coarse_relative (hown.mp ho) (mt hdevice.mpr hd) hbody)
    case opened =>
      intro i st hbody ho hd
      exact Walk.examine_of_recordAt hrecord (Walk.treat_opened (hown.mp ho) (hdevice.mp hd) hbody)
    case gap =>
      intro since h c o k hbody
      exact Walk.examine_of_recordAt hrecord (Walk.treat_gap hbody)
    case other =>
      rw [hown, hdevice]
      intro hsample hcoarse hopened hgap
      exact Walk.examine_of_recordAt hrecord (Walk.treat_other hsample hcoarse hopened hgap)
  case openInterval =>
    intro n sum hopen hsum
    rw [w.addOpen_of_device hopen, Walk.addSum_eq hsum]
  case results =>
    rintro k snap w e rfl
    rfl

end Sys2Proof.Machine
end

