-- ==== Sys2Proof/Proofs/ClaimGather.lean ====
section
/-! PROOFS. CLAIM_GATHER: the bits of a mask cut to a range, their serving up to the first absent record, and the mask that
remains (R143 to R145). -/

namespace Sys2Proof.Machine

/-! ### The bits of a mask (R143, R144) -/

section
variable {base bottom top n q : Nat} {mask : Half}

theorem mem_namedBits : (n, q) ∈ namedBits base mask ↔ mask.getLsbD n = true ∧ q = base + n := by
  rw [namedBits, List.mem_filterMap]
  constructor
  · rintro ⟨i, -, hi⟩
    split at hi
    next hbit =>
      cases hi
      exact ⟨hbit, rfl⟩
    next => cases hi
  · rintro ⟨hbit, rfl⟩
    exact ⟨n, List.mem_range.mpr (BitVec.lt_of_getLsbD hbit), if_pos hbit⟩

theorem mem_cutBits : (n, q) ∈ cutBits base mask bottom top ↔
    mask.getLsbD n = true ∧ q = base + n ∧ bottom ≤ q ∧ q ≤ top ∧ q ≤ 4294967295 := by
  simp only [cutBits, List.mem_filter, mem_namedBits, Bool.and_eq_true, decide_eq_true_eq, and_assoc]

theorem namedBits_pairwise (base : Nat) (mask : Half) :
    (namedBits base mask).Pairwise fun a b => a.1 < b.1 ∧ a.2 < b.2 := by
  refine List.pairwise_lt_range.filterMap _ fun i j hij a ha b hb => ?_
  split at ha
  next =>
    split at hb
    next =>
      cases ha
      cases hb
      exact ⟨hij, Nat.add_lt_add_left hij base⟩
    next => cases hb
  next => cases ha

theorem cutBits_pairwise (base : Nat) (mask : Half) (bottom top : Nat) :
    (cutBits base mask bottom top).Pairwise fun a b => a.1 < b.1 ∧ a.2 < b.2 :=
  (namedBits_pairwise base mask).filter _

end

/-! ### Serving (R145) -/

theorem Log.recordAt_eq_none_iff {l : Log} {q : Nat} : l.recordAt q = none ↔ ∀ r ∈ l.records, r.sequence ≠ q := by
  simp only [Log.recordAt, List.find?_eq_none, beq_iff_eq, ne_eq]

theorem Log.of_recordAt {l : Log} {q : Nat} {r : LogRecord} (h : l.recordAt q = some r) :
    r ∈ l.records ∧ r.sequence = q :=
  ⟨List.mem_of_find?_eq_some h, by simpa using List.find?_some h⟩

section
variable {l : Log} {b : Nat × Nat} {rest : List (Nat × Nat)}

theorem Log.serve_present {r : LogRecord} (h : l.recordAt b.2 = some r) :
    l.serve (b :: rest) = (r :: (l.serve rest).1, (l.serve rest).2) := by
  simp only [Log.serve, h]

theorem Log.serve_absent (h : l.recordAt b.2 = none) : l.serve (b :: rest) = ([], b :: rest) := by
  simp only [Log.serve, h]

end

/-- What is delivered and what is left split the bits at the first absent sequence. -/
theorem Log.serve_split (l : Log) (bits : List (Nat × Nat)) : ∃ n, (l.serve bits).2 = bits.drop n ∧
    (l.serve bits).1.map (·.sequence) = (bits.take n).map (·.2) ∧ (∀ r ∈ (l.serve bits).1, r ∈ l.records) ∧
    ∀ b, (bits.drop n).head? = some b → ∀ r ∈ l.records, r.sequence ≠ b.2 := by
  induction bits with
  | nil => exact ⟨0, rfl, rfl, nofun, nofun⟩
  | cons b rest ih =>
    cases hrecord : l.recordAt b.2 with
    | none =>
      rw [Log.serve_absent hrecord]
      refine ⟨0, rfl, rfl, nofun, ?_⟩
      rintro _ ⟨⟩
      exact Log.recordAt_eq_none_iff.mp hrecord
    | some r =>
      obtain ⟨hmem, hseq⟩ := Log.of_recordAt hrecord
      obtain ⟨n, hleft, hserved, hall, hstop⟩ := ih
      rw [Log.serve_present hrecord]
      refine ⟨n + 1, hleft, ?_, List.forall_mem_cons.mpr ⟨hmem, hall⟩, hstop⟩
      rw [List.map_cons, hserved, hseq, List.take_succ_cons, List.map_cons]

/-! ### The mask that remains (R145) -/

/-- A mask of bits in ascending order has exactly their places set. -/
theorem testBit_bitsMask {bits : List (Nat × Nat)} (h : bits.Pairwise fun a b => a.1 < b.1 ∧ a.2 < b.2) (n : Nat) :
    (bitsMask bits).testBit n = true ↔ ∃ q, (n, q) ∈ bits := by
  have hsorted : (bits.map (·.1)).SortedLT :=
    List.Pairwise.sortedLT (List.pairwise_map.mpr (h.imp And.left))
  have hmask : bitsMask bits = ((bits.map (·.1)).map (2 ^ ·)).sum := by
    rw [List.map_map]
    rfl
  rw [hmask, ← Nat.mem_bitIndices, Nat.bitIndices_sum_map_two_pow hsorted]
  simp

/-- The mask of the bits left, as the reply carries it. -/
theorem getLsbD_remaining {base bottom top m : Nat} {mask : Half} (n : Nat) :
    (BitVec.ofNat 16 (bitsMask ((cutBits base mask bottom top).drop m))).getLsbD n = true ↔
      ∃ q, (n, q) ∈ (cutBits base mask bottom top).drop m := by
  rw [BitVec.getLsbD_ofNat, Bool.and_eq_true, decide_eq_true_eq,
    testBit_bitsMask ((cutBits_pairwise base mask bottom top).drop), and_iff_right_iff_imp]
  rintro ⟨q, hq⟩
  exact BitVec.lt_of_getLsbD (mem_cutBits.mp (List.mem_of_mem_drop hq)).1

/-- A two-byte field holds the low 16 bits of a number. -/
theorem le16_toNat_ofNat (n : Nat) : le16 (BitVec.ofNat 16 n).toNat = le16 n := by
  have hlow : BitVec.ofNat 8 (BitVec.ofNat 16 n).toNat = BitVec.ofNat 8 n :=
    BitVec.eq_of_toNat_eq (by simp only [BitVec.toNat_ofNat]; omega)
  have hhigh : BitVec.ofNat 8 ((BitVec.ofNat 16 n).toNat / 256) = BitVec.ofNat 8 (n / 256) :=
    BitVec.eq_of_toNat_eq (by simp only [BitVec.toNat_ofNat]; omega)
  rw [le16, le16, hlow, hhigh]

/-! ### The request (R143) -/

theorem State.rangeTop_eq_getD (s : State) (i : ClaimNo) :
    s.rangeTop i = (s.windowEnd i).getD (s.log.newest.getD 0) := by
  rw [State.rangeTop]
  cases s.windowEnd i <;> rfl

theorem State.rangeTop_eq {s : State} {i : ClaimNo} {top : Nat}
    (h : s.windowEnd i = some top ∨ (s.windowEnd i = none ∧ s.log.newest.getD 0 = top)) : s.rangeTop i = top := by
  rw [State.rangeTop_eq_getD]
  rcases h with hfixed | ⟨hopen, hnewest⟩
  · rw [hfixed, Option.getD_some]
  · rw [hopen, Option.getD_none, hnewest]

theorem State.gatherReply_eq {s : State} {i : ClaimNo} {k : Claim} {base : Word} {mask : Half} {top : Nat}
    {served : List LogRecord} {left : List (Nat × Nat)} (htop : s.rangeTop i = top)
    (hserve : s.log.serve (cutBits base.toNat mask k.requestedStart top) = (served, left)) :
    s.gatherReply i k base mask = ⟨if left = [] then .ok else .missing,
      seqField (left.head?.map (·.2)) ++ le32 k.requestedStart ++ le32 k.heldStart ++ le32 top ++ le16 (bitsMask left)
        ++ counted (served.map LogRecord.image)⟩ := by
  simp only [State.gatherReply, htop, hserve]
  cases left <;> rfl

/-- Settles O45: the cut mask by `mem_cutBits`, the serving by `Log.serve_split`, and the reply from both. -/
theorem gatherStopsAtTheFirstAbsent : Obligations.GatherStopsAtTheFirstAbsent := by
  unfold Obligations.GatherStopsAtTheFirstAbsent
  refine ⟨fun base bottom top mask => ⟨cutBits_pairwise base mask bottom top, fun n q => mem_cutBits⟩, Log.serve_split, ?_⟩
  rintro s tag ref base mask i k top bits left hs h0 h hk htop rfl rfl
  obtain ⟨m, hleft, -⟩ := s.log.serve_split (cutBits base.toNat mask k.requestedStart top)
  refine ⟨BitVec.ofNat 16 (bitsMask (s.log.serve (cutBits base.toNat mask k.requestedStart top)).2), fun n => ?_, ?_⟩
  · rw [hleft]
    exact getLsbD_remaining n
  · rw [le16_toNat_ofNat, ← State.gatherReply_eq (State.rangeTop_eq htop) rfl]
    exact State.submit_report (.claimGather ref base mask) hs (State.claimGather_found base mask h0 h hk)

end Sys2Proof.Machine
end

