-- ==== Sys2Proof/Proofs/ClaimAssessment.lean ====
section
/-! PROOFS. CLAIM_ASSESS with its snapshot, and the walk engine: one record examined, or the end of the walk (R149, R150,
R157). -/

namespace Sys2Proof.Machine

/-! ### The snapshot (R149) -/

theorem State.windowEnd_eq_bind (s : State) (i : ClaimNo) : s.windowEnd i = s.log.holds[i].bind (·.stop) := by
  rw [State.windowEnd]
  cases s.log.holds[i] <;> rfl

theorem State.openIncrement_of_fixed {s : State} {i : ClaimNo} {q : Nat} (c : CompNo) (h : s.windowEnd i = some q) :
    s.openIncrement i c = none := by
  simp only [State.openIncrement, h]

theorem State.openIncrement_of_open {s : State} {i : ClaimNo} (c : CompNo) (h : s.windowEnd i = none) :
    s.openIncrement i c = some ⟨s.comps[c].interval.increment, s.comps[c].interval.relative⟩ := by
  simp only [State.openIncrement, h]

/-! ### CLAIM_ASSESS (R149, R150) -/

section
variable {s : State} {ref : Word}

theorem State.claimAssess_zero : s.claimAssess 0 = (refuse .badValue, s) := if_pos rfl

theorem State.claimAssess_unknown (h0 : ref ≠ 0) (h : s.claimOf ref = none) :
    s.claimAssess ref = (refuse .unknown, s) := by
  simp only [State.claimAssess, if_neg h0, h, State.refusing]

variable {i : ClaimNo} {k : Claim} (h0 : ref ≠ 0) (h : s.claimOf ref = some i) (hk : s.claims.slots[i] = some k)
include h0 h hk

theorem State.claimAssess_busy (hassessing : k.assessing = true) : s.claimAssess ref = (refuse .busy, s) := by
  cases hphase : k.phase with
  | assessing snap w => simp only [State.claimAssess, if_neg h0, h, hk, hphase, State.refusing]
  | _ => simp [Claim.assessing, hphase] at hassessing

theorem State.claimAssess_accepted {snap : Snapshot} (hassessing : k.assessing = false)
    (hsnap : s.snapshot i s.slots[k.slot] = snap) : s.claimAssess ref =
    (okay (le32 snap.stop ++ le8 (sat8 (snap.stop + 1 - k.heldStart))), s.withClaims
      { s.claims with
        slots := setAt s.claims.slots i (some { k with phase := .assessing snap (startWalk k snap) }),
        queue := s.claims.queue ++ [i] }) := by
  cases hphase : k.phase with
  | assessing snap w => simp [Claim.assessing, hphase] at hassessing
  | _ =>
    simp only [State.claimAssess, if_neg h0, h, hk, hphase, hsnap]
    rfl

end

/-! ### The end of a walk (R157) -/

section
variable (s : State) (i : ClaimNo) (k : Claim) (snap : Snapshot) (w : Walk)

theorem gradeOf_addOpen : gradeOf k snap (w.addOpen snap) = gradeOf k snap w := by
  rw [gradeOf, gradeOf, Walk.addOpen_gaps]

/-- The part with the claim ASSESSED and out of the queue, before the record. -/
def State.claimAssessed (s : State) (i : ClaimNo) (k : Claim) (snap : Snapshot) (w : Walk) : State :=
  (s.setClaim i (some { k with phase := .assessed snap (resultsOf k snap (w.addOpen snap)) })).withQueue
    s.claims.queue.tail

/-- The CLAIM record of an assessment. -/
def State.assessEntry (s : State) (i : ClaimNo) (k : Claim) (snap : Snapshot) (w : Walk) : Entry :=
  claimEntry s.stampNow s.slots[k.slot].compartment .assessed k (s.windowEnd i)
    (some (verdictOf snap (gradeOf k snap w), gradeOf k snap w))

theorem State.endWalk_eq : s.endWalk i k snap w =
    ((s.claimAssessed i k snap w).handGeneral (s.assessEntry i k snap w)).raise .assessDone := by
  rw [State.assessEntry, ← gradeOf_addOpen]
  rfl

theorem State.endWalk_claims : (s.endWalk i k snap w).claims = { s.claims with
    slots := setAt s.claims.slots i
      (some { k with phase := .assessed snap (resultsOf k snap (w.addOpen snap)) }),
    queue := s.claims.queue.tail } := by
  rw [State.endWalk_eq]
  simp only [State.raise_frame, State.handGeneral_frame]
  rfl

theorem State.endWalk_records (hfate : s.log.generalFate = .appended) : (s.endWalk i k snap w).log.records =
    s.log.records ++ [s.log.recordOf (s.assessEntry i k snap w)] := by
  rw [State.endWalk_eq]
  simp only [State.raise_frame]
  exact State.handGeneral_records (s := s.claimAssessed i k snap w) hfate _

theorem State.endWalk_member (henabled : s.notices.enables[Condition.assessDone.place] = true) :
    (s.endWalk i k snap w).notices.members[Condition.assessDone.place] = true := by
  rw [State.endWalk_eq]
  exact NoticeUnit.raise_member _ (by rwa [State.handGeneral_enables])

end

/-! ### WALK_EXAMINATION (R150) -/

theorem exec_walkExamination {s : State} (hs : s.quiet) : exec .walkExamination s = .next s.examineNext.offer :=
  congrArg _ (State.happen_of_quiet (f := State.examineNext) hs (by simp))

theorem State.examineNext_nil {s : State} (h : s.claims.queue = []) : s.examineNext = s := by
  simp only [State.examineNext, h]

section
variable {s : State} {i : ClaimNo} {rest : List ClaimNo} {k : Claim} {snap : Snapshot} {w : Walk}
variable (hqueue : s.claims.queue = i :: rest) (hk : s.claims.slots[i] = some k) (hphase : k.phase = .assessing snap w)
include hqueue hk hphase

theorem State.examineNext_goesOn (h : w.position + 1 ≤ snap.stop) : s.examineNext =
    s.setClaim i (some { k with phase := .assessing snap (w.examine s.log snap) }) := by
  simp only [State.examineNext, hqueue, hk, hphase]
  exact if_neg (Nat.not_lt.mpr h)

theorem State.examineNext_ends (h : snap.stop < w.position + 1) :
    s.examineNext = s.endWalk i k snap (w.examine s.log snap) := by
  simp only [State.examineNext, hqueue, hk, hphase]
  exact if_pos h

end

/-- Settles O43: the request by its checks and its snapshot, the engine by whether the snapshot end is passed. -/
theorem claimIsAssessedByTheWalk : Obligations.ClaimIsAssessedByTheWalk := by
  unfold Obligations.ClaimIsAssessedByTheWalk
  refine ⟨?refused, ?found, ?engine⟩
  case refused =>
    intro s tag ref hs
    exact ⟨State.submit_report (.claimAssess 0) hs State.claimAssess_zero,
      fun h0 h => State.submit_report (.claimAssess ref) hs (State.claimAssess_unknown h0 h)⟩
  case found =>
    intro s tag ref i k hs h0 h hk
    refine ⟨fun hassessing => State.submit_report (.claimAssess ref) hs (State.claimAssess_busy h0 h hk hassessing), ?_⟩
    rintro hassessing x stop snap rfl hstop hsnap
    rw [← State.windowEnd_eq_bind] at hstop
    have htaken : s.snapshot i s.slots[k.slot] = snap := by
      rw [hsnap, State.snapshot, State.rangeTop_eq_getD, ← hstop]
      cases stop with
      | none => rw [State.openIncrement_of_open _ hstop.symm]; rfl
      | some q => rw [State.openIncrement_of_fixed _ hstop.symm]; rfl
    exact State.submit_of_ready (.claimAssess ref) hs (State.claimAssess_accepted h0 h hk hassessing htaken) rfl
  case engine =>
    intro s hs
    refine ⟨fun hqueue => ?idle, fun i rest k snap w hqueue hk hphase => ⟨fun hgoes => ?goesOn, fun hends => ?ends⟩⟩
    case idle => rw [exec_walkExamination hs, State.examineNext_nil hqueue]
    case goesOn =>
      rw [exec_walkExamination hs, State.examineNext_goesOn hqueue hk hphase hgoes]
      rfl
    case ends =>
      have hexec := exec_walkExamination hs
      rw [State.examineNext_ends hqueue hk hphase hends] at hexec
      refine ⟨_, hexec, ?_, fun hfate => ⟨s.log.recordOf (s.assessEntry i k snap (w.examine s.log snap)), _, _, ?_, rfl,
        rfl, rfl, rfl, rfl⟩, fun henabled => ?_⟩
      · rw [← List.tail_cons (a := i) (as := rest), ← hqueue]
        simpa only [State.offer_frame] using s.endWalk_claims i k snap _
      · simpa only [State.offer_frame] using s.endWalk_records i k snap _ hfate
      · rw [(State.offer_pending _).1]
        exact s.endWalk_member i k snap _ henabled

end Sys2Proof.Machine
end

