-- ==== Sys2Proof/Proofs/NoticeRules.lean ====
section
/-! PROOFS. The Notice Unit, one rule for each of its operations: a raise (R165), the removals of an enable write and of a
clear, and the conditions that arise from their truth (R164, R169). -/

namespace Sys2Proof.Machine

/-! ### A raise (R165) -/

section
variable {u : NoticeUnit} {k : Fin 18}

/-- A raise is dropped while the enable is clear. -/
theorem NoticeUnit.raise_of_disabled (h : u.enables[k] = false) : u.raise k = u := by
  rw [NoticeUnit.raise, h]
  rfl

/-- An enabled condition that is not pending joins the pending set. -/
theorem NoticeUnit.raise_of_absent (he : u.enables[k] = true) (hm : u.members[k] = false) : u.raise k =
    { u with
      members := setAt u.members k true, fresh := setAt u.fresh k true, counts := setAt u.counts k 1, owed := true
      alert := true } := by
  rw [NoticeUnit.raise, he, hm]
  rfl

/-- A pending condition is counted once more. -/
theorem NoticeUnit.raise_of_pending (he : u.enables[k] = true) (hm : u.members[k] = true) :
    u.raise k = { u with counts := setAt u.counts k (min (u.counts[k] + 1) 255) } := by
  rw [NoticeUnit.raise, he, hm]
  rfl

end

/-- Settles O47, by the three equations of a raise. -/
theorem raiseByEnableAndPending : Obligations.RaiseByEnableAndPending := by
  intro u k
  refine ⟨NoticeUnit.raise_of_disabled, fun he hm => ?_, NoticeUnit.raise_of_pending⟩
  rw [NoticeUnit.raise_of_absent he hm]
  exact ⟨rfl, rfl, rfl, rfl, rfl, rfl⟩

/-! ### The conditions and their places (R164, Table 8-1) -/

theorem Condition.all_places : Condition.all.map Condition.place = places 18 := by decide

theorem Condition.mem_all (c : Condition) : c ∈ Condition.all := by
  cases c with
  | hatch i => revert i; decide
  | _ => decide

theorem Condition.all_nodup : Condition.all.Nodup := by decide

theorem Condition.place_inj {c d : Condition} : c.place = d.place ↔ c = d := by
  refine ⟨fun h => ?_, congrArg _⟩
  have hnodup : (Condition.all.map Condition.place).Nodup := Condition.all_places ▸ List.nodup_finRange 18
  exact List.inj_on_of_nodup_map hnodup c.mem_all d.mem_all h

theorem Condition.exists_place (k : Fin 18) : ∃ c : Condition, c.place = k := by
  have hk : k ∈ Condition.all.map Condition.place := Condition.all_places ▸ List.mem_finRange k
  obtain ⟨c, -, hc⟩ := List.mem_map.mp hk
  exact ⟨c, hc⟩

/-! ### Removals of several conditions (R164, R169) -/

/-- The Notice Unit after the conditions of a list have left the pending set. -/
def NoticeUnit.dropAll (u : NoticeUnit) : List Condition → NoticeUnit
  | [] => u
  | c :: rest => (u.drop c.place).dropAll rest

section
variable (u : NoticeUnit) (l : List Condition) (c : Condition)

theorem NoticeUnit.dropAll_enables : (u.dropAll l).enables = u.enables := by
  induction l generalizing u with
  | nil => rfl
  | cons d l ih => exact ih _

theorem NoticeUnit.dropAll_members :
    (u.dropAll l).members[c.place] = (u.members[c.place] && !decide (c ∈ l)) := by
  induction l generalizing u with
  | nil => simp [NoticeUnit.dropAll]
  | cons d l ih =>
    rw [NoticeUnit.dropAll, ih, NoticeUnit.drop, getElem_setAt]
    by_cases hd : d = c
    · simp [hd]
    · simp [hd, Ne.symm hd, Condition.place_inj]

theorem NoticeUnit.dropAll_counts : (u.dropAll l).counts[c.place] = if c ∈ l then 0 else u.counts[c.place] := by
  induction l generalizing u with
  | nil => simp [NoticeUnit.dropAll]
  | cons d l ih =>
    rw [NoticeUnit.dropAll, ih, NoticeUnit.drop, getElem_setAt]
    by_cases hd : d = c
    · simp [hd]
    · simp [hd, Ne.symm hd, Condition.place_inj]

/-- The removals of an enable write are those of the enabled conditions that its mask disables (R164). -/
theorem State.writeEnables_eq (s : State) (mask : Word) : s.writeEnables mask l = s.withNotices
    { s.notices.dropAll (l.filter fun c => s.notices.enables[c.place] && !inMask mask c) with
      enables := enablesOf mask } := by
  induction l generalizing s with
  | nil => rfl
  | cons d l ih =>
    rw [State.writeEnables, ih, List.filter_cons]
    split <;> rfl

/-- The removals of a clear are those of the conditions that its mask names (R169). -/
theorem State.dropNamed_eq (s : State) (mask : Word) :
    s.dropNamed mask l = s.withNotices (s.notices.dropAll (l.filter (inMask mask))) := by
  induction l generalizing s with
  | nil => rfl
  | cons d l ih =>
    rw [State.dropNamed, ih, List.filter_cons]
    split <;> rfl

/-! ### Conditions that arise from their truth (R164, R169) -/

theorem State.truth_congr {s t : State} (hhatch : t.hatch = s.hatch) (hcomps : t.comps = s.comps) (hlog : t.log = s.log)
    (hclock : t.clock = s.clock) : t.truth c = s.truth c := by
  cases c <;> simp only [State.truth, hhatch, hcomps, hlog, hclock]

variable {l} in
/-- A condition of the list is raised once where its truth holds, and no other. -/
theorem State.raiseTrue_sameAt (s : State) (hl : l.Nodup) : NoticeUnit.SameAt c.place (s.raiseTrue l).notices
    (s.notices.raiseMany c.place (decide (c ∈ l) && s.truth c).toNat) := by
  induction l generalizing s with
  | nil => exact ⟨rfl, rfl, rfl⟩
  | cons d l ih =>
    obtain ⟨hd, hl⟩ := List.nodup_cons.mp hl
    have hrest := ih (s.raiseIf (s.truth d) d) hl
    have htruth : (s.raiseIf (s.truth d) d).truth c = s.truth c :=
      State.truth_congr c (by simp) (by simp) (by simp) (by simp)
    rw [htruth, State.raiseIf_notices] at hrest
    refine hrest.trans ?_
    by_cases hc : c = d
    · subst hc
      simp only [hd, List.mem_cons, true_or, decide_false, decide_true, Bool.false_and, Bool.true_and]
      exact ⟨rfl, rfl, rfl⟩
    · simp only [List.mem_cons, hc, false_or]
      exact NoticeUnit.SameAt.raiseMany (NoticeUnit.sameAt_raiseMany_other _ _ (mt Condition.place_inj.mp hc)) _

/-- Raises change nothing but the Notice Unit. -/
theorem State.raiseTrue_eq (s : State) : s.raiseTrue l = s.withNotices (s.raiseTrue l).notices := by
  induction l generalizing s with
  | nil => rfl
  | cons d l ih =>
    rw [State.raiseTrue, ih]
    unfold State.raiseIf
    split <;> rfl

end

end Sys2Proof.Machine
end

