-- ==== Sys2Proof/Proofs/NoticeRequests.lean ====
section
/-! PROOFS. NOTICE_ENABLE and NOTICE_CLEAR (R164, R169), with the masks they read and reply with. -/

namespace Sys2Proof.Machine

/-! ### Masks (R164) -/

theorem flagsField_lt (l : List Bool) : flagsField l < 2 ^ l.length := by
  induction l with
  | nil => decide
  | cons b l ih =>
    rw [flagsField, List.length_cons, Nat.pow_succ]
    split <;> omega

theorem flagsField_testBit (l : List Bool) (k : Nat) : (flagsField l).testBit k = l.getD k false := by
  induction l generalizing k with
  | nil => simp [flagsField]
  | cons b l ih =>
    cases k with
    | zero => cases b <;> simp [flagsField, Nat.testBit_zero, Nat.add_mod]
    | succ k =>
      have hhalf : flagsField (b :: l) / 2 = flagsField l := by
        rw [flagsField]
        split <;> omega
      rw [Nat.testBit_succ, hhalf, ih, List.getD_cons_succ]

theorem maskOf_lt (v : Vector Bool 18) : maskOf v < 2 ^ 18 := by
  simpa [maskOf] using flagsField_lt v.toList

theorem maskOf_testBit (v : Vector Bool 18) (k : Fin 18) : (maskOf v).testBit k.val = v[k] := by
  simp [maskOf, flagsField_testBit]

theorem conditionMask_testBit (l : List Condition) (c : Condition) :
    (conditionMask l).testBit c.place.val = decide (c ∈ l) := by
  rw [conditionMask, maskOf_testBit, Fin.getElem_fin, Vector.getElem_ofFn, Bool.eq_iff_iff, List.any_eq_true]
  simp [Condition.place_inj]

theorem getElem_enablesOf (mask : Word) (k : Fin 18) : (enablesOf mask)[k] = mask.getLsbD k.val := by
  simp [enablesOf]

theorem maskTooWide_of_le {mask : Word} (h : 2 ^ 18 ≤ mask.toNat) : maskTooWide mask = true := decide_eq_true h

theorem maskTooWide_of_lt {mask : Word} (h : mask.toNat < 2 ^ 18) : maskTooWide mask = false :=
  decide_eq_false (Nat.not_le.mpr h)

/-! ### NOTICE_ENABLE (R164) -/

section
variable (s : State) (mask : Word) (c : Condition)

/-- The part once an enable write has removed what it disables and raised what it enables (R164). -/
def State.enablesWritten : State := (s.writeEnables mask Condition.all).raiseTrue (s.newlyEnabled mask)

theorem State.applyEnables_eq : s.applyEnables mask =
    (s.enablesWritten mask).recordedUnless (s.notices.enables = enablesOf mask) (.notice (enablesOf mask)) := rfl

theorem State.newlyEnabled_nodup : (s.newlyEnabled mask).Nodup := Condition.all_nodup.filter _

theorem State.mem_newlyEnabled : decide (c ∈ s.newlyEnabled mask) = (!s.notices.enables[c.place] && inMask mask c) := by
  simp [State.newlyEnabled, c.mem_all, -Fin.getElem_fin]

/-- In order, a condition that is pending is enabled, so what stays pending is what the mask leaves enabled. -/
theorem NoticeUnit.ok.members_left {u : NoticeUnit} (h : u.ok) :
    (u.dropAll (Condition.all.filter fun c => u.enables[c.place] && !inMask mask c)).members[c.place] =
      (inMask mask c && u.members[c.place]) := by
  have henabled := (h.2 c.place).1
  rw [NoticeUnit.dropAll_members]
  cases hm : u.members[c.place] with
  | false => rw [Bool.false_and, Bool.and_false]
  | true => simp [henabled hm, c.mem_all, -Fin.getElem_fin]

variable {s} in
theorem State.writeEnables_members (h : s.notices.ok) : (s.writeEnables mask Condition.all).notices.members[c.place] =
    (inMask mask c && s.notices.members[c.place]) := by
  rw [State.writeEnables_eq, State.withNotices_notices]
  exact h.members_left mask c

theorem State.writeEnables_enables : (s.writeEnables mask Condition.all).notices.enables = enablesOf mask := by
  rw [State.writeEnables_eq]
  rfl

theorem State.enablesWritten_sameAt : NoticeUnit.SameAt c.place (s.enablesWritten mask).notices
    ((s.writeEnables mask Condition.all).notices.raiseMany c.place
      (!s.notices.enables[c.place] && inMask mask c && s.truth c).toNat) := by
  have htruth : (s.writeEnables mask Condition.all).truth c = s.truth c :=
    State.truth_congr c (by simp) (by simp) (by simp) (by simp)
  rw [← s.mem_newlyEnabled, ← htruth]
  exact State.raiseTrue_sameAt c _ (s.newlyEnabled_nodup mask)

theorem State.enablesWritten_enables (k : Fin 18) : (s.enablesWritten mask).notices.enables[k] = mask.getLsbD k.val := by
  obtain ⟨c, rfl⟩ := Condition.exists_place k
  obtain ⟨henables, -, -⟩ := s.enablesWritten_sameAt mask c
  rw [henables, NoticeUnit.raiseMany_enables, State.writeEnables_enables, getElem_enablesOf]

theorem State.enablesWritten_log : (s.enablesWritten mask).log = s.log := by
  simp [State.enablesWritten]

theorem State.enablesWritten_stampNow : (s.enablesWritten mask).stampNow = s.stampNow :=
  (State.stampNow_of_clock (by simp [State.enablesWritten])).1

variable {s} in
theorem State.enablesWritten_members (h : s.notices.ok) : (s.enablesWritten mask).notices.members[c.place] =
    (inMask mask c && (s.notices.members[c.place] || (!s.notices.enables[c.place] && s.truth c))) := by
  obtain ⟨-, hmembers, -⟩ := s.enablesWritten_sameAt mask c
  rw [hmembers, NoticeUnit.raiseMany_toNat_members, State.writeEnables_members mask c h, State.writeEnables_enables,
    getElem_enablesOf, inMask]
  cases mask.getLsbD c.place.val <;> simp [-Fin.getElem_fin]

/-- The CONFIG record of a change raises LOG_HELD where the log enters HELD_FULL with it (R79). -/
theorem State.applyEnables_notices : (s.applyEnables mask).notices =
    (s.enablesWritten mask).notices.raiseMany Condition.logHeld.place
      (decide (s.notices.enables ≠ enablesOf mask ∧ s.log.generalFate = .entering)).toNat := by
  rw [State.applyEnables_eq, State.recordedUnless]
  by_cases hsame : s.notices.enables = enablesOf mask
  · rw [if_pos hsame, decide_eq_false fun h => h.1 hsame]
    rfl
  · rw [if_neg hsame, State.handConfig, State.handGeneral_notices, State.enablesWritten_log]
    simp only [ne_eq, hsame, not_false_eq_true, true_and]

variable {s} in
theorem State.applyEnables_members (h : s.notices.ok) : (s.applyEnables mask).notices.members[c.place] =
    (inMask mask c && (s.notices.members[c.place] || (!s.notices.enables[c.place] && s.truth c) ||
      decide (c = .logHeld ∧ s.notices.enables ≠ enablesOf mask ∧ s.log.generalFate = .entering))) := by
  rw [State.applyEnables_notices, NoticeUnit.raiseMany_members_at, State.enablesWritten_members mask c h,
    State.enablesWritten_enables, ← inMask, ← Bool.and_or_distrib_left, ← Bool.decide_and]
  simp only [Condition.place_inj]

theorem State.applyEnables_enables (k : Fin 18) : (s.applyEnables mask).notices.enables[k] = mask.getLsbD k.val := by
  rw [State.applyEnables_notices, NoticeUnit.raiseMany_enables, State.enablesWritten_enables]

theorem State.applyEnables_log : (s.applyEnables mask).log = if s.notices.enables = enablesOf mask then s.log
    else (s.handGeneral { stamp := s.stampNow, compartment := none, body := .config (.notice (enablesOf mask)) }).log := by
  rw [State.applyEnables_eq, State.recordedUnless_log, State.enablesWritten_log, State.enablesWritten_stampNow]
  exact if_congr Iff.rfl rfl (State.handGeneral_log (s.enablesWritten_log mask) _)

/-- A record under other with which the log enters HELD_FULL is lost (R79, R82). -/
theorem State.handGeneral_entering {s : State} {e : Entry} (hfate : s.log.generalFate = .entering) (hbody : e.body.isOther) :
    (s.handGeneral e).log = { s.log with
      heldFull := true, heldSince := some (s.log.heldSince.getD e.stamp), otherLost := min (s.log.otherLost + 1) 65535 } := by
  rw [State.handGeneral, hfate]
  dsimp only
  rw [State.fallBack_of_other _ hbody.ne_sample, State.loseGeneral_other _ hbody, State.withLog_log, State.enterHeldFull_log]

theorem State.noticeEnable_of_fits {mask : Word} (h : mask.toNat < 2 ^ 18) : s.noticeEnable mask =
    (okay (le32 (maskOf (s.applyEnables mask).notices.enables) ++ le32 (maskOf (s.applyEnables mask).notices.members)),
      s.applyEnables mask) := by
  rw [State.noticeEnable, maskTooWide_of_lt h]
  rfl

theorem State.noticeEnable_badValue {mask : Word} (h : 2 ^ 18 ≤ mask.toNat) :
    s.noticeEnable mask = (refuse .badValue, s) := if_pos (maskTooWide_of_le h)

/-! ### NOTICE_CLEAR (R169) -/

theorem State.rearising_nodup : (s.rearising mask).Nodup := (Condition.all_nodup.filter _).filter _

/-- Whether a condition re-arises in a clear (R169 step 2). -/
def State.rearises : Bool := inMask mask c && s.notices.members[c.place] && s.truth c && s.notices.enables[c.place]

theorem State.mem_rearising : decide (c ∈ s.rearising mask) = s.rearises mask c := by
  rw [Bool.eq_iff_iff]
  simp only [State.rearising, State.removedBy, State.rearises, List.mem_filter, c.mem_all, true_and, Bool.and_eq_true,
    decide_eq_true_eq, and_assoc]

/-- A clear changes nothing but the Notice Unit. -/
theorem State.applyClear_eq : s.applyClear mask = s.withNotices (s.applyClear mask).notices := by
  rw [State.applyClear, State.raiseTrue_eq, State.dropNamed_eq]
  rfl

theorem State.dropNamed_at : (s.dropNamed mask Condition.all).notices.enables = s.notices.enables ∧
    (s.dropNamed mask Condition.all).notices.members[c.place] = (s.notices.members[c.place] && !inMask mask c) ∧
    (s.dropNamed mask Condition.all).notices.counts[c.place] = if inMask mask c then 0 else s.notices.counts[c.place] := by
  rw [State.dropNamed_eq, State.withNotices_notices, NoticeUnit.dropAll_enables, NoticeUnit.dropAll_members,
    NoticeUnit.dropAll_counts]
  simp [c.mem_all, -Fin.getElem_fin]

theorem State.applyClear_sameAt : NoticeUnit.SameAt c.place (s.applyClear mask).notices
    ((s.dropNamed mask Condition.all).notices.raiseMany c.place (s.rearises mask c).toNat) := by
  have htruth : (s.dropNamed mask Condition.all).truth c = s.truth c :=
    State.truth_congr c (by simp) (by simp) (by simp) (by simp)
  have hsame := State.raiseTrue_sameAt c (s.dropNamed mask Condition.all) (s.rearising_nodup mask)
  rw [htruth, State.mem_rearising] at hsame
  have hbool : (s.rearises mask c && s.truth c) = s.rearises mask c := by
    rw [State.rearises]
    cases s.truth c <;> simp [-Fin.getElem_fin]
  rwa [hbool] at hsame

theorem State.applyClear_enables : (s.applyClear mask).notices.enables = s.notices.enables := by
  refine Vector.ext fun i hi => ?_
  obtain ⟨c, hc⟩ := Condition.exists_place ⟨i, hi⟩
  obtain ⟨henables, -, -⟩ := s.applyClear_sameAt mask c
  obtain ⟨hkept, -, -⟩ := s.dropNamed_at mask c
  rw [NoticeUnit.raiseMany_enables, hkept, hc] at henables
  exact henables

variable {s mask c} in
/-- A condition that the mask leaves alone stays. -/
theorem State.applyClear_unnamed (h : inMask mask c = false) :
    (s.applyClear mask).notices.members[c.place] = s.notices.members[c.place] ∧
      (s.applyClear mask).notices.counts[c.place] = s.notices.counts[c.place] := by
  obtain ⟨-, hmembers, hcounts⟩ := s.applyClear_sameAt mask c
  obtain ⟨-, hdropped, hcount⟩ := s.dropNamed_at mask c
  rw [hmembers, hcounts, State.rearises, h, NoticeUnit.raiseMany_members, NoticeUnit.raiseMany_counts, hdropped, hcount,
    h]
  simp [-Fin.getElem_fin]

variable {s mask c} in
/-- A condition that the mask names is pending after the clear where it re-arose, with count 1. -/
theorem State.applyClear_named (h : inMask mask c = true) :
    (s.applyClear mask).notices.members[c.place] =
      (s.notices.members[c.place] && s.truth c && s.notices.enables[c.place]) ∧
    (s.applyClear mask).notices.counts[c.place] = if (s.applyClear mask).notices.members[c.place] = true then 1 else 0 := by
  obtain ⟨-, hmembers, hcounts⟩ := s.applyClear_sameAt mask c
  obtain ⟨henables, hdropped, hcount⟩ := s.dropNamed_at mask c
  have hrises : (s.notices.members[c.place] && s.truth c && s.notices.enables[c.place]) = s.rearises mask c := by
    rw [State.rearises, h, Bool.true_and]
  rw [hmembers, hcounts, hrises, NoticeUnit.raiseMany_toNat_members, NoticeUnit.raiseMany_counts, henables, hdropped,
    hcount, h]
  cases hrise : s.rearises mask c with
  | false => simp
  | true => simp [(Bool.and_eq_true_iff.mp hrise).2, -Fin.getElem_fin]

theorem State.noticeClear_badValue {mask : Word} (h : 2 ^ 18 ≤ mask.toNat) :
    s.noticeClear mask = (refuse .badValue, s) := if_pos (maskTooWide_of_le h)

theorem State.noticeClear_of_fits {mask : Word} (h : mask.toNat < 2 ^ 18) : s.noticeClear mask =
    (okay (le32 (maskOf (s.applyClear mask).notices.members) ++ le32 (conditionMask (s.rearising mask))),
      s.withNotices (s.applyClear mask).notices) := by
  rw [← State.applyClear_eq, State.noticeClear, maskTooWide_of_lt h]
  rfl

end

/-- Settles O48: an enable write by the pending set that its removals, raises and record leave (`applyEnables_members`), a
clear condition by condition (`applyClear_unnamed`, `applyClear_named`). -/
theorem enableAndClear : Obligations.EnableAndClear := by
  unfold Obligations.EnableAndClear
  intro s tag mask hs
  refine ⟨fun h => ⟨State.submit_report (.noticeEnable mask) hs (s.noticeEnable_badValue h),
    State.submit_report (.noticeClear mask) hs (s.noticeClear_badValue h)⟩, fun h hok => ?_, fun h => ?_⟩
  · have hlog := s.applyEnables_log mask
    refine ⟨s.applyEnables mask, State.submit_of_ready (.noticeEnable mask) hs (s.noticeEnable_of_fits h) (by simp),
      s.applyEnables_enables mask, fun c => State.applyEnables_members mask c hok, fun hsame => ?_, fun hchange => ?_,
      fun hchange hfate => ?_, fun hchange hfate => ?_, by simp, by simp, by simp⟩
    · rw [hlog, if_pos hsame]
    · rw [hlog, if_neg hchange]
    · rw [hlog, if_neg hchange, State.handGeneral_entering hfate (.inl ⟨_, rfl⟩)]
    · rw [hlog, if_neg hchange, State.handGeneral_appended hfate]
      exact ⟨_, rfl, rfl, rfl, rfl⟩
  · have hmask : conditionMask (s.rearising mask) < 2 ^ 18 := maskOf_lt _
    have hagain : (BitVec.ofNat 32 (conditionMask (s.rearising mask))).toNat = conditionMask (s.rearising mask) :=
      Nat.mod_eq_of_lt (hmask.trans (by decide))
    refine ⟨(s.applyClear mask).notices, BitVec.ofNat 32 (conditionMask (s.rearising mask)),
      State.submit_of_ready (.noticeClear mask) hs ?_ rfl, s.applyClear_enables mask, ?_, fun c => ⟨?_,
        State.applyClear_unnamed, State.applyClear_named⟩⟩
    · rw [hagain]
      exact s.noticeClear_of_fits h
    · rwa [hagain]
    · rw [← BitVec.testBit_toNat, hagain, conditionMask_testBit, State.mem_rearising]
      rfl

end Sys2Proof.Machine
end

