-- ==== Sys2Proof/Proofs/NoticesInOrder.lean ====
section
/-! PROOFS. Every step keeps the Notice Unit in order: raises and removals do, a block operation that is none of start-up,
the loss of the supply and the two notice requests only raises, and `Preserved.step` carries that to steps (R164 to R169,
R171, R173). -/

namespace Sys2Proof.Machine

/-! ### Raises, removals and notices (R165, R167, R169, R171, R173) -/

section
variable {u : NoticeUnit} {k : Fin 18}

theorem NoticeUnit.anyPending_of_member (h : u.members[k] = true) : u.anyPending = true :=
  (anyAt_iff _ _).mpr ⟨k, h⟩

theorem NoticeUnit.ok.raise (h : u.ok) (k : Fin 18) : (u.raise k).ok := by
  obtain ⟨halert, hplace⟩ := h
  cases he : u.enables[k] with
  | false => rw [NoticeUnit.raise_of_disabled he]; exact ⟨halert, hplace⟩
  | true =>
    cases hm : u.members[k] with
    | true =>
      rw [NoticeUnit.raise_of_pending he hm]
      refine ⟨halert, fun j => ?_⟩
      obtain ⟨henabled, hfresh, hcount, hmost⟩ := hplace j
      refine ⟨henabled, hfresh, ?_, ?_⟩
      · rw [getElem_setAt]
        split
        next hkj => subst hkj; simp [hm, -Fin.getElem_fin]
        next => exact hcount
      · rw [getElem_setAt]
        split
        next => exact Nat.min_le_right _ _
        next => exact hmost
    | false =>
      rw [NoticeUnit.raise_of_absent he hm]
      refine ⟨(NoticeUnit.anyPending_of_member (k := k) (getElem_setAt_self _ _ _)).symm, fun j => ?_⟩
      by_cases hkj : k = j
      · subst hkj
        simp [he, -Fin.getElem_fin]
      · simpa [hkj, -Fin.getElem_fin] using hplace j

theorem NoticeUnit.ok.raiseMany (h : u.ok) (k : Fin 18) (n : Nat) : (u.raiseMany k n).ok := by
  induction n generalizing u with
  | zero => exact h
  | succ n ih => exact ih (h.raise k)

theorem NoticeUnit.ok.drop (h : u.ok) (k : Fin 18) : (u.drop k).ok := by
  refine ⟨rfl, fun j => ?_⟩
  by_cases hkj : k = j
  · subst hkj
    simp [NoticeUnit.drop, -Fin.getElem_fin]
  · simpa [NoticeUnit.drop, hkj, -Fin.getElem_fin] using h.2 j

/-- An empty pending set with ALERT released is in order under any enables (R173). -/
theorem NoticeUnit.ok_emptied (u : NoticeUnit) : u.emptied.ok := by
  refine ⟨by simp [NoticeUnit.anyPending, NoticeUnit.emptied, anyAt], fun j => ?_⟩
  simp [NoticeUnit.emptied]

theorem NoticeUnit.ok.taken (h : u.ok) : u.taken.ok := by
  obtain ⟨halert, hplace⟩ := h
  refine ⟨halert, fun j => ?_⟩
  obtain ⟨henabled, -, hcount, hmost⟩ := hplace j
  exact ⟨henabled, by simp [NoticeUnit.taken], hcount, hmost⟩

end

/-! ### What the blocks share: raises and records -/

/-- The Notice Unit of the part is in order. -/
def State.noticesOk (s : State) : Prop := s.notices.ok

section
variable {s : State}

theorem State.noticesOk.of_frame {t : State} (h : s.noticesOk) (hnotices : t.notices = s.notices := by simp) :
    t.noticesOk := by
  rw [State.noticesOk, hnotices]
  exact h

theorem State.noticesOk.raise (h : s.noticesOk) (c : Condition) : (s.raise c).noticesOk := NoticeUnit.ok.raise h _

theorem State.noticesOk.raiseIf (h : s.noticesOk) (b : Bool) (c : Condition) : (s.raiseIf b c).noticesOk := by
  rw [State.noticesOk, State.raiseIf_notices]
  exact NoticeUnit.ok.raiseMany h _ _

theorem State.noticesOk.handGeneral (h : s.noticesOk) (e : Entry) : (s.handGeneral e).noticesOk := by
  rw [State.noticesOk, State.handGeneral_notices]
  exact NoticeUnit.ok.raiseMany h _ _

theorem State.noticesOk.handConfig (h : s.noticesOk) (c : Option CompNo) (change : ConfigChange) :
    (s.handConfig c change).noticesOk := h.handGeneral _

theorem State.noticesOk.enterHeldFull (h : s.noticesOk) (t : Stamp) : (s.enterHeldFull t).noticesOk :=
  State.noticesOk.raise (s := s.withLog _) h _

theorem State.noticesOk.handCustody (h : s.noticesOk) (e : Entry) : (s.handCustody e).noticesOk := by
  unfold State.handCustody
  split
  · exact h.of_frame
  · exact h.of_frame
  · dsimp only
    split
    · exact h
    · exact State.noticesOk.enterHeldFull h.of_frame _

theorem State.noticesOk.recoverGap (h : s.noticesOk) : s.recoverGap.noticesOk := by
  unfold State.recoverGap
  dsimp only
  split
  · exact (h.handGeneral s.gapEntry).of_frame
  · exact h.handGeneral _

theorem State.noticesOk.recover (h : s.noticesOk) (l : List CompNo) : (s.recover l).noticesOk := by
  induction l generalizing s with
  | nil =>
    unfold State.recover
    split
    · exact h
    · exact h.recoverGap
  | cons c l ih =>
    unfold State.recover
    split
    · exact h
    split
    next => exact ih h
    next a _ =>
      dsimp only
      split
      · exact ih ((h.handGeneral (a.entry c)).of_frame)
      · exact h.handGeneral _

theorem State.noticesOk.releaseHold (h : s.noticesOk) (i : ClaimNo) : (s.releaseHold i).noticesOk := by
  unfold State.releaseHold
  dsimp only
  split
  · exact State.noticesOk.recover h.of_frame _
  · exact h

/-! ### Compartments and scanner (R12, R17, R28, R33, R34, R38, R43, R64) -/

theorem State.noticesOk.closeInterval (h : s.noticesOk) (c : CompNo) (t : Stamp) : (s.closeInterval c t).noticesOk := by
  rw [State.noticesOk, State.closeInterval_notices]
  exact NoticeUnit.ok.raiseMany h _ _

theorem State.noticesOk.takeStep (h : s.noticesOk) (c : CompNo) (cause : StepCause) : (s.takeStep c cause).noticesOk := by
  rw [State.noticesOk, State.takeStep_notices]
  exact (((NoticeUnit.ok.raiseMany h _ _).raiseMany _ _).raiseMany _ _).raiseMany _ _

theorem State.noticesOk.stepComp (h : s.noticesOk) (c : CompNo) (cause : StepCause) : (s.stepComp c cause).noticesOk := by
  rw [State.stepComp]
  split
  · exact h.takeStep c cause
  · exact h

theorem State.noticesOk.stepAll (h : s.noticesOk) (causeOf : CompNo → StepCause) (l : List CompNo) :
    (s.stepAll causeOf l).noticesOk := by
  induction l generalizing s with
  | nil => exact h
  | cons c l ih => exact ih (h.stepComp c _)

theorem State.noticesOk.endCycle (h : s.noticesOk) (ending : CycleEnding) (next : ScanState) :
    (s.endCycle ending next).noticesOk := h.stepAll _ _

theorem State.noticesOk.takeUp (h : s.noticesOk) (l : List EntryNo) : (s.takeUp l).noticesOk := by
  induction l generalizing s with
  | nil => exact h.endCycle _ _
  | cons i l ih =>
    rw [State.takeUp]
    split
    · exact ih (s := s.passOver i) h
    · exact h

theorem State.noticesOk.moveOn (h : s.noticesOk) (i : EntryNo) : (s.moveOn i).noticesOk := by
  rw [State.moveOn]
  split
  · exact h.endCycle _ _
  · exact h.takeUp _

theorem State.noticesOk.endReadValid (h : s.noticesOk) (r : ReadInFlight) (raw : Int) : (s.endReadValid r raw).noticesOk := by
  rw [State.endReadValid_eq raw rfl]
  exact State.noticesOk.moveOn h.of_frame _

theorem State.noticesOk.endReadFailed (h : s.noticesOk) (r : ReadInFlight) (o : ReadOutcome) :
    (s.endReadFailed r o).noticesOk := by
  rw [State.endReadFailed_eq o rfl]
  exact (State.noticesOk.raiseIf h.of_frame _ _).moveOn _

theorem State.noticesOk.probeAnswer (h : s.noticesOk) (raw : Int) (good : Bool) : (s.probeAnswer raw good).noticesOk := by
  unfold State.probeAnswer
  split
  · split
    · split
      · exact h.endReadValid _ raw
      · exact h.endReadFailed _ _
    · exact h
  · exact h

theorem State.noticesOk.answerWindowExpiry (h : s.noticesOk) : s.answerWindowExpiry.noticesOk := by
  unfold State.answerWindowExpiry
  split
  · split
    · exact h.endReadFailed _ _
    · exact h
  · exact h

theorem State.noticesOk.fallTick (h : s.noticesOk) : s.fallTick.noticesOk := by
  rw [State.fallTick, State.takeTick]
  split
  · exact State.noticesOk.takeUp (s := (s.updScan _).updScan _) h _
  · exact h
  · exact h
  · exact State.noticesOk.stepAll (s := s.updScan _) h _ _

theorem State.noticesOk.scanStop (h : s.noticesOk) : s.scanStop.2.noticesOk := by
  unfold State.scanStop
  split
  · exact h.endCycle _ _
  · exact h.endCycle _ _
  · exact h
  · exact h

theorem State.noticesOk.applyComp (h : s.noticesOk) (c : CompNo) (new : CompSettings) : (s.applyComp c new).noticesOk := by
  obtain ⟨m, n, hnotices⟩ := State.applyComp_notices (s := s) (c := c) (new := new)
  rw [State.noticesOk, hnotices]
  exact (((NoticeUnit.ok.raiseMany h _ _).raiseMany _ _).raiseMany _ _).raiseMany _ _

theorem State.noticesOk.compartmentSet (h : s.noticesOk) (compartment enabled : Byte) (threshold softLine limit : Half) :
    (s.compartmentSet compartment enabled threshold softLine limit).2.noticesOk := by
  unfold State.compartmentSet
  split
  · dsimp only
    split
    · exact h
    split
    · exact h
    · exact h.applyComp _ _
  · exact h

theorem State.noticesOk.logIntervalSet (h : s.noticesOk) (interval : Byte) : (s.logIntervalSet interval).2.noticesOk := by
  unfold State.logIntervalSet
  dsimp only
  split
  · exact h
  · exact State.noticesOk.handConfig h.of_frame _ _

/-! ### Contacts (R51, R52, R56, R58, R63, R64, R66) -/

theorem State.noticesOk.evaluatePattern (h : s.noticesOk) : s.evaluatePattern.noticesOk := by
  rw [State.noticesOk, State.evaluatePattern_notices]
  exact NoticeUnit.ok.raiseMany h _ _

theorem State.noticesOk.evaluateIfMember (h : s.noticesOk) (i : InputNo) : (s.evaluateIfMember i).noticesOk := by
  rw [State.evaluateIfMember]
  split
  · exact h.evaluatePattern
  · exact h

theorem State.noticesOk.takeChange (h : s.noticesOk) (i : InputNo) (new : Settled) : (s.takeChange i new).noticesOk := by
  obtain ⟨b, hnotices⟩ := s.takeChange_notices i new
  rw [State.noticesOk, hnotices]
  exact ((NoticeUnit.ok.raiseMany h _ _).raiseMany _ _).raiseMany _ _

theorem State.noticesOk.settleFirst (h : s.noticesOk) (i : InputNo) : (s.settleFirst i).noticesOk := by
  refine (State.noticesOk.raiseIf ?_ _ _).evaluateIfMember i
  split
  · exact h.of_frame
  · exact h

theorem State.noticesOk.debounceExpiry (h : s.noticesOk) (i : InputNo) : (s.debounceExpiry i).noticesOk := by
  unfold State.debounceExpiry
  dsimp only
  split
  · split
    · exact h.settleFirst i
    · exact h.takeChange i _
  · exact h

theorem State.noticesOk.expireLongOpen (h : s.noticesOk) (c : CompNo) : (s.expireLongOpen c).noticesOk :=
  State.noticesOk.raise (s := s.setOpening c _) h _

theorem State.noticesOk.concluded (h : s.noticesOk) (watch kept : Prop) [Decidable watch] [Decidable kept]
    (change : ConfigChange) : (s.concluded watch kept change).noticesOk := by
  obtain ⟨n, hnotices⟩ := (s.reevaluatedUnless watch).recordedUnless_notices kept change
  rw [State.noticesOk, State.concluded, hnotices, State.reevaluatedUnless_notices]
  exact (NoticeUnit.ok.raiseMany h _ _).raiseMany _ _

theorem State.noticesOk.applyInput (h : s.noticesOk) (i : InputNo) (new : InputSettings) :
    (s.applyInput i new).noticesOk := by
  rw [State.applyInput_eq]
  have hstored : (s.inputStored i new).noticesOk := by
    rw [State.noticesOk, State.inputStored_notices]
    exact NoticeUnit.ok.raiseMany h _ _
  exact hstored.concluded _ _ _

theorem State.noticesOk.hatchInputSet (h : s.noticesOk) (input compartment sense watch member : Byte) :
    (s.hatchInputSet input compartment sense watch member).2.noticesOk := by
  unfold State.hatchInputSet
  split
  · dsimp only
    split
    · exact h
    · exact h.applyInput _ _
  · exact h

theorem State.noticesOk.hatchConfigSet (h : s.noticesOk) (steps bandRequired : Byte) :
    (s.hatchConfigSet steps bandRequired).2.noticesOk := by
  unfold State.hatchConfigSet
  split
  · have hstored : ∀ (steps : Nat) (band : Bool), (s.hatchConfigStored steps band).noticesOk := fun _ _ => h
    exact (hstored _ _).concluded _ _ _
  · exact h

/-! ### Custody and handovers (R108, R118, R120, R123, R124) -/

theorem State.noticesOk.acceptCustody (h : s.noticesOk) (i : SlotNo) (id : Word) (c : CompNo) (limit cycleLimit : Nat)
    (k : Carried) : (s.acceptCustody i id c limit cycleLimit k).noticesOk := by
  have hrecorded : ∀ x e, (((s.stepComp c .boundary).setSlot i x).handCustody e).noticesOk := fun x e =>
    State.noticesOk.handCustody (s := (s.stepComp c .boundary).setSlot i x) (h.stepComp c .boundary) e
  unfold State.acceptCustody
  dsimp only
  rw [State.noticesOk, State.custodyLimit_notices]
  exact NoticeUnit.ok.raiseMany (hrecorded _ _) _ _

theorem State.noticesOk.custodyIn (h : s.noticesOk) (identifier : Word) (compartment : Byte) (limit : Word)
    (cycleLimit : Byte) (u : Upstream) : (s.custodyIn identifier compartment limit cycleLimit u).2.noticesOk := by
  unfold State.custodyIn
  dsimp only
  split
  · exact h
  split
  · exact h
  split
  · exact h
  split
  · exact h
  split
  · exact h
  split
  · exact h
  split
  · exact h
  split
  · exact h.acceptCustody _ _ _ _ _ _
  · exact h

theorem State.noticesOk.handoverLimitSet (h : s.noticesOk) (limit : Half) : (s.handoverLimitSet limit).2.noticesOk := by
  unfold State.handoverLimitSet
  dsimp only
  split
  · exact h
  · exact State.noticesOk.handConfig h.of_frame _ _

theorem State.noticesOk.abandon (h : s.noticesOk) (i : SlotNo) (r : AbandonReason) (t : Stamp) :
    (s.abandon i r t).noticesOk := State.noticesOk.handCustody (s := s.setSlot i _) h _

theorem State.noticesOk.lapse (h : s.noticesOk) (i : SlotNo) : (s.lapse i).noticesOk := (h.abandon i _ _).raise _

theorem State.noticesOk.lapseAll (h : s.noticesOk) (l : List SlotNo) : (s.lapseAll l).noticesOk := by
  induction l generalizing s with
  | nil => exact h
  | cons i l ih =>
    refine ih ?_
    split
    · exact h.lapse i
    · exact h

theorem State.noticesOk.handoverBegin (h : s.noticesOk) (identifier : Word) : (s.handoverBegin identifier).2.noticesOk := by
  unfold State.handoverBegin
  split
  · exact h
  split
  · exact h
  split
  · exact h
  split
  · exact h
  split
  · exact State.noticesOk.handCustody h.of_frame _
  · exact h

theorem State.noticesOk.closeAccount (h : s.noticesOk) (i : SlotNo) : (s.closeAccount i).noticesOk := by
  unfold State.closeAccount
  dsimp only
  split
  · exact h.takeStep _ _
  · exact h

theorem State.noticesOk.acceptEnd (h : s.noticesOk) (i : SlotNo) (o : Outcome) (receipt : Word) :
    (s.acceptEnd i o receipt).noticesOk := by
  have hended : (((s.closeAccount i).creditEnding i).setOut i o receipt).noticesOk := (h.closeAccount i).of_frame
  have hrecorded : (s.endRecorded i o receipt).noticesOk := hended.handCustody _
  rw [State.acceptEnd_eq]
  exact hrecorded.of_frame

theorem State.noticesOk.acceptRefused (h : s.noticesOk) (i : SlotNo) : (s.acceptRefused i).noticesOk :=
  State.noticesOk.abandon h.of_frame _ _ _

theorem State.noticesOk.handoverEnd (h : s.noticesOk) (identifier : Word) (outcome : Byte) (receipt : Word) :
    (s.handoverEnd identifier outcome receipt).2.noticesOk := by
  unfold State.handoverEnd
  dsimp only
  split
  · exact h
  split
  · exact h
  split
  · exact h
  split
  · exact h
  split
  · exact h
  split
  · exact h
  split
  · split
    · exact h.acceptEnd _ _ _
    · exact h.acceptRefused _
  · exact h

/-! ### Claims (R139, R157, R161, R162) -/

theorem State.noticesOk.acceptClaim (h : s.noticesOk) (i : ClaimNo) (j : SlotNo) (reference : Word) :
    (s.acceptClaim i j reference).noticesOk := State.noticesOk.handGeneral h.of_frame _

theorem State.noticesOk.claimOpen (h : s.noticesOk) (reference identifier : Word) :
    (s.claimOpen reference identifier).2.noticesOk := by
  unfold State.claimOpen
  split
  · exact h
  split
  · exact h
  split
  · exact h
  split
  · exact h
  dsimp only
  split
  · exact h
  · exact h.acceptClaim _ _ _

theorem State.noticesOk.acceptClose (h : s.noticesOk) (i : ClaimNo) (k : Claim) : (s.acceptClose i k).noticesOk := by
  have hreleased : ((s.withQueue (s.claims.queue.filter (· != i))).releaseHold i).noticesOk :=
    State.noticesOk.releaseHold h.of_frame i
  have hcounted : (((s.withQueue (s.claims.queue.filter (· != i))).releaseHold i).countClaim k.slot (· - 1)).noticesOk :=
    hreleased.of_frame
  exact hcounted.handGeneral _

theorem State.noticesOk.claimClose (h : s.noticesOk) (reference : Word) : (s.claimClose reference).2.noticesOk := by
  unfold State.claimClose
  split
  · exact h
  split
  · exact h
  split
  · exact h
  · exact h.acceptClose _ _

theorem State.noticesOk.claimConfigSet (h : s.noticesOk) (allowance : Word) : (s.claimConfigSet allowance).2.noticesOk := by
  unfold State.claimConfigSet
  dsimp only
  split
  · exact h
  · exact State.noticesOk.handConfig h.of_frame _ _

theorem State.noticesOk.endWalk (h : s.noticesOk) (i : ClaimNo) (k : Claim) (snap : Snapshot) (w : Walk) :
    (s.endWalk i k snap w).noticesOk :=
  State.noticesOk.raise (State.noticesOk.handGeneral h.of_frame _) _

theorem State.noticesOk.examineNext (h : s.noticesOk) : s.examineNext.noticesOk := by
  unfold State.examineNext
  split
  · exact h
  split
  · split
    · dsimp only
      split
      · exact h.endWalk _ _ _ _
      · exact h
    · exact h
  · exact h

/-! ### Notice requests (R164, R169) -/

theorem NoticeUnit.ok.dropAll {u : NoticeUnit} (h : u.ok) (l : List Condition) : (u.dropAll l).ok := by
  induction l generalizing u with
  | nil => exact h
  | cons c l ih => exact ih (h.drop c.place)

theorem State.noticesOk.raiseTrue (h : s.noticesOk) (l : List Condition) : (s.raiseTrue l).noticesOk := by
  induction l generalizing s with
  | nil => exact h
  | cons c l ih => exact ih (h.raiseIf _ c)

/-- Enables that cover the pending set keep the order. -/
theorem NoticeUnit.ok.withEnables {u : NoticeUnit} (h : u.ok) {e : Vector Bool 18}
    (he : ∀ k : Fin 18, u.members[k] = true → e[k] = true) : ({ u with enables := e } : NoticeUnit).ok := by
  obtain ⟨halert, hplace⟩ := h
  exact ⟨halert, fun k => ⟨he k, (hplace k).2⟩⟩

theorem State.noticesOk.writeEnables (h : s.noticesOk) (mask : Word) : (s.writeEnables mask Condition.all).noticesOk := by
  rw [State.noticesOk, State.writeEnables_eq, State.withNotices_notices]
  refine (NoticeUnit.ok.dropAll h _).withEnables fun k hpending => ?_
  obtain ⟨c, rfl⟩ := Condition.exists_place k
  rw [NoticeUnit.ok.members_left mask c h, Bool.and_eq_true] at hpending
  rw [getElem_enablesOf]
  exact hpending.1

theorem State.noticesOk.noticeEnable (h : s.noticesOk) (mask : Word) : (s.noticeEnable mask).2.noticesOk := by
  unfold State.noticeEnable
  split
  · exact h
  · dsimp only
    rw [State.noticesOk, State.applyEnables_notices]
    exact NoticeUnit.ok.raiseMany ((h.writeEnables mask).raiseTrue _) _ _

theorem State.noticesOk.noticeClear (h : s.noticesOk) (mask : Word) : (s.noticeClear mask).2.noticesOk := by
  have hdropped : (s.dropNamed mask Condition.all).noticesOk := by
    rw [State.dropNamed_eq]
    exact NoticeUnit.ok.dropAll h _
  unfold State.noticeClear
  split
  · exact h
  · exact hdropped.raiseTrue _

/-! ### Stores and clock (R178, R182, R184, R189 to R192) -/

theorem State.noticesOk.labelSet (h : s.noticesOk) (label : Wide) : (s.labelSet label).2.noticesOk := by
  unfold State.labelSet
  dsimp only
  split
  · exact h
  · exact State.noticesOk.handConfig h.of_frame _ _

theorem State.noticesOk.reportStore (h : s.noticesOk) (c : CalSlot) (i : Option EntryNo) (x : OffsetEntry) :
    (s.reportStore c i x).noticesOk := (h.handConfig _ _).raise _

theorem State.noticesOk.eraseComplete (h : s.noticesOk) : s.eraseComplete.noticesOk := by
  unfold State.eraseComplete
  split
  · exact State.noticesOk.reportStore h.of_frame _ _ _
  · exact h

theorem State.noticesOk.programComplete (h : s.noticesOk) : s.programComplete.noticesOk := by
  unfold State.programComplete
  split
  · exact State.noticesOk.reportStore h.of_frame _ _ _
  · exact h

theorem State.noticesOk.saveWriteEnd (h : s.noticesOk) (matched : Bool) : (s.saveWriteEnd matched).noticesOk := by
  unfold State.saveWriteEnd
  split
  · exact State.noticesOk.raise (State.noticesOk.handConfig h.of_frame _ _) _
  · exact h

theorem State.noticesOk.rebase (h : s.noticesOk) (c : CompNo) : (s.rebase c).noticesOk := by
  unfold State.rebase
  dsimp only
  split
  · exact h.closeInterval c s.stampNow
  · exact h

theorem State.noticesOk.rebaseAll (h : s.noticesOk) (l : List CompNo) : (s.rebaseAll l).noticesOk := by
  induction l generalizing s with
  | nil => exact h
  | cons c l ih =>
    refine ih ?_
    split
    · exact h.rebase c
    · exact h

theorem State.noticesOk.setFromUnset (h : s.noticesOk) (t : Nat) : (s.setFromUnset t).noticesOk := by
  have hrebased : ((s.withClock (s.clock.setTo t)).rebaseAll (places 4)).noticesOk :=
    State.noticesOk.rebaseAll h.of_frame _
  exact State.noticesOk.handGeneral hrebased.of_frame _

theorem State.noticesOk.trim (h : s.noticesOk) (t : Nat) : (s.trim t).noticesOk :=
  State.noticesOk.lapseAll (State.noticesOk.handGeneral h.of_frame _) _

theorem State.noticesOk.timeSet (h : s.noticesOk) (time : Word) : (s.timeSet time).2.noticesOk := by
  unfold State.timeSet
  dsimp only
  split
  · exact h
  split
  · split
    · exact h
    · exact h.setFromUnset _
  · split
    · exact h
    split
    · exact h
    · dsimp only
      exact h.trim _

/-! ### Start-up and the notice that is sent (R167, R173) -/

/-- Start-up leaves the Notice Unit in order, whatever it finds: the pending set is emptied before the last raises. -/
theorem State.startUp_noticesOk (s : State) (r : StartReason) (since : Nat) : (s.startUp r since).noticesOk := by
  have hend : (s.startBlocks.startRecords r since).endStart.noticesOk := by
    rw [State.noticesOk, State.endStart_notices]
    exact ((NoticeUnit.ok_emptied _).raiseMany _ _).raiseMany _ _
  rw [State.startUp]
  exact hend.of_frame

theorem State.noticesOk.sendNotice (h : s.noticesOk) : s.sendNotice.noticesOk := by
  unfold State.sendNotice
  split
  · exact NoticeUnit.ok.taken h
  · exact h

end

/-! ### Every step -/

/-- Every request keeps the Notice Unit in order: those not named raise nothing. -/
theorem State.noticesOk.perform {s : State} (h : s.noticesOk) (r : Request) : (s.perform r).2.noticesOk := by
  cases r
  case scanStop => exact h.scanStop
  case compartmentSet => exact h.compartmentSet _ _ _ _ _
  case logIntervalSet => exact h.logIntervalSet _
  case hatchInputSet => exact h.hatchInputSet _ _ _ _ _
  case hatchConfigSet => exact h.hatchConfigSet _ _
  case custodyIn => exact h.custodyIn _ _ _ _ _
  case handoverLimitSet => exact h.handoverLimitSet _
  case handoverBegin => exact h.handoverBegin _
  case handoverEnd => exact h.handoverEnd _ _ _
  case claimOpen => exact h.claimOpen _ _
  case claimClose => exact h.claimClose _
  case claimConfigSet => exact h.claimConfigSet _
  case noticeEnable => exact h.noticeEnable _
  case noticeClear => exact h.noticeClear _
  case labelSet => exact h.labelSet _
  case timeSet => exact h.timeSet _
  all_goals exact h.of_frame (by simp [State.perform])

theorem noticesOk_preserved : Preserved State.noticesOk where
  pending _ _ h := h
  link _ _ h := h
  notice _ h := h.sendNotice
  elapse _ _ h := h.of_frame
  perform _ r h := h.perform r
  restartAs _ r _ _ := State.startUp_noticesOk _ r _
  powerUp _ _ _ _ := State.startUp_noticesOk _ _ _
  failSupply s _ _ := NoticeUnit.ok_emptied s.notices
  contact _ _ _ h := h
  fallTick _ h := h.fallTick
  expireLongOpen _ c h := h.expireLongOpen c
  lapse _ i h := h.lapse i
  settleExpiry _ h := h.of_frame
  probeAnswer _ raw good h := h.probeAnswer raw good
  answerWindowExpiry _ h := h.answerWindowExpiry
  rawChange _ _ _ h := h
  debounceExpiry _ i h := h.debounceExpiry i
  examineNext _ h := h.examineNext
  eraseComplete _ h := h.eraseComplete
  programComplete _ h := h.programComplete
  saveWriteEnd _ matched h := h.saveWriteEnd matched

/-- Settles O56: every operation of the blocks keeps the Notice Unit in order (`noticesOk_preserved`), and so does a
step. -/
theorem stepKeepsTheNotices : Obligations.StepKeepsTheNotices := fun _ _ h hstep => noticesOk_preserved.step h hstep

end Sys2Proof.Machine
end

