-- ==== Sys2Proof/Proofs/CommandsComplete.lean ====
section
/-! PROOFS. Every command completes, whatever the state, and leaves the queue of commands and the part identity (R187, log
entry 4). -/

namespace Sys2Proof.Machine

/-- Two states that agree in what no command touches: the queue of commands and the part identity. -/
structure State.SameStanding (s t : State) : Prop where
  pending : t.pending = s.pending
  identity : t.identity = s.identity

section
variable (s : State)

/-- The link's work that follows an event touches neither. -/
theorem State.SameStanding.pump {s t : State} (h : s.SameStanding t) : s.SameStanding t.pump := by
  obtain ⟨hpending, -, hidentity⟩ := t.pump_frame
  exact ⟨hpending.trans h.pending, hidentity.trans h.identity⟩

/-- An event touches neither where its own effect does not: with VDD absent it has none. -/
theorem State.happen_sameStanding {f : State → State} (h : s.SameStanding (f s)) : s.SameStanding (s.happen f) := by
  unfold State.happen
  split
  · exact h.pump
  · exact ⟨rfl, rfl⟩

theorem State.accept_sameStanding (f : Frame) : s.SameStanding (s.accept f) := by
  obtain ⟨hpending, -, hidentity⟩ := s.accept_frame f
  exact ⟨hpending, hidentity⟩

/-- A request touches neither, taken at once or queued. -/
theorem State.submit_sameStanding (tag : Byte) (r : Request) : s.SameStanding (s.submit tag r) := by
  refine s.happen_sameStanding ?_
  split
  · obtain ⟨hpending, -, hidentity⟩ := s.take_frame tag r
    exact ⟨hpending, hidentity⟩
  · exact ⟨by simp, by simp⟩

/-- A contact takes a level with VDD present, where it is looked at, and with VDD absent, where it is not. -/
theorem exec_rawChange_sameStanding (i : InputNo) (made : Bool) :
    ∃ t, exec (.rawChange i made) s = .next t ∧ s.SameStanding t := by
  refine ⟨_, rfl, ?_⟩
  split
  · exact State.SameStanding.pump ⟨by simp, by simp⟩
  · exact ⟨rfl, rfl⟩

theorem exec_supplyFailure_sameStanding (cellGood : Bool) :
    ∃ t, exec (.supplyFailure cellGood) s = .next t ∧ s.SameStanding t := by
  refine ⟨_, rfl, ?_⟩
  split
  · exact ⟨by simp, by simp⟩
  · exact ⟨rfl, rfl⟩

/-- Every command answers a next state in which queue and identity stand: an event by its own effect, a row that is not
named by that of requests. -/
theorem exec_sameStanding (c : Instr) : ∃ t, exec c s = .next t ∧ s.SameStanding t := by
  cases c
  case unknownKind => exact ⟨_, rfl, s.happen_sameStanding (s.accept_sameStanding _)⟩
  case rawChange i made => exact exec_rawChange_sameStanding s i made
  case powerOn => exact ⟨_, rfl, State.SameStanding.pump ⟨by simp, by simp⟩⟩
  case supplyFailure cellGood => exact exec_supplyFailure_sameStanding s cellGood
  case cycleTimerTick | settleExpiry | probeAnswer | answerWindowExpiry | debounceExpiry | longOpenExpiry | handoverLapse |
      walkExamination | offsetEraseComplete | offsetProgramComplete | saveWriteEnd | resetLine | frameReceived |
      linkSilenceTimeout | transmitEnd | syncByte =>
    exact ⟨_, rfl, s.happen_sameStanding ⟨by simp, by simp⟩⟩
  all_goals exact ⟨_, rfl, s.submit_sameStanding _ _⟩

end

/-- Settles O3, command by command (`exec_sameStanding`). -/
theorem everyCommandCompletes : Obligations.EveryCommandCompletes := fun c s =>
  let ⟨t, hexec, hsame⟩ := exec_sameStanding s c
  ⟨t, hexec, hsame.pending, hsame.identity⟩

end Sys2Proof.Machine
end

