-- ==== Sys2Proof/Proofs/OffsetOperations.lean ====
section
/-! PROOFS. OFFSET_ERASE and OFFSET_PROGRAM with their completions, and the record and notice with which an operation of
either store ends (R176 to R178, R184). -/

namespace Sys2Proof.Machine

/-! ### The record and the notice at an operation's end (R178 steps 3 and 4, R184) -/

/-- What the end of an operation of either store leaves in `t`: an enabled STORE_DONE is pending, and where
the log takes it one CONFIG record tells the change. -/
structure State.ReportsDone (s : State) (change : ConfigChange) (t : State) : Prop where
  notice : s.notices.enables[Condition.storeDone.place] = true → t.notices.members[Condition.storeDone.place] = true
  record : s.log.generalFate = .appended → ∃ r : LogRecord,
    t.log.records = s.log.records ++ [r] ∧ r.body = .config change

/-- The record is handed and STORE_DONE raised, at a state `u` that differs from `s` neither in notices nor in log. -/
theorem State.reportsDone {s u : State} (change : ConfigChange) (hnotices : u.notices = s.notices)
    (hlog : u.log = s.log) : s.ReportsDone change ((u.handConfig none change).raise .storeDone).offer := by
  refine ⟨fun he => ?_, fun hfate => ?_⟩
  · rw [(State.offer_pending _).1]
    refine NoticeUnit.raise_member _ ?_
    rw [State.handConfig, State.handGeneral_notices, NoticeUnit.raiseMany_enables, hnotices, he]
  · have happended : ((u.handConfig none change).raise .storeDone).offer.log =
        s.log.append { stamp := u.stampNow, compartment := none, body := .config change } := by
      simp only [State.offer_frame, State.raise_frame, State.handConfig, State.handGeneral_log hlog,
        State.handGeneral_appended hfate]
    rw [happended]
    exact ⟨_, rfl, rfl⟩

/-! ### The entries of a calibration slot (R174) -/

section
variable (o : OffsetStore) {c d : CalSlot} (v : Vector OffsetEntry 16)

theorem OffsetStore.entriesOf_withEntries_self : (o.withEntries c v).entriesOf c = v := by
  cases c <;> rfl

theorem OffsetStore.entriesOf_withEntries_ne (h : d ≠ c) : (o.withEntries c v).entriesOf d = o.entriesOf d := by
  cases c <;> cases d
  case slotA.slotB | slotB.slotA => rfl
  all_goals exact absurd rfl h

/-- Entries are written beside the operation state. -/
@[simp] theorem OffsetStore.withEntries_frame : (o.withEntries c v).running = o.running ∧
    (o.withEntries c v).lastOp = o.lastOp ∧ (o.withEntries c v).lastResult = o.lastResult := by
  cases c <;> exact ⟨rfl, rfl, rfl⟩

end

/-! ### OFFSET_ERASE (R176) -/

section
variable (s : State) {slot : Byte} {c : CalSlot}

theorem State.offsetErase_badValue (h : 1 < slot.toNat) : s.offsetErase slot = (refuse .badValue, s) := by
  simp only [State.offsetErase, calSlotOf_eq_none h, State.refusing]

theorem State.offsetErase_busy (h : c.code = slot.toNat) (hrun : s.offsets.running.isSome = true) :
    s.offsetErase slot = (refuse .busy, s) := by
  simp only [State.offsetErase, calSlotOf_of_code h, if_pos hrun, State.refusing]

theorem State.offsetErase_of_idle (h : c.code = slot.toNat) (hrun : s.offsets.running = none) : s.offsetErase slot =
    (okay [slot], s.withOffsets ((s.offsets.begin (.erase c)).withEntries c (Vector.replicate 16 .blank))) := by
  have hslot : le8 c.code = [slot] := congrArg (fun b => [b]) (byte_of_toNat h).symm
  simp only [State.offsetErase, calSlotOf_of_code h, hrun, hslot, Option.isSome_none, Bool.false_eq_true, if_false]

end

/-! ### OFFSET_PROGRAM (R177) -/

section
variable (s : State) {slot entry value : Byte} {c : CalSlot} {i : EntryNo}

theorem State.offsetProgram_badValue (h : 1 < slot.toNat ∨ 15 < entry.toNat ∨ value = 0x80) :
    s.offsetProgram slot entry value = (refuse .badValue, s) := by
  unfold State.offsetProgram
  split
  next hslot hentry hvalue =>
    obtain h | h | rfl := h
    · rw [calSlotOf_eq_none h] at hslot
      cases hslot
    · rw [numOf_eq_none h] at hentry
      cases hentry
    · rw [offsetOf_0x80] at hvalue
      cases hvalue
  next => rfl

section
variable (hc : c.code = slot.toNat) (hi : i.val = entry.toNat) (hv : value ≠ 0x80)
include hc hi hv

theorem State.offsetProgram_busy (hrun : s.offsets.running.isSome = true) :
    s.offsetProgram slot entry value = (refuse .busy, s) := by
  simp only [State.offsetProgram, calSlotOf_of_code hc, numOf_of_val hi, offsetOf_of_ne hv, if_pos hrun, State.refusing]

theorem State.offsetProgram_notBlank (hrun : s.offsets.running = none) (hentry : (s.offsets.entriesOf c)[i] ≠ .blank) :
    s.offsetProgram slot entry value = (refuse .notBlank, s) := by
  simp only [State.offsetProgram, calSlotOf_of_code hc, numOf_of_val hi, offsetOf_of_ne hv, hrun, Option.isSome_none,
    Bool.false_eq_true, if_false, if_pos hentry, State.refusing]

theorem State.offsetProgram_of_blank (hrun : s.offsets.running = none) (hentry : (s.offsets.entriesOf c)[i] = .blank) :
    s.offsetProgram slot entry value = (okay [slot, entry, value],
      s.withOffsets ((s.offsets.begin (.program c i value.toInt)).setEntry c i .programming)) := by
  have hdata : le8 c.code ++ le8 i.val ++ offsetField value.toInt = [slot, entry, value] := by
    rw [le8, le8, offsetField, ← byte_of_toNat hc, ← byte_of_toNat hi, BitVec.ofInt_toInt]
    rfl
  simp only [State.offsetProgram, calSlotOf_of_code hc, numOf_of_val hi, offsetOf_of_ne hv, hrun, Option.isSome_none,
    Bool.false_eq_true, if_false, hentry, ne_eq, not_true_eq_false, hdata]

end

end

/-! ### Completions (R178) -/

section
variable {s : State} {c : CalSlot} {i : EntryNo} {v : Int}

theorem State.eraseComplete_of_erase (h : s.offsets.running = some (.erase c)) :
    s.eraseComplete = (s.withOffsets s.offsets.finished).reportStore c none .blank := by
  simp only [State.eraseComplete, h]

theorem State.eraseComplete_of_not_erase (h : ∀ c, s.offsets.running ≠ some (.erase c)) : s.eraseComplete = s := by
  unfold State.eraseComplete
  split
  next hrun => exact absurd hrun (h _)
  next => rfl

theorem State.programComplete_of_program (h : s.offsets.running = some (.program c i v)) : s.programComplete =
    (s.withOffsets (s.offsets.setEntry c i (.programmed v)).finished).reportStore c (some i) (.programmed v) := by
  simp only [State.programComplete, h]

theorem State.programComplete_of_not_program (h : ∀ c i v, s.offsets.running ≠ some (.program c i v)) :
    s.programComplete = s := by
  unfold State.programComplete
  split
  next hrun => exact absurd hrun (h _ _ _)
  next => rfl

theorem exec_offsetEraseComplete (hs : s.quiet) : exec .offsetEraseComplete s = .next s.eraseComplete.offer :=
  congrArg _ (State.happen_of_quiet hs (by simp))

theorem exec_offsetProgramComplete (hs : s.quiet) : exec .offsetProgramComplete s = .next s.programComplete.offer :=
  congrArg _ (State.happen_of_quiet hs (by simp))

/-- A completion without its erase changes nothing (log entry 14). -/
theorem exec_offsetEraseComplete_stray (hs : s.quiet) (h : ∀ c, s.offsets.running ≠ some (.erase c)) :
    exec .offsetEraseComplete s = .next s.offer := by
  rw [exec_offsetEraseComplete hs, State.eraseComplete_of_not_erase h]

/-- A completion without its program changes nothing (log entry 14). -/
theorem exec_offsetProgramComplete_stray (hs : s.quiet) (h : ∀ c i v, s.offsets.running ≠ some (.program c i v)) :
    exec .offsetProgramComplete s = .next s.offer := by
  rw [exec_offsetProgramComplete hs, State.programComplete_of_not_program h]

/-- An erase in flight completes: its slot was blanked when it began (R176), so the entries stay. -/
theorem exec_offsetEraseComplete_of_erase (hs : s.quiet) (hrun : s.offsets.running = some (.erase c)) :
    ∃ t : State, exec .offsetEraseComplete s = .next t ∧
      t.offsets = { s.offsets with running := none, lastResult := .done } ∧
      s.ReportsDone (.offset c none .blank) t := by
  refine ⟨((s.withOffsets s.offsets.finished).reportStore c none .blank).offer, ?_, ?_,
    State.reportsDone (u := s.withOffsets s.offsets.finished) _ rfl rfl⟩
  · rw [exec_offsetEraseComplete hs, State.eraseComplete_of_erase hrun]
  · simp only [State.offer_frame, State.reportStore_frame, State.withOffsets_offsets, OffsetStore.finished]

/-- A program in flight completes: its entry takes its value. -/
theorem exec_offsetProgramComplete_of_program (hs : s.quiet) (hrun : s.offsets.running = some (.program c i v)) :
    ∃ t : State, exec .offsetProgramComplete s = .next t ∧
      t.offsets.running = none ∧ t.offsets.lastResult = .done ∧
      t.offsets.entriesOf c = setAt (s.offsets.entriesOf c) i (.programmed v) ∧
      s.ReportsDone (.offset c (some i) (.programmed v)) t := by
  have hoffsets : ((s.withOffsets (s.offsets.setEntry c i (.programmed v)).finished).reportStore c (some i)
      (.programmed v)).offer.offsets = (s.offsets.setEntry c i (.programmed v)).finished := by
    simp only [State.offer_frame, State.reportStore_frame, State.withOffsets_offsets]
  refine ⟨((s.withOffsets (s.offsets.setEntry c i (.programmed v)).finished).reportStore c (some i)
    (.programmed v)).offer, ?_, ?_, ?_, ?_, State.reportsDone (u := s.withOffsets _) _ rfl rfl⟩
  · rw [exec_offsetProgramComplete hs, State.programComplete_of_program hrun]
  · rw [hoffsets, OffsetStore.finished]
  · rw [hoffsets, OffsetStore.finished]
  · rw [hoffsets]
    exact OffsetStore.entriesOf_withEntries_self s.offsets _

end

/-- Settles O49: the two requests by their refusals and the operation that an accepted one begins, the completions by what
is in flight. -/
theorem offsetOperations : Obligations.OffsetOperations := by
  refine ⟨fun s tag slot hs => ⟨fun h => ?_, fun c hc => ⟨fun hrun => ?_, fun hrun => ?_⟩⟩,
    fun s tag slot entry value hs => ⟨fun h => ?_, fun c i hc hi hv =>
      ⟨fun hrun => ?_, fun hrun hentry => ?_, fun hrun hentry => ?_⟩⟩,
    fun s hs => ⟨fun c hrun => ?_, fun c i v hrun => ?_, fun hrun => ?_⟩⟩
  · exact State.submit_report (.offsetErase slot) hs (s.offsetErase_badValue h)
  · exact State.submit_report (.offsetErase slot) hs (s.offsetErase_busy hc hrun)
  · exact ⟨_, State.submit_of_ready (.offsetErase slot) hs (s.offsetErase_of_idle hc hrun) rfl,
      by simp [OffsetStore.begin], by simp [OffsetStore.begin], by simp [OffsetStore.begin],
      OffsetStore.entriesOf_withEntries_self _ _, fun d hd => OffsetStore.entriesOf_withEntries_ne _ _ hd⟩
  · exact State.submit_report (.offsetProgram slot entry value) hs (s.offsetProgram_badValue h)
  · exact State.submit_report (.offsetProgram slot entry value) hs (s.offsetProgram_busy hc hi hv hrun)
  · exact State.submit_report (.offsetProgram slot entry value) hs (s.offsetProgram_notBlank hc hi hv hrun hentry)
  · exact ⟨_, State.submit_of_ready (.offsetProgram slot entry value) hs
      (s.offsetProgram_of_blank hc hi hv hrun hentry) rfl, by simp [OffsetStore.begin, OffsetStore.setEntry],
      by simp [OffsetStore.begin, OffsetStore.setEntry], OffsetStore.entriesOf_withEntries_self _ _,
      fun d hd => OffsetStore.entriesOf_withEntries_ne _ _ hd⟩
  · obtain ⟨t, hexec, hoffsets, hreports⟩ := exec_offsetEraseComplete_of_erase hs hrun
    exact ⟨t, hexec, hoffsets, hreports.notice, hreports.record, exec_offsetProgramComplete_stray hs (by simp [hrun])⟩
  · obtain ⟨t, hexec, hnone, hdone, hentries, hreports⟩ := exec_offsetProgramComplete_of_program hs hrun
    exact ⟨t, hexec, hnone, hdone, hentries, hreports.notice, hreports.record,
      exec_offsetEraseComplete_stray hs (by simp [hrun])⟩
  · exact ⟨exec_offsetEraseComplete_stray hs (by simp [hrun]), exec_offsetProgramComplete_stray hs (by simp [hrun])⟩

end Sys2Proof.Machine
end

