-- ==== Sys2Proof/Proofs/SavedImages.lean ====
section
/-! PROOFS. SETTINGS_SAVE and SAVE_WRITE_END: the place that a save writes, and which place is current while the write goes
on and after it (R183, R184). -/

namespace Sys2Proof.Machine

/-! ### Places (R183) -/

section
variable (x : SettingsStore) (z : Bool) (p : Place)

theorem SettingsStore.place_setPlace_self : (x.setPlace z p).place z = p := by
  cases z <;> rfl

theorem SettingsStore.place_setPlace_not : (x.setPlace z p).place (!z) = x.place (!z) := by
  cases z <;> rfl

theorem Place.check_eq_iff : p.check = crc32 (p.image.bytes ++ le32 p.count.toNat) ↔ p.valid = true := by
  rw [Place.valid, beq_iff_eq, imageCheck]

end

section
variable {x : SettingsStore} {z : Bool}

/-- A current place is valid. -/
theorem SettingsStore.valid_of_current (h : x.current = some z) : (x.place z).valid = true := by
  unfold SettingsStore.current at h
  split at h
  next h0 h1 => cases z <;> assumption
  next h0 h1 => cases h; exact h0
  next h0 h1 => cases h; exact h1
  next => cases h

/-- Both places are valid, or neither, whichever is named first. -/
theorem SettingsStore.valid_both {b : Bool} (hz : (x.place z).valid = b) (hother : (x.place (!z)).valid = b) :
    x.place0.valid = b ∧ x.place1.valid = b := by
  cases z
  · exact ⟨hother, hz⟩
  · exact ⟨hz, hother⟩

/-- The only valid place is current. -/
theorem SettingsStore.current_of_only (hz : (x.place z).valid = true) (hother : (x.place (!z)).valid = false) :
    x.current = some z := by
  cases z with
  | false => rw [SettingsStore.current, show x.place1.valid = true from hz, show x.place0.valid = false from hother]
  | true => rw [SettingsStore.current, show x.place0.valid = true from hz, show x.place1.valid = false from hother]

/-- Without a current place no place is valid. -/
theorem SettingsStore.invalid_of_current_none (h : x.current = none) (z : Bool) : (x.place z).valid = false := by
  rw [← Bool.not_eq_true]
  intro hz
  cases hother : (x.place (!z)).valid with
  | false => cases (SettingsStore.current_of_only hz hother).symm.trans h
  | true =>
    obtain ⟨h0, h1⟩ := SettingsStore.valid_both hz hother
    simp only [SettingsStore.current, h0, h1] at h
    split at h <;> cases h

theorem SettingsStore.current_eq_none (hz : (x.place z).valid = false) (hother : (x.place (!z)).valid = false) :
    x.current = none := by
  obtain ⟨h0, h1⟩ := SettingsStore.valid_both hz hother
  rw [SettingsStore.current, h0, h1]

/-- Of two valid places the one whose count follows the other's is current. -/
theorem SettingsStore.current_of_next (hz : (x.place z).valid = true) (hother : (x.place (!z)).valid = true)
    (hcount : (x.place (!z)).count = (x.place z).count + 1) : x.current = some (!z) := by
  obtain ⟨h0, h1⟩ := SettingsStore.valid_both hz hother
  simp only [SettingsStore.current, h0, h1]
  cases z with
  | true => exact if_pos hcount
  | false =>
    have hfollows : x.place0.count = x.place1.count + 1 := hcount
    exact if_neg (by bv_omega)

end

/-! ### The place a save writes (R183) -/

section
variable {x y : SettingsStore}

theorem SettingsStore.target_of_current {z : Bool} (h : x.current = some z) : x.target = !z := by
  rw [SettingsStore.target, h]

theorem SettingsStore.nextCount_of_current {z : Bool} (h : x.current = some z) : x.nextCount = (x.place z).count + 1 := by
  rw [SettingsStore.nextCount, SettingsStore.count, h]
  rfl

theorem SettingsStore.nextCount_eq (x : SettingsStore) :
    x.nextCount = (match x.count with | some n => n + 1 | none => 1) := rfl

/-- A save never writes the current place, and writes place 0 where there is none. -/
theorem SettingsStore.target_spec (x : SettingsStore) :
    match x.current with | some z => x.target ≠ z | none => x.target = true := by
  cases h : x.current with
  | none => rw [SettingsStore.target, h]
  | some z =>
    rw [SettingsStore.target_of_current h]
    exact Bool.not_ne_self z

/-- While the place that a save writes is not valid, the current place and its image stay (R183, R184). -/
theorem SettingsStore.current_of_target_invalid (hother : y.place (!x.target) = x.place (!x.target))
    (hinvalid : (y.place x.target).valid = false) : y.current = x.current ∧ y.image = x.image := by
  cases hx : x.current with
  | none =>
    have hy : y.current = none :=
      SettingsStore.current_eq_none hinvalid (hother ▸ SettingsStore.invalid_of_current_none hx _)
    rw [SettingsStore.image, SettingsStore.image, hx, hy]
    exact ⟨rfl, rfl⟩
  | some z =>
    rw [SettingsStore.target_of_current hx] at hother hinvalid
    rw [Bool.not_not] at hother
    have hy : y.current = some z :=
      SettingsStore.current_of_only (hother ▸ SettingsStore.valid_of_current hx) hinvalid
    rw [SettingsStore.image, SettingsStore.image, hx, hy]
    exact ⟨rfl, congrArg Place.image hother⟩

/-- The place that a save wrote is current once it is valid, with a count one above that of the place before it (R184). -/
theorem SettingsStore.current_of_target_valid (hother : y.place (!x.target) = x.place (!x.target))
    (hvalid : (y.place x.target).valid = true) (hcount : (y.place x.target).count = x.nextCount) :
    y.current = some x.target := by
  cases hx : x.current with
  | none => exact SettingsStore.current_of_only hvalid (hother ▸ SettingsStore.invalid_of_current_none hx _)
  | some z =>
    rw [SettingsStore.nextCount_of_current hx] at hcount
    rw [SettingsStore.target_of_current hx] at hother hvalid hcount ⊢
    rw [Bool.not_not] at hother
    exact SettingsStore.current_of_next (hother ▸ SettingsStore.valid_of_current hx) hvalid (hother ▸ hcount)

end

/-! ### SETTINGS_SAVE (R183) -/

section
variable (x : SettingsStore) (image : WorkingConfig)

theorem SettingsStore.startSave_saving : (x.startSave image).saving = some ⟨image, x.nextCount, x.target⟩ := rfl

theorem SettingsStore.startSave_target : ((x.startSave image).place x.target).valid = false :=
  (congrArg Place.valid (x.place_setPlace_self x.target _)).trans (Place.valid_broken _ _)

theorem SettingsStore.startSave_other : (x.startSave image).place (!x.target) = x.place (!x.target) :=
  x.place_setPlace_not x.target _

/-- The image and its place stand while a save goes on. -/
theorem SettingsStore.startSave_current :
    (x.startSave image).current = x.current ∧ (x.startSave image).image = x.image :=
  SettingsStore.current_of_target_invalid (x.startSave_other image) (x.startSave_target image)

variable (s : State)

theorem State.settingsSave_busy (h : s.settings.saving.isSome = true) : s.settingsSave = (refuse .busy, s) := if_pos h

theorem State.settingsSave_of_idle (h : s.settings.saving = none) : s.settingsSave =
    (okay (le32 s.settings.nextCount.toNat), s.withSettings (s.settings.startSave s.config)) := by
  rw [State.settingsSave, h]
  rfl

end

/-! ### SAVE_WRITE_END (R184) -/

section
variable (x : SettingsStore) (w : Saving) (matched : Bool)

theorem SettingsStore.endSave_written :
    (x.endSave w matched).place w.toZero = .written w.image w.count matched := x.place_setPlace_self w.toZero _

theorem SettingsStore.endSave_other : (x.endSave w matched).place (!w.toZero) = x.place (!w.toZero) :=
  x.place_setPlace_not w.toZero _

section
variable {x w} {image : WorkingConfig} (hw : (x.startSave image).saving = some w)
include hw

/-- The write of a save that was started leaves the place beside its own as it was before the save. -/
theorem SettingsStore.endSave_startSave_other :
    ((x.startSave image).endSave w matched).place (!x.target) = x.place (!x.target) := by
  cases hw
  exact ((x.startSave image).endSave_other _ matched).trans (x.startSave_other image)

/-- A save whose check matches makes its place and its image current. -/
theorem SettingsStore.endSave_matched : ((x.startSave image).endSave w true).current = some w.toZero ∧
    ((x.startSave image).endSave w true).image = image := by
  have hother := SettingsStore.endSave_startSave_other true hw
  cases hw
  have hplace := (x.startSave image).endSave_written ⟨image, x.nextCount, x.target⟩ true
  have hcurrent := SettingsStore.current_of_target_valid hother (by rw [hplace, Place.valid_written])
    (by rw [hplace, (Place.written_contents _ _ _).2])
  rw [SettingsStore.image, hcurrent]
  exact ⟨rfl, congrArg Place.image hplace⟩

/-- A save whose check does not match leaves the earlier place current. -/
theorem SettingsStore.endSave_unmatched : ((x.startSave image).endSave w false).current = x.current ∧
    ((x.startSave image).endSave w false).image = x.image := by
  have hother := SettingsStore.endSave_startSave_other false hw
  cases hw
  have hplace := (x.startSave image).endSave_written ⟨image, x.nextCount, x.target⟩ false
  exact SettingsStore.current_of_target_invalid hother (by rw [hplace, Place.valid_written])

end

section
variable {s : State} {w} (hs : s.quiet)
include hs

theorem exec_saveWriteEnd : exec (.saveWriteEnd matched) s = .next (s.saveWriteEnd matched).offer :=
  congrArg _ (State.happen_of_quiet (f := fun s => s.saveWriteEnd matched) hs (by simp))

/-- A write that ends without a save in flight changes nothing (log entry 14). -/
theorem exec_saveWriteEnd_stray (h : s.settings.saving = none) : exec (.saveWriteEnd matched) s = .next s.offer := by
  rw [exec_saveWriteEnd matched hs, State.saveWriteEnd, h]

theorem exec_saveWriteEnd_of_saving (h : s.settings.saving = some w) : ∃ t : State,
    exec (.saveWriteEnd matched) s = .next t ∧ t.settings = s.settings.endSave w matched ∧
    s.ReportsDone (.saved t.settings.lastResult t.settings.count) t := by
  have hend : s.saveWriteEnd matched = ((s.withSettings (s.settings.endSave w matched)).handConfig none
      (.saved (s.settings.endSave w matched).lastResult (s.settings.endSave w matched).count)).raise .storeDone := by
    rw [State.saveWriteEnd, h]
  have hsettings : (s.saveWriteEnd matched).offer.settings = s.settings.endSave w matched := by
    simp only [hend, State.offer_frame, State.raise_frame, State.handConfig_frame, State.withSettings_settings]
  refine ⟨(s.saveWriteEnd matched).offer, exec_saveWriteEnd matched hs, hsettings, ?_⟩
  rw [hsettings, hend]
  exact State.reportsDone (u := s.withSettings _) _ rfl rfl

end

end

/-- Settles O50: the save and its write by what they leave in the two places, the current place by which of them is valid
(`SettingsStore.endSave_matched`, `SettingsStore.endSave_unmatched`). -/
theorem savedImages : Obligations.SavedImages := by
  refine ⟨fun s tag hs => ⟨fun h => ?_, fun h => ?_⟩, fun s w matched hs hw => ?_,
    fun x image w hw => ⟨SettingsStore.endSave_matched hw, SettingsStore.endSave_unmatched hw⟩,
    fun s matched hs h => exec_saveWriteEnd_stray matched hs h⟩
  · exact State.submit_report .settingsSave hs (s.settingsSave_busy h)
  · obtain ⟨hcurrent, himage⟩ := s.settings.startSave_current s.config
    exact ⟨s.settings.startSave s.config, ⟨s.config, s.settings.nextCount, s.settings.target⟩,
      State.submit_of_ready .settingsSave hs (s.settingsSave_of_idle h) rfl,
      s.settings.startSave_saving s.config, rfl, s.settings.nextCount_eq,
      s.settings.target_spec, hcurrent, himage, rfl⟩
  · obtain ⟨t, hexec, hsettings, hreports⟩ := exec_saveWriteEnd_of_saving matched hs hw
    obtain ⟨himage, hcount⟩ := Place.written_contents w.image w.count matched
    have hvalid : (Place.written w.image w.count matched).valid = true ↔ matched = true := by rw [Place.valid_written]
    have hcheck := Place.check_eq_iff (Place.written w.image w.count matched)
    rw [himage, hcount] at hcheck
    refine ⟨t, .written w.image w.count matched, hexec, ?_, ?_, ?_, himage, hcount, hcheck.trans hvalid, hvalid, ?_,
      hreports.notice, hreports.record⟩
    · rw [hsettings]
      rfl
    · rw [hsettings]
      rfl
    · rw [hsettings, SettingsStore.endSave_written]
    · rw [hsettings, SettingsStore.endSave_other]

end Sys2Proof.Machine
end

