-- ==== Sys2Proof/Proofs/SupplyFails.lean ====
section
/-! PROOFS. The supply fails, and what commands meet while VDD is absent (R188, R193, R203, log entry 3). -/

namespace Sys2Proof.Machine

/-! ### With VDD absent (log entry 3) -/

theorem State.happen_of_dark {s : State} (h : s.power = .off) (f : State → State) : s.happen f = s := by
  simp only [State.happen, h]

/-- No event but the return of VDD and the level of a contact has an effect, and no request. -/
theorem exec_of_dark {s : State} (h : s.power = .off) {c : Instr} (hon : ∀ n b, c ≠ .powerOn n b)
    (hraw : ∀ i b, c ≠ .rawChange i b) : exec c s = .next s := by
  cases c
  case powerOn n b => exact absurd rfl (hon n b)
  case rawChange i b => exact absurd rfl (hraw i b)
  case supplyFailure cellGood => simp only [exec, execSupplyFailure, h]
  all_goals exact congrArg Host.Outcome.next (State.happen_of_dark h _)

theorem exec_rawChange_of_dark {s : State} (h : s.power = .off) (i : InputNo) (made : Bool) :
    exec (.rawChange i made) s = .next (s.setInput i { s.hatch.inputs[i] with made := made }) := by
  simp only [exec, execRawChange, h]

/-! ### The failure (R188, R193, R203) -/

theorem exec_supplyFailure {s : State} (h : s.power = .on) (cellGood : Bool) :
    exec (.supplyFailure cellGood) s = .next (s.failSupply cellGood) := by
  simp only [exec, execSupplyFailure, h]

theorem NoticeUnit.emptied_anyPending (u : NoticeUnit) : u.emptied.anyPending = false := by
  rw [Bool.eq_false_iff]
  intro h
  obtain ⟨k, hk⟩ := (anyAt_iff _ _).mp h
  exact Bool.false_ne_true (((NoticeUnit.emptied_frame u).2 k).symm.trans hk)

/-- Settles O4: the failure by the fields of `State.failSupply`, the dark part command by command (`exec_of_dark`). -/
theorem supplyFailureStopsThePart : Obligations.SupplyFailureStopsThePart := by
  refine ⟨fun s cellGood hon => ?_, fun s c hoff hpower hraw => exec_of_dark hoff hpower hraw,
    fun s i made hoff => exec_rawChange_of_dark hoff i made⟩
  obtain ⟨-, hscan, hcomps, -, hhatch, hlog, hslots, -, hclaims, hoffsets, hsettings, -, -, -⟩ :=
    s.failSupply_frame cellGood
  exact ⟨s.failSupply cellGood, exec_supplyFailure hon cellGood, rfl, rfl, s.notices.emptied_anyPending, rfl, rfl, hscan,
    hcomps, hhatch, hlog, hslots, hclaims, hoffsets, hsettings⟩

end Sys2Proof.Machine
end

