-- ==== Sys2Proof/Proofs/RecordsInTurn.lean ====
section
/-! PROOFS. Records handed one after another to a log with room for them: the log appends each (R71, R75, R76). -/

namespace Sys2Proof.Machine

/-! ### A log with room -/

/-- The log appends the next n records, general ones too: it is neither ENDED nor HELD_FULL, and neither the general
places nor the sequences run out. -/
structure Log.Room (l : Log) (n : Nat) : Prop where
  ended : l.ended = false
  heldFull : l.heldFull = false
  places : l.records.length + n ≤ 4032
  sequences : l.nextSeq + n ≤ 4294967295

/-- The log after the entries of a list are appended. -/
def Log.appendAll (l : Log) (es : List Entry) : Log := es.foldl Log.append l

section
variable {l : Log} {n : Nat}

theorem Log.Room.mono (h : l.Room n) {m : Nat} (hm : m ≤ n) : l.Room m :=
  ⟨h.ended, h.heldFull, by have := h.places; omega, by have := h.sequences; omega⟩

theorem Log.Room.append (h : l.Room (n + 1)) (e : Entry) : (l.append e).Room n := by
  obtain ⟨hended, hheld, hplaces, hsequences⟩ := h
  have hnext : l.nextSeq ≠ lastSequence := by
    unfold lastSequence
    omega
  refine ⟨?_, hheld, ?_, ?_⟩
  · simp only [Log.append, hnext, hended, decide_false, Bool.or_self]
  · simp only [Log.append, List.length_append, List.length_singleton]
    omega
  · simp only [Log.append, hnext, if_false]
    omega

theorem Log.appendAll_append (l : Log) (es fs : List Entry) : l.appendAll (es ++ fs) = (l.appendAll es).appendAll fs :=
  List.foldl_append

theorem Log.Room.appendAll {es : List Entry} (h : l.Room (es.length + n)) : (l.appendAll es).Room n := by
  induction es generalizing l with
  | nil => exact h.mono (by simp)
  | cons e es ih => exact ih (Log.Room.append (h.mono (by simp only [List.length_cons]; omega)) e)

theorem Log.Room.generalFate (h : l.Room (n + 1)) : l.generalFate = .appended :=
  (Log.generalFate_appended_iff l).mpr ⟨h.ended, h.heldFull, by have := h.places; omega⟩

/-- What a record takes from the entry that is handed. -/
def Entry.content (e : Entry) : Stamp × Option CompNo × Body := (e.stamp, e.compartment, e.body)

/-- See `Entry.content`. -/
def LogRecord.content (r : LogRecord) : Stamp × Option CompNo × Body := (r.stamp, r.compartment, r.body)

theorem Log.appendAll_records (l : Log) (es : List Entry) : ∃ rs : List LogRecord,
    (l.appendAll es).records = l.records ++ rs ∧ rs.map LogRecord.content = es.map Entry.content := by
  induction es generalizing l with
  | nil => exact ⟨[], (List.append_nil _).symm, rfl⟩
  | cons e es ih =>
    obtain ⟨rs, hrecords, hcontent⟩ := ih (l.append e)
    refine ⟨l.recordOf e :: rs, ?_, ?_⟩
    · calc (l.appendAll (e :: es)).records
        _ = (l.records ++ [l.recordOf e]) ++ rs := hrecords
        _ = l.records ++ l.recordOf e :: rs := List.append_assoc _ _ _
    · rw [List.map_cons, List.map_cons, hcontent]
      rfl

end

/-! ### One record -/

section
variable {s : State} {n : Nat}

theorem State.handGeneral_room (h : s.log.Room (n + 1)) (e : Entry) : (s.handGeneral e).log = s.log.append e :=
  State.handGeneral_appended h.generalFate

/-- A custody record that fixes no window end is appended too. -/
theorem State.handCustody_room (h : s.log.Room (n + 1)) {e : Entry}
    (hbody : ∀ id sl o r x c a b d, e.body ≠ .custodyOut id sl o r x c a b d) :
    (s.handCustody e).log = s.log.append e := by
  have hplaces : s.log.records.length < 4096 := by
    have := h.places
    omega
  rw [State.handCustody_taken h.ended (.inl hplaces), State.afterCustody_of_other _ _ hbody, Log.madeRoom,
    if_pos hplaces, State.withLog_log]

end

/-! ### Places that take their turn -/

theorem nodup_places (n : Nat) : (places n).Nodup := List.nodup_finRange n

theorem mem_places {n : Nat} (i : Fin n) : i ∈ places n := List.mem_finRange i

/-- The places of a list take their turn in its order: one that is due when its turn comes is acted on. -/
def State.turns {ι : Type} (due : State → ι → Bool) (act : State → ι → State) (s : State) : List ι → State
  | [] => s
  | i :: rest => (if due s i then act s i else s).turns due act rest

section
variable {ι : Type} {due : State → ι → Bool} {act : State → ι → State} {l : List ι}

/-- Where a turn hands one record and concerns no later one, the log appends the records of the places that are due at
the beginning. -/
theorem State.turns_log {entry : State → ι → Entry}
    (hact : ∀ (s : State) (i : ι), s.log.Room 1 → (act s i).log = s.log.append (entry s i))
    (hother : ∀ (s : State) (i j : ι), i ≠ j → due (act s i) j = due s j ∧ entry (act s i) j = entry s j)
    (s : State) (hl : l.Nodup) (hroom : s.log.Room l.length) :
    (s.turns due act l).log = s.log.appendAll ((l.filter (due s)).map (entry s)) := by
  induction l generalizing s with
  | nil => rfl
  | cons i l ih =>
    obtain ⟨hi, hrest⟩ := List.nodup_cons.mp hl
    rw [List.length_cons] at hroom
    cases hdue : due s i with
    | false => simpa [State.turns, hdue] using ih s hrest (hroom.mono (Nat.le_succ _))
    | true =>
      have hlog := hact s i (hroom.mono (by omega))
      have hlater : ∀ j ∈ l, due (act s i) j = due s j ∧ entry (act s i) j = entry s j :=
        fun j hj => hother s i j (fun hij => hi (hij ▸ hj))
      have hentries : (l.filter (due (act s i))).map (entry (act s i)) = (l.filter (due s)).map (entry s) := by
        rw [List.filter_congr fun j hj => (hlater j hj).1]
        exact List.map_congr_left fun j hj => (hlater j (List.mem_of_mem_filter hj)).2
      rw [State.turns, hdue, if_pos rfl, ih (act s i) hrest (by rw [hlog]; exact hroom.append _), hentries, hlog,
        List.filter_cons_of_pos hdue]
      rfl

/-- Where a turn changes its own place alone, each place due at the beginning is changed as it then stands. -/
theorem State.turns_place [DecidableEq ι] {α : Type} {place changed : State → ι → α}
    (hact : ∀ (s : State) (i : ι), place (act s i) i = changed s i)
    (hother : ∀ (s : State) (i j : ι), i ≠ j →
      due (act s i) j = due s j ∧ place (act s i) j = place s j ∧ changed (act s i) j = changed s j)
    (s : State) (hl : l.Nodup) (j : ι) :
    place (s.turns due act l) j = if j ∈ l ∧ due s j = true then changed s j else place s j := by
  induction l generalizing s with
  | nil => simp [State.turns]
  | cons i l ih =>
    obtain ⟨hi, hrest⟩ := List.nodup_cons.mp hl
    cases hdue : due s i with
    | false =>
      rw [State.turns, hdue, if_neg Bool.false_ne_true, ih s hrest]
      by_cases hij : j = i
      · subst hij
        simp [hdue]
      · simp [hij]
    | true =>
      rw [State.turns, hdue, if_pos rfl, ih (act s i) hrest]
      by_cases hij : j = i
      · subst hij
        simp [hi, hdue, hact]
      · obtain ⟨hdue', hplace, hchanged⟩ := hother s i j (Ne.symm hij)
        simp [hij, hdue', hplace, hchanged]

end

/-! ### Intervals that close, and handovers that end -/

section
variable (s : State)

theorem State.closeRetained_eq_turns (l : List CompNo) : s.closeRetained l =
    s.turns (fun u c => decide (0 < u.comps[c].interval.steps)) (fun u c => u.closeInterval c u.stampNow) l := by
  induction l generalizing s with
  | nil => rfl
  | cons c l ih => simp only [State.closeRetained, State.turns, ih, decide_eq_true_eq]

theorem State.abandonAll_eq_turns (t : Stamp) (l : List SlotNo) : s.abandonAll t l =
    s.turns (fun u i => u.slots[i].state == .handingOver) (fun u i => u.abandon i .power t) l := by
  induction l generalizing s with
  | nil => rfl
  | cons i l ih => simp only [State.abandonAll, State.turns, ih, beq_iff_eq]

theorem State.lapseAll_eq_turns (l : List SlotNo) : s.lapseAll l = s.turns State.lapseDue State.lapse l := by
  induction l generalizing s with
  | nil => rfl
  | cons i l ih => rw [State.lapseAll, State.turns, ih]

/-- The SAMPLE records of the intervals that hold a step (R48). -/
theorem State.closeRetained_log {l : List CompNo} (hl : l.Nodup) (hroom : s.log.Room l.length) :
    (s.closeRetained l).log = s.log.appendAll
      ((l.filter fun c => decide (0 < s.comps[c].interval.steps)).map fun c => s.comps[c].interval.entry c) := by
  rw [State.closeRetained_eq_turns]
  refine State.turns_log (entry := fun u c => u.comps[c].interval.entry c) (fun u c h => ?_) (fun u c d hcd => ?_) s hl hroom
  · rw [State.closeInterval_log, State.handGeneral_room h]
  · have hcomp : (u.closeInterval c u.stampNow).comps[d] = u.comps[d] := by
      rw [State.closeInterval_comps, getElem_setAt_ne _ _ hcd]
    rw [hcomp]
    exact ⟨rfl, rfl⟩

theorem State.abandon_log {s : State} (h : s.log.Room 1) (i : SlotNo) (r : AbandonReason) (t : Stamp) :
    (s.abandon i r t).log = s.log.append (abandonEntry s.slots[i] i r t) := by
  simp only [State.abandon, State.setSlot_slots, getElem_setAt_self]
  exact State.handCustody_room (s := s.setSlot i s.slots[i].returned) h nofun

/-- The HANDOVER_ABANDON records of the handovers that start-up ends (R132). -/
theorem State.abandonAll_log (t : Stamp) {l : List SlotNo} (hl : l.Nodup) (hroom : s.log.Room l.length) :
    (s.abandonAll t l).log = s.log.appendAll
      ((l.filter fun i => s.slots[i].state == .handingOver).map fun i => abandonEntry s.slots[i] i .power t) := by
  rw [State.abandonAll_eq_turns]
  refine State.turns_log (entry := fun u i => abandonEntry u.slots[i] i .power t)
    (fun u i h => State.abandon_log h i .power t) (fun u i j hij => ?_) s hl hroom
  have hslot : (u.abandon i .power t).slots[j] = u.slots[j] := by
    rw [State.abandon_slots, getElem_setAt_ne _ _ hij]
  rw [hslot]
  exact ⟨rfl, rfl⟩

/-- A lapse concerns its own slot alone. -/
theorem State.lapse_other (s : State) {i j : SlotNo} (hij : i ≠ j) : (s.lapse i).slots[j] = s.slots[j] ∧
    (s.lapse i).lapseDue j = s.lapseDue j ∧ (s.lapse i).stampNow = s.stampNow := by
  have hslot : (s.lapse i).slots[j] = s.slots[j] := by rw [State.lapse_slots, getElem_setAt_ne _ _ hij]
  obtain ⟨hstamp, hnow, -⟩ := State.stampNow_of_clock (s := s) (t := s.lapse i) (by simp only [State.lapse_frame])
  exact ⟨hslot, by rw [State.lapseDue, State.lapseDue, hslot, hnow], hstamp⟩

/-- The HANDOVER_ABANDON records of the handovers whose deadline is reached (R119). -/
theorem State.lapseAll_log {l : List SlotNo} (hl : l.Nodup) (hroom : s.log.Room l.length) :
    (s.lapseAll l).log = s.log.appendAll
      ((l.filter s.lapseDue).map fun i => abandonEntry s.slots[i] i .lapsed s.stampNow) := by
  rw [State.lapseAll_eq_turns]
  refine State.turns_log (entry := fun u i => abandonEntry u.slots[i] i .lapsed u.stampNow) (fun u i h => ?_)
    (fun u i j hij => ?_) s hl hroom
  · simp only [State.lapse, State.raise_frame, State.abandon_log h]
  · obtain ⟨hslot, hdue, hstamp⟩ := u.lapse_other hij
    exact ⟨hdue, by rw [hslot, hstamp]⟩

theorem State.lapseAll_slot {l : List SlotNo} (hl : l.Nodup) (i : SlotNo) : (s.lapseAll l).slots[i] =
    if i ∈ l ∧ s.lapseDue i = true then s.slots[i].returned else s.slots[i] := by
  rw [State.lapseAll_eq_turns]
  refine State.turns_place (place := fun u i => u.slots[i]) (changed := fun u i => u.slots[i].returned)
    (fun u i => ?_) (fun u i j hij => ?_) s hl i
  · rw [State.lapse_slots, getElem_setAt_self]
  · obtain ⟨hslot, hdue, -⟩ := u.lapse_other hij
    exact ⟨hdue, hslot, by rw [hslot]⟩

end

end Sys2Proof.Machine
end

