-- ==== Sys2Proof/Proofs/TimeFromUnset.lean ====
section
/-! PROOFS. TIME_SET from UNSET: what steps 1 to 5 of R190 make of compartments, slots, openings and log (R47, R65). -/

namespace Sys2Proof.Machine

/-! ### The records of the relative intervals (R47) -/

/-- Two parts of which the log makes the same, and flags the same, when a record is handed to them. -/
structure State.HandsAlike (s t : State) : Prop where
  log : t.log = s.log
  notices : t.notices = s.notices
  slots : t.slots = s.slots

theorem State.HandsAlike.handGeneral {s t : State} (h : s.HandsAlike t) (e : Entry) :
    (s.handGeneral e).HandsAlike (t.handGeneral e) where
  log := State.handGeneral_log h.log e
  notices := by rw [State.handGeneral_notices, State.handGeneral_notices, h.log, h.notices]
  slots := by rw [State.handGeneral_slots, State.handGeneral_slots, h.log, State.flagDeferred_slots h.slots]

/-- Part `u` hands the SAMPLE record of a compartment's interval as it stands in `s`, where the compartment is enabled and
the interval holds a step. -/
def State.handRelative (s u : State) (c : CompNo) : State :=
  if s.comps[c].settings.enabled = true ∧ 0 < s.comps[c].interval.steps then u.handGeneral (s.comps[c].interval.entry c)
  else u

section
variable (s : State)

/-- In the enabled compartments' passage to device time the log meets their SAMPLE records alone. -/
theorem State.rebaseTurn_handsAlike {u v : State} (h : v.HandsAlike u) {c : CompNo} (hcomp : u.comps[c] = s.comps[c]) :
    (s.handRelative v c).HandsAlike (if u.comps[c].settings.enabled then u.rebase c else u) := by
  rw [State.handRelative, hcomp]
  by_cases henabled : s.comps[c].settings.enabled = true
  · by_cases hsteps : 0 < s.comps[c].interval.steps
    · obtain ⟨hlog, hnotices, hslots⟩ := h.handGeneral (s.comps[c].interval.entry c)
      simp only [henabled, hsteps, and_self, if_true, State.rebase, hcomp, State.closeInterval]
      exact ⟨hlog, hnotices, hslots⟩
    · simp only [henabled, hsteps, and_false, if_true, if_false, State.rebase, hcomp]
      exact ⟨h.log, h.notices, h.slots⟩
  · simp only [henabled, false_and, Bool.false_eq_true, if_false]
    exact h

theorem State.rebase_comps (c : CompNo) : (s.rebase c).comps =
    setAt s.comps c { s.comps[c] with lastStep := s.stampNow, interval := .opening s.stampNow } := by
  unfold State.rebase
  split
  · simp only [State.setComp_comps, State.closeInterval_comps, setAt_setAt, getElem_setAt_self]
  · rfl

theorem State.rebaseTurn_comp_ne {c d : CompNo} (hcd : c ≠ d) :
    (if s.comps[c].settings.enabled then s.rebase c else s).comps[d] = s.comps[d] := by
  cases s.comps[c].settings.enabled with
  | false => rfl
  | true => exact (congrArg (·[d]) (s.rebase_comps c)).trans (getElem_setAt_ne _ _ hcd)

theorem State.rebaseAll_handsAlike {u v : State} (h : v.HandsAlike u) {l : List CompNo} (hl : l.Nodup)
    (hcomps : ∀ c ∈ l, u.comps[c] = s.comps[c]) : (l.foldl s.handRelative v).HandsAlike (u.rebaseAll l) := by
  induction l generalizing u v with
  | nil => exact h
  | cons c l ih =>
    obtain ⟨hc, hrest⟩ := List.nodup_cons.mp hl
    refine ih (s.rebaseTurn_handsAlike h (hcomps c List.mem_cons_self)) hrest fun d hd => ?_
    have hcd : c ≠ d := fun heq => hc (heq ▸ hd)
    rw [State.rebaseTurn_comp_ne _ hcd, hcomps d (List.mem_cons_of_mem _ hd)]

/-- Of the slots these records can set LOG_DEFERRED alone (R81). -/
theorem State.handRelatives_slot (v : State) (l : List CompNo) (i : SlotNo) :
    ∃ d, (l.foldl s.handRelative v).slots[i] = v.slots[i].deferred d := by
  induction l generalizing v with
  | nil => exact ⟨false, (Slot.deferred_false _).symm⟩
  | cons c l ih =>
    have hfirst : ∃ d, (s.handRelative v c).slots[i] = v.slots[i].deferred d := by
      unfold State.handRelative
      split
      · rw [State.handSample_slot]
        split
        · exact ⟨_, rfl⟩
        · exact ⟨false, (Slot.deferred_false _).symm⟩
      · exact ⟨false, (Slot.deferred_false _).symm⟩
    obtain ⟨a, ha⟩ := hfirst
    obtain ⟨b, hb⟩ := ih (s.handRelative v c)
    exact ⟨a || b, by rw [List.foldl_cons, hb, ha, Slot.deferred_deferred]⟩

theorem State.handRelatives_room {v : State} {l : List CompNo} {n : Nat} (h : v.log.Room (l.length + n)) :
    (l.foldl s.handRelative v).log.Room n := by
  induction l generalizing v with
  | nil => exact h.mono (by simp)
  | cons c l ih =>
    have hroom : v.log.Room (l.length + n + 1) := h.mono (by simp only [List.length_cons]; omega)
    refine ih ?_
    unfold State.handRelative
    split
    · rw [State.handGeneral_room hroom]
      exact hroom.append _
    · exact hroom.mono (Nat.le_succ _)

end

/-! ### Steps 1 to 4 of R190 -/

/-- The part after steps 1 to 4 of R190. -/
def State.rebased (s : State) (n : Nat) : State :=
  ((s.withClock (s.clock.setTo n)).rebaseAll (places 4)).creditGaps.rebaseOpenings

/-- A clock that has been set stamps with the new time (R188). -/
theorem State.stampNow_of_set {s t : State} {n : Nat} (h : t.clock = s.clock.setTo n) :
    t.stampNow = ⟨n, false⟩ ∧ t.now = n ∧ t.timed = true := by
  simp [State.stampNow, State.now, State.timed, h, DeviceClock.setTo]

section
variable (s : State) (n : Nat)

theorem State.rebased_clock : (s.rebased n).clock = s.clock.setTo n := by
  simp only [State.rebased, State.rebaseOpenings_frame, State.creditGaps_frame, State.rebaseAll_frame,
    State.withClock_clock]

theorem State.creditGaps_slot (i : SlotNo) : s.creditGaps.slots[i] =
    if s.slots[i].state = .inCustody then s.slots[i].creditGap s.now else s.slots[i] := by
  rw [State.creditGaps, State.withSlots_slots, getElem_mapAll]

theorem State.rebaseAll_eq_turns (l : List CompNo) :
    s.rebaseAll l = s.turns (fun u c => u.comps[c].settings.enabled) State.rebase l := by
  induction l generalizing s with
  | nil => rfl
  | cons c l ih => rw [State.rebaseAll, State.turns, ih]

theorem State.rebaseAll_comp {l : List CompNo} (hl : l.Nodup) (c : CompNo) : (s.rebaseAll l).comps[c] =
    if c ∈ l ∧ s.comps[c].settings.enabled = true then
      { s.comps[c] with lastStep := s.stampNow, interval := .opening s.stampNow }
    else s.comps[c] := by
  rw [State.rebaseAll_eq_turns]
  refine State.turns_place (place := fun u c => u.comps[c])
    (changed := fun u c => { u.comps[c] with lastStep := u.stampNow, interval := .opening u.stampNow })
    (fun u c => ?_) (fun u c d hcd => ?_) s hl c
  · rw [State.rebase_comps, getElem_setAt_self]
  · have hcomp : (u.rebase c).comps[d] = u.comps[d] := by rw [State.rebase_comps, getElem_setAt_ne _ _ hcd]
    obtain ⟨hstamp, -, -⟩ := State.stampNow_of_clock (s := u) (t := u.rebase c) (by simp only [State.rebase_frame])
    rw [hcomp, hstamp]
    exact ⟨rfl, rfl, rfl⟩

theorem State.rebased_comp (c : CompNo) : (s.rebased n).comps[c] =
    if s.comps[c].settings.enabled = true then
      { s.comps[c] with lastStep := ⟨n, false⟩, interval := .opening ⟨n, false⟩ }
    else s.comps[c] := by
  obtain ⟨hstamp, -, -⟩ := State.stampNow_of_set (State.withClock_clock s (s.clock.setTo n))
  simp only [State.rebased, State.rebaseOpenings_frame, State.creditGaps_frame]
  rw [State.rebaseAll_comp _ (nodup_places 4), hstamp, State.withClock_comps]
  simp only [mem_places, true_and]

theorem State.rebased_opening (c : CompNo) : (s.rebased n).hatch.openings[c] =
    if s.hatch.openings[c].state = .opening then { s.hatch.openings[c] with start := some ⟨n, false⟩ }
    else s.hatch.openings[c] := by
  have hclock : (((s.withClock (s.clock.setTo n)).rebaseAll (places 4)).creditGaps).clock = s.clock.setTo n := by
    simp only [State.creditGaps_frame, State.rebaseAll_frame, State.withClock_clock]
  obtain ⟨hstamp, -, -⟩ := State.stampNow_of_set hclock
  simp only [State.rebased, State.rebaseOpenings, State.withHatch_hatch, getElem_mapAll, hstamp, Opening.restart,
    State.creditGaps_frame, State.rebaseAll_frame, State.withClock_hatch]

theorem State.rebased_inputs : (s.rebased n).hatch.inputs = s.hatch.inputs := by
  simp only [State.rebased, State.rebaseOpenings, State.withHatch_hatch, State.creditGaps_frame, State.rebaseAll_frame,
    State.withClock_hatch]

/-- What the log and the slots meet up to step 2 of R190 are the SAMPLE records. -/
theorem State.relatives_handsAlike : ((places 4).foldl s.handRelative s).HandsAlike
    ((s.withClock (s.clock.setTo n)).rebaseAll (places 4)) :=
  s.rebaseAll_handsAlike (u := s.withClock (s.clock.setTo n)) (v := s) ⟨rfl, rfl, rfl⟩ (nodup_places 4) fun _ _ => rfl

theorem State.rebased_log : (s.rebased n).log = ((places 4).foldl s.handRelative s).log := by
  simp only [State.rebased, State.rebaseOpenings_frame, State.creditGaps_frame, (s.relatives_handsAlike n).log]

theorem State.rebased_notices : (s.rebased n).notices = ((places 4).foldl s.handRelative s).notices := by
  simp only [State.rebased, State.rebaseOpenings_frame, State.creditGaps_frame, (s.relatives_handsAlike n).notices]

theorem State.rebased_slot (i : SlotNo) : (s.rebased n).slots[i] =
    if ((places 4).foldl s.handRelative s).slots[i].state = .inCustody then
      ((places 4).foldl s.handRelative s).slots[i].creditGap n
    else ((places 4).foldl s.handRelative s).slots[i] := by
  have hclock : ((s.withClock (s.clock.setTo n)).rebaseAll (places 4)).clock = s.clock.setTo n := by
    simp only [State.rebaseAll_frame, State.withClock_clock]
  obtain ⟨-, hnow, -⟩ := State.stampNow_of_set hclock
  simp only [State.rebased, State.rebaseOpenings_frame, State.creditGaps_slot, hnow, (s.relatives_handsAlike n).slots]

/-- The credit moves no flag. -/
theorem State.rebased_logDeferred (i : SlotNo) :
    (s.rebased n).slots[i].logDeferred = ((places 4).foldl s.handRelative s).slots[i].logDeferred := by
  rw [State.rebased_slot]
  split <;> rfl

/-- The blind credit of R190 step 3. -/
theorem State.rebased_credit (i : SlotNo) :
    (s.rebased n).slots[i].blind = (if s.slots[i].state = .inCustody then
      min (s.slots[i].blind + (n - s.slots[i].lastAccounted)) 4294967295 else s.slots[i].blind) ∧
    (s.rebased n).slots[i].lastAccounted =
      (if s.slots[i].state = .inCustody then n else s.slots[i].lastAccounted) := by
  obtain ⟨d, hslot⟩ := s.handRelatives_slot s (places 4) i
  rw [State.rebased_slot, hslot, show (s.slots[i].deferred d).state = s.slots[i].state from rfl]
  split <;> exact ⟨rfl, rfl⟩

/-! ### The TIME record (R190 step 5) -/

/-- The TIME record of a setting from UNSET. -/
def State.fromUnsetEntry (s : State) (n : Nat) : Entry :=
  { stamp := ⟨n, false⟩, compartment := none, body := .time ⟨s.clock.uptime, true⟩ n .fromUnset }

variable {s}

theorem State.setFromUnset_eq (h : s.clock.state = .unset) :
    s.setFromUnset n = (s.rebased n).handGeneral (s.fromUnsetEntry n) := by
  obtain ⟨hstamp, hnow, -⟩ := State.stampNow_of_set (s.rebased_clock n)
  have hbefore : s.stampNow = ⟨s.clock.uptime, true⟩ := by simp [State.stampNow, State.now, State.timed, h]
  have hentry : (s.rebased n).timeEntry s.stampNow .fromUnset = s.fromUnsetEntry n := by
    rw [State.timeEntry, hstamp, hnow, hbefore, State.fromUnsetEntry]
  rw [← hentry]
  rfl

theorem State.setFromUnset_slots (h : s.clock.state = .unset) : (s.setFromUnset n).slots = (s.rebased n).slots := by
  rw [State.setFromUnset_eq n h]
  exact State.handGeneral_slots_of_other _ nofun

/-- The log, the notices and the flags are those of the SAMPLE records and the TIME record, handed one after another. -/
theorem State.setFromUnset_handed (h : s.clock.state = .unset) {w : State}
    (hw : w = ((places 4).foldl s.handRelative s).handGeneral (s.fromUnsetEntry n)) :
    (s.setFromUnset n).log = w.log ∧ (s.setFromUnset n).notices = w.notices ∧
      ∀ i : SlotNo, (s.setFromUnset n).slots[i].logDeferred = w.slots[i].logDeferred := by
  subst hw
  refine ⟨?_, ?_, fun i => ?_⟩
  · rw [State.setFromUnset_eq n h]
    exact State.handGeneral_log (s.rebased_log n) _
  · rw [State.setFromUnset_eq n h, State.handGeneral_notices, State.handGeneral_notices, State.rebased_log,
      State.rebased_notices]
  · rw [State.setFromUnset_slots n h, State.rebased_logDeferred,
      State.handGeneral_slots_of_other (e := s.fromUnsetEntry n) _ nofun]

theorem State.setFromUnset_record (h : s.clock.state = .unset) (hroom : s.log.Room 5) :
    ∃ r, (s.setFromUnset n).log.records.getLast? = some r ∧ r.stamp = ⟨n, false⟩ ∧ r.compartment = none ∧
      r.body = .time ⟨s.clock.uptime, true⟩ n .fromUnset := by
  have hleft : (s.rebased n).log.Room 1 := by
    rw [State.rebased_log]
    exact s.handRelatives_room (l := places 4) hroom
  refine ⟨(s.rebased n).log.recordOf (s.fromUnsetEntry n), ?_, rfl, rfl, rfl⟩
  rw [State.setFromUnset_eq n h, State.handGeneral_room hleft]
  exact List.getLast?_concat

end

end Sys2Proof.Machine
end

