-- ==== Sys2Proof/Proofs/TimeSettings.lean ====
section
/-! PROOFS. TIME_SET by the table of R190: its refusals, a setting from UNSET and a trim (R119, R190, R191). -/

namespace Sys2Proof.Machine

/-! ### The refusals -/

section
variable {s : State} {time : Word}

theorem State.timeSet_badValue (h : time.toNat = 4294967295) : s.timeSet time = s.refusing .badValue := if_pos h

variable (htime : time.toNat ≠ 4294967295)
include htime

theorem State.timeSet_of_unset (h : s.clock.state = .unset) : s.timeSet time =
    if time.toNat < s.clock.lastValid then s.refusing .backward
    else (okay (le32 time.toNat), s.setFromUnset time.toNat) := by
  simp only [State.timeSet, if_neg htime, h]

theorem State.timeSet_of_valid (h : s.clock.state = .valid) : s.timeSet time =
    if time.toNat < s.clock.counter then s.refusing .backward
    else if 120 < time.toNat - s.clock.counter then s.refusing .tooFar
    else (okay (le32 time.toNat), s.trim time.toNat) := by
  simp only [State.timeSet, if_neg htime, h]

/-- A setting from UNSET that is not before the last valid time. -/
theorem State.timeSet_fromUnset (h : s.clock.state = .unset) (hlast : s.clock.lastValid ≤ time.toNat) :
    s.timeSet time = (okay (le32 time.toNat), s.setFromUnset time.toNat) :=
  (State.timeSet_of_unset htime h).trans (if_neg (Nat.not_lt.mpr hlast))

/-- A setting of a VALID clock forward by at most 120 s. -/
theorem State.timeSet_trim (h : s.clock.state = .valid) (hback : s.clock.counter ≤ time.toNat)
    (hfar : time.toNat ≤ s.clock.counter + 120) :
    s.timeSet time = (okay (le32 time.toNat), s.trim time.toNat) :=
  ((State.timeSet_of_valid htime h).trans (if_neg (Nat.not_lt.mpr hback))).trans (if_neg (by omega))

end

/-! ### A trim (R191) -/

section
variable (s : State) (n : Nat)

/-- The TIME record of a trim. -/
def State.trimEntry (s : State) (n : Nat) : Entry :=
  { stamp := ⟨n, false⟩, compartment := none, body := .time ⟨s.clock.counter, false⟩ n .trim }

/-- The part with the new time and its TIME record, before the handovers it overtakes lapse. -/
def State.trimmed (s : State) (n : Nat) : State := (s.withClock (s.clock.setTo n)).handGeneral (s.trimEntry n)

theorem State.trim_eq {s : State} (h : s.clock.state = .valid) : s.trim n = (s.trimmed n).lapseAll (places 64) := by
  obtain ⟨hstamp, hnow, -⟩ := State.stampNow_of_set (State.withClock_clock s (s.clock.setTo n))
  have hbefore : s.stampNow = ⟨s.clock.counter, false⟩ := by simp [State.stampNow, State.now, State.timed, h]
  have hentry : (s.withClock (s.clock.setTo n)).timeEntry s.stampNow .trim = s.trimEntry n := by
    rw [State.timeEntry, hstamp, hnow, hbefore, State.trimEntry]
  rw [State.trim, hentry]
  rfl

theorem State.trimmed_clock : (s.trimmed n).clock = s.clock.setTo n := by
  simp only [State.trimmed, State.handGeneral_frame, State.withClock_clock]

theorem State.trim_clock {s : State} (h : s.clock.state = .valid) :
    (s.trim n).clock = { s.clock with counter := n, lastValid := n } := by
  simp only [State.trim_eq n h, State.lapseAll_frame, State.trimmed_clock, DeviceClock.setTo, h]

theorem State.trimmed_slots : (s.trimmed n).slots = s.slots := State.handGeneral_slots_of_other _ nofun

theorem State.trim_slot {s : State} (h : s.clock.state = .valid) (i : SlotNo) : (s.trim n).slots[i] =
    if (s.trimmed n).lapseDue i = true then s.slots[i].returned else s.slots[i] := by
  rw [State.trim_eq n h, State.lapseAll_slot _ (nodup_places 64), State.trimmed_slots]
  simp only [mem_places, true_and]

/-- The new time overtakes a handover whose deadline it reaches (R119). -/
theorem State.trimmed_lapseDue (i : SlotNo) : (s.trimmed n).lapseDue i = true ↔
    s.slots[i].state = .handingOver ∧ ∃ h, s.slots[i].handover = some h ∧ h.deadline ≤ n := by
  obtain ⟨-, hnow, -⟩ := State.stampNow_of_set (s.trimmed_clock n)
  rw [State.lapseDue_iff, State.trimmed_slots, hnow]

theorem State.trim_slot_handingOver {s : State} (h : s.clock.state = .valid) {i : SlotNo} {x : Handover}
    (hstate : s.slots[i].state = .handingOver) (hx : s.slots[i].handover = some x) :
    (s.trim n).slots[i].state = if x.deadline ≤ n then .inCustody else .handingOver := by
  have hdue : (s.trimmed n).lapseDue i = true ↔ x.deadline ≤ n := by
    rw [State.trimmed_lapseDue]
    simp [hstate, hx, -Fin.getElem_fin]
  rw [State.trim_slot n h]
  by_cases hreached : x.deadline ≤ n
  · rw [if_pos (hdue.mpr hreached), if_pos hreached]
    rfl
  · rw [if_neg (mt hdue.mp hreached), if_neg hreached, hstate]

theorem State.trim_slot_of_other {s : State} (h : s.clock.state = .valid) {i : SlotNo}
    (hstate : s.slots[i].state ≠ .handingOver) : (s.trim n).slots[i] = s.slots[i] := by
  rw [State.trim_slot n h, if_neg]
  exact fun hdue => hstate ((s.trimmed_lapseDue n i).mp hdue).1

/-- The TIME record, and after it a HANDOVER_ABANDON record for each lapse. -/
theorem State.trim_log {s : State} (h : s.clock.state = .valid) (hroom : s.log.Room 65) :
    (s.trim n).log = s.log.appendAll (s.trimEntry n ::
      ((places 64).filter (s.trimmed n).lapseDue).map fun i => abandonEntry s.slots[i] i .lapsed ⟨n, false⟩) := by
  have hlog : (s.trimmed n).log = s.log.append (s.trimEntry n) :=
    State.handGeneral_room (s := s.withClock (s.clock.setTo n)) hroom _
  obtain ⟨hstamp, -, -⟩ := State.stampNow_of_set (s.trimmed_clock n)
  rw [State.trim_eq n h, State.lapseAll_log _ (nodup_places 64), hlog, hstamp,
    State.trimmed_slots]
  · rfl
  · rw [hlog]
    exact hroom.append _

theorem State.trim_records {s : State} (h : s.clock.state = .valid) (hroom : s.log.Room 65) :
    ∃ r rest, (s.trim n).log.records = s.log.records ++ r :: rest ∧ r.stamp = ⟨n, false⟩ ∧ r.compartment = none ∧
      r.body = .time ⟨s.clock.counter, false⟩ n .trim ∧
      ∀ q ∈ rest, q.stamp = ⟨n, false⟩ ∧ ∃ id i m, q.body = .handoverAbandon id i .lapsed m := by
  rw [State.trim_log n h hroom]
  obtain ⟨rest, hrecords, hcontent⟩ := Log.appendAll_records (s.log.append (s.trimEntry n))
    (((places 64).filter (s.trimmed n).lapseDue).map fun i => abandonEntry s.slots[i] i .lapsed ⟨n, false⟩)
  refine ⟨s.log.recordOf (s.trimEntry n), rest, ?_, rfl, rfl, rfl, fun q hq => ?_⟩
  · exact hrecords.trans (List.append_assoc _ _ _)
  · have hmem := List.mem_map_of_mem (f := LogRecord.content) hq
    rw [hcontent, List.map_map] at hmem
    obtain ⟨i, -, hi⟩ := List.mem_map.mp hmem
    exact ⟨(congrArg Prod.fst hi).symm, _, _, _, (congrArg (fun content => content.2.2) hi).symm⟩

end

/-- Settles O51: each row of the table of R190 by its branch of `State.timeSet`, a setting from UNSET by `State.rebased`
and its records, a trim by `State.trimmed` and its lapses. -/
theorem timeIsSet : Obligations.TimeIsSet := by
  unfold Obligations.TimeIsSet
  rintro s tag time n hs rfl
  have hrefuses : ∀ st, s.timeSet time = s.refusing st →
      exec (.timeSet tag time) s = .next (s.replies 0x58 tag (refuse st)) := fun st h =>
    State.submit_report (.timeSet time) hs h
  refine ⟨fun h => hrefuses _ (State.timeSet_badValue h),
    fun htime hu hback => hrefuses _ ((State.timeSet_of_unset htime hu).trans (if_pos hback)),
    fun htime hv hback => hrefuses _ ((State.timeSet_of_valid htime hv).trans (if_pos hback)),
    fun htime hv hfar => hrefuses _ ?tooFar, fun htime hu hlast => ?fromUnset, fun htime hv hback hfar => ?trim⟩
  case tooFar =>
    rw [State.timeSet_of_valid htime hv, if_neg (by omega), if_pos (by omega)]
  case fromUnset =>
    have heq := State.setFromUnset_eq time.toNat hu
    have hslots := State.setFromUnset_slots time.toNat hu
    refine ⟨s.setFromUnset time.toNat, State.submit_of_ready (.timeSet time) hs
      (State.timeSet_fromUnset htime hu hlast) (by simp only [State.setFromUnset_frame]), ?_, fun c hc => ?_,
      fun c hc => ?_, fun i => ?_, fun c => ?_, fun hended hheld hplaces hsequences => ?_,
      fun w hw => State.setFromUnset_handed time.toNat hu hw, ?_, by simp only [State.setFromUnset_frame]⟩
    · simp only [heq, State.handGeneral_frame, State.rebased_clock, DeviceClock.setTo]
    · simp only [heq, State.handGeneral_frame, State.rebased_comp, hc, if_true]
    · simp only [heq, State.handGeneral_frame, State.rebased_comp, hc, Bool.false_eq_true, if_false]
    · rw [hslots]
      exact s.rebased_credit time.toNat i
    · simp only [heq, State.handGeneral_frame, State.rebased_opening]
    · exact State.setFromUnset_record time.toNat hu ⟨hended, hheld, by omega, by omega⟩
    · simp only [heq, State.handGeneral_frame, State.rebased_inputs]
  case trim =>
    exact ⟨s.trim time.toNat, State.submit_of_ready (.timeSet time) hs
      (State.timeSet_trim htime hv hback hfar) (by simp only [State.trim_frame]), State.trim_clock _ hv,
      by simp only [State.trim_frame], by simp only [State.trim_frame],
      fun hended hheld hplaces hsequences => State.trim_records _ hv ⟨hended, hheld, by omega, by omega⟩,
      fun i hstate x hx => State.trim_slot_handingOver _ hv hstate hx,
      fun i hstate => State.trim_slot_of_other _ hv hstate⟩

end Sys2Proof.Machine
end

