-- ==== Sys2Proof/Proofs/StartUpGap.lean ====
section
/-! PROOFS. The records of a start-up, in the order of R193 step 8, and the blind gap credits (R48, R132, R185, R188,
R194). -/

namespace Sys2Proof.Machine

/-! ### The records (R193 step 8) -/

section
variable (s : State)

/-- The SAMPLE records of the retained intervals that hold a step (R48). -/
def State.retainedEntries (s : State) : List Entry :=
  ((places 4).filter fun c => decide (0 < s.comps[c].interval.steps)).map fun c => s.comps[c].interval.entry c

/-- The HANDOVER_ABANDON records of the open handovers (R132). -/
def State.powerEntries (s : State) : List Entry :=
  ((places 64).filter fun i => s.slots[i].state == .handingOver).map fun i =>
    abandonEntry s.slots[i] i .power s.stampNow

/-- The CONFIG record of a part that starts DEFAULTED (R185 step 4). -/
def State.defaultedEntries (s : State) : List Entry :=
  if s.settings.source = .defaulted then
    [{ stamp := s.stampNow, compartment := none, body := .config .defaulted }]
  else []

/-- The records of a start-up before its POWER record. -/
def State.startEntries (s : State) : List Entry := s.retainedEntries ++ s.powerEntries ++ s.defaultedEntries

theorem State.retainedEntries_length : s.retainedEntries.length ≤ 4 := by
  rw [State.retainedEntries, List.length_map]
  exact (List.length_filter_le _ _).trans_eq (List.length_finRange)

theorem State.powerEntries_length : s.powerEntries.length ≤ 64 := by
  rw [State.powerEntries, List.length_map]
  exact (List.length_filter_le _ _).trans_eq (List.length_finRange)

theorem State.defaultedEntries_length : s.defaultedEntries.length ≤ 1 := by
  unfold State.defaultedEntries
  split
  · exact Nat.le_refl 1
  · exact Nat.zero_le 1

/-- What ends a handover is not touched by the SAMPLE records. -/
theorem State.closeRetained_powerEntries (l : List CompNo) : (s.closeRetained l).powerEntries = s.powerEntries := by
  have hstamp : (s.closeRetained l).stampNow = s.stampNow := (State.stampNow_of_clock (by simp)).1
  have hslot : ∀ i : SlotNo, ∃ d, (s.closeRetained l).slots[i] = s.slots[i].deferred d := fun i =>
    s.closeRetained_slot i l
  have hstate : ∀ i : SlotNo, ((s.closeRetained l).slots[i].state == .handingOver) =
      (s.slots[i].state == .handingOver) := fun i => by
    obtain ⟨d, hd⟩ := hslot i
    rw [hd]
    rfl
  have hentry : ∀ i : SlotNo, abandonEntry (s.closeRetained l).slots[i] i .power s.stampNow =
      abandonEntry s.slots[i] i .power s.stampNow := fun i => by
    obtain ⟨d, hd⟩ := hslot i
    rw [hd]
    rfl
  simp only [State.powerEntries, hstamp, hstate, hentry]

theorem State.recordDefaulted_log {s : State} (h : s.log.Room 1) :
    s.recordDefaulted.log = s.log.appendAll s.defaultedEntries := by
  unfold State.recordDefaulted State.defaultedEntries
  split
  · exact State.handGeneral_room h _
  · rfl

/-- The part as it hands the POWER record. -/
def State.credited (s : State) : State :=
  (((s.closeRetained (places 4)).abandonAll s.stampNow (places 64)).creditStart).recordDefaulted

theorem State.startRecords_eq (r : StartReason) (since : Nat) : s.startRecords r since =
    s.credited.handGeneral (s.credited.powerEntry r since s.handingOver) := rfl

theorem State.credited_clock : s.credited.clock = s.clock := by simp [State.credited]

theorem State.defaultedEntries_congr {s t : State} (hsettings : t.settings = s.settings) (hclock : t.clock = s.clock) :
    t.defaultedEntries = s.defaultedEntries := by
  rw [State.defaultedEntries, State.defaultedEntries, hsettings, (State.stampNow_of_clock hclock).1]

/-- Each step of R193 step 8 hands its records to the log that the one before it leaves. -/
theorem State.credited_log {s : State} (h : s.log.Room 70) : s.credited.log = s.log.appendAll s.startEntries := by
  have hclosed : (s.closeRetained (places 4)).log = s.log.appendAll s.retainedEntries :=
    s.closeRetained_log (nodup_places 4) (h.mono (by simp [places]))
  have hroom : (s.closeRetained (places 4)).log.Room 66 := by
    rw [hclosed]
    exact Log.Room.appendAll (h.mono (Nat.add_le_add_right s.retainedEntries_length 66))
  have hstamp : (s.closeRetained (places 4)).stampNow = s.stampNow := (State.stampNow_of_clock (by simp)).1
  have hended : ((s.closeRetained (places 4)).abandonAll s.stampNow (places 64)).log =
      (s.closeRetained (places 4)).log.appendAll s.powerEntries := by
    rw [← hstamp, State.abandonAll_log _ _ (nodup_places 64) (hroom.mono (by simp [places])),
      ← s.closeRetained_powerEntries (places 4)]
    rfl
  have hleft : ((s.closeRetained (places 4)).log.appendAll s.powerEntries).Room 2 :=
    Log.Room.appendAll (hroom.mono (Nat.add_le_add_right s.powerEntries_length 2))
  have hdefaulted : s.credited.log = ((s.closeRetained (places 4)).log.appendAll s.powerEntries).appendAll
      s.defaultedEntries := by
    rw [State.credited, State.recordDefaulted_log, State.defaultedEntries_congr (s := s)]
    · simp only [State.creditStart_frame, hended]
    · simp
    · simp
    · simpa only [State.creditStart_frame, hended] using hleft.mono (by omega)
  rw [hdefaulted, hclosed, State.startEntries, Log.appendAll_append, Log.appendAll_append]

theorem State.startEntries_length : s.startEntries.length ≤ 69 := by
  have hretained := s.retainedEntries_length
  have hpower := s.powerEntries_length
  have hdefaulted := s.defaultedEntries_length
  simp only [State.startEntries, List.length_append]
  omega

theorem State.startRecords_log {s : State} (h : s.log.Room 70) (r : StartReason) (since : Nat) :
    (s.startRecords r since).log =
      (s.log.appendAll s.startEntries).append (s.powerEntry r since s.handingOver) := by
  obtain ⟨hstamp, hnow, htimed⟩ := State.stampNow_of_clock s.credited_clock
  have hroom : s.credited.log.Room 1 := by
    rw [State.credited_log h]
    exact Log.Room.appendAll (h.mono (Nat.add_le_add_right s.startEntries_length 1))
  have hentry : s.credited.powerEntry r since s.handingOver = s.powerEntry r since s.handingOver := by
    rw [State.powerEntry, State.powerEntry, hstamp, hnow, htimed, s.credited_clock]
  rw [State.startRecords_eq, State.handGeneral_room hroom, State.credited_log h, hentry]

/-! ### The credits (R194) -/

variable (i : SlotNo)

theorem Slot.handedBack_credits (x : Slot) (d : Bool) :
    (x.deferred d).handedBack.state = .inCustody ↔ x.inCustody = true := by
  by_cases h : x.state = .handingOver
  · rw [Slot.handedBack_of_over (x := x.deferred d) h]
    simp [Slot.inCustody, Slot.returned, h]
  · rw [Slot.handedBack_of_not (x := x.deferred d) h]
    simp [Slot.inCustody, Slot.deferred, h]

/-- A handover's end and a deferred SAMPLE touch none of the accounting. -/
theorem Slot.handedBack_accounts (x : Slot) (d : Bool) : (x.deferred d).handedBack.blind = x.blind ∧
    (x.deferred d).handedBack.lastAccounted = x.lastAccounted ∧ (x.deferred d).handedBack.covered = x.covered := by
  unfold Slot.handedBack
  split <;> exact ⟨rfl, rfl, rfl⟩

/-- The slots meet the credits with their handovers ended. -/
theorem State.startRecords_slot_eq (r : StartReason) (since : Nat) : ∃ d, (s.startRecords r since).slots[i] =
    if s.timed = true ∧ s.slots[i].inCustody = true then (s.slots[i].deferred d).handedBack.creditGap s.now
    else (s.slots[i].deferred d).handedBack := by
  obtain ⟨d, hd⟩ := s.closeRetained_slot i (places 4)
  have hended : ((s.closeRetained (places 4)).abandonAll s.stampNow (places 64)).slots[i] =
      (s.slots[i].deferred d).handedBack := by
    rw [State.abandonAll_slot, if_pos (mem_places i), hd]
  obtain ⟨-, hnow, htimed⟩ := State.stampNow_of_clock (s := s)
    (t := (s.closeRetained (places 4)).abandonAll s.stampNow (places 64)) (by simp)
  refine ⟨d, ?_⟩
  rw [State.startRecords, State.handPower_slots, State.recordDefaulted_slots, State.creditStart, htimed]
  by_cases ht : s.timed = true
  · rw [if_pos ht, State.creditGaps_slot, hended, hnow]
    simp only [ht, true_and, Slot.handedBack_credits]
  · rw [if_neg ht, if_neg fun h => ht h.1, hended]

end

/-! ### The start-up -/

section
variable (s : State) (r : StartReason) (since : Nat)

theorem State.startUp_log {s : State} (h : s.log.Room 70) : (s.startUp r since).offer.log =
    (s.log.appendAll s.startBlocks.startEntries).append
      (s.startBlocks.powerEntry r since s.startBlocks.handingOver) := by
  have hblocks : s.startBlocks.log = s.log := by simp only [State.startBlocks_frame]
  rw [← hblocks, ← State.startRecords_log (by rwa [hblocks])]
  simp only [State.offer_frame, State.startUp, State.withFree_log, State.endStart_frame]

theorem State.startUp_offer_clock : (s.startUp r since).offer.clock = s.startBlocks.clock := by
  simp only [State.offer_frame, State.startUp, State.withFree_clock, State.endStart_frame, State.startRecords_frame]

theorem State.startUp_offer_settings : (s.startUp r since).offer.settings = s.startBlocks.settings := by
  simp only [State.offer_frame, State.startUp, State.withFree_settings, State.endStart_frame, State.startRecords_frame]

theorem State.startUp_offer_slot (i : SlotNo) : ∃ d, (s.startUp r since).offer.slots[i] =
    if s.startBlocks.timed = true ∧ s.slots[i].inCustody = true then
      (s.slots[i].deferred d).handedBack.creditGap s.startBlocks.now
    else (s.slots[i].deferred d).handedBack := by
  obtain ⟨d, hslot⟩ := s.startBlocks.startRecords_slot_eq i r since
  refine ⟨d, ?_⟩
  simp only [State.offer_frame, State.startUp, State.withFree_slots, State.endStart_frame, hslot, State.startBlocks_frame]

end

/-! ### What each event brings -/

/-- The part `s0` that start-up takes up after an event of part `s`: n seconds have passed, and the clock was held through
them or not (R188). -/
structure State.TakesUp (s s0 : State) (n : Nat) (held : Bool) : Prop where
  log : s0.log = s.log
  comps : s0.comps = s.comps
  slots : ∀ i : SlotNo, ∃ q, s0.slots[i] = { s.slots[i] with openingSeconds := q }
  kept : s.clock.state = .valid ∧ held = true →
    s0.clock.state = .valid ∧ s0.clock.counter = min (s.clock.counter + n) 4294967294
  lost : s.clock.state = .unset ∨ held = false → s0.clock.state = .unset

theorem State.powering_takesUp (s : State) (n : Nat) (held : Bool) : s.TakesUp (s.powering n held) n held where
  log := rfl
  comps := rfl
  slots _ := ⟨_, rfl⟩
  kept h := by
    rw [State.powering, State.withClock_clock, DeviceClock.powered, if_pos h]
    exact ⟨h.1, rfl⟩
  lost h := by
    have hnot : ¬ (s.clock.state = .valid ∧ held = true) := by
      rintro ⟨hvalid, rfl⟩
      rcases h with hunset | hheld
      · exact absurd (hvalid.symm.trans hunset) (by decide)
      · cases hheld
    rw [State.powering, State.withClock_clock, DeviceClock.powered, if_neg hnot]

theorem State.restarting_takesUp {s : State} (h : s.power = .on) (n : Nat) : s.TakesUp (s.restarting n) n true where
  log := (State.restarting_begins h n).log
  comps := by simp [State.restarting]
  slots i := ⟨_, by rw [(State.restarting_begins h n).slots, State.openingCredited_eq]⟩
  kept hkept := by
    refine ⟨(State.restarting_begins h n).clock.trans hkept.1, ?_⟩
    simp only [State.restarting, State.withClock_clock, State.creditOpenAll_frame, DeviceClock.pass]
    rfl
  lost hlost := (State.restarting_begins h n).clock.trans (hlost.resolve_right (by decide))

/-- The frames sent before a RESTART's start-up are no part of this. -/
theorem State.restartSent_takesUp {s s0 : State} {tag : Byte} {n : Nat} {held : Bool}
    (h : (s.restartSent tag).TakesUp s0 n held) : s.TakesUp s0 n held :=
  ⟨h.log, h.comps, h.slots, h.kept, h.lost⟩

theorem exec_start {s : State} {n : Nat} {held : Bool} {c : Instr} {reason : StartReason} {since : Nat}
    (h : (c = .powerOn n held ∧ reason = .powerOn ∧ since = s.clock.lastValid) ∨
      (c = .resetLine n ∧ s.power = .on ∧ reason = .resetLine ∧ since = s.now ∧ held = true) ∨
      (∃ tag, c = .restart tag ∧ s.ready ∧ reason = .restart ∧ since = s.now ∧ held = true ∧
        n = Config.restartSeconds s.free)) :
    ∃ s0, exec c s = .next (State.startUp s0 reason since).offer ∧ s.TakesUp s0 n held := by
  have hoffer : ∀ (s0 : State), (s0.startUp reason since).pump = (s0.startUp reason since).offer :=
    fun s0 => (s0.startUp_link reason since).1
  rcases h with ⟨rfl, rfl, rfl⟩ | ⟨rfl, hon, rfl, rfl, rfl⟩ | ⟨tag, rfl, ⟨hon, hreply, hqueue⟩, rfl, rfl, rfl, rfl⟩
  · refine ⟨s.powering n held, ?_, s.powering_takesUp n held⟩
    rw [← hoffer]
    rfl
  · refine ⟨s.restarting n, ?_, State.restarting_takesUp hon n⟩
    rw [← hoffer]
    simp only [exec, execResetLine, State.happen, hon, State.restartAs_eq]
  · refine ⟨(s.restartSent tag).restarting (Config.restartSeconds s.free), ?_,
      State.restartSent_takesUp (State.restarting_takesUp (s := s.restartSent tag) hon _)⟩
    rw [← hoffer]
    simp only [exec, execRestart, State.submit, State.happen, hon, hreply, hqueue, and_self, if_true, State.take]
    rfl

/-! ### The records, by the part as it was before the event -/

section
variable {s s0 : State} {n : Nat} {held : Bool}

theorem State.TakesUp.retained (h : s.TakesUp s0 n held) :
    s0.startBlocks.retainedEntries.map Entry.content =
      ((places 4).filter fun d => decide (0 < s.comps[d].interval.steps)).map fun d =>
        ((s.comps[d].interval.entry d).stamp, some d, (s.comps[d].interval.entry d).body) := by
  have hinterval : ∀ d : CompNo, s0.startBlocks.comps[d].interval = s.comps[d].interval := fun d => by
    rw [State.startBlocks_comp, h.comps]
    rfl
  simp only [State.retainedEntries, hinterval, List.map_map]
  rfl

theorem State.TakesUp.ended (h : s.TakesUp s0 n held) :
    s0.startBlocks.powerEntries.map Entry.content =
      ((places 64).filter fun i => s.slots[i].state == .handingOver).map fun i =>
        (s0.startBlocks.stampNow, some s.slots[i].compartment,
          .handoverAbandon s.slots[i].identifier i .power s.slots[i].refusals) := by
  have hblocks : s0.startBlocks.slots = s0.slots := by simp only [State.startBlocks_frame]
  have hstate : ∀ i : SlotNo, s0.slots[i].state = s.slots[i].state := fun i => by
    obtain ⟨q, hq⟩ := h.slots i
    rw [hq]
  have hentry : ∀ i : SlotNo, abandonEntry s0.slots[i] i .power s0.startBlocks.stampNow =
      abandonEntry s.slots[i] i .power s0.startBlocks.stampNow := fun i => by
    obtain ⟨q, hq⟩ := h.slots i
    rw [hq]
    rfl
  simp only [State.powerEntries, hblocks, hstate, hentry, List.map_map]
  rfl

theorem State.TakesUp.handingOver (h : s.TakesUp s0 n held) : s0.startBlocks.handingOver = s.handingOver := by
  have hblocks : s0.startBlocks.slots = s0.slots := by simp only [State.startBlocks_frame]
  have hstate : ∀ i : SlotNo, s0.slots[i].state = s.slots[i].state := fun i => by
    obtain ⟨q, hq⟩ := h.slots i
    rw [hq]
  simp only [State.handingOver, countAt, hblocks, hstate]

theorem State.defaulted_content (t : State) : t.defaultedEntries.map Entry.content =
    if t.settings.source = .defaulted then [(t.stampNow, none, .config .defaulted)] else [] := by
  unfold State.defaultedEntries
  split <;> rfl

/-- With the clock kept a consignment in custody is credited up to the start-up time (R194). -/
theorem State.TakesUp.credit (h : s.TakesUp s0 n held) (ht : s0.startBlocks.timed = true) (r : StartReason) (since : Nat)
    {i : SlotNo} (hi : s.slots[i].inCustody = true) :
    (s0.startUp r since).offer.slots[i].lastAccounted = s0.startBlocks.now ∧
      (s0.startUp r since).offer.slots[i].blind =
        min (s.slots[i].blind + (s0.startBlocks.now - s.slots[i].lastAccounted)) 4294967295 ∧
      (s0.startUp r since).offer.slots[i].covered = s.slots[i].covered := by
  obtain ⟨q, hq⟩ := h.slots i
  obtain ⟨d, hslot⟩ := s0.startUp_offer_slot r since i
  obtain ⟨hblind, hlast, hcovered⟩ := s0.slots[i].handedBack_accounts d
  have hheld : s0.slots[i].inCustody = true := by
    rw [hq]
    exact hi
  rw [hslot, if_pos ⟨ht, hheld⟩]
  refine ⟨rfl, ?_, ?_⟩
  · rw [Slot.creditGap, hblind, hlast, hq, sat32_eq]
  · rw [Slot.creditGap, hcovered, hq]

/-- With the clock lost none is. -/
theorem State.TakesUp.uncredited (h : s.TakesUp s0 n held) (ht : ¬ s0.startBlocks.timed = true) (r : StartReason)
    (since : Nat) (i : SlotNo) : (s0.startUp r since).offer.slots[i].lastAccounted = s.slots[i].lastAccounted ∧
      (s0.startUp r since).offer.slots[i].blind = s.slots[i].blind := by
  obtain ⟨q, hq⟩ := h.slots i
  obtain ⟨d, hslot⟩ := s0.startUp_offer_slot r since i
  obtain ⟨hblind, hlast, -⟩ := s0.slots[i].handedBack_accounts d
  rw [hslot, if_neg fun hall => ht hall.1, hblind, hlast, hq]
  exact ⟨rfl, rfl⟩

end

/-- Settles O54: the records are those of `State.startUp_log`, the credits those of `State.startUp_offer_slot`, for the
part that each event takes up (`exec_start`). -/
theorem startUpCreditsTheGap : Obligations.StartUpCreditsTheGap := by
  unfold Obligations.StartUpCreditsTheGap
  intro s n held c reason since hevent hended hheld hplaces hsequences
  obtain ⟨s0, hexec, h⟩ := exec_start hevent
  have hroom : s0.log.Room 70 := by
    rw [h.log]
    exact ⟨hended, hheld, by omega, by omega⟩
  have hclock := s0.startUp_offer_clock reason since
  obtain ⟨hstamp, hnow, -⟩ := State.stampNow_of_clock hclock
  obtain ⟨earlier, hrecords, hcontent⟩ := s0.log.appendAll_records s0.startBlocks.startEntries
  refine ⟨(s0.startUp reason since).offer, (s0.log.appendAll s0.startBlocks.startEntries).recordOf
    (s0.startBlocks.powerEntry reason since s0.startBlocks.handingOver), earlier, hexec, ?_, hstamp.symm, rfl, ?_,
    fun hkept => ?_, fun hlost => ?_⟩
  · rw [State.startUp_log reason since hroom, Log.append, hrecords, h.log]
  · rw [hstamp, s0.startUp_offer_settings, ← State.defaulted_content, ← h.ended, ← h.retained, ← List.map_append,
      ← List.map_append]
    exact hcontent
  · obtain ⟨hvalid, hcounter⟩ := h.kept hkept
    have ht : s0.startBlocks.timed = true := (State.timed_iff _).mpr hvalid
    have hreads : s0.startBlocks.now = (s0.startUp reason since).offer.clock.counter := by
      rw [hclock, State.now, if_pos ht]
    refine ⟨by rw [hclock]; exact hcounter, ?_, fun i hi => ?_⟩
    · rw [← hreads, ← h.handingOver, ← hvalid]
      simp only [Log.recordOf, State.powerEntry, ht, if_true]
      rfl
    · rw [← hreads]
      exact h.credit ht reason since hi
  · have hunset := h.lost hlost
    have ht : ¬ s0.startBlocks.timed = true := fun ht =>
      absurd (((State.timed_iff _).mp ht).symm.trans hunset) (by decide)
    refine ⟨?_, fun i => h.uncredited ht reason since i⟩
    rw [← h.handingOver, ← hunset]
    simp only [Log.recordOf, State.powerEntry, ht, Bool.false_eq_true, if_false]
    rfl

end Sys2Proof.Machine
end

