-- ==== Sys2Proof/Proofs/LinkSettles.lean ====
section
/-! PROOFS. The link's work after an event leaves it nothing to do, whatever it was before: an IDLE transmitter has begun
what waited, and no frame waits but behind a reply (R199, R202). -/

namespace Sys2Proof.Machine

/-- The link has nothing left to do: an IDLE transmitter finds neither a reply nor an owed notice, and no frame waits but
behind a reply. -/
structure State.LinkSettled (s : State) : Prop where
  reply : s.link.transmitter = .idle → s.link.reply = none
  owed : s.link.transmitter = .idle → s.notices.owed = false
  queue : s.link.reply = none → s.link.queue = []

section
variable {s t : State}

/-! ### One half-step of the link's work -/

/-- Offered a reply, an IDLE transmitter begins it. -/
theorem State.offer_reply {f : Frame} (ht : s.link.transmitter = .idle) (hr : s.link.reply = some f) :
    s.offer = s.withLink { s.link with transmitter := .sendingReply f, reply := none } := by
  simp only [State.offer, ht, hr, State.sendReply, State.updLink]

/-- With no reply and no notice owed it stays IDLE. -/
theorem State.offer_nothing (ht : s.link.transmitter = .idle) (hr : s.link.reply = none)
    (ho : s.notices.owed = false) : s.offer = s := by
  simp only [State.offer, ht, hr, ho, Bool.false_eq_true, if_false]

/-- With no reply and a notice owed, the notice begins or is withdrawn (R167). -/
theorem State.offer_notice (ht : s.link.transmitter = .idle) (hr : s.link.reply = none)
    (ho : s.notices.owed = true) : s.offer = s.sendNotice := by
  simp only [State.offer, ht, hr, ho, if_true]

theorem State.sendNotice_pending (hp : s.notices.anyPending = true) : s.sendNotice =
    (s.withLink { s.link with transmitter := .sendingNotice s.noticeFrame }).withNotices s.notices.taken := if_pos hp

theorem State.sendNotice_withdrawn (hp : s.notices.anyPending = false) :
    s.sendNotice = s.withNotices { s.notices with owed := false } := if_neg (Bool.eq_false_iff.mp hp)

/-- A transmitter that an offer leaves IDLE was so, and found no reply; no notice is owed then. -/
theorem State.offer_idle (h : s.offer.link.transmitter = .idle) : s.link.transmitter = .idle ∧ s.link.reply = none ∧
    s.offer.link.reply = none ∧ s.offer.notices.owed = false := by
  have ht : s.link.transmitter = .idle := by
    by_contra hbusy
    rw [State.offer_busy hbusy] at h
    exact hbusy h
  cases hr : s.link.reply with
  | some f =>
    rw [State.offer_reply ht hr] at h
    cases h
  | none =>
    have hlink : s.offer.link.reply = none := by
      rw [(State.offer_of_noReply hr).1]
      exact hr
    refine ⟨ht, rfl, hlink, ?_⟩
    cases ho : s.notices.owed with
    | false => rw [State.offer_nothing ht hr ho, ho]
    | true =>
      rw [State.offer_notice ht hr ho]
      unfold State.sendNotice
      split <;> rfl

/-- A request that is taken leaves its reply formed. -/
theorem State.take_link (s : State) (tag : Byte) {r : Request} (h : r ≠ .restart) :
    ∃ f, (s.take tag r).link = { s.link with reply := some f } := by
  refine ⟨replyFrame r.kind tag (s.perform r).1, ?_⟩
  simp only [State.take, if_neg h, State.formReply, State.updLink, State.withLink_link, State.perform_frame]

/-- A RESTART leaves the link of its start-up (R203). -/
theorem State.takeRestart_link (s : State) (tag : Byte) :
    (s.take tag .restart).link.reply = none ∧ (s.take tag .restart).link.queue = [] := by
  obtain ⟨-, -, -, -, -, -, hlink, -⟩ := ((s.restartSent tag).restarting (Config.restartSeconds s.free)).startUp_stores
    .restart (s.restartSent tag).now
  have htaken : (s.take tag .restart).link =
      ((s.restartSent tag).restarting (Config.restartSeconds s.free)).link.started := hlink
  rw [htaken]
  exact ⟨rfl, rfl⟩

theorem State.takeFrame_link (s : State) {f : Frame} (h : parse f.kind f.payload ≠ .ok .restart) :
    ∃ g, (s.takeFrame f).link = { s.link with reply := some g } := by
  unfold State.takeFrame
  split
  next => exact ⟨_, rfl⟩
  next r hr => exact s.take_link f.tag fun hrestart => h (hrestart ▸ hr)

theorem State.takeFrame_restart_link (s : State) {f : Frame} (h : parse f.kind f.payload = .ok .restart) :
    (s.takeFrame f).link.reply = none ∧ (s.takeFrame f).link.queue = [] := by
  simp only [State.takeFrame, h]
  exact s.takeRestart_link f.tag

theorem State.takeFrame_cases (s : State) (f : Frame) :
    (∃ g, (s.takeFrame f).link = { s.link with reply := some g }) ∨
      ((s.takeFrame f).link.reply = none ∧ (s.takeFrame f).link.queue = []) := by
  by_cases h : parse f.kind f.payload = .ok .restart
  · exact .inr (s.takeFrame_restart_link h)
  · exact .inl (s.takeFrame_link h)

theorem State.takeFrame_queue_le (s : State) (f : Frame) :
    (s.takeFrame f).link.queue.length ≤ s.link.queue.length := by
  rcases s.takeFrame_cases f with ⟨g, hlink⟩ | ⟨-, hqueue⟩
  · rw [hlink]
  · rw [hqueue]
    exact Nat.zero_le _

/-- The head of the queue is left alone, or taken. -/
theorem State.takeHead_cases (s : State) : (s.takeHead = s ∧ (s.link.reply = none → s.link.queue = [])) ∨
    ∃ f rest, s.link.queue = f :: rest ∧ s.takeHead = (s.withLink { s.link with queue := rest }).takeFrame f := by
  cases hr : s.link.reply with
  | some g => exact .inl ⟨State.takeHead_of_reply hr, nofun⟩
  | none =>
    cases hq : s.link.queue with
    | nil => exact .inl ⟨State.takeHead_of_empty hq, fun _ => rfl⟩
    | cons f rest => exact .inr ⟨f, rest, rfl, by simp only [State.takeHead, hr, hq, State.updLink]⟩

/-- Once the head is taken no frame waits but behind a reply. -/
theorem State.takeHead_waits (s : State) (h : s.takeHead.link.reply = none) : s.takeHead.link.queue = [] := by
  rcases s.takeHead_cases with ⟨hself, hwaits⟩ | ⟨f, rest, -, htaken⟩
  · rw [hself] at h ⊢
    exact hwaits h
  · rw [htaken] at h ⊢
    rcases State.takeFrame_cases _ f with ⟨g, hlink⟩ | ⟨-, hqueue⟩
    · rw [hlink] at h
      cases h
    · exact hqueue

/-- The taking of the head leaves a busy transmitter busy, unless it leaves no frame waiting. -/
theorem State.takeHead_busy (h : s.link.transmitter ≠ .idle) :
    s.takeHead.link.transmitter ≠ .idle ∨ s.takeHead.link.queue = [] := by
  rcases s.takeHead_cases with ⟨hself, -⟩ | ⟨f, rest, -, htaken⟩
  · rw [hself]
    exact .inl h
  · rw [htaken]
    rcases State.takeFrame_cases (s.withLink { s.link with queue := rest }) f with ⟨g, hlink⟩ | ⟨-, hqueue⟩
    · rw [hlink]
      exact .inl h
    · exact .inr hqueue

theorem State.takeHead_queue_le (s : State) : s.takeHead.link.queue.length ≤ s.link.queue.length := by
  rcases s.takeHead_cases with ⟨hself, -⟩ | ⟨f, rest, hq, htaken⟩
  · rw [hself]
  · rw [htaken, hq]
    exact (State.takeFrame_queue_le _ f).trans (Nat.le_succ _)

/-! ### The whole of it -/

theorem State.pump_queue_le (s : State) : s.pump.link.queue.length ≤ s.link.queue.length := by
  have hsecond := s.offer.takeHead.offer.takeHead_queue_le
  have hfirst := s.offer.takeHead_queue_le
  rw [State.offer_queue] at hsecond hfirst
  rw [State.pump, State.offer_queue]
  exact hsecond.trans hfirst

/-- An offer settles a link in which no frame waits but behind a reply, unless the reply is what an IDLE transmitter
waits for. -/
theorem State.settled_offer (hwaits : s.link.reply = none → s.link.queue = [])
    (hidle : s.link.transmitter = .idle → s.link.queue = []) : s.offer.LinkSettled where
  reply h := (State.offer_idle h).2.2.1
  owed h := (State.offer_idle h).2.2.2
  queue h := by
    rw [State.offer_queue]
    by_cases ht : s.link.transmitter = .idle
    · exact hidle ht
    · rw [State.offer_busy ht] at h
      exact hwaits h

/-- The second taking finds an IDLE transmitter only where no frame waits: one that is IDLE after the offer before it
found no reply, and the first taking left no frame without one. -/
theorem State.pump_settled (s : State) : s.pump.LinkSettled := by
  refine State.settled_offer (State.takeHead_waits _) fun hidle => ?_
  by_cases hbefore : s.offer.takeHead.offer.link.transmitter = .idle
  · obtain ⟨-, hnone, -, -⟩ := State.offer_idle hbefore
    have hqueue : s.offer.takeHead.offer.link.queue = [] := by
      rw [State.offer_queue]
      exact State.takeHead_waits _ hnone
    rw [State.takeHead_of_empty hqueue]
    exact hqueue
  · exact (State.takeHead_busy hbefore).resolve_left (not_not_intro hidle)

theorem State.LinkSettled.offer_eq (h : s.LinkSettled) : s.offer = s := by
  by_cases ht : s.link.transmitter = .idle
  · exact State.offer_nothing ht (h.reply ht) (h.owed ht)
  · exact State.offer_busy ht

theorem State.LinkSettled.takeHead_eq (h : s.LinkSettled) : s.takeHead = s := by
  cases hr : s.link.reply with
  | none => exact State.takeHead_of_empty (h.queue hr)
  | some f => exact State.takeHead_of_reply hr

/-- A settled link has no work. -/
theorem State.LinkSettled.pump_eq (h : s.LinkSettled) : s.pump = s := by
  simp only [State.pump, h.offer_eq, h.takeHead_eq]

theorem State.pump_pump (s : State) : s.pump.pump = s.pump := s.pump_settled.pump_eq

/-! ### The link in order -/

/-- With VDD present the order of the link is that it is settled. -/
theorem State.linkOk_iff : s.linkOk ↔ (s.power = .on → s.LinkSettled) ∧ s.link.queue.length ≤ 4 := by
  refine and_congr_left' (imp_congr_right fun hon => ?_)
  exact ⟨fun ⟨⟨_, hreply, hqueue⟩, howed⟩ => ⟨hreply, howed, hqueue⟩,
    fun h => ⟨⟨hon, h.reply, h.queue⟩, h.owed⟩⟩

theorem State.pump_linkOk (h : s.link.queue.length ≤ 4) : s.pump.linkOk :=
  State.linkOk_iff.mpr ⟨fun _ => s.pump_settled, s.pump_queue_le.trans h⟩

/-- An event keeps the link in order where its own effect leaves at most four frames waiting: with VDD present the link's
work follows it. -/
theorem State.happen_linkOk {f : State → State} (h : s.linkOk) (hf : (f s).link.queue.length ≤ 4) :
    (s.happen f).linkOk := by
  unfold State.happen
  split
  · exact State.pump_linkOk hf
  · exact h

/-- The order of the link rests on the supply, the link and whether a notice is owed. -/
theorem State.linkOk_of_same (h : s.linkOk) (hpower : t.power = s.power) (hlink : t.link = s.link)
    (hnotices : t.notices = s.notices) : t.linkOk := by
  unfold State.linkOk State.quiet at h ⊢
  rw [hpower, hlink, hnotices]
  exact h

end

end Sys2Proof.Machine
end

