-- ==== Sys2Proof/Proofs/LinkInOrder.lean ====
section
/-! PROOFS. Every step keeps the link in order: no operation leaves more than four frames waiting, and the link's work
follows each event (R199, R202). -/

namespace Sys2Proof.Machine

section
variable (s : State)

/-! ### How many frames wait (R199) -/

theorem State.take_queue_le (tag : Byte) (r : Request) : (s.take tag r).link.queue.length ≤ s.link.queue.length := by
  by_cases h : r = .restart
  · rw [h, (s.takeRestart_link tag).2]
    exact Nat.zero_le _
  · obtain ⟨f, hlink⟩ := s.take_link tag h
    rw [hlink]

theorem State.finishFrame_queue : s.finishFrame.link.queue = s.link.queue := by
  unfold State.finishFrame State.sendNotice State.updLink
  dsimp only
  (repeat' split) <;> rfl

theorem State.silence_queue : s.silence.link.queue = s.link.queue := by
  unfold State.silence
  split <;> rfl

theorem State.restartAs_queue (r : StartReason) (n : Nat) : (s.restartAs r n).link.queue = [] := by
  obtain ⟨-, -, -, -, -, -, hlink, -⟩ := (s.restarting n).startUp_stores r s.now
  rw [State.restartAs_eq, hlink]
  rfl

theorem State.powerUp_queue (absence : Nat) (held : Bool) : (s.powerUp absence held).link.queue = [] := by
  obtain ⟨-, -, -, -, -, -, hlink, -⟩ := (s.powering absence held).startUp_stores .powerOn s.clock.lastValid
  have hstarted : (s.powerUp absence held).link = (s.powering absence held).link.started := hlink
  rw [hstarted]
  rfl

variable {s}

/-- A fifth frame is discarded. -/
theorem State.enqueue_queue_le (f : Frame) (h : s.link.queue.length ≤ 4) : (s.enqueue f).link.queue.length ≤ 4 := by
  unfold State.enqueue
  split
  next => exact h
  next hroom =>
    simp only [State.updLink, State.withLink_link, List.length_append, List.length_singleton]
    omega

theorem State.accept_queue_le (f : Frame) (h : s.link.queue.length ≤ 4) : (s.accept f).link.queue.length ≤ 4 := by
  unfold State.accept
  split
  · exact (s.takeFrame_queue_le f).trans h
  · exact State.enqueue_queue_le f h

theorem State.assemble_queue_le (bytes : List Byte) (h : s.link.queue.length ≤ 4) :
    (s.assemble bytes).link.queue.length ≤ 4 := by
  unfold State.assemble
  split
  · exact h
  split
  · exact h
  split
  · exact h
  split
  · exact (State.pump_queue_le _).trans (State.accept_queue_le _ h)
  · exact h

theorem State.receive_queue_le (b : LineByte) (h : s.link.queue.length ≤ 4) : (s.receive b).link.queue.length ≤ 4 := by
  unfold State.receive
  split
  · split <;> exact h
  · exact h
  · exact State.assemble_queue_le _ h
  · exact h

theorem State.receiveAll_queue_le (l : List LineByte) (h : s.link.queue.length ≤ 4) :
    (s.receiveAll l).link.queue.length ≤ 4 := by
  induction l generalizing s with
  | nil => exact h
  | cons b l ih =>
    rw [State.receiveAll]
    split
    · exact ih (State.receive_queue_le b h)
    · exact State.receive_queue_le b h

/-- A timer event brings no frame. -/
theorem State.fire_queue_le (s : State) (e : TimerEvent) : (s.fire e).link.queue.length ≤ s.link.queue.length := by
  refine (State.pump_queue_le _).trans_eq ?_
  cases e <;> simp

theorem State.fireAll_queue_le (s : State) (l : List TimerEvent) :
    (s.fireAll l).link.queue.length ≤ s.link.queue.length := by
  induction l generalizing s with
  | nil => exact le_rfl
  | cons e l ih => exact (ih _).trans (s.fire_queue_le e)

theorem State.passTo_queue_le (s : State) (n : Nat) : (s.passTo n).link.queue.length ≤ s.link.queue.length := by
  induction n generalizing s with
  | zero => exact le_rfl
  | succ n ih => exact (ih _).trans (by simpa using s.fireAll_queue_le s.due)

theorem State.nextTick_queue_le (s : State) : s.nextTick.link.queue.length ≤ s.link.queue.length := by
  simpa [State.nextTick] using s.passTo_queue_le s.scan.tickIn

theorem State.longOpenExpiry_queue_le (s : State) (c : CompNo) :
    (s.longOpenExpiry c).link.queue.length ≤ s.link.queue.length := by
  unfold State.longOpenExpiry
  split
  · simpa using s.passTo_queue_le (s.longOpenLeft c)
  · exact le_rfl

theorem State.handoverLapse_queue_le (s : State) (i : SlotNo) :
    (s.handoverLapse i).link.queue.length ≤ s.link.queue.length := by
  unfold State.handoverLapse
  split
  · simpa using s.passTo_queue_le _
  · exact le_rfl

/-! ### Commands and steps -/

/-- A request keeps the link in order, taken at once or queued. -/
theorem State.submit_linkOk (tag : Byte) (r : Request) (h : s.linkOk) : (s.submit tag r).linkOk := by
  refine State.happen_linkOk h ?_
  split
  · exact (s.take_queue_le tag r).trans h.2
  · exact State.enqueue_queue_le _ h.2

/-- An event of a block leaves the link to the work that follows. -/
theorem State.happen_linkOk_of_block {f : State → State} (h : s.linkOk) (hf : (f s).link = s.link) :
    (s.happen f).linkOk :=
  State.happen_linkOk h (hf ▸ h.2)

/-- Every command keeps the link in order: an event by the frames that it leaves waiting, a row that is not named by those
that a request does. -/
theorem exec_linkOk (c : Instr) (h : s.linkOk) : ∃ t, exec c s = .next t ∧ t.linkOk := by
  cases c
  case unknownKind => exact ⟨_, rfl, State.happen_linkOk h (State.accept_queue_le _ h.2)⟩
  case cycleTimerTick => exact ⟨_, rfl, State.happen_linkOk h (s.nextTick_queue_le.trans h.2)⟩
  case longOpenExpiry c => exact ⟨_, rfl, State.happen_linkOk h ((s.longOpenExpiry_queue_le c).trans h.2)⟩
  case handoverLapse i => exact ⟨_, rfl, State.happen_linkOk h ((s.handoverLapse_queue_le i).trans h.2)⟩
  case resetLine n => exact ⟨_, rfl, State.happen_linkOk h (by simp [s.restartAs_queue])⟩
  case powerOn n held => exact ⟨_, rfl, State.pump_linkOk (by simp [s.powerUp_queue])⟩
  case frameReceived l => exact ⟨_, rfl, State.happen_linkOk h (State.receiveAll_queue_le l h.2)⟩
  case syncByte => exact ⟨_, rfl, State.happen_linkOk h (State.receive_queue_le _ h.2)⟩
  case linkSilenceTimeout => exact ⟨_, rfl, State.happen_linkOk h (s.silence_queue ▸ h.2)⟩
  case transmitEnd => exact ⟨_, rfl, State.happen_linkOk h (s.finishFrame_queue ▸ h.2)⟩
  case rawChange i made =>
    refine ⟨_, rfl, ?_⟩
    split
    · exact State.pump_linkOk (by simpa using h.2)
    · exact State.linkOk_of_same h rfl rfl rfl
  case supplyFailure cellGood =>
    refine ⟨_, rfl, ?_⟩
    split
    · exact ⟨nofun, h.2⟩
    · exact h
  case settleExpiry | probeAnswer | answerWindowExpiry | debounceExpiry | walkExamination | offsetEraseComplete |
      offsetProgramComplete | saveWriteEnd =>
    exact ⟨_, rfl, State.happen_linkOk_of_block h (by simp)⟩
  all_goals exact ⟨_, rfl, State.submit_linkOk _ _ h⟩

/-- The passing of seconds does not touch the link. -/
theorem State.passSecond_linkOk (h : s.linkOk) : s.passSecond.linkOk := by
  unfold State.passSecond
  split
  · split
    · exact State.linkOk_of_same h (by simp) (by simp) (by simp)
    · exact State.linkOk_of_same h rfl rfl rfl
  · exact h

end

/-- Settles O55: a command keeps the link in order (`exec_linkOk`), and so does the passing of seconds on an empty
queue. -/
theorem stepKeepsTheLink : Obligations.StepKeepsTheLink := by
  unfold Obligations.StepKeepsTheLink
  intro s t h hstep
  unfold step at hstep
  split at hstep
  next c rest _ =>
    have hrest : (s.withPending rest).linkOk := State.linkOk_of_same h rfl rfl rfl
    obtain ⟨u, hu, hok⟩ := exec_linkOk c hrest
    rw [hu] at hstep
    cases hstep
    exact hok
  next =>
    cases hstep
    exact State.passSecond_linkOk h

end Sys2Proof.Machine
end

