-- ==== Sys2Proof/Proofs/RequestPayloads.lean ====
section
/-! PROOFS. Payloads of Table 11-3: each field is read back as it was written, and a payload that fits no request is
refused by the first two tests of R200 (R200, R201). -/

namespace Sys2Proof.Machine

/-! ### Reading a field back -/

section
variable (rest : List Byte)

@[simp] theorem half_length (x : Half) : (half x).length = 2 := le16_length _
@[simp] theorem word_length (x : Word) : (word x).length = 4 := le32_length _

@[simp] theorem byteAt_cons_zero (b : Byte) : byteAt (b :: rest) 0 = b := rfl
@[simp] theorem byteAt_cons_succ (b : Byte) (n : Nat) : byteAt (b :: rest) (n + 1) = byteAt rest n := rfl
@[simp] theorem halfAt_cons_succ (b : Byte) (n : Nat) : halfAt (b :: rest) (n + 1) = halfAt rest n := rfl
@[simp] theorem wordAt_cons_succ (b : Byte) (n : Nat) : wordAt (b :: rest) (n + 1) = wordAt rest n := rfl

theorem byteAt_behind {part : List Byte} {off : Nat} (h : part.length ≤ off) :
    byteAt (part ++ rest) off = byteAt rest (off - part.length) := List.getD_append_right _ _ _ _ h

theorem halfAt_behind {part : List Byte} {off : Nat} (h : part.length ≤ off) :
    halfAt (part ++ rest) off = halfAt rest (off - part.length) := by rw [halfAt, halfAt, fieldAt_behind _ _ h]

theorem wordAt_behind {part : List Byte} {off : Nat} (h : part.length ≤ off) :
    wordAt (part ++ rest) off = wordAt rest (off - part.length) := by rw [wordAt, wordAt, fieldAt_behind _ _ h]

theorem halfAt_front (x : Half) : halfAt (half x ++ rest) 0 = x := by
  rw [halfAt, fieldAt_front _ (half_length x), half, ofLe_le16, Nat.mod_eq_of_lt x.isLt, BitVec.ofNat_toNat,
    BitVec.setWidth_eq]

theorem wordAt_front (x : Word) : wordAt (word x ++ rest) 0 = x := by
  rw [wordAt, fieldAt_front _ (word_length x), word, ofLe_word, BitVec.ofNat_toNat, BitVec.setWidth_eq]

theorem halfAt_half (x : Half) : halfAt (half x) 0 = x := by simpa using halfAt_front [] x

theorem wordAt_word (x : Word) : wordAt (word x) 0 = x := by simpa using wordAt_front [] x

theorem wideAt_le64 (x : Wide) : wideAt (le64 x.toNat) 0 = x := by
  rw [wideAt, ← List.append_nil (le64 x.toNat), fieldAt_front [] (le64_length _), ofLe_wide, BitVec.ofNat_toNat,
    BitVec.setWidth_eq]

end

/-! ### Requests of one length (R200 test 2) -/

theorem sized_of_length {n : Nat} {p : List Byte} (r : Request) (h : p.length = n) : sized n p r = .ok r := if_pos h

theorem sized_badLength {n : Nat} {p : List Byte} (r : Request) (h : p.length ≠ n) : sized n p r = .error .badLength :=
  if_neg h

/-- Every request but CUSTODY_IN has one length, and its fields are read back from its own payload. -/
theorem parse_sized (r : Request) (h : r.kind ≠ 0x28) : ∃ read : List Byte → Request,
    (∀ p, parse r.kind p = sized r.payload.length p (read p)) ∧ read r.payload = r := by
  cases r
  case custodyIn => exact absurd rfl h
  all_goals
    refine ⟨_, fun p => rfl, ?_⟩
    simp [Request.payload, halfAt_behind, wordAt_behind, byteAt_behind, halfAt_front, wordAt_front, halfAt_half, wordAt_word,
      wideAt_le64]

/-! ### CUSTODY_IN (R99, R200) -/

section
variable {p : List Byte}

theorem upstreamAt_none (hmode : byteAt p 10 = 0) : upstreamAt p = if p.length = 11 then some .none else none :=
  if_pos hmode

theorem upstreamAt_record (hmode : byteAt p 10 = 1) :
    upstreamAt p = if p.length = 83 then some (.record (p.drop 11)) else none := by simp [upstreamAt, hmode]

theorem upstreamAt_declared (hmode : byteAt p 10 = 2) : upstreamAt p =
    if p.length = 21 then some (.declared (wordAt p 11) (halfAt p 15) (wordAt p 17)) else none := by
  simp [upstreamAt, hmode]

/-- A mode byte that names no mode. -/
theorem upstreamAt_unnamed (hmode : 2 < (byteAt p 10).toNat) : upstreamAt p =
    if p.length = 11 ∨ p.length = 21 ∨ p.length = 83 then some (.unnamed (byteAt p 10) (p.drop 11)) else none := by
  have hzero : byteAt p 10 ≠ 0 := byte_ne_of_lt hmode (Nat.zero_le 2)
  have hone : byteAt p 10 ≠ 1 := byte_ne_of_lt hmode (by decide)
  have htwo : byteAt p 10 ≠ 2 := byte_ne_of_lt hmode le_rfl
  rw [upstreamAt, if_neg hzero, if_neg hone, if_neg htwo]

/-- A length that the mode byte does not allow (R200 test 2). -/
theorem upstreamAt_eq_none
    (h : (byteAt p 10 = 0 ∧ p.length ≠ 11) ∨ (byteAt p 10 = 1 ∧ p.length ≠ 83) ∨ (byteAt p 10 = 2 ∧ p.length ≠ 21) ∨
      (2 < (byteAt p 10).toNat ∧ p.length ≠ 11 ∧ p.length ≠ 21 ∧ p.length ≠ 83)) : upstreamAt p = none := by
  rcases h with ⟨hmode, hlength⟩ | ⟨hmode, hlength⟩ | ⟨hmode, hlength⟩ | ⟨hmode, hnone, hdeclared, hrecord⟩
  · rw [upstreamAt_none hmode, if_neg hlength]
  · rw [upstreamAt_record hmode, if_neg hlength]
  · rw [upstreamAt_declared hmode, if_neg hlength]
  · rw [upstreamAt_unnamed hmode, if_neg (by simp [hnone, hdeclared, hrecord])]

end

/-- The upstream part is read back behind the ten bytes of the fixed part. -/
theorem upstreamAt_bytes {part : List Byte} (u : Upstream) (hpart : part.length = 10) (h : u.wellFormed = true) :
    upstreamAt (part ++ u.bytes) = some u := by
  have hmode : byteAt (part ++ u.bytes) 10 = byteAt u.bytes 0 := by rw [byteAt_behind _ hpart.le, hpart]
  have hrest : (part ++ u.bytes).drop 11 = u.bytes.drop 1 := by
    rw [List.drop_append, List.drop_eq_nil_of_le (by omega), hpart, List.nil_append]
  have hlength : (part ++ u.bytes).length = 10 + u.bytes.length := by rw [List.length_append, hpart]
  cases u with
  | none => exact (upstreamAt_none hmode).trans (if_pos hlength)
  | record bytes =>
    have hbytes : bytes.length = 72 := by simpa [Upstream.wellFormed] using h
    rw [upstreamAt_record hmode, if_pos (by rw [hlength, Upstream.bytes, List.length_cons, hbytes]), hrest]
    rfl
  | declared e c b =>
    rw [upstreamAt_declared hmode, if_pos (show _ = 21 from hlength)]
    simp [Upstream.bytes, halfAt_behind, wordAt_behind, halfAt_front, wordAt_front, wordAt_word, hpart]
  | unnamed mode rest =>
    obtain ⟨habove, hrestLength⟩ : 2 < mode.toNat ∧ (rest.length = 0 ∨ rest.length = 10 ∨ rest.length = 72) := by
      simpa [Upstream.wellFormed, or_assoc] using h
    have hbyte : byteAt (part ++ (Upstream.unnamed mode rest).bytes) 10 = mode := hmode
    rw [upstreamAt_unnamed (by rwa [hbyte]), hlength, hbyte, hrest, Upstream.bytes, List.length_cons, if_pos (by omega)]
    rfl

theorem parseCustodyIn_payload (i : Word) (c : Byte) (l : Word) (cl : Byte) (u : Upstream) (h : u.wellFormed = true) :
    parseCustodyIn (Request.custodyIn i c l cl u).payload = .ok (.custodyIn i c l cl u) := by
  have hupstream : upstreamAt (word i ++ [c] ++ word l ++ [cl] ++ u.bytes) = some u := upstreamAt_bytes u (by simp) h
  have hlength : ¬ (word i ++ [c] ++ word l ++ [cl] ++ u.bytes).length < 11 := by
    have hpos : 0 < u.bytes.length := by cases u <;> simp [Upstream.bytes]
    simp only [List.length_append, word_length, List.length_singleton]
    omega
  rw [Request.payload, parseCustodyIn, if_neg hlength, hupstream]
  simp [byteAt_behind, wordAt_behind, wordAt_front]

/-- Settles O7: every request but CUSTODY_IN by `parse_sized`, CUSTODY_IN with its upstream part
(`parseCustodyIn_payload`). -/
theorem payloadRoundTrip : Obligations.PayloadRoundTrip := by
  unfold Obligations.PayloadRoundTrip
  intro r h
  by_cases hkind : r.kind = 0x28
  · cases r
    case custodyIn i c l cl u => exact parseCustodyIn_payload i c l cl u h
    all_goals cases hkind
  · obtain ⟨read, hparse, hread⟩ := parse_sized r hkind
    rw [hparse, sized_of_length _ rfl, hread]

/-! ### Frames that name no request -/

/-- A kind outside Table 11-3 meets none of the cases of `parse` (R200 test 1). -/
theorem parse_unknownKind {kind : Byte} (p : List Byte) (h : kind.toNat ∉ requestKinds) :
    parse kind p = .error .unknownKind := by
  unfold parse
  split
  case h_47 => rfl
  all_goals
    rename_i hcase
    exact (h (by rw [hcase]; decide)).elim

theorem parseCustodyIn_badLength {p : List Byte} (h : p.length < 11 ∨ upstreamAt p = none) :
    parseCustodyIn p = .error .badLength := by
  unfold parseCustodyIn
  rcases h with hshort | hnone
  · rw [if_pos hshort]
  · rw [hnone]
    exact ite_self _

/-- A frame that the first two tests of R200 refuse is answered with the status alone, where nothing waits before it. -/
theorem exec_unknownKind {s : State} {kind : Byte} (tag : Byte) (p : List Byte) (hs : s.ready)
    (h : kind.toNat ∉ requestKinds) :
    exec (.unknownKind kind tag p) s = .next (s.answered (replyFrame kind tag (refuse .unknownKind))) := by
  obtain ⟨hon, hreply, hqueue⟩ := hs
  have hpump : (s.formReply (replyFrame kind tag (refuse .unknownKind))).pump =
      s.answered (replyFrame kind tag (refuse .unknownKind)) :=
    State.pump_eq_offer (fun _ => hqueue) (fun _ => hqueue)
  rw [← hpump]
  simp only [exec, execUnknownKind, State.arrive, State.happen, hon, State.accept, hreply, hqueue, and_self, if_true,
    State.takeFrame, parse_unknownKind p h]

/-- Settles O8, test by test. -/
theorem framesThatNameNoRequest : Obligations.FramesThatNameNoRequest := by
  refine ⟨fun kind p h => parse_unknownKind p h, fun r p hkind hlength => ?_, fun p h => ?_,
    fun s kind tag p hs h => exec_unknownKind tag p hs h⟩
  · obtain ⟨read, hparse, -⟩ := parse_sized r hkind
    rw [hparse, sized_badLength _ hlength]
  · exact parseCustodyIn_badLength (h.imp_right upstreamAt_eq_none)

end Sys2Proof.Machine
end

