-- ==== Sys2Proof/Proofs/RowsAsFrames.lean ====
section
/-! PROOFS. A request row is the arrival of its frame, and a frame behind a waiting reply queues (R197 to R200, R204). -/

namespace Sys2Proof.Machine

section
variable {s : State} {c : Instr} {f : Frame}

/-! ### The frame of a row -/

/-- The frame of a row is that of a request, or of a kind outside Table 11-3. -/
theorem exec_row (s : State) (h : c.frame? = some f) :
    (∃ tag r, f = requestFrame tag r ∧ r.wellFormed = c.wellFormed ∧ exec c s = .next (s.submit tag r)) ∨
      ((c.wellFormed = true → f.payload.length ≤ 1024) ∧ exec c s = .next (s.arrive f)) := by
  cases c
  case unknownKind kind tag payload =>
    cases h
    exact .inr ⟨fun hc => of_decide_eq_true ((Bool.and_eq_true _ _).mp hc).2, rfl⟩
  case cycleTimerTick | settleExpiry | probeAnswer | answerWindowExpiry | rawChange | debounceExpiry | longOpenExpiry |
      handoverLapse | walkExamination | offsetEraseComplete | offsetProgramComplete | saveWriteEnd | powerOn | resetLine |
      frameReceived | linkSilenceTimeout | transmitEnd | syncByte | supplyFailure =>
    cases h
  all_goals
    cases h
    exact .inl ⟨_, _, rfl, rfl, rfl⟩

theorem Upstream.bytes_length_le (u : Upstream) (h : u.wellFormed = true) : u.bytes.length ≤ 73 := by
  cases u with
  | none => decide
  | record bytes =>
    have hbytes : bytes.length = 72 := by simpa [Upstream.wellFormed] using h
    simp [Upstream.bytes, hbytes]
  | declared e c b => simp [Upstream.bytes]
  | unnamed mode rest =>
    obtain ⟨-, hrest⟩ : 2 < mode.toNat ∧ (rest.length = 0 ∨ rest.length = 10 ∨ rest.length = 72) := by
      simpa [Upstream.wellFormed, or_assoc] using h
    rw [Upstream.bytes, List.length_cons]
    omega

/-- A payload of Table 11-3 fits a frame (R197). -/
theorem Request.payload_length_le (r : Request) (h : r.wellFormed = true) : r.payload.length ≤ 1024 := by
  cases r
  case custodyIn u =>
    have hbytes := Upstream.bytes_length_le u h
    simp only [Request.payload, List.length_append, word_length, List.length_singleton]
    omega
  all_goals simp [Request.payload]

/-- A request's frame that is taken is the request, taken. -/
theorem State.takeFrame_requestFrame (s : State) (tag : Byte) (r : Request) (h : r.wellFormed = true) :
    s.takeFrame (requestFrame tag r) = s.take tag r := by
  have hparse : parse (requestFrame tag r).kind (requestFrame tag r).payload = .ok r := payloadRoundTrip r h
  rw [State.takeFrame, hparse]
  rfl

theorem State.submit_eq_arrive (s : State) (tag : Byte) (r : Request) (h : r.wellFormed = true) :
    s.submit tag r = s.arrive (requestFrame tag r) := by
  simp only [State.submit, State.arrive, State.accept, State.takeFrame_requestFrame _ tag r h]

/-- A well-formed row is the arrival of a frame that a line can carry. -/
theorem exec_row_of_wellFormed (s : State) (hc : c.wellFormed = true) (h : c.frame? = some f) :
    exec c s = .next (s.arrive f) ∧ f.payload.length ≤ 1024 := by
  rcases exec_row s h with ⟨tag, r, rfl, hwell, hexec⟩ | ⟨hfits, hexec⟩
  · have hr : r.wellFormed = true := hwell.trans hc
    exact ⟨by rw [hexec, s.submit_eq_arrive tag r hr], Request.payload_length_le r hr⟩
  · exact ⟨hexec, hfits hc⟩

/-- The bytes of a frame at a hunting receiver are its arrival, whatever waits: once the link's work is done, doing it
again changes nothing. -/
theorem exec_frameReceived_wire (hon : s.power = .on) (hhunting : s.link.receiver = .hunting)
    (hlength : f.payload.length ≤ 1024) : exec (.frameReceived (f.wire.map .good)) s = .next (s.arrive f) := by
  simp only [exec, execFrameReceived, State.arrive, State.happen, hon, State.receiveAll_wire hhunting hlength,
    State.pump_pump]

/-! ### Behind a waiting reply (R199) -/

/-- While a reply waits behind the frame being sent the link has nothing to do. -/
theorem State.settled_of_waiting (ht : s.link.transmitter ≠ .idle) (hr : s.link.reply.isSome = true) : s.LinkSettled where
  reply hidle := absurd hidle ht
  owed hidle := absurd hidle ht
  queue hnone := by
    rw [hnone] at hr
    cases hr

theorem State.enqueue_room (f : Frame) (h : s.link.queue.length < 4) :
    s.enqueue f = s.withLink { s.link with queue := s.link.queue ++ [f] } := if_neg (Nat.not_le.mpr h)

theorem State.enqueue_full (f : Frame) (h : 4 ≤ s.link.queue.length) : s.enqueue f = s.withLink
    { s.link with counts := { s.link.counts with overflow := min (s.link.counts.overflow + 1) 65535 } } := if_pos h

/-- A frame that has queued or overflowed waits on. -/
theorem State.pump_enqueue (f : Frame) (ht : s.link.transmitter ≠ .idle) (hr : s.link.reply.isSome = true) :
    (s.enqueue f).pump = s.enqueue f := by
  have hsettled : (s.enqueue f).LinkSettled := by
    rcases Nat.lt_or_ge s.link.queue.length 4 with hroom | hfull
    · rw [State.enqueue_room f hroom]
      exact State.settled_of_waiting ht hr
    · rw [State.enqueue_full f hfull]
      exact State.settled_of_waiting ht hr
  exact hsettled.pump_eq

theorem State.not_free_of_waiting (hr : s.link.reply.isSome = true) : ¬ (s.link.reply = none ∧ s.link.queue = []) := by
  rintro ⟨hnone, -⟩
  rw [hnone] at hr
  cases hr

theorem State.arrive_of_waiting (f : Frame) (hon : s.power = .on) (ht : s.link.transmitter ≠ .idle)
    (hr : s.link.reply.isSome = true) : s.arrive f = s.enqueue f := by
  simp only [State.arrive, State.happen, hon, State.accept, if_neg (State.not_free_of_waiting hr), State.pump_enqueue f ht hr]

theorem State.submit_of_waiting (tag : Byte) (r : Request) (hon : s.power = .on) (ht : s.link.transmitter ≠ .idle)
    (hr : s.link.reply.isSome = true) : s.submit tag r = s.enqueue (requestFrame tag r) := by
  simp only [State.submit, State.happen, hon, if_neg (State.not_free_of_waiting hr), State.pump_enqueue _ ht hr]

/-- Behind a waiting reply a frame queues or overflows, whether a row or its bytes bring it. -/
theorem exec_of_waiting (hon : s.power = .on) (ht : s.link.transmitter ≠ .idle) (hr : s.link.reply.isSome = true)
    (h : c.frame? = some f ∨
      (c = .frameReceived (f.wire.map .good) ∧ f.payload.length ≤ 1024 ∧ s.link.receiver = .hunting)) :
    exec c s = .next (s.enqueue f) := by
  rcases h with hrow | ⟨rfl, hlength, hhunting⟩
  · rcases exec_row s hrow with ⟨tag, r, rfl, -, hexec⟩ | ⟨-, hexec⟩
    · rw [hexec, State.submit_of_waiting tag r hon ht hr]
    · rw [hexec, State.arrive_of_waiting f hon ht hr]
  · rw [exec_frameReceived_wire hon hhunting hlength, State.arrive_of_waiting f hon ht hr]

end

/-- Settles O6: row and bytes are both the arrival of the frame. -/
theorem rowIsItsFrame : Obligations.RowIsItsFrame := by
  unfold Obligations.RowIsItsFrame
  intro c f s hc hframe hon hhunting
  obtain ⟨hexec, hlength⟩ := exec_row_of_wellFormed s hc hframe
  rw [exec_frameReceived_wire hon hhunting hlength, hexec]

/-- Settles O5, by what queues (`exec_of_waiting`). -/
theorem requestsWaitTheirTurn : Obligations.RequestsWaitTheirTurn := by
  unfold Obligations.RequestsWaitTheirTurn
  intro c f s hon ht hr hframe
  have hexec := exec_of_waiting hon ht hr hframe
  exact ⟨fun hroom => by rw [hexec, State.enqueue_room f hroom], fun hfull => by rw [hexec, State.enqueue_full f hfull]⟩

end Sys2Proof.Machine
end

