-- ==== Sys2Proof/Proofs/ReceiverDiscards.lean ====
section
/-! PROOFS. The receiver outside a whole frame: what it passes over, and what it discards under each count (R198, R204). -/

namespace Sys2Proof.Machine

section
variable {s : State} {bytes : List Byte}

/-! ### One character (R198) -/

theorem State.receiveAll_singleton (s : State) (b : LineByte) : s.receiveAll [b] = s.receive b := by
  rw [State.receiveAll, State.receiveAll]
  exact ite_self _

theorem State.receive_other (h : s.link.receiver = .hunting) {x : Byte} (hx : x ≠ 0xC3) : s.receive (.good x) = s := by
  simp only [State.receive, h, if_neg hx]

theorem State.receive_sync (h : s.link.receiver = .hunting) :
    s.receive (.good 0xC3) = s.withLink { s.link with receiver := .inFrame [] } := by
  simp only [State.receive, h, if_true, State.updLink]

theorem State.receive_noStop (h : s.link.receiver = .inFrame bytes) (x : Byte) : s.receive (.noStop x) = s.withLink
    { s.link with
      receiver := .hunting, counts := { s.link.counts with check := min (s.link.counts.check + 1) 65535 } } := by
  simp only [State.receive, h]
  rfl

theorem State.receive_good (h : s.link.receiver = .inFrame bytes) (x : Byte) :
    s.receive (.good x) = s.assemble (bytes ++ [x]) := by
  simp only [State.receive, h]

/-- A stated length above 1024 ends the frame. -/
theorem State.assemble_tooLong (hlength : ¬ bytes.length < 2) (h : 1024 < statedLength bytes) : s.assemble bytes = s.withLink
    { s.link with
      receiver := .hunting, counts := { s.link.counts with length := min (s.link.counts.length + 1) 65535 } } := by
  rw [State.assemble, if_neg hlength, if_pos h]
  rfl

/-- A whole frame whose check does not match is discarded. -/
theorem State.assemble_mismatch (hstated : statedLength bytes ≤ 1024) (hlength : bytes.length = statedLength bytes + 6)
    (h : checkMatches bytes = false) : s.assemble bytes = s.withLink
      { s.link with
        receiver := .hunting, counts := { s.link.counts with check := min (s.link.counts.check + 1) 65535 } } := by
  rw [State.assemble, if_neg (by omega), if_neg (Nat.not_lt.mpr hstated), if_neg (by omega), h]
  rfl

theorem State.silence_hunting (h : s.link.receiver = .hunting) : s.silence = s := by
  simp only [State.silence, h]

theorem State.silence_inFrame (h : s.link.receiver = .inFrame bytes) : s.silence = s.withLink
    { s.link with
      receiver := .hunting, counts := { s.link.counts with silence := min (s.link.counts.silence + 1) 65535 } } := by
  simp only [State.silence, h]
  rfl

/-! ### The link after it -/

/-- An event that moves the receiver and its counts alone leaves a settled link no work. -/
theorem State.happen_receiver {f : State → State} {x : Receiver} {k : LinkCounts} (h : s.LinkSettled) (hon : s.power = .on)
    (hf : f s = s.withLink { s.link with receiver := x, counts := k }) :
    s.happen f = s.withLink { s.link with receiver := x, counts := k } := by
  have hsettled : (s.withLink { s.link with receiver := x, counts := k }).LinkSettled := ⟨h.reply, h.owed, h.queue⟩
  simp only [State.happen, hon, hf, hsettled.pump_eq]

theorem exec_frameReceived_one {b : LineByte} {x : Receiver} {k : LinkCounts} (h : s.LinkSettled) (hon : s.power = .on)
    (hb : s.receive b = s.withLink { s.link with receiver := x, counts := k }) :
    exec (.frameReceived [b]) s = .next (s.withLink { s.link with receiver := x, counts := k }) :=
  congrArg Host.Outcome.next
    (State.happen_receiver (f := fun s => s.receiveAll [b]) h hon ((s.receiveAll_singleton b).trans hb))

theorem exec_linkSilenceTimeout {x : Receiver} {k : LinkCounts} (h : s.LinkSettled) (hon : s.power = .on)
    (hf : s.silence = s.withLink { s.link with receiver := x, counts := k }) :
    exec .linkSilenceTimeout s = .next (s.withLink { s.link with receiver := x, counts := k }) :=
  congrArg Host.Outcome.next (State.happen_receiver h hon hf)

theorem exec_syncByte {x : Receiver} {k : LinkCounts} (h : s.LinkSettled) (hon : s.power = .on)
    (hf : s.receive (.good 0xC3) = s.withLink { s.link with receiver := x, counts := k }) :
    exec .syncByte s = .next (s.withLink { s.link with receiver := x, counts := k }) :=
  congrArg Host.Outcome.next (State.happen_receiver (f := fun s => s.receive (.good 0xC3)) h hon hf)

end

/-- Settles O10: what each character and the silence do to the receiver, after which a link in order has no work. -/
theorem receiverDiscardsAndCounts : Obligations.ReceiverDiscardsAndCounts := by
  unfold Obligations.ReceiverDiscardsAndCounts
  intro s hok hon
  have h : s.LinkSettled := (State.linkOk_iff.mp hok).1 hon
  refine ⟨fun hhunting => ⟨fun x hx => ?_, ?_, ?_⟩, fun bytes hframe => ⟨fun x => ?_, ?_, fun x hone hlong => ?_,
    fun x n hstated hfits hwhole hcheck => ?_⟩⟩
  · exact exec_frameReceived_one h hon (State.receive_other hhunting hx)
  · exact exec_syncByte h hon (State.receive_sync hhunting)
  · exact exec_linkSilenceTimeout h hon (State.silence_hunting hhunting)
  · exact exec_frameReceived_one h hon (State.receive_noStop hframe x)
  · exact exec_linkSilenceTimeout h hon (State.silence_inFrame hframe)
  · have hlength : ¬ (bytes ++ [x]).length < 2 := by simp [hone]
    exact exec_frameReceived_one h hon ((State.receive_good hframe x).trans (State.assemble_tooLong hlength hlong))
  · subst hstated
    have hlength : (bytes ++ [x]).length = statedLength (bytes ++ [x]) + 6 := by
      rw [List.length_append, List.length_singleton, hwhole, statedLength]
    have hmismatch : checkMatches (bytes ++ [x]) = false := by
      rw [checkMatches, Nat.add_comm]
      exact beq_eq_false_iff_ne.mpr hcheck
    exact exec_frameReceived_one h hon ((State.receive_good hframe x).trans (State.assemble_mismatch hfits hlength hmismatch))

end Sys2Proof.Machine
end

