-- ==== Sys2Proof/Proofs/NoticeFrames.lean ====
section
/-! PROOFS. What a notice frame carries, field by field (R167, R168). -/

namespace Sys2Proof.Machine

theorem nextNotice_mod {n : Nat} (h : n ≤ 255) : nextNotice n % 256 = nextNotice n := by
  unfold nextNotice
  split <;> omega

/-- The lowest place that satisfies a test, where no place below it does. -/
theorem lowest_eq_some {α : Type} {n : Nat} {v : Vector α n} {p : α → Bool} {k : Fin n} (hk : p v[k] = true)
    (hbelow : ∀ j : Fin n, j < k → p v[j] = false) : lowest v p = some k := by
  cases h : lowest v p with
  | none => exact absurd ((lowest_none h k).symm.trans hk) Bool.false_ne_true
  | some i =>
    obtain ⟨-, m, hm, hi, hfirst⟩ := List.find?_eq_some_iff_getElem.mp h
    have hplace : m = i.val := by simpa [places] using congrArg Fin.val hi
    subst hplace
    rcases lt_trichotomy i k with hlt | rfl | hgt
    · exact absurd ((hbelow i hlt).symm.trans (lowest_some h)) Bool.false_ne_true
    · rfl
    · have hnot : p v[k] = false := by simpa [places] using hfirst k.val hgt
      exact absurd (hnot.symm.trans hk) Bool.false_ne_true

@[simp] theorem numField_length {n : Nat} (i : Option (Fin n)) : (numField i).length = 1 := by simp [numField]

theorem ofLe_numField {n : Nat} (k : Fin n) (h : n ≤ 256) : ofLe (numField (some k)) = k.val :=
  (ofLe_le8 k.val).trans (Nat.mod_eq_of_lt (k.isLt.trans_le h))

/-- The elements that pass a test, each with its field. -/
theorem filterMap_if {α β : Type} (l : List α) (p : α → Bool) (g : α → β) :
    l.filterMap (fun k => if p k then some (g k) else none) = (l.filter p).map g := by
  induction l with
  | nil => rfl
  | cons a l ih => cases h : p a <;> simp [h, ih]

section
variable (s : State)

/-- The raise counts of the members of the pending set, a byte for each. -/
def NoticeUnit.raiseBytes (u : NoticeUnit) : List Byte :=
  ((places 18).filter fun k => u.members[k]).map fun k => BitVec.ofNat 8 u.counts[k]

/-- The payload, its raise counts preceded by their number. -/
theorem State.noticePayload_eq : s.noticeFrame.payload =
    le8 (nextNotice s.notices.lastNumber) ++ le32 (maskOf s.notices.members) ++ numField s.notices.highest
      ++ le32 (maskOf s.notices.fresh) ++ le8 ((places 18).countP fun k => s.notices.members[k])
      ++ (s.notices.raiseBytes ++ stampField s.stampNow) := by
  have hbytes : (((places 18).filter fun k => s.notices.members[k]).map fun k => le8 s.notices.counts[k]).flatten =
      s.notices.raiseBytes := List.map_eq_flatMap.symm
  rw [State.noticeFrame, State.noticePayload, counted, filterMap_if, hbytes, List.length_map, ← List.countP_eq_length_filter]
  simp only [List.append_assoc]

theorem maskOf_mod (v : Vector Bool 18) : maskOf v % 4294967296 = maskOf v :=
  Nat.mod_eq_of_lt ((maskOf_lt v).trans (by decide))

theorem State.noticePayload_masks : fieldAt s.noticeFrame.payload 1 4 = maskOf s.notices.members ∧
    fieldAt s.noticeFrame.payload 6 4 = maskOf s.notices.fresh := by
  rw [s.noticePayload_eq]
  simp [fieldAt_behind, fieldAt_front, ofLe_le32, maskOf_mod]

theorem State.noticePayload_number (h : s.notices.lastNumber ≤ 255) :
    fieldAt s.noticeFrame.payload 0 1 = nextNotice s.notices.lastNumber := by
  rw [s.noticePayload_eq]
  simp [fieldAt_front, ofLe_le8, nextNotice_mod h]

/-- The highest member is the one of the lowest place (R164). -/
theorem State.noticePayload_highest {k : Fin 18} (hk : s.notices.members[k] = true)
    (hbelow : ∀ j : Fin 18, j < k → s.notices.members[j] = false) : fieldAt s.noticeFrame.payload 5 1 = k.val := by
  have hhighest : s.notices.highest = some k := lowest_eq_some hk hbelow
  rw [s.noticePayload_eq, hhighest]
  simp [fieldAt_behind, fieldAt_front, ofLe_numField]

theorem State.noticePayload_count :
    fieldAt s.noticeFrame.payload 10 1 = (places 18).countP fun k => s.notices.members[k] := by
  have hcount : (places 18).countP (fun k => s.notices.members[k]) ≤ 18 := List.countP_le_length
  rw [s.noticePayload_eq]
  simpa [fieldAt_behind, fieldAt_front, ofLe_le8] using Nat.lt_of_le_of_lt hcount (by decide)

/-- Behind the number of raise counts stand the counts and the time. -/
theorem State.noticePayload_rest : s.noticeFrame.payload.drop 11 =
    s.notices.raiseBytes ++ le32 s.now ++ yesNo (decide (s.clock.state = .unset)) := by
  have hrelative : (!s.timed) = decide (s.clock.state = .unset) := by
    rw [State.timed]
    cases s.clock.state <;> rfl
  rw [s.noticePayload_eq, List.drop_left' (by simp), stampField, State.stampNow, hrelative,
    List.append_assoc]

end

end Sys2Proof.Machine
end

