-- ==== Sys2Proof/Proofs/TransmitterChooses.lean ====
section
/-! PROOFS. The transmitter's choice of the next frame, when a reply is formed and at TRANSMIT_END (R167, R168, R199,
R202). -/

namespace Sys2Proof.Machine

section
variable {s : State} {f g : Frame}

/-! ### An owed notice that is withdrawn (R167) -/

/-- No notice is owed any more. -/
def State.withdrawn (s : State) : State := s.withNotices { s.notices with owed := false }

theorem State.withdrawn_of_not_owed (h : s.notices.owed = false) : s.withdrawn = s := by
  rw [State.withdrawn, ← h]
  rfl

/-- With no reply waiting and nothing to notify, an IDLE transmitter stays so. -/
theorem State.offer_withdraws (ht : s.link.transmitter = .idle) (hr : s.link.reply = none)
    (h : s.notices.owed = false ∨ s.notices.anyPending = false) : s.offer = s.withdrawn := by
  cases ho : s.notices.owed with
  | false => rw [State.offer_nothing ht hr ho, State.withdrawn_of_not_owed ho]
  | true =>
    have hpending : s.notices.anyPending = false := h.resolve_left (by simp [ho])
    exact (State.offer_notice ht hr ho).trans (State.sendNotice_withdrawn hpending)

/-! ### A frame that is out (R202) -/

/-- The frame being sent is out in full. -/
def State.sentOut (s : State) (f : Frame) : State :=
  s.withLink { s.link with transmitter := .idle, sent := s.link.sent ++ [f] }

theorem State.finishFrame_notice (ht : s.link.transmitter = .sendingNotice f) : s.finishFrame = s.sentOut f := by
  simp only [State.finishFrame, ht]
  rfl

/-- After a reply an owed notice goes first. -/
theorem State.finishFrame_reply (ht : s.link.transmitter = .sendingReply f) :
    s.finishFrame = if s.notices.owed then (s.sentOut f).sendNotice else s.sentOut f := by
  simp only [State.finishFrame, ht]
  rfl

theorem State.finishFrame_reply_withdraws (ht : s.link.transmitter = .sendingReply f)
    (h : s.notices.owed = false ∨ s.notices.anyPending = false) : s.finishFrame = (s.sentOut f).withdrawn := by
  rw [State.finishFrame_reply ht]
  cases ho : s.notices.owed with
  | false => exact (State.withdrawn_of_not_owed (s := s.sentOut f) ho).symm
  | true => exact State.sendNotice_withdrawn (s := s.sentOut f) (h.resolve_left (by simp [ho]))

/-- The notice begins behind the frame that is out. -/
theorem State.finishFrame_offer_notice (ho : s.notices.owed = true) (hp : s.notices.anyPending = true)
    (ht : s.link.transmitter = .sendingReply f ∨ (s.link.transmitter = .sendingNotice f ∧ s.link.reply = none)) :
    s.finishFrame.offer = (s.withLink
      { s.link with transmitter := .sendingNotice s.noticeFrame, sent := s.link.sent ++ [f] }).withNotices
        s.notices.taken := by
  have hsend := State.sendNotice_pending (s := s.sentOut f) hp
  rcases ht with ht | ⟨ht, hr⟩
  · rw [State.finishFrame_reply ht, if_pos ho, hsend]
    exact State.offer_busy nofun
  · rw [State.finishFrame_notice ht, State.offer_notice (s := s.sentOut f) rfl hr ho, hsend]
    rfl

/-- The reply that waits begins behind the frame that is out. -/
theorem State.finishFrame_offer_reply (hr : s.link.reply = some g)
    (ht : (s.link.transmitter = .sendingReply f ∧ (s.notices.owed = false ∨ s.notices.anyPending = false)) ∨
      s.link.transmitter = .sendingNotice f) :
    s.finishFrame.offer = (s.withLink
      { s.link with transmitter := .sendingReply g, reply := none, sent := s.link.sent ++ [f] }).withNotices
        { s.notices with owed := s.notices.owed && decide (s.link.transmitter = .sendingNotice f) } := by
  rcases ht with ⟨ht, hnothing⟩ | ht
  · have howed : (s.notices.owed && decide (s.link.transmitter = .sendingNotice f)) = false := by simp [ht]
    rw [howed, State.finishFrame_reply_withdraws ht hnothing]
    exact State.offer_reply rfl hr
  · have howed : (s.notices.owed && decide (s.link.transmitter = .sendingNotice f)) = s.notices.owed := by simp [ht]
    rw [howed, State.finishFrame_notice ht]
    exact State.offer_reply rfl hr

/-- With nothing waiting the transmitter is IDLE once the frame is out. -/
theorem State.finishFrame_offer_nothing (hr : s.link.reply = none)
    (h : s.notices.owed = false ∨ s.notices.anyPending = false)
    (ht : s.link.transmitter = .sendingReply f ∨ s.link.transmitter = .sendingNotice f) :
    s.finishFrame.offer = (s.sentOut f).withdrawn := by
  rcases ht with ht | ht
  · rw [State.finishFrame_reply_withdraws ht h]
    exact State.offer_nothing rfl hr rfl
  · rw [State.finishFrame_notice ht]
    exact State.offer_withdraws rfl hr h

/-! ### The queue behind it (R199) -/

/-- The link's work begins with an offer, which may have been made. -/
theorem State.pump_offer (s : State) : s.offer.pump = s.pump := by
  rw [State.pump, State.pump, State.offer_offer]

theorem exec_transmitEnd (hon : s.power = .on) : exec .transmitEnd s = .next s.finishFrame.offer.pump := by
  simp only [exec, execTransmitEnd, State.happen, hon, State.pump_offer]

/-- A busy transmitter leaves the taking of the head, and what follows it. -/
theorem State.pump_busy (ht : s.link.transmitter ≠ .idle) : s.pump = s.takeHead.offer.takeHead.offer := by
  rw [State.pump, State.offer_busy ht]

theorem State.settled_of_busy (ht : s.link.transmitter ≠ .idle) (hq : s.link.queue = []) : s.LinkSettled :=
  ⟨fun hidle => absurd hidle ht, fun hidle => absurd hidle ht, fun _ => hq⟩

theorem State.takeHead_cons {h : Frame} {rest : List Frame} (hr : s.link.reply = none) (hq : s.link.queue = h :: rest) :
    s.takeHead = (s.withLink { s.link with queue := rest }).takeFrame h := by
  simp only [State.takeHead, hr, hq, State.updLink]

/-- The reply to the request that is taken waits for the busy transmitter, and the frames behind it wait for the reply. -/
theorem State.pump_takes {h : Frame} {rest : List Frame} (ht : s.link.transmitter ≠ .idle) (hr : s.link.reply = none)
    (hq : s.link.queue = h :: rest) (hparse : parse h.kind h.payload ≠ .ok .restart) :
    s.pump = (s.withLink { s.link with queue := rest }).takeFrame h := by
  obtain ⟨g, hlink⟩ := (s.withLink { s.link with queue := rest }).takeFrame_link hparse
  have hsettled : ((s.withLink { s.link with queue := rest }).takeFrame h).LinkSettled :=
    State.settled_of_waiting (by rw [hlink]; exact ht) (by rw [hlink]; rfl)
  rw [State.pump_busy ht, State.takeHead_cons hr hq, hsettled.offer_eq, hsettled.takeHead_eq, hsettled.offer_eq]

/-- A RESTART that is taken leaves a link in which a notice alone can begin (R193, R203). -/
theorem State.pump_takes_restart {h : Frame} {rest : List Frame} (ht : s.link.transmitter ≠ .idle)
    (hr : s.link.reply = none) (hq : s.link.queue = h :: rest) (hparse : parse h.kind h.payload = .ok .restart) :
    s.pump = ((s.withLink { s.link with queue := rest }).takeFrame h).offer := by
  obtain ⟨-, hqueue⟩ := (s.withLink { s.link with queue := rest }).takeFrame_restart_link hparse
  have hempty : ((s.withLink { s.link with queue := rest }).takeFrame h).offer.link.queue = [] := by
    rw [State.offer_queue, hqueue]
  rw [State.pump_busy ht, State.takeHead_cons hr hq, State.takeHead_of_empty hempty, State.offer_offer]

/-! ### A reply that is formed (R202) -/

theorem State.answered_idle (f : Frame) (ht : s.link.transmitter = .idle) :
    s.answered f = s.withLink { s.link with transmitter := .sendingReply f, reply := none } :=
  State.offer_reply (s := s.formReply f) ht rfl

theorem State.answered_busy (f : Frame) (ht : s.link.transmitter ≠ .idle) :
    s.answered f = s.withLink { s.link with reply := some f } :=
  State.offer_busy (s := s.formReply f) ht

end

/-- Settles O9: the offer by what it finds, the notice field by field, and at TRANSMIT_END what the transmitter chooses
behind the frame that is out, with the taking of the head where it begins a reply. -/
theorem transmitterChoosesTheNextFrame : Obligations.TransmitterChoosesTheNextFrame := by
  refine ⟨fun s ht => State.offer_busy ht,
    fun s ht => ⟨fun f hr => State.offer_reply ht hr, fun hr => ⟨fun ho => State.offer_nothing ht hr ho,
      fun ho hp => (State.offer_notice ht hr ho).trans (State.sendNotice_withdrawn hp),
      fun ho hp => (State.offer_notice ht hr ho).trans (State.sendNotice_pending hp)⟩⟩,
    fun s p n hpayload hnumber => ?_, fun s f => ⟨fun ht => State.answered_idle f ht, fun ht => State.answered_busy f ht⟩,
    fun s f hs ht ho hp => ?_, fun s u v f g hs hr ht hu => ?_, fun s f hs hr hnothing ht => ?_⟩
  · subst hpayload hnumber
    obtain ⟨hmembers, hfresh⟩ := s.noticePayload_masks
    rw [hmembers, hfresh]
    exact ⟨rfl, rfl, rfl, s.noticePayload_number, maskOf_lt _, maskOf_lt _,
      fun k => ⟨maskOf_testBit _ k, maskOf_testBit _ k, fun hk hbelow => s.noticePayload_highest hk hbelow⟩,
      s.noticePayload_count, s.noticePayload_rest⟩
  · obtain ⟨hon, -, hqueue⟩ := hs
    rw [exec_transmitEnd hon, State.finishFrame_offer_notice ho hp ht]
    exact congrArg Host.Outcome.next (State.LinkSettled.pump_eq ⟨nofun, nofun, hqueue⟩)
  · rw [exec_transmitEnd hs.1, State.finishFrame_offer_reply hr ht, ← hu]
    obtain ⟨hbusy, hnone, hqueue⟩ :
        u.link.transmitter ≠ .idle ∧ u.link.reply = none ∧ u.link.queue = s.link.queue := by
      rw [hu]
      exact ⟨nofun, rfl, rfl⟩
    refine ⟨fun hempty => ?_, fun h rest hcons hv => ⟨fun hparse => ?_, fun hparse => ?_⟩⟩
    · rw [(State.settled_of_busy hbusy (hqueue.trans hempty)).pump_eq]
    · rw [State.pump_takes hbusy hnone (hqueue.trans hcons) hparse, hv]
    · rw [State.pump_takes_restart hbusy hnone (hqueue.trans hcons) hparse, hv]
  · obtain ⟨hon, -, hqueue⟩ := hs
    rw [exec_transmitEnd hon, State.finishFrame_offer_nothing hr hnothing ht]
    exact congrArg Host.Outcome.next (State.LinkSettled.pump_eq ⟨fun _ => hr, fun _ => rfl, fun _ => hqueue hr⟩)

end Sys2Proof.Machine
end

