-- ==== Sys2Proof/Proofs/QueueFront.lean ====
section
/-! PROOFS. A step with a command in the queue (section 4.7 of the scope): the command at the front runs, on the state
whose queue is the commands behind it. With `step_of_empty` this says both branches of `step`. -/

namespace Sys2Proof.Machine

/-- What a step does with a command `c` at the front of the queue. -/
theorem step_of_front {c : Instr} {rest : List Instr} {s : State} (h : s.pending = c :: rest) :
    step s = exec c (s.withPending rest) := by
  simp only [step, h]

/-- Settles O1, by the branch of `step` that finds a command in the queue. -/
theorem stepRunsTheFrontCommand : Obligations.StepRunsTheFrontCommand :=
  fun _ _ _ hfront => step_of_front hfront

end Sys2Proof.Machine
end
